-- ==== Sys2Proof/Word.lean ====
section
/-! DEFINITION. The words, names and small tables the whole model speaks in: bytes, ticks, ports, sinks, per-port
storage, and the data that a partner frame and a meter reading carry. -/

namespace Sys2Proof

/-- A byte of the command port. -/
abbrev Byte := BitVec 8

/-- A 16-bit word: a two-byte command parameter, or one word of a link frame (R22). -/
abbrev Word := BitVec 16

/-- A stored tick: the part's 32-bit millisecond count (00_scope.md, "Part time"). -/
abbrev Tick := BitVec 32

/-- A millisecond as time runs, by which stored ticks are ordered (00_scope.md, "Part time"; log 6). -/
abbrev Instant := Nat

/-- A link tag, 0 to 31 (R23). -/
abbrev Tag := BitVec 5

/-- The name of a contract record, 1 to 255 (R56). -/
abbrev Handle := BitVec 8

/-- The four ports P0 to P3. -/
inductive Port where
  | p0 | p1 | p2 | p3
  deriving DecidableEq, Repr

/-- The three sinks (R132). -/
inductive Sink where
  | system | charge | pass
  deriving DecidableEq, Repr

namespace Port

/-- The ports in ascending order. -/
def all : List Port := [.p0, .p1, .p2, .p3]

/-- The number n of port Pn. -/
def index : Port → Nat
  | .p0 => 0
  | .p1 => 1
  | .p2 => 2
  | .p3 => 3

/-- The port of a number 0 to 3. -/
def ofNat? : Nat → Option Port
  | 0 => some .p0
  | 1 => some .p1
  | 2 => some .p2
  | 3 => some .p3
  | _ => none

end Port

/-- One value for each port. -/
structure PerPort (α : Type) where
  p0 : α
  p1 : α
  p2 : α
  p3 : α
  deriving DecidableEq, Repr

namespace PerPort

variable {α β : Type}

/-- The same value for every port. -/
def all (x : α) : PerPort α := ⟨x, x, x, x⟩

/-- The value of one port. -/
def get (v : PerPort α) : Port → α
  | .p0 => v.p0
  | .p1 => v.p1
  | .p2 => v.p2
  | .p3 => v.p3

/-- The values with that of one port replaced. -/
def set (v : PerPort α) (p : Port) (x : α) : PerPort α :=
  match p with
  | .p0 => { v with p0 := x }
  | .p1 => { v with p1 := x }
  | .p2 => { v with p2 := x }
  | .p3 => { v with p3 := x }

/-- Every value put through a function. -/
def map (f : α → β) (v : PerPort α) : PerPort β := ⟨f v.p0, f v.p1, f v.p2, f v.p3⟩

/-- The values in port order. -/
def toList (v : PerPort α) : List α := [v.p0, v.p1, v.p2, v.p3]

end PerPort

/-- One value for each sink. -/
structure PerSink (α : Type) where
  system : α
  charge : α
  pass   : α
  deriving DecidableEq, Repr

namespace PerSink

variable {α : Type}

/-- The value of one sink. -/
def get (v : PerSink α) : Sink → α
  | .system => v.system
  | .charge => v.charge
  | .pass => v.pass

/-- The values with that of one sink replaced. -/
def set (v : PerSink α) (k : Sink) (x : α) : PerSink α :=
  match k with
  | .system => { v with system := x }
  | .charge => { v with charge := x }
  | .pass => { v with pass := x }

end PerSink

/-- What the sense inputs of one port show on one tick (R1): a voltage in 20 mV steps, a current in 10 mA steps that is
negative when it flows toward the port. Neither is limited yet. -/
structure Reading where
  voltage : Nat
  current : Int
  deriving DecidableEq, Repr

/-- The strap pins as sampled (R168): true is high. -/
structure Straps where
  addr1 : Bool
  addr0 : Bool
  cold  : Bool
  deriving DecidableEq, Repr

/-- One entry of a TIERS part as the frame carries it, before its scale is applied (R23). -/
structure RawEntry where
  id      : BitVec 3
  span    : Bool
  low     : BitVec 11
  high    : BitVec 11
  ceiling : BitVec 10
  lease   : BitVec 11
  /-- The burst length in 10 ms steps and the burst current, where the burst-present mark is set. -/
  burst   : Option (BitVec 6 × BitVec 10)
  deriving DecidableEq, Repr

/-- What a partner frame says, by kind (R23): the seven kinds a partner sends. -/
inductive PartnerBody where
  | tiers (scale : BitVec 2) (total : BitVec 3) (index : BitVec 2) (last : Bool) (entries : List RawEntry)
  | grant (tier : BitVec 3) (voltage : BitVec 11) (current : BitVec 10) (lease : Word)
  | decline (reason : BitVec 2)
  | settled
  | renewed (lease : Word)
  | recall (ceiling : BitVec 10) (deadline : Word)
  | fault (code : BitVec 2)
  deriving DecidableEq, Repr

/-- A partner frame as read: its header's strain mark and tag, and what it says (R23). -/
structure PartnerFrame where
  strain : Bool
  tag    : Tag
  body   : PartnerBody
  deriving DecidableEq, Repr

/-- A frame as the wire gave it up to its declared end (R22): the header word, the payload words, and the check, absent when
the wire went high before the declared end and bits were lost. -/
structure WireFrame where
  header  : Word
  payload : List Word
  check   : Option Byte
  deriving DecidableEq, Repr

end Sys2Proof
end

