-- ==== Sys2Proof/Syntax.lean ====
section
/-! DEFINITION. The commands of the block: one constructor of Instr per row of spec/opcode_table.json, in the table's
order. -/

namespace Sys2Proof

/-- The steps of the part (95_what_each_step_holds.md): host commands, partner frames, and the events of its own clock, wire and
pins. Host commands carry their parameter bytes as written (the table of section 11.2); a port event carries its port. -/
inductive Instr where
  /-- Power applied or RESET# asserted (R20). -/
  | powerOnReset
  /-- The end of a power-on reset, with the levels of ADDR1, ADDR0 and COLD (R168). -/
  | strapSampling (addr1 addr0 cold : Bool)
  /-- The tick's sample of every port (R1). -/
  | meterSample (readings : PerPort Reading)
  /-- A debounce count has reached 50 on a VACANT port (R9). -/
  | attach (p : Port)
  /-- A debounce count has reached 50 on a PRESENT port (R10). -/
  | detach (p : Port)
  /-- A settle count has reached SETTLE_TIME (R14). -/
  | pathCloseComplete (p : Port)
  /-- A close deadline is reached (R15). -/
  | closeDeadline (p : Port)
  /-- A settle deadline is reached (R70). -/
  | settleDeadline (p : Port)
  /-- A transition deadline is reached (R78). -/
  | transitionDeadline (p : Port)
  /-- A lease's expiry is reached (R95). -/
  | leaseExpiry (p : Port)
  /-- A renewal point is reached (R87). -/
  | renewalPoint (p : Port)
  /-- A next attempt tick is reached (R92). -/
  | nextAttempt (p : Port)
  /-- A holdoff deadline is reached (R63). -/
  | holdoffDeadline (p : Port)
  /-- A recall deadline is reached (R104). -/
  | recallDeadline (p : Port)
  /-- An overdraw window's sample count has reached OVERDRAW_WINDOW (R149). -/
  | overdrawWindowEnd (p : Port)
  /-- A recovery deadline is reached (R156). -/
  | recoveryDeadline (p : Port)
  /-- The eighth sample of a watch window has been taken (R158). -/
  | watchWindowEnd (p : Port)
  /-- The wire has been quiet for 2 ms and a waiting request may start (R33). -/
  | frameSendStart (p : Port)
  /-- The wire has been quiet for 2 ms and an exchange awaiting send may start again (R32). -/
  | sendAgain (p : Port)
  /-- The part's frame reaches its declared end (R30). -/
  | frameSendEnd (p : Port)
  /-- The wire is low at the end of the part's start pulse (R29). -/
  | startPulseCollision (p : Port)
  /-- The wire is low inside the part's frame where the part released it (R29). -/
  | inFrameCollision (p : Port)
  /-- The wire is low in the 2 ms after a frame, or low for more than 1 ms (R28). -/
  | linkDisturbance (p : Port)
  /-- A 3 ms break ends (R37). -/
  | breakEnd (p : Port)
  /-- The wire has stayed high for 2 ms in the idle wait (R37). -/
  | idleFound (p : Port)
  /-- The 10 ms idle wait passes without idle (R37). -/
  | idleWaitExpiry (p : Port)
  /-- A reply deadline is reached (R32). -/
  | replyDeadline (p : Port)
  /-- An opening deadline is reached (R41). -/
  | openingDeadline (p : Port)
  /-- A TIERS assembly deadline is reached (R27). -/
  | assemblyDeadline (p : Port)
  /-- A frame on the wire reaches its declared end and is put to the checks of R23. -/
  | partnerFrameDiscard (p : Port) (frame : WireFrame)
  /-- A TIERS part (R27). -/
  | tiersPart (p : Port) (strain : Bool) (tag : Tag) (scale : BitVec 2) (total : BitVec 3) (index : BitVec 2) (last : Bool) (entries : List RawEntry)
  /-- A GRANT frame (R66, R75). -/
  | grant (p : Port) (strain : Bool) (tag : Tag) (tier : BitVec 3) (voltage : BitVec 11) (current : BitVec 10) (lease : Word)
  /-- A DECLINE frame (R67, R74). -/
  | decline (p : Port) (strain : Bool) (tag : Tag) (reason : BitVec 2)
  /-- A SETTLED frame (R69, R78). -/
  | settled (p : Port) (strain : Bool) (tag : Tag)
  /-- A RENEWED frame (R89, R90). -/
  | renewed (p : Port) (strain : Bool) (tag : Tag) (lease : Word)
  /-- A RECALL frame (R102). -/
  | recall (p : Port) (strain : Bool) (tag : Tag) (ceiling : BitVec 10) (deadline : Word)
  /-- A FAULT frame (R82, R162). -/
  | fault (p : Port) (strain : Bool) (tag : Tag) (code : BitVec 2)
  /-- A write transaction on the I2C bus: the address and every byte after it, ended by a stop or a repeated start (R175). -/
  | writeTaken (address : BitVec 7) (bytes : List Byte)
  /-- A read transaction: the address, and how many bytes the part sent before it ended (R176). -/
  | responseRead (address : BitVec 7) (count : Nat)
  | queryRecord (port : Byte)
  | queryTiers (port : Byte)
  /-- QUERY STATUS with a port target (R178). -/
  | queryPortStatus (target : Byte)
  /-- QUERY STATUS with target 4 (R178). -/
  | queryDeviceStatus
  | freeze (portMask partsMask : Byte)
  | readFrozen (port : Byte)
  | setModeSense (port : Byte)
  | setModeAuto (port : Byte)
  | setModeDirect (port : Byte)
  | setPathOpen (port : Byte)
  | setPathClosed (port : Byte)
  | bid (port tier : Byte) (voltage current lease : Word)
  | amend (port tier : Byte) (voltage current lease : Word)
  | retire (port : Byte)
  | rank (port rank : Byte)
  | setClaim (sink : Byte) (request floor : Word) (priority : Byte)
  | setPass (value : Byte)
  | policyVinLow (port : Byte) (value : Word)
  | policyVinHigh (port : Byte) (value : Word)
  | policyPortCurrentMax (port : Byte) (value : Word)
  | policyLeaseWant (port : Byte) (value : Word)
  | policyRenewLead (port : Byte) (value : Word)
  | policySettleTime (port : Byte) (value : Word)
  | policyOverdrawMargin (port : Byte) (value : Word)
  | policyOverdrawWindow (port : Byte) (value : Word)
  | policyDerate (port : Byte) (value : Word)
  | policyCombine (port : Byte) (value : Word)
  | policyDropout (port : Byte) (value : Word)
  | policyRebidCauses (port : Byte) (value : Word)
  | policyRank (port : Byte) (value : Word)
  | setTrimAuto (port steps : Byte)
  | setTrimManual (port steps : Byte)
  | setWatch (enable route : Byte)
  | forceLoss (port value : Byte)
  | setAttention (enables : Byte)
  | readFlags
  | clearFlags (group : Byte) (mask : Word)
  | resetPart
  /-- A HELLO that waits in OPENING starts its frame (R41). -/
  | openingHelloSend (p : Port)
  deriving DecidableEq, Repr

end Sys2Proof
end

