-- ==== Sys2Proof/Decode.lean ====
section
/-! DEFINITION. The command that a word of the opcode table spells. -/

namespace Sys2Proof

/-- No row of spec/opcode_table.json gives bits, so no word spells a command. The codes that a host writes on the bus are read by
Machine.parseWrite, and the frames on a link by Machine.readFrame. -/
def decodeTableWord (_nbits _w : Nat) : Option Instr := none

end Sys2Proof
end

