-- ==== Sys2Proof/Machine/State.lean ====
section
/-! DEFINITION. The state of the SC440 as plain data, block by block, the reasons a step could stop, and the state after
reset. Each structure names the rules of spec/ that give it. -/

namespace Sys2Proof.Machine

open Sys2Proof

/-! ## Names the manual writes in capitals -/

/-- Port modes (R3). -/
inductive Mode where
  | sense | auto | direct
  deriving DecidableEq, Repr

/-- Attach states (R8). -/
inductive Attach where
  | vacant | present
  deriving DecidableEq, Repr

/-- Values of the path request (R18). -/
inductive PathRequest where
  | opened | closed
  deriving DecidableEq, Repr

/-- Path states (section 1.4). -/
inductive PathState where
  | opened | closing | closed
  deriving DecidableEq, Repr

/-- Who asked for a close (R13). -/
inductive Requester where
  | roster | host
  deriving DecidableEq, Repr

/-- Link states (section 2.8). -/
inductive LinkState where
  | quiet | opening | ready | exchange | resync | mute
  deriving DecidableEq, Repr

/-- Record states (section 4.1). -/
inductive RecordState where
  | bidding | settling | inForce | benched
  deriving DecidableEq, Repr

/-- Retirement causes, the codes 1 to 9 of RELEASE (R23, R82). -/
inductive Cause where
  | hostRetire | mode | declined | noReply | settleFail | lapsed | supplyLost | partnerFault | detached
  deriving DecidableEq, Repr

/-- States of a renewal (section 5, R91). -/
inductive RenewalState where
  | inFlight
  | retryWait (next : Tick)
  | refused
  deriving DecidableEq, Repr

/-- Yield states of a recall (R101). -/
inductive YieldState where
  | owed | met | opened
  deriving DecidableEq, Repr

/-- Statuses of a YIELD frame (R23). -/
inductive YieldStatus where
  | met | opened
  deriving DecidableEq, Repr

/-- Who began an amendment (R72, R73). -/
inductive Origin where
  | host | auto
  deriving DecidableEq, Repr

/-- Why an automatic amendment is asked: the stale-tier mark, or the base-tier test (R73). -/
inductive AmendCause where
  | staleTier | baseTier
  deriving DecidableEq, Repr

/-- Port roles in a switch-over (R121). -/
inductive Role where
  | none | incoming | waiting | held
  deriving DecidableEq, Repr

/-- COMBINE (R117). -/
inductive Combine where
  | single | pair
  deriving DecidableEq, Repr

/-- Trim modes (R153). -/
inductive TrimMode where
  | auto | manual
  deriving DecidableEq, Repr

/-- Cold states (R168). -/
inductive ColdState where
  | idle | coldWait | coldSupply
  deriving DecidableEq, Repr

/-- Tier kinds (R44). -/
inductive TierKind where
  | fixed | span
  deriving DecidableEq, Repr

/-- Reasons a catalogue is rejected (R45). -/
inductive RejectReason where
  | badId | duplicateId | badWindow | fixedSpread | overRange | badLease
  deriving DecidableEq, Repr

/-- Status codes of a response (R177). -/
inductive Status where
  | done | refusedBusy | refusedState | refusedRange | refusedLimit | refusedLocked | unknown | none
  deriving DecidableEq, Repr

/-- Flags of a port group (R182), in the order of their bits. -/
inductive PortFlag where
  | attach | detach | tiers | granted | declined | amended | retired | renewed | renewFail | recall | overdraw | benched
  | loss | link | bidExhausted
  deriving DecidableEq, Repr

/-- Flags of the DEVICE group (R182), in the order of their bits. -/
inductive DeviceFlag where
  | short | roster | switched | coldDone
  deriving DecidableEq, Repr

/-! ## Port front-end (chapter 1) -/

/-- A close operation in progress (R13, R14). -/
structure CloseOp where
  settle    : Nat
  deadline  : Tick
  requester : Requester
  /-- The sample that made the settle count reach SETTLE_TIME has been taken and the completion has not (log 2). -/
  due       : Bool
  deriving DecidableEq, Repr

/-- The front-end of one port (the state table of chapter 1). -/
structure FrontEnd where
  mode        : Mode
  attach      : Attach
  debounce    : Nat
  voltage     : Nat
  current     : Nat
  pathRequest : PathRequest
  path        : PathState
  closeOp     : Option CloseOp
  deriving DecidableEq, Repr

/-! ## Link engine (chapter 2) -/

/-- A BID waiting or in flight (R24, R60, R72). -/
structure BidRequest where
  handle  : Handle
  replace : Bool
  tier    : BitVec 3
  /-- Present only for a SPAN tier. -/
  voltage : Option Nat
  current : Nat
  lease   : Nat
  deriving DecidableEq, Repr

/-- A RENEW waiting or in flight (R88). -/
structure RenewRequest where
  handle : Handle
  lease  : Nat
  deriving DecidableEq, Repr

/-- A YIELD waiting to be sent (R103, R104). -/
structure YieldRequest where
  handle : Handle
  tag    : Tag
  status : YieldStatus
  deriving DecidableEq, Repr

/-- A RELEASE waiting to be sent; one asked for under R36 names no record (R33, R36). -/
structure ReleaseRequest where
  handle : Option Handle
  tag    : Tag
  cause  : Cause
  deriving DecidableEq, Repr

/-- The frame an exchange sends, with the record it serves (R30). -/
inductive ExchangeBody where
  | hello
  | bid (r : BidRequest)
  | renew (r : RenewRequest)
  deriving DecidableEq, Repr

/-- The exchange in flight (R30). No reply deadline means that it awaits send. -/
structure Exchange where
  body     : ExchangeBody
  tag      : Tag
  retries  : Nat
  deadline : Option Tick
  deriving DecidableEq, Repr

/-- The frame the part is sending (R24). A YIELD carries the current taken when its frame began. -/
inductive OutFrame where
  | exchange (body : ExchangeBody) (tag : Tag)
  | yield (r : YieldRequest) (current : Nat)
  | release (r : ReleaseRequest)
  deriving DecidableEq, Repr

/-- The request slot: one place for each kind (R33). -/
structure RequestSlot where
  release : Option ReleaseRequest
  yield   : Option YieldRequest
  renew   : Option RenewRequest
  bid     : Option BidRequest
  hello   : Bool
  deriving DecidableEq, Repr

/-- The two kinds an abandoned exchange may have (R35). -/
inductive AbandonedKind where
  | bid | renew
  deriving DecidableEq, Repr

/-- The abandoned-exchange memory (R35). -/
structure Abandoned where
  tag   : Tag
  kind  : AbandonedKind
  cause : Cause
  deriving DecidableEq, Repr

/-- The TIERS assembly: each entry with the scale of the frame that carried it (R27). -/
structure Assembly where
  tag      : Tag
  next     : Nat
  entries  : List (BitVec 2 × RawEntry)
  deadline : Tick
  deriving DecidableEq, Repr

/-- The two phases of RESYNC (R37). -/
inductive ResyncPhase where
  | breaking | idleWait
  deriving DecidableEq, Repr

/-- The state a RESYNC returns to (R37). -/
inductive ResyncReturn where
  | opening | ready
  deriving DecidableEq, Repr

/-- The resync state (R37). -/
structure Resync where
  breaks   : Nat
  phase    : ResyncPhase
  deadline : Tick
  returnTo : ResyncReturn
  deriving DecidableEq, Repr

/-- The link engine of one port (the state table of chapter 2). -/
structure Link where
  state           : LinkState
  exchange        : Option Exchange
  tagCounter      : Tag
  slot            : RequestSlot
  memory          : Option Abandoned
  assembly        : Option Assembly
  openingDeadline : Option Tick
  resync          : Option Resync
  /-- The frame on the wire that the part is sending (R29, R30). -/
  sending         : Option OutFrame
  /-- A partner frame is being received after a start-pulse collision (R28, R29). -/
  receiving       : Bool
  deriving DecidableEq, Repr

/-! ## Tier catalogue (chapter 3) -/

/-- A burst allowance: current in 10 mA steps and length in ms (R44). -/
structure Burst where
  current : Nat
  length  : Nat
  deriving DecidableEq, Repr

/-- A tier as stored; tier 0 has no lease maximum (R43, R44). -/
structure Tier where
  id       : BitVec 3
  kind     : TierKind
  low      : Nat
  high     : Nat
  ceiling  : Nat
  leaseMax : Option Nat
  burst    : Option Burst
  deriving DecidableEq, Repr

/-- The last outcome of a catalogue (R46, R47): no reason means ACCEPTED. -/
structure CatalogueOutcome where
  rejected : Option RejectReason
  tick     : Tick
  deriving DecidableEq, Repr

/-- The tier catalogue of one port (the state table of chapter 3). -/
structure Catalogue where
  base    : Bool
  offered : List Tier
  /-- The offer state: HELD when true, NONE when false. -/
  held    : Bool
  /-- When the last accepted catalogue arrived; absent (shown as 0) while none has been accepted (log 6). -/
  arrival : Option Instant
  outcome : Option CatalogueOutcome
  deriving DecidableEq, Repr

/-! ## Contract table (chapters 4, 5, 6) -/

/-- A lease: its length in seconds and, once it runs, its expiry (R85). -/
structure Lease where
  length : Nat
  expiry : Option Tick
  deriving DecidableEq, Repr

/-- A renewal (section 5.2). -/
structure Renewal where
  state    : RenewalState
  attempts : Nat
  deriving DecidableEq, Repr

/-- The transition mark of a granted amendment with what it carries (R75, R77). -/
structure Transition where
  granted      : Nat
  lease        : Nat
  deadline     : Tick
  settledHeard : Bool
  deriving DecidableEq, Repr

/-- A pending amendment (R72, R77). An automatic one to tier 0 has no lease wanted (R51). -/
structure Amendment where
  tier       : BitVec 3
  low        : Nat
  high       : Nat
  voltage    : Nat
  requested  : Nat
  lease      : Option Nat
  origin     : Origin
  bidTick    : Instant
  transition : Option Transition
  deriving DecidableEq, Repr

/-- A recall (R101). -/
structure Recall where
  ceiling  : Nat
  deadline : Tick
  yield    : YieldState
  tag      : Tag
  arrival  : Instant
  deriving DecidableEq, Repr

/-- The initial recall of a record in BIDDING: ceiling, clamped deadline field in ms, tag (R107). -/
structure InitialRecall where
  ceiling  : Nat
  deadline : Nat
  tag      : Tag
  deriving DecidableEq, Repr

/-- A contract record (section 4.1). Fields that are not set yet are absent (log 21). The effective ceiling is computed
from the grant, the trim and the recall (R57). -/
structure Record where
  handle         : Handle
  state          : RecordState
  tier           : BitVec 3
  low            : Nat
  high           : Nat
  voltage        : Nat
  requested      : Nat
  leaseAsked     : Option Nat
  granted        : Nat
  trim           : Nat
  lease          : Option Lease
  renewal        : Option Renewal
  amendment      : Option Amendment
  refused        : Bool
  recallPart     : Option Recall
  initialRecall  : Option InitialRecall
  withdraw       : Bool
  stale          : Bool
  /-- The amendment-owed mark, with the causes it was set for that have held ever since: the stale-tier mark, tier 0 (R73; log 15). -/
  owed           : Bool
  owedStale      : Bool
  owedBase       : Bool
  rank           : Option Nat
  grantedAt      : Option Tick
  bidTick        : Instant
  settleDeadline : Option Tick
  settledHeard   : Bool
  deriving DecidableEq, Repr

/-- The last retirement of a port (R83). -/
structure Retirement where
  handle : Handle
  cause  : Cause
  tick   : Tick
  deriving DecidableEq, Repr

/-- The contract-table slot of one port with its bidding history (the state table of chapter 4). -/
structure ContractSlot where
  record         : Option Record
  lastRetirement : Option Retirement
  attempts       : Nat
  holdoff        : Option Tick
  hold           : Bool
  /-- Bit n stands for the cause of code n (R64, R179). -/
  rebidCauses    : Word
  deriving DecidableEq, Repr

/-! ## Overdraw monitor and supply watch (chapter 9) -/

/-- An overdraw window (R149, R152). -/
structure OverdrawWindow where
  count   : Nat
  allOver : Bool
  /-- The window began with the burst-armed mark set. -/
  isBurst : Bool
  /-- The burst current and burst end tick, when the catalogue answered with a burst. -/
  burst   : Option (Nat × Tick)
  /-- The sample that ended the window has been taken and its outcome has not acted (log 2). -/
  due     : Bool
  deriving DecidableEq, Repr

/-- The overdraw monitor of one port (the first state table of chapter 9). -/
structure Monitor where
  trimMode   : TrimMode
  window     : Option OverdrawWindow
  burstArmed : Bool
  recovery   : Option Tick
  /-- The trim steps as they stood before the first droop or strain raise of the millisecond named (R150). -/
  raiseBase  : Option (Instant × Nat)
  deriving DecidableEq, Repr

/-- A watch window (R158). -/
structure WatchWindow where
  count    : Nat
  allBelow : Bool
  droop    : Nat
  touched  : Bool
  deriving DecidableEq, Repr

/-- The supply watch's state for one port (the second state table of chapter 9). -/
structure PortWatch where
  window : Option WatchWindow
  forced : Bool
  /-- The repeat state: the remembered dropout threshold (R163). -/
  repeatAt : Option Nat
  deriving DecidableEq, Repr

/-! ## What the command port shows (chapter 11) -/

/-- The transition of a pending amendment as QUERY RECORD shows it (section 4.1). -/
structure TransitionView where
  granted  : Nat
  lease    : Nat
  deadline : Tick
  deriving DecidableEq, Repr

/-- A pending amendment as QUERY RECORD shows it: without its bid tick and settled-heard mark (R178). -/
structure AmendmentView where
  tier       : BitVec 3
  low        : Nat
  high       : Nat
  voltage    : Nat
  requested  : Nat
  lease      : Option Nat
  origin     : Origin
  transition : Option TransitionView
  deriving DecidableEq, Repr

/-- A recall as QUERY RECORD shows it (R178). -/
structure RecallView where
  ceiling  : Nat
  deadline : Tick
  yield    : YieldState
  deriving DecidableEq, Repr

/-- The visible fields of a record (R178). -/
structure RecordView where
  handle       : Handle
  port         : Port
  state        : RecordState
  tier         : BitVec 3
  low          : Nat
  high         : Nat
  voltage      : Nat
  requested    : Nat
  granted      : Nat
  trim         : Nat
  ceiling      : Nat
  lease        : Option Lease
  renewal      : Option Renewal
  amendment    : Option AmendmentView
  refused      : Bool
  recallPart   : Option RecallView
  withdraw     : Bool
  stale        : Bool
  rank         : Option Nat
  grantedAt    : Option Tick
  deriving DecidableEq, Repr

/-- One tier as QUERY TIERS shows it (R55). -/
structure TierView where
  tier     : Tier
  eligible : Bool
  deriving DecidableEq, Repr

/-- The catalogue as QUERY TIERS shows it (R55). -/
structure TiersView where
  held    : Bool
  arrival : Tick
  outcome : Option CatalogueOutcome
  tiers   : List TierView
  deriving DecidableEq, Repr

/-- A path state as the status shows it: CLOSING reads as switching (R178). -/
inductive PathView where
  | opened | switching | closed
  deriving DecidableEq, Repr

/-- Port QUERY STATUS (R178). -/
structure PortStatus where
  attach         : Attach
  link           : LinkState
  mode           : Mode
  voltage        : Nat
  current        : Nat
  pathRequest    : PathRequest
  path           : PathView
  rank           : Nat
  trimMode       : TrimMode
  trim           : Nat
  hold           : Bool
  forced         : Bool
  lastRetirement : Option Retirement
  tick           : Tick
  deriving DecidableEq, Repr

/-- The status copy of FREEZE (R180). -/
structure FrozenStatus where
  attach         : Attach
  link           : LinkState
  mode           : Mode
  voltage        : Nat
  current        : Nat
  pathRequest    : PathRequest
  path           : PathView
  trim           : Nat
  hold           : Bool
  lastRetirement : Option Retirement
  tick           : Tick
  deriving DecidableEq, Repr

/-- The record copy of FREEZE; no record is the "no record" copy with handle 0 (R180). -/
structure FrozenRecord where
  record : Option RecordView
  tick   : Tick
  deriving DecidableEq, Repr

/-- A claim (R132); its allocation is stored with the allocator's published values. -/
structure Claim where
  request  : Nat
  floor    : Nat
  priority : Nat
  deriving DecidableEq, Repr

/-- A claim with its published allocation, as device QUERY STATUS shows it (R145). -/
structure ClaimView where
  claim      : Claim
  allocation : Nat
  deriving DecidableEq, Repr

/-- The policy parameters that belong to the part (R179); REBID_CAUSES and RANK are per port. -/
structure Policy where
  vinLow         : Nat
  vinHigh        : Nat
  currentMax     : Nat
  leaseWant      : Nat
  renewLead      : Nat
  settleTime     : Nat
  overdrawMargin : Nat
  overdrawWindow : Nat
  derate         : Nat
  combine        : Combine
  dropout        : Nat
  deriving DecidableEq, Repr

/-- Device QUERY STATUS (R178). -/
structure DeviceStatus where
  /-- Each handle of the roster with its benched mark. -/
  roster      : List (Handle × Bool)
  intended    : List Handle
  directHeld  : Nat
  switching   : Bool
  claims      : PerSink ClaimView
  passEnable  : Bool
  pool        : Nat
  short       : Bool
  publishedAt : Tick
  watchEnable : Bool
  alertRoute  : Bool
  lock        : Bool
  policy      : Policy
  rebidCauses : PerPort Word
  cold        : ColdState
  coldPort    : Option Port
  enables     : BitVec 5
  tick        : Tick
  deriving DecidableEq, Repr

/-- What READ FROZEN returns, by its source mark (R181). -/
inductive FrozenAnswer where
  | status (copy : FrozenStatus)
  | record (copy : FrozenRecord)
  | live (record : Option RecordView)
  deriving DecidableEq, Repr

/-- The data of a response (the command table of section 11.2). -/
inductive ResponseData where
  | empty
  | record (view : RecordView)
  /-- Handle 0 with no further data (R178). -/
  | noRecord
  | tiers (view : TiersView)
  | portStatus (view : PortStatus)
  | deviceStatus (view : DeviceStatus)
  /-- One byte per port (R180). -/
  | heldMap (bytes : PerPort Byte)
  | frozen (answer : FrozenAnswer)
  | handle (h : Handle)
  | trimSteps (n : Nat)
  | flags (ports : PerPort Word) (device : Word) (enables : BitVec 5)
  deriving DecidableEq, Repr

/-- A response: its status and its data; the length is that of the data's bytes (R176). -/
structure Response where
  status : Status
  data   : ResponseData
  deriving DecidableEq, Repr

/-- What a limit output carries: the off code, or a power in 100 mW steps (R143). -/
inductive LimitOutput where
  | off
  | power (n : Nat)
  deriving DecidableEq, Repr

/-! ## The whole state -/

/-- Everything the part keeps for one port. -/
structure PortState where
  front        : FrontEnd
  link         : Link
  catalogue    : Catalogue
  contract     : ContractSlot
  monitor      : Monitor
  watch        : PortWatch
  rank         : Nat
  role         : Role
  flags        : Word
  frozenRecord : Option FrozenRecord
  frozenStatus : Option FrozenStatus
  deriving DecidableEq, Repr

/-- The allocator's state for the part (the state table of chapter 8). -/
structure Allocator where
  claims      : PerSink Claim
  passEnable  : Bool
  closedSet   : PerPort Bool
  pool        : Nat
  allocations : PerSink Nat
  limits      : PerSink LimitOutput
  short       : Bool
  publishedAt : Tick
  deriving DecidableEq, Repr

/-- The supply roster's state for the part (the state table of chapter 7). -/
structure Roster where
  list       : List Handle
  intended   : List Handle
  switchOver : Bool
  switching  : Bool
  deriving DecidableEq, Repr

/-- The machine. -/
structure State where
  /-- The commands that wait, first in, first out. -/
  pending     : List Instr
  /-- The straps as sampled; absent while a power-on reset has not ended (R168). -/
  straps      : Option Straps
  /-- Milliseconds since power-on reset; the tick is this count modulo 2^32 (log 6). -/
  time        : Instant
  /-- The sample of the present tick has been taken (log 1). -/
  sampleTaken : Bool
  ports       : PerPort PortState
  lastHandle  : Handle
  roster      : Roster
  allocator   : Allocator
  policy      : Policy
  watchEnable : Bool
  alertRoute  : Bool
  lock        : Bool
  cold        : ColdState
  coldPort    : Option Port
  deviceFlags : Word
  enables     : BitVec 5
  response    : Option Response
  /-- The bytes the part sent in the last read transaction (log 9). -/
  lastRead    : List Byte
  deriving DecidableEq, Repr

/-- Why the machine stops: the manual gives the block no condition that stops it, so there is no fault (safe: no meaning
raises one). -/
inductive Fault where
  deriving DecidableEq, Repr

/-- Why the model gives no meaning. -/
inductive Refusal where
  /-- Raised by exec's arm for a command that has no meaning yet; no arm raises it (safe: the model stops). -/
  | notModelled (mnemonic : String)
  deriving DecidableEq, Repr

/-! ## Power-on values -/

namespace FrontEnd

/-- The front-end after power-on reset (R20). -/
def reset : FrontEnd :=
  { mode := .sense, attach := .vacant, debounce := 0, voltage := 0, current := 0, pathRequest := .opened, path := .opened,
    closeOp := none }

end FrontEnd

namespace RequestSlot

/-- An empty slot. -/
def empty : RequestSlot := { release := none, yield := none, renew := none, bid := none, hello := false }

end RequestSlot

namespace Link

/-- The link engine after power-on reset (R42). -/
def reset : Link :=
  { state := .quiet, exchange := none, tagCounter := 1, slot := .empty, memory := none, assembly := none,
    openingDeadline := none, resync := none, sending := none, receiving := false }

end Link

namespace Catalogue

/-- An empty catalogue, as after power-on reset (R55) and at VACANT (R10). -/
def reset : Catalogue := { base := false, offered := [], held := false, arrival := none, outcome := none }

end Catalogue

namespace ContractSlot

/-- The slot after power-on reset: REBID_CAUSES holds DECLINED, NO_REPLY, SETTLE_FAIL, LAPSED, SUPPLY_LOST and PARTNER_FAULT,
the codes 3 to 8 (R64, R84). -/
def reset : ContractSlot :=
  { record := none, lastRetirement := none, attempts := 0, holdoff := none, hold := false, rebidCauses := 0x01F8 }

end ContractSlot

namespace Monitor

/-- The overdraw monitor after power-on reset (R167). -/
def reset : Monitor := { trimMode := .auto, window := none, burstArmed := false, recovery := none, raiseBase := none }

end Monitor

namespace PortWatch

/-- The supply watch of a port after power-on reset (R167). -/
def reset : PortWatch := { window := none, forced := false, repeatAt := none }

end PortWatch

namespace PortState

/-- A port after power-on reset: rank 2 and no role (R131), flags clear and copies empty (R187). -/
def reset : PortState :=
  { front := .reset, link := .reset, catalogue := .reset, contract := .reset, monitor := .reset, watch := .reset,
    rank := 2, role := .none, flags := 0, frozenRecord := none, frozenStatus := none }

end PortState

namespace Allocator

/-- The allocator after power-on reset (R132, R146). -/
def reset : Allocator :=
  { claims := ⟨⟨150, 100, 0⟩, ⟨0, 0, 1⟩, ⟨0, 0, 2⟩⟩, passEnable := false, closedSet := .all false, pool := 0,
    allocations := ⟨0, 0, 0⟩, limits := ⟨.off, .off, .off⟩, short := false, publishedAt := 0 }

end Allocator

namespace Policy

/-- The power-on values of the policy table (R179). -/
def reset : Policy :=
  { vinLow := 225, vinHigh := 1400, currentMax := 500, leaseWant := 120, renewLead := 25, settleTime := 20,
    overdrawMargin := 5, overdrawWindow := 4, derate := 5, combine := .single, dropout := 85 }

end Policy

namespace Roster

/-- The roster after power-on reset (R131). -/
def reset : Roster := { list := [], intended := [], switchOver := false, switching := false }

end Roster

namespace State

/-- Every block in its power-on state while RESET# is asserted, so that the straps are not sampled yet. -/
def powerOn : State :=
  { pending := [], straps := none, time := 0, sampleTaken := false, ports := .all .reset, lastHandle := 0,
    roster := .reset, allocator := .reset, policy := .reset, watchEnable := false, alertRoute := false, lock := false,
    cold := .idle, coldPort := none, deviceFlags := 0, enables := 0, response := none, lastRead := [] }

/-- The machine right after a power-on reset has ended with every strap sampled low: target address 0x38, cold state IDLE
(R168, R174; the strap levels are a DESIGN CHOICE, log 5). -/
def reset : State := { powerOn with straps := some ⟨false, false, false⟩ }

end State

end Sys2Proof.Machine
end

