-- ==== Sys2Proof/Config.lean ====
section
/-! DEFINITION. What the manual leaves to the part: the one free value of the model. -/

namespace Sys2Proof

/-- The bytes of a response's data where the manual names the fields but not their layout: a record, a catalogue, a status
and a frozen copy (R178, R181). A free value: it has no body, so nothing can be proved about which bytes they are (log 8). -/
opaque Config.dataBytes : Machine.ResponseData → List Byte

end Sys2Proof
end

