-- ==== Sys2Proof/Machine/Operands.lean ====
section
/-! DEFINITION. The operand forms: bytes a host writes and what they name, the I2C write as a command, the frames on a
Contract Link as bits, their check and their fields, and the normalised entry of a catalogue. -/

namespace Sys2Proof.Machine

open Sys2Proof

/-! ## Numbers a host writes -/

/-- The port a byte names; none above 3. -/
def portOf (b : Byte) : Option Port := Port.ofNat? b.toNat

/-- The sink a byte names (section 11.2). -/
def sinkOf (b : Byte) : Option Sink :=
  match b.toNat with
  | 0 => some .system
  | 1 => some .charge
  | 2 => some .pass
  | _ => none

/-- The mode a byte names (section 11.2). -/
def modeOf (b : Byte) : Option Mode :=
  match b.toNat with
  | 0 => some .sense
  | 1 => some .auto
  | 2 => some .direct
  | _ => none

/-- The path request a byte names (section 11.2). -/
def requestOf (b : Byte) : Option PathRequest :=
  match b.toNat with
  | 0 => some .opened
  | 1 => some .closed
  | _ => none

/-- The trim mode a byte names (section 11.2). -/
def trimModeOf (b : Byte) : Option TrimMode :=
  match b.toNat with
  | 0 => some .auto
  | 1 => some .manual
  | _ => none

/-- Off or on (section 11.2). -/
def onOff (b : Byte) : Option Bool :=
  match b.toNat with
  | 0 => some false
  | 1 => some true
  | _ => none

/-- The parameters of SET POLICY, by number (R179). -/
inductive Parameter where
  | vinLow | vinHigh | currentMax | leaseWant | renewLead | settleTime | overdrawMargin | overdrawWindow | derate | combine
  | dropout | rebidCauses | rank
  deriving DecidableEq, Repr

/-- The byte that names a parameter (R179). -/
def Parameter.code : Parameter → Byte
  | .vinLow => 1
  | .vinHigh => 2
  | .currentMax => 3
  | .leaseWant => 4
  | .renewLead => 5
  | .settleTime => 6
  | .overdrawMargin => 7
  | .overdrawWindow => 8
  | .derate => 9
  | .combine => 10
  | .dropout => 11
  | .rebidCauses => 12
  | .rank => 13

/-- The parameter a byte names (R179). -/
def parameterOf (b : Byte) : Option Parameter :=
  match b.toNat with
  | 1 => some .vinLow
  | 2 => some .vinHigh
  | 3 => some .currentMax
  | 4 => some .leaseWant
  | 5 => some .renewLead
  | 6 => some .settleTime
  | 7 => some .overdrawMargin
  | 8 => some .overdrawWindow
  | 9 => some .derate
  | 10 => some .combine
  | 11 => some .dropout
  | 12 => some .rebidCauses
  | 13 => some .rank
  | _ => none

/-- A parameter that belongs to a port (R179). -/
def Parameter.perPort : Parameter → Bool
  | .rebidCauses | .rank => true
  | _ => false

/-! ## The commands of the command port -/

/-- A known command with its full form: the parameters in the order written (section 11.2). -/
inductive HostCommand where
  | queryRecord (port : Byte)
  | queryTiers (port : Byte)
  | queryStatus (target : Byte)
  | freeze (portMask partsMask : Byte)
  | readFrozen (port : Byte)
  | setMode (port mode : Byte)
  | setPath (port request : Byte)
  | bid (port tier : Byte) (voltage current lease : Word)
  | amend (port tier : Byte) (voltage current lease : Word)
  | retire (port : Byte)
  | rank (port rank : Byte)
  | setClaim (sink : Byte) (request floor : Word) (priority : Byte)
  | setPass (value : Byte)
  | setPolicy (parameter port : Byte) (value : Word)
  | setTrim (port mode steps : Byte)
  | setWatch (enable route : Byte)
  | forceLoss (port value : Byte)
  | setAttention (enables : Byte)
  | readFlags
  | clearFlags (group : Byte) (mask : Word)
  | resetPart
  deriving DecidableEq, Repr

/-- What a write transaction is taken as (R175). -/
inductive WriteForm where
  | nothing
  | unknown
  /-- A known command byte with a wrong number of parameter bytes. -/
  | wrongForm
  | command (c : HostCommand)
  deriving DecidableEq, Repr

/-- A two-byte value, low byte first (R175). -/
def word (low high : Byte) : Word := high ++ low

/-- The command of a code and its parameter bytes; none where the number of bytes is not that of the form. -/
def commandOf (code : Nat) (args : List Byte) : Option HostCommand :=
  match code, args with
  | 0x01, [p] => some (.queryRecord p)
  | 0x02, [p] => some (.queryTiers p)
  | 0x03, [t] => some (.queryStatus t)
  | 0x04, [m, q] => some (.freeze m q)
  | 0x05, [p] => some (.readFrozen p)
  | 0x10, [p, m] => some (.setMode p m)
  | 0x11, [p, r] => some (.setPath p r)
  | 0x12, [p, t, v0, v1, c0, c1, l0, l1] => some (.bid p t (word v0 v1) (word c0 c1) (word l0 l1))
  | 0x13, [p, t, v0, v1, c0, c1, l0, l1] => some (.amend p t (word v0 v1) (word c0 c1) (word l0 l1))
  | 0x14, [p] => some (.retire p)
  | 0x15, [p, r] => some (.rank p r)
  | 0x20, [k, r0, r1, f0, f1, q] => some (.setClaim k (word r0 r1) (word f0 f1) q)
  | 0x21, [v] => some (.setPass v)
  | 0x22, [n, p, v0, v1] => some (.setPolicy n p (word v0 v1))
  | 0x23, [p, m, n] => some (.setTrim p m n)
  | 0x24, [e, r] => some (.setWatch e r)
  | 0x25, [p, v] => some (.forceLoss p v)
  | 0x30, [e] => some (.setAttention e)
  | 0x31, [] => some .readFlags
  | 0x32, [g, m0, m1] => some (.clearFlags g (word m0 m1))
  | 0x3F, [] => some .resetPart
  | _, _ => none

/-- The command codes of section 11.2. -/
def knownCodes : List Nat :=
  [0x01, 0x02, 0x03, 0x04, 0x05, 0x10, 0x11, 0x12, 0x13, 0x14, 0x15, 0x20, 0x21, 0x22, 0x23, 0x24, 0x25, 0x30, 0x31, 0x32,
    0x3F]

/-- The codes of QUERY RECORD, QUERY TIERS, QUERY STATUS, FREEZE, READ FROZEN and READ FLAGS, which leave a cold state as it
stands (R172). -/
def readingCodes : List Nat := [0x01, 0x02, 0x03, 0x04, 0x05, 0x31]

/-- What the bytes after the address are taken as (R175). -/
def parseWrite : List Byte → WriteForm
  | [] => .nothing
  | code :: args =>
    match commandOf code.toNat args with
    | some c => .command c
    | none => if knownCodes.contains code.toNat then .wrongForm else .unknown

/-- The command byte belongs to a known command that ends a cold state (R172). -/
def codeEndsCold (code : Byte) : Bool := knownCodes.contains code.toNat && !readingCodes.contains code.toNat

/-- The command ends a cold state when it is taken (R172). -/
def HostCommand.endsCold : HostCommand → Bool
  | .queryRecord _ | .queryTiers _ | .queryStatus _ | .freeze _ _ | .readFrozen _ | .readFlags => false
  | _ => true

/-! ## Codes of statuses and causes -/

/-- The value of a status code (R177). -/
def Status.code : Status → Byte
  | .done => 0x00
  | .refusedBusy => 0x01
  | .refusedState => 0x02
  | .refusedRange => 0x03
  | .refusedLimit => 0x04
  | .refusedLocked => 0x05
  | .unknown => 0x0E
  | .none => 0x0F

/-- The code of a cause in a RELEASE frame (R23). -/
def Cause.code : Cause → Nat
  | .hostRetire => 1
  | .mode => 2
  | .declined => 3
  | .noReply => 4
  | .settleFail => 5
  | .lapsed => 6
  | .supplyLost => 7
  | .partnerFault => 8
  | .detached => 9

/-! ## Frames on the wire -/

/-- One bit into the CRC-8 of generator x^8 + x^7 + x^6 + x^4 + x^2 + 1 (R22). -/
def crcBit (r : Byte) (b : Bool) : Byte :=
  if r.msb != b then (r <<< 1) ^^^ 0xD5#8 else r <<< 1

/-- One word into the check, most significant bit first (R22). -/
def crcWord (r : Byte) (w : Word) : Byte := (List.range 16).foldl (fun r i => crcBit r (w.getMsbD i)) r

/-- The check of a frame: over the header and the payload words in the order sent, from a register of all ones (R22). -/
def crc (header : Word) (payload : List Word) : Byte := payload.foldl crcWord (crcWord 0xFF#8 header)

/-- A header word (R23). -/
def header (kind : BitVec 4) (length : Nat) (scale : BitVec 2) (strain : Bool) (tag : Tag) : Word :=
  kind ++ BitVec.ofNat 4 length ++ scale ++ BitVec.ofBool strain ++ tag

/-- The payload length a header states. -/
def headerLength (h : Word) : Nat := (h.extractLsb' 8 4).toNat

/-- How long after its start pulse a frame's declared end lies, in microseconds: 24 cells and 16 for each payload word the
header states, 10 µs each (R22). -/
def declaredEnd (h : Word) : Nat := 10 * (24 + 16 * headerLength h)

/-- The entries of a TIERS part's payload after its word 0; none where an entry overruns the length (R23). The fuel is the
number of words. -/
def parseEntries : Nat → List Word → Option (List RawEntry)
  | _, [] => some []
  | fuel + 1, w1 :: w2 :: w3 :: rest =>
    let lease : BitVec 11 := w2.extractLsb' 11 5 ++ w3.extractLsb' 10 6
    let entry (burst : Option (BitVec 6 × BitVec 10)) : RawEntry :=
      { id := w1.extractLsb' 13 3, span := w1.getLsbD 12, low := w1.extractLsb' 0 11, high := w2.extractLsb' 0 11,
        ceiling := w3.extractLsb' 0 10, lease := lease, burst := burst }
    if w1.getLsbD 11 then
      match rest with
      | w4 :: rest => (parseEntries fuel rest).map (entry (some (w4.extractLsb' 10 6, w4.extractLsb' 0 10)) :: ·)
      | [] => none
    else (parseEntries fuel rest).map (entry none :: ·)
  | _, _ => none

/-- What a payload says under a kind code; none for an unknown kind or a length that is not the kind's (R23). -/
def parseBody (kind : Nat) (scale : BitVec 2) (payload : List Word) : Option PartnerBody :=
  match kind, payload with
  | 8, w :: rest =>
    (parseEntries rest.length rest).map
      (.tiers scale (w.extractLsb' 0 3) (w.extractLsb' 3 2) (w.getLsbD 5))
  | 9, [t, v, c, l] => some (.grant (t.extractLsb' 0 3) (v.extractLsb' 0 11) (c.extractLsb' 0 10) l)
  | 10, [r] => some (.decline (r.extractLsb' 0 2))
  | 11, [] => some .settled
  | 12, [l] => some (.renewed l)
  | 13, [c, d] => some (.recall (c.extractLsb' 0 10) d)
  | 14, [c] => some (.fault (c.extractLsb' 0 2))
  | _, _ => none

/-- The words an entry takes (R23). -/
def entryWords (e : RawEntry) : Nat := if e.burst.isSome then 4 else 3

/-- The checks of R23 on the fields of a frame: no code outside its list, no GRANT voltage over 2000, no GRANT current or
RECALL ceiling over 1000, no payload over 14 words. -/
def bodyFieldsOk : PartnerBody → Bool
  | .tiers _ _ _ _ entries => 1 + (entries.map entryWords).sum ≤ 14
  | .grant _ voltage current _ => decide (voltage.toNat ≤ 2000) && decide (current.toNat ≤ 1000)
  | .decline reason => reason != 0
  | .settled => true
  | .renewed _ => true
  | .recall ceiling _ => ceiling.toNat ≤ 1000
  | .fault code => code != 0

/-- A frame on the wire as a partner frame; none where R23 discards it. -/
def readFrame (f : WireFrame) : Option PartnerFrame :=
  if f.check = some (crc f.header f.payload) && f.payload.length = headerLength f.header && headerLength f.header ≤ 14 then
    match parseBody (f.header.extractLsb' 12 4).toNat (f.header.extractLsb' 6 2) f.payload with
    | some body =>
      if bodyFieldsOk body then some { strain := f.header.getLsbD 5, tag := f.header.extractLsb' 0 5, body := body } else none
    | none => none
  else none

/-- The words of one entry (R23). -/
def encodeEntry (e : RawEntry) : List Word :=
  [e.id ++ BitVec.ofBool e.span ++ BitVec.ofBool e.burst.isSome ++ e.low, e.lease.extractLsb' 6 5 ++ e.high,
    e.lease.extractLsb' 0 6 ++ e.ceiling] ++
  match e.burst with
  | some (length, current) => [length ++ current]
  | none => []

/-- The kind code of a partner frame (R23). -/
def bodyKind : PartnerBody → BitVec 4
  | .tiers .. => 8
  | .grant .. => 9
  | .decline _ => 10
  | .settled => 11
  | .renewed _ => 12
  | .recall .. => 13
  | .fault _ => 14

/-- The payload of a partner frame (R23). -/
def bodyPayload : PartnerBody → List Word
  | .tiers _ total index last entries =>
    (0#10 ++ BitVec.ofBool last ++ index ++ total) :: (entries.map encodeEntry).flatten
  | .grant tier voltage current lease => [tier.setWidth 16, voltage.setWidth 16, current.setWidth 16, lease]
  | .decline reason => [reason.setWidth 16]
  | .settled => []
  | .renewed lease => [lease]
  | .recall ceiling deadline => [ceiling.setWidth 16, deadline]
  | .fault code => [code.setWidth 16]

/-- The scale bits of a partner frame, used in TIERS only (R23). -/
def bodyScale : PartnerBody → BitVec 2
  | .tiers scale .. => scale
  | _ => 0

/-- A partner frame as a partner puts it on the wire (R22, R23). -/
def encodeFrame (f : PartnerFrame) : WireFrame :=
  let h := header (bodyKind f.body) (bodyPayload f.body).length (bodyScale f.body) f.strain f.tag
  { header := h, payload := bodyPayload f.body, check := some (crc h (bodyPayload f.body)) }

/-! ## Frames the part sends -/

/-- The kind code of a frame of the part (R23). -/
def OutFrame.kind : OutFrame → BitVec 4
  | .exchange .hello _ => 1
  | .exchange (.bid _) _ => 2
  | .exchange (.renew _) _ => 3
  | .yield _ _ => 4
  | .release _ => 5

/-- The tag of a frame of the part (R24). -/
def OutFrame.tag : OutFrame → Tag
  | .exchange _ t => t
  | .yield r _ => r.tag
  | .release r => r.tag

/-- The payload of a frame of the part (R23). -/
def OutFrame.payload : OutFrame → List Word
  | .exchange .hello _ => []
  | .exchange (.bid r) _ =>
    [BitVec.ofBool r.replace ++ 0#12 ++ r.tier] ++ (r.voltage.map (BitVec.ofNat 16)).toList ++
      [BitVec.ofNat 16 r.current, BitVec.ofNat 16 r.lease]
  | .exchange (.renew r) _ => [BitVec.ofNat 16 r.lease]
  | .yield r current => [match r.status with | .met => 1#16 | .opened => 2#16, BitVec.ofNat 16 current]
  | .release r => [BitVec.ofNat 16 r.cause.code]

/-- A frame of the part as words: scale 0 and strain mark 0 (R23). -/
def OutFrame.encode (f : OutFrame) : WireFrame :=
  let h := header f.kind f.payload.length 0 false f.tag
  { header := h, payload := f.payload, check := some (crc h f.payload) }

/-- The bits of a frame after its start pulse, in the order sent (R21, R22). -/
def wireBits (f : WireFrame) : List Bool :=
  (f.header :: f.payload).flatMap (fun w => (List.range 16).map w.getMsbD) ++
  match f.check with
  | some c => (List.range 8).map c.getMsbD
  | none => []

/-- The wave form of a frame of the part: the microseconds low and then released of the start pulse and of each bit cell
(R21). -/
def OutFrame.wave (f : OutFrame) : List (Nat × Nat) :=
  (40, 0) :: (wireBits f.encode).map (fun b => if b then (7, 3) else (3, 7))

/-- A low pulse on an otherwise quiet wire is taken as the start of a partner frame, by its width in microseconds (R21). -/
def startsPartnerFrame (width : Nat) : Bool := decide (60 ≤ width) && decide (width ≤ 100)

/-! ## Catalogue entries -/

/-- The multiplier of a scale (R23). -/
def multiplier (scale : BitVec 2) : Nat := 2 ^ scale.toNat

/-- A raw entry in the part's own units; a burst whose current or length is 0 is absent (R44, log 22). -/
def normalise (scale : BitVec 2) (e : RawEntry) : Tier :=
  let m := multiplier scale
  { id := e.id, kind := if e.span then .span else .fixed, low := e.low.toNat * m, high := e.high.toNat * m,
    ceiling := e.ceiling.toNat * m, leaseMax := some e.lease.toNat,
    burst :=
      match e.burst with
      | some (length, current) => if length = 0 ∨ current = 0 then none else some ⟨current.toNat * m, length.toNat * 10⟩
      | none => none }

end Sys2Proof.Machine
end

