-- ==== Sys2Proof/Machine/Ops.lean ====
section
/-! DEFINITION. The named operations every block uses: reading and updating one port's state, ticks and deadlines, the window
test, the effective ceiling, and the computed views (path count, DIRECT held count, gates, outputs). -/

namespace Sys2Proof.Machine

open Sys2Proof

/-! ## One port's state -/

namespace State

/-- What the part keeps for a port. -/
def port (s : State) (p : Port) : PortState := s.ports.get p

/-- A change of one port's state. -/
def modPort (s : State) (p : Port) (f : PortState → PortState) : State :=
  { s with ports := s.ports.set p (f (s.port p)) }

def modFront (s : State) (p : Port) (f : FrontEnd → FrontEnd) : State :=
  s.modPort p (fun t => { t with front := f t.front })

def modLink (s : State) (p : Port) (f : Link → Link) : State :=
  s.modPort p (fun t => { t with link := f t.link })

def modSlot (s : State) (p : Port) (f : RequestSlot → RequestSlot) : State :=
  s.modLink p (fun l => { l with slot := f l.slot })

def modCatalogue (s : State) (p : Port) (f : Catalogue → Catalogue) : State :=
  s.modPort p (fun t => { t with catalogue := f t.catalogue })

def modContract (s : State) (p : Port) (f : ContractSlot → ContractSlot) : State :=
  s.modPort p (fun t => { t with contract := f t.contract })

def modMonitor (s : State) (p : Port) (f : Monitor → Monitor) : State :=
  s.modPort p (fun t => { t with monitor := f t.monitor })

def modWatch (s : State) (p : Port) (f : PortWatch → PortWatch) : State :=
  s.modPort p (fun t => { t with watch := f t.watch })

def setRole (s : State) (p : Port) (r : Role) : State := s.modPort p (fun t => { t with role := r })

/-- The record in a port's slot. -/
def record (s : State) (p : Port) : Option Record := (s.port p).contract.record

/-- A new content of a port's slot. -/
def setRecord (s : State) (p : Port) (r : Option Record) : State := s.modContract p (fun c => { c with record := r })

/-- A change of the record in a port's slot, if there is one. -/
def modRecord (s : State) (p : Port) (f : Record → Record) : State :=
  s.modContract p (fun c => { c with record := c.record.map f })

def mode (s : State) (p : Port) : Mode := (s.port p).front.mode

def path (s : State) (p : Port) : PathState := (s.port p).front.path

def linkState (s : State) (p : Port) : LinkState := (s.port p).link.state

def role (s : State) (p : Port) : Role := (s.port p).role

end State

/-! ## Ticks and deadlines (00_scope.md, "Part time") -/

/-- The tick of a millisecond: 32 bits, wrapping. -/
def tickOf (t : Instant) : Tick := BitVec.ofNat 32 t

/-- The present tick. -/
def State.tick (s : State) : Tick := tickOf s.time

/-- The tick a number of milliseconds ahead. -/
def State.ahead (s : State) (ms : Nat) : Tick := s.tick + BitVec.ofNat 32 ms

/-- The deadline has been reached: the difference modulo 2^32, read as a signed number, is zero or positive. -/
def reached (now deadline : Tick) : Bool := decide (0 ≤ (now - deadline).toInt)

/-- A deadline that may be absent has been reached. -/
def State.due (s : State) (deadline : Option Tick) : Bool :=
  match deadline with
  | some d => reached s.tick d
  | none => false

/-! ## The window test and the effective ceiling -/

/-- The lower bound of the acceptance band of a window low (R2). -/
def bandLow (low : Nat) : Nat := low - low * 5 / 100

/-- The upper bound of the acceptance band of a window high (R2). -/
def bandHigh (high : Nat) : Nat := high + high * 5 / 100

/-- The window test (R2). -/
def windowTest (voltage low high : Nat) : Bool := decide (bandLow low ≤ voltage) && decide (voltage ≤ bandHigh high)

namespace Record

/-- The granted current less its trim (R57). -/
def trimmed (r : Record) : Nat := r.granted * (32 - r.trim) / 32

/-- The effective ceiling: the trimmed grant, lowered to the ceiling of a recall (R57). -/
def effectiveCeiling (r : Record) : Nat :=
  match r.recallPart with
  | some c => min r.trimmed c.ceiling
  | none => r.trimmed

/-- The record is live: IN_FORCE or BENCHED. -/
def live (r : Record) : Bool :=
  match r.state with
  | .inForce | .benched => true
  | .bidding | .settling => false

/-- The record carries the transition mark (R77). -/
def inTransition (r : Record) : Bool :=
  match r.amendment with
  | some a => a.transition.isSome
  | none => false

/-- The renewal is IN_FLIGHT (R88). -/
def renewing (r : Record) : Bool :=
  match r.renewal with
  | some n => n.state = .inFlight
  | none => false

/-- The granted power, a raw product of 20 mV by 10 mA steps (R113). -/
def grantedPower (r : Record) : Nat := r.voltage * r.granted

end Record

/-- The dropout threshold of a window low (R159). -/
def State.dropoutThreshold (s : State) (low : Nat) : Nat := low * s.policy.dropout / 100

/-! ## Records by handle -/

/-- The port whose record has a handle. -/
def State.portOfHandle (s : State) (h : Handle) : Option Port :=
  Port.all.find? (fun p => match s.record p with
    | some r => r.handle = h
    | none => false)

/-- The record of a handle. -/
def State.recordOfHandle (s : State) (h : Handle) : Option Record :=
  match s.portOfHandle h with
  | some p => s.record p
  | none => none

/-! ## Computed views -/

namespace State

/-- How many ports have a path CLOSED or CLOSING (R12). -/
def pathCount (s : State) : Nat := Port.all.countP (fun p => s.path p != .opened)

/-- How many DIRECT ports have a path CLOSED or CLOSING (R117). -/
def directHeld (s : State) : Nat := Port.all.countP (fun p => s.mode p = .direct && s.path p != .opened)

/-- Some port's path is CLOSED (R161). -/
def anyClosed (s : State) : Bool := Port.all.any (fun p => s.path p = .closed)

/-- The gate driver of a port: on exactly while its path is CLOSED (R14, R16). -/
def gate (s : State) (p : Port) : Bool := s.path p = .closed

/-- The input window holds a voltage (R118). -/
def inInputWindow (s : State) (voltage : Nat) : Bool :=
  decide (s.policy.vinLow ≤ voltage) && decide (voltage ≤ s.policy.vinHigh)

/-- The link is usable: a RELEASE asked for on it will be sent (R34). -/
def linkUsable (s : State) (p : Port) : Bool :=
  match s.linkState p with
  | .quiet | .mute => false
  | .opening | .ready | .exchange | .resync => true

/-- The 7-bit target address: 0x38 plus the straps, ADDR1 the more significant (R174); none before they are sampled. -/
def targetAddress (s : State) : Option (BitVec 7) :=
  s.straps.map (fun t => 0x38#7 + (BitVec.ofBool t.addr1 ++ BitVec.ofBool t.addr0).setWidth 7)

end State

end Sys2Proof.Machine
end

