-- ==== Sys2Proof/Machine/Flags.lean ====
section
/-! DEFINITION. The attention unit: flags by group, the group enables, ATTN# and ALERT#, and the watch lock's test. -/

namespace Sys2Proof.Machine

open Sys2Proof

/-- The bit of a port group flag (R182). -/
def PortFlag.bit : PortFlag → Nat
  | .attach => 0
  | .detach => 1
  | .tiers => 2
  | .granted => 3
  | .declined => 4
  | .amended => 5
  | .retired => 6
  | .renewed => 7
  | .renewFail => 8
  | .recall => 9
  | .overdraw => 10
  | .benched => 11
  | .loss => 12
  | .link => 13
  | .bidExhausted => 14

/-- The bit of a DEVICE flag (R182). -/
def DeviceFlag.bit : DeviceFlag → Nat
  | .short => 0
  | .roster => 1
  | .switched => 2
  | .coldDone => 3

/-- A word of one bit. -/
def oneBit (n : Nat) : Word := 1#16 <<< n

namespace State

/-- Sets a flag of a port group; a flag already set stays set (R182). -/
def setFlag (s : State) (p : Port) (f : PortFlag) : State :=
  s.modPort p (fun t => { t with flags := t.flags ||| oneBit f.bit })

/-- Sets a flag of the DEVICE group (R182). -/
def setDeviceFlag (s : State) (f : DeviceFlag) : State := { s with deviceFlags := s.deviceFlags ||| oneBit f.bit }

/-- A flag of a port group is set. -/
def flag (s : State) (p : Port) (f : PortFlag) : Bool := (s.port p).flags.getLsbD f.bit

/-- A flag of the DEVICE group is set. -/
def deviceFlag (s : State) (f : DeviceFlag) : Bool := s.deviceFlags.getLsbD f.bit

/-- The enable of a port group (R183). -/
def groupEnable (s : State) (p : Port) : Bool := s.enables.getLsbD p.index

/-- The enable of the DEVICE group (R183). -/
def deviceEnable (s : State) : Bool := s.enables.getLsbD 4

/-- ATTN# is asserted: some group with its enable on holds a set flag (R183). -/
def attn (s : State) : Bool :=
  Port.all.any (fun p => s.groupEnable p && (s.port p).flags != 0) || (s.deviceEnable && s.deviceFlags != 0)

/-- ALERT# is asserted: the route is on and some port group holds LOSS, whatever the enables (R185). -/
def alert (s : State) : Bool := s.alertRoute && Port.all.any (fun p => s.flag p .loss)

/-- The lock test: watch enable, ALERT route and some port group's enable, all at the same moment, set the lock (R165). -/
def lockTest (s : State) : State :=
  if s.watchEnable && s.alertRoute && Port.all.any s.groupEnable then { s with lock := true } else s

/-- Clears the flags of a mask in a group, 4 being DEVICE (R184). -/
def clearGroup (s : State) (group : Nat) (mask : Word) : State :=
  match Port.ofNat? group with
  | some p => s.modPort p (fun t => { t with flags := t.flags &&& ~~~mask })
  | none => { s with deviceFlags := s.deviceFlags &&& ~~~mask }

end State

end Sys2Proof.Machine
end

