-- ==== Sys2Proof/Machine/Allocate.lean ====
section
/-! DEFINITION. The allocator: the pool, the two-stage allocation, budget short, and the publication (chapter 8). -/

namespace Sys2Proof.Machine

open Sys2Proof

/-! ## The pool -/

/-- What one port of the closed-path set contributes, in 100 mW (R136). A port of the set always has a record. -/
def State.contribution (s : State) (p : Port) : Nat :=
  if s.allocator.closedSet.get p then
    match s.record p with
    | some r => r.voltage * r.effectiveCeiling / 500
    | none => 0
  else 0

/-- The pool: the sum of the contributions, derated, at most 4000 (R136). -/
def State.computePool (s : State) : Nat :=
  min 4000 ((Port.all.map s.contribution).sum * (100 - s.policy.derate) / 100)

/-! ## Dividing the pool -/

/-- The order in which claims of equal priority are taken (R138). -/
def sinkOrder : List Sink := [.system, .charge, .pass]

/-- The claim takes part: PASS while the pass-through enable is on, the others always (R132). -/
def Allocator.enabled (a : Allocator) : Sink → Bool
  | .pass => a.passEnable
  | .system | .charge => true

/-- The enabled claims in the order of allocation (R138). -/
def Allocator.order (a : Allocator) : List Sink :=
  [0, 1, 2, 3].flatMap (fun n => sinkOrder.filter (fun k => a.enabled k && (a.claims.get k).priority == n))

/-- Amounts given so far and what is left of the pool. -/
structure Division where
  given     : PerSink Nat
  remainder : Nat
  deriving DecidableEq, Repr

/-- Gives a sink an amount more, out of the remainder. -/
def Division.give (d : Division) (k : Sink) (n : Nat) : Division :=
  { given := d.given.set k (d.given.get k + n), remainder := d.remainder - n }

/-- Stage A for one claim: the lower of its floor and the remainder (R138). -/
def Division.floorStage (a : Allocator) (d : Division) (k : Sink) : Division :=
  d.give k (min (a.claims.get k).floor d.remainder)

/-- Stage B for one claim: the whole remainder for request 0, else up to its request (R139). -/
def Division.raiseStage (a : Allocator) (d : Division) (k : Sink) : Division :=
  if (a.claims.get k).request = 0 then d.give k d.remainder
  else d.give k (min d.remainder ((a.claims.get k).request - d.given.get k))

/-- The allocation of a pool: stage A and then stage B over the one order (R138, R139). -/
def Allocator.divide (a : Allocator) (pool : Nat) : PerSink Nat :=
  let start : Division := { given := ⟨0, 0, 0⟩, remainder := pool }
  let floors := a.order.foldl (Division.floorStage a) start
  (a.order.foldl (Division.raiseStage a) floors).given

/-- The sum of the floors of the enabled claims (R141). -/
def Allocator.floors (a : Allocator) : Nat :=
  ((sinkOrder.filter a.enabled).map (fun k => (a.claims.get k).floor)).sum

/-- What a limit output carries for an allocation (R143). -/
def limitOf (n : Nat) : LimitOutput := if n = 0 then .off else .power n

/-- The high time of a limit output in steps of 0.1 µs, of a period of 4000 (section 11.9). -/
def LimitOutput.highTime : LimitOutput → Nat
  | .off => 0
  | .power n => n

/-! ## Publication -/

/-- A publication on the closed-path set as it stands: steps 2 to 6 of R142. -/
def State.publish (s : State) : State :=
  let pool := s.computePool
  let isShort := decide (pool < s.allocator.floors)
  let s := if isShort && !s.allocator.short then s.setDeviceFlag .short else s
  let given := s.allocator.divide pool
  { s with allocator := { s.allocator with
      pool := pool, short := isShort, allocations := given,
      limits := ⟨limitOf given.system, limitOf given.charge, limitOf given.pass⟩, publishedAt := s.tick } }

/-- A path report: the closed-path set is changed and a publication made (R135, step 1 of R142). -/
def State.reportPath (s : State) (p : Port) (closed : Bool) : State :=
  let s := { s with allocator := { s.allocator with closedSet := s.allocator.closedSet.set p closed } }
  s.publish

/-- A new value of the pass-through enable, published when it changes (R134). -/
def State.setPassEnable (s : State) (on : Bool) : State :=
  if s.allocator.passEnable = on then s
  else
    let s := { s with allocator := { s.allocator with passEnable := on } }
    s.publish

/-- A change of a record, with the report of a changed effective ceiling: it publishes when the record is live and its
path CLOSED (R57, R142). -/
def State.reviseRecord (s : State) (p : Port) (f : Record → Record) : State :=
  match s.record p with
  | none => s
  | some r =>
    let s := s.setRecord p (some (f r))
    if (f r).effectiveCeiling ≠ r.effectiveCeiling ∧ (f r).live ∧ s.path p = .closed then s.publish else s

end Sys2Proof.Machine
end

