-- ==== Sys2Proof/Machine/LinkEngine.lean ====
section
/-! DEFINITION. The link engine's own operations: the request slot, exchanges and tags, abandonment, and the frame being sent
(chapter 2). What a reply or its absence does to a contract stands in the files of the contract table. -/

namespace Sys2Proof.Machine

open Sys2Proof

/-! ## The request slot -/

namespace RequestSlot

/-- Removes the waiting BID, RENEW and YIELD of a record (R33, step 3 of R83). -/
def withdraw (q : RequestSlot) (h : Handle) : RequestSlot :=
  { q with
    yield := q.yield.filter (fun r => r.handle ≠ h)
    renew := q.renew.filter (fun r => r.handle ≠ h)
    bid := q.bid.filter (fun r => r.handle ≠ h) }

/-- Removes the waiting YIELD of a record (R102). -/
def withdrawYield (q : RequestSlot) (h : Handle) : RequestSlot :=
  { q with yield := q.yield.filter (fun r => r.handle ≠ h) }

/-- Removes the waiting RENEW of a record (R76). -/
def withdrawRenew (q : RequestSlot) (h : Handle) : RequestSlot :=
  { q with renew := q.renew.filter (fun r => r.handle ≠ h) }

/-- Puts a RELEASE into its place; the waiting BID, RENEW and YIELD of the same record go (R33). -/
def putRelease (q : RequestSlot) (r : ReleaseRequest) : RequestSlot :=
  match r.handle with
  | some h => { q.withdraw h with release := some r }
  | none => { q with release := some r }

/-- Puts a cut-off YIELD or RELEASE back into its place, unless a newer request of its kind has taken it (R29, R38). A frame of
an exchange is not kept in the slot. -/
def putBack (q : RequestSlot) : OutFrame → RequestSlot
  | .exchange _ _ => q
  | .yield r _ => if q.yield.isNone then { q with yield := some r } else q
  | .release r => if q.release.isNone then { q with release := some r } else q

end RequestSlot

namespace State

/-- A YIELD asked of the link engine: it waits on a usable link and is discarded on the others (R34). -/
def requestYield (s : State) (p : Port) (r : YieldRequest) : State :=
  if s.linkUsable p then s.modSlot p (fun q => { q with yield := some r }) else s

/-- A RELEASE asked of the link engine (R34). -/
def requestRelease (s : State) (p : Port) (r : ReleaseRequest) : State :=
  if s.linkUsable p then s.modSlot p (fun q => q.putRelease r) else s

/-- A BID asked of the link engine where the link lets it wait (R34). -/
def requestBid (s : State) (p : Port) (r : BidRequest) : State :=
  if s.linkUsable p then s.modSlot p (fun q => { q with bid := some r }) else s

/-- A RENEW asked of the link engine where the link lets it wait (R34). -/
def requestRenew (s : State) (p : Port) (r : RenewRequest) : State :=
  if s.linkUsable p then s.modSlot p (fun q => { q with renew := some r }) else s

end State

/-! ## Exchanges -/

/-- The tag after a tag: from 31 to 1 (R24). -/
def nextTag (t : Tag) : Tag := if t = 31 then 1 else t + 1

/-- The record an exchange serves (R30). -/
def ExchangeBody.handle : ExchangeBody → Option Handle
  | .hello => none
  | .bid r => some r.handle
  | .renew r => some r.handle

namespace Link

/-- Begins an exchange: a fresh tag from the counter, 2 retries, awaiting send; the memory goes when its tag is issued again
(R24, R30, R35). -/
def beginExchange (l : Link) (body : ExchangeBody) : Link :=
  { l with
    exchange := some { body := body, tag := l.tagCounter, retries := 2, deadline := none }
    tagCounter := nextTag l.tagCounter
    memory := l.memory.filter (fun m => m.tag ≠ l.tagCounter) }

/-- The exchange ends: EXCHANGE becomes READY, and OPENING and RESYNC stay (R31, R35, R38). -/
def endExchange (l : Link) : Link :=
  { l with exchange := none, state := if l.state = .exchange then .ready else l.state }

/-- A BID exchange of a record is in flight. -/
def bidInFlight (l : Link) (h : Handle) : Bool :=
  match l.exchange with
  | some e => match e.body with
    | .bid r => r.handle = h
    | _ => false
  | none => false

/-- What the memory keeps of an abandoned exchange (R35). -/
def remembered (e : Exchange) (cause : Cause) : Option Abandoned :=
  match e.body with
  | .hello => none
  | .bid _ => some { tag := e.tag, kind := .bid, cause := cause }
  | .renew _ => some { tag := e.tag, kind := .renew, cause := cause }

/-- A BID or RENEW exchange of a record is in flight. -/
def serves (l : Link) (h : Handle) : Bool :=
  match l.exchange with
  | some e => e.body.handle = some h
  | none => false

/-- Abandons the exchange of a record and remembers it (R35). A frame of it being sent runs to its end. -/
def abandon (l : Link) (h : Handle) (cause : Cause) : Link :=
  match l.exchange with
  | some e => if e.body.handle = some h then { l.endExchange with memory := remembered e cause } else l
  | none => l

/-- The link stops the frame it is sending: a cut-off YIELD or RELEASE goes back into the slot (R29, R38). -/
def cutOff (l : Link) : Link :=
  match l.sending with
  | some f => { l with sending := none, slot := l.slot.putBack f }
  | none => l

/-- QUIET: everything of the link ends without delivery; the tag counter keeps its value (R40). -/
def enterQuiet (l : Link) : Link :=
  { l with
    state := .quiet, exchange := none, slot := .empty, memory := none, assembly := none, openingDeadline := none,
    resync := none, sending := none, receiving := false }

/-- The wire is free for a frame of the part: none is being sent or received (R28, log 7). -/
def wireFree (l : Link) : Bool := l.sending.isNone && !l.receiving

/-- The RESYNC was entered from OPENING, or the link is in OPENING. -/
def opening (l : Link) : Bool :=
  l.state = .opening || (l.state = .resync && (match l.resync with | some r => r.returnTo = .opening | none => false))

end Link

namespace State

/-- Enters OPENING: the opening deadline is set 250 ms ahead and a HELLO exchange begins (R41). -/
def enterOpening (s : State) (p : Port) : State :=
  s.modLink p (fun l =>
    { l with state := .opening, openingDeadline := some (s.ahead 250), resync := none }.beginExchange .hello)

/-- Enters QUIET (R40). -/
def enterQuiet (s : State) (p : Port) : State := s.modLink p Link.enterQuiet

/-- Takes the first waiting request in the order of the slot and starts its frame: a HELLO, BID or RENEW begins an exchange, a
YIELD carries the latest current (R24, R30, R33). -/
def startWaiting (s : State) (p : Port) : State :=
  let l := (s.port p).link
  let q := l.slot
  match q.release with
  | some r => s.modLink p (fun l => { l with slot := { q with release := none }, sending := some (.release r) })
  | none =>
  match q.yield with
  | some r =>
    s.modLink p (fun l =>
      { l with slot := { q with yield := none }, sending := some (.yield r (s.port p).front.current) })
  | none =>
  match q.renew with
  | some r =>
    s.modLink p (fun l =>
      { l.beginExchange (.renew r) with
        slot := { q with renew := none }, state := .exchange, sending := some (.exchange (.renew r) l.tagCounter) })
  | none =>
  match q.bid with
  | some r =>
    s.modLink p (fun l =>
      { l.beginExchange (.bid r) with
        slot := { q with bid := none }, state := .exchange, sending := some (.exchange (.bid r) l.tagCounter) })
  | none =>
  if q.hello then
    s.modLink p (fun l =>
      { l.beginExchange .hello with
        slot := { q with hello := false }, state := .exchange, sending := some (.exchange .hello l.tagCounter) })
  else s

/-- Starts the frame of the exchange that awaits send, with the tag it was given (R24, R30, R32). -/
def startExchangeFrame (s : State) (p : Port) : State :=
  s.modLink p (fun l =>
    match l.exchange with
    | some e => if e.deadline.isNone then { l with sending := some (.exchange e.body e.tag) } else l
    | none => l)

/-- The part's frame reaches its declared end: a request's reply deadline is set 25 ms ahead, a YIELD or RELEASE ends its life
(R30, R33). -/
def endOwnFrame (s : State) (p : Port) : State :=
  s.modLink p (fun l =>
    match l.sending, l.exchange with
    | some (.exchange _ tag), some e =>
      if e.tag = tag ∧ e.deadline = none then
        { l with sending := none, exchange := some { e with deadline := some (s.ahead 25) } }
      else { l with sending := none }
    | _, _ => { l with sending := none })

end State

end Sys2Proof.Machine
end

