-- ==== Sys2Proof/Machine/Paths.lean ====
section
/-! DEFINITION. The port front-end's paths: the open request, the close request, and what leaving CLOSED does to the overdraw
monitor, the watch window, an owed recall and the allocator (chapter 1, R103, R147, R158). -/

namespace Sys2Proof.Machine

open Sys2Proof

/-- The overdraw monitor when the path leaves CLOSED: window and recovery deadline go, and an abandoned burst window arms
the burst again (R147, R152). -/
def Monitor.stop (m : Monitor) : Monitor :=
  { m with
    window := none, recovery := none
    burstArmed := m.burstArmed || (match m.window with | some w => w.isBurst | none => false) }

/-- The overdraw monitor when the path closes: a new window begins with the next sample, and in AUTO_TRIM the recovery deadline is
set (R147). -/
def Monitor.start (m : Monitor) (deadline : Tick) : Monitor :=
  { m with window := none, recovery := if m.trimMode = .auto then some deadline else none }

namespace State

/-- A watch window runs on the port (R158). -/
def watchRuns (s : State) (p : Port) : Bool :=
  s.path p = .closed || ((s.port p).watch.forced && s.watchEnable) || (s.port p).watch.repeatAt.isSome

/-- The watch window is discarded when no case of R158 holds. -/
def tidyWatch (s : State) (p : Port) : State :=
  if s.watchRuns p then s else s.modWatch p (fun w => { w with window := none })

/-- An OWED recall is met: the yield becomes MET and YIELD MET is asked with the recall tag (R103). -/
def meetRecall (s : State) (p : Port) : State :=
  match s.record p with
  | none => s
  | some r =>
    match r.recallPart with
    | none => s
    | some c =>
      if c.yield = .owed then
        let s := s.setRecord p (some { r with recallPart := some { c with yield := .met } })
        s.requestYield p { handle := r.handle, tag := c.tag, status := .met }
      else s

/-- The path of a port becomes OPEN by an open request (R16): a CLOSED path reports "path opened" to the allocator, a close
operation is abandoned with nothing reported. The roster's recomputation is the caller's (log 10). -/
def openPath (s : State) (p : Port) : State :=
  match s.path p with
  | .opened => s
  | .closing => s.modFront p (fun f => { f with path := .opened, closeOp := none })
  | .closed =>
    let s := s.modFront p (fun f => { f with path := .opened, closeOp := none })
    let s := s.modMonitor p Monitor.stop
    let s := s.tidyWatch p
    let s := s.meetRecall p
    s.reportPath p false

/-- A close on an OPEN path is admitted: the record IN_FORCE, the mode AUTO or DIRECT, and the count below two (R12, R13). -/
def admitsClose (s : State) (p : Port) : Bool :=
  (match s.record p with | some r => r.state = .inForce | none => false) && s.mode p != .sense && decide (s.pathCount < 2)

/-- A close request (R13): none is the answer "close refused". -/
def requestClose (s : State) (p : Port) (who : Requester) : Option State :=
  match s.path p with
  | .opened =>
    if s.admitsClose p then
      some (s.modFront p (fun f =>
        { f with path := .closing, closeOp := some { settle := 0, deadline := s.ahead 500, requester := who, due := false } }))
    else none
  | .closing => some s
  | .closed => some s

/-- A close completes: the gate turns on, the monitor starts, any watch window and repeat state end, and "path closed" goes to the
allocator, which publishes (R14, R142, R147, R158, R163). The roster's recomputation is the caller's. -/
def closePath (s : State) (p : Port) : State :=
  let deadline := s.ahead 1000
  let s := s.modFront p (fun f => { f with path := .closed, closeOp := none })
  let s := s.modMonitor p (fun m => m.start deadline)
  let s := s.modWatch p (fun w => { w with window := none, repeatAt := none })
  s.reportPath p true

end State

end Sys2Proof.Machine
end

