-- ==== Sys2Proof/Machine/SupplyRoster.lean ====
section
/-! DEFINITION. The supply roster: the order of the list, the intended supplying set, the recomputation with its switch-over, and
benching and unbenching (chapter 7, R79). -/

namespace Sys2Proof.Machine

open Sys2Proof

/-! ## The order of the list -/

/-- What places an entry: benched, rank of its port, granted power, port number (R113). -/
structure PlaceKey where
  benched : Bool
  rank    : Nat
  power   : Nat
  port    : Nat
  deriving DecidableEq, Repr

/-- One key stands ahead of another: non-benched first, then rank ascending, power descending, port ascending (R113). -/
def PlaceKey.ahead (a b : PlaceKey) : Bool :=
  if a.benched ≠ b.benched then !a.benched
  else if a.rank ≠ b.rank then decide (a.rank < b.rank)
  else if a.power ≠ b.power then decide (b.power < a.power)
  else decide (a.port < b.port)

/-- The key of a record on a port. -/
def State.keyOf (s : State) (p : Port) (r : Record) : PlaceKey :=
  { benched := r.state = .benched, rank := (s.port p).rank, power := r.grantedPower, port := p.index }

/-- The key of a handle on the roster, by its record's present terms. -/
def State.placeKey (s : State) (h : Handle) : Option PlaceKey :=
  match s.portOfHandle h with
  | some p => (s.record p).map (s.keyOf p)
  | none => none

/-- The entry e does not stand behind a key k. -/
def State.standsBehind (s : State) (k : PlaceKey) (e : Handle) : Bool :=
  match s.placeKey e with
  | some ke => k.ahead ke
  | none => true

/-- Inserts a handle of key k ahead of the first entry that stands behind it (R113). -/
def State.insertHandle (s : State) (k : PlaceKey) (h : Handle) : List Handle → List Handle
  | [] => [h]
  | e :: rest => if s.standsBehind k e then h :: e :: rest else e :: s.insertHandle k h rest

namespace State

/-- Stores a roster list, with the ROSTER flag when it differs from before (R112). -/
def setRoster (s : State) (list : List Handle) : State :=
  let s' := { s with roster := { s.roster with list := list } }
  if list = s.roster.list then s' else s'.setDeviceFlag .roster

/-- Places or re-places the entry of a port's record and writes the port's rank into it (R113). -/
def place (s : State) (p : Port) : State :=
  match s.record p with
  | none => s
  | some r =>
    let s := s.setRecord p (some { r with rank := some (s.port p).rank })
    s.setRoster (s.insertHandle (s.keyOf p r) r.handle (s.roster.list.filter (fun h => h ≠ r.handle)))

/-! ## The intended supplying set -/

/-- How many contracts the roster may close (R117). -/
def allowed (s : State) : Nat :=
  (match s.policy.combine with | .single => 1 | .pair => 2) - s.directHeld

/-- The record of an AUTO port meets the conditions of R118. -/
def eligibleSupply (s : State) (p : Port) : Bool :=
  match s.record p with
  | some r => r.state != .benched && s.mode p = .auto && s.inInputWindow r.voltage
  | none => false

/-- The entry of a handle meets the conditions of R118. -/
def eligibleHandle (s : State) (h : Handle) : Bool :=
  match s.portOfHandle h with
  | some p => s.eligibleSupply p
  | none => false

/-- The intended supplying set: the first K eligible entries of the roster (R118). -/
def formSet (s : State) : List Handle := (s.roster.list.filter s.eligibleHandle).take s.allowed

/-- The port's record is in the intended supplying set. -/
def intends (s : State) (p : Port) : Bool :=
  match s.record p with
  | some r => s.roster.intended.contains r.handle
  | none => false

/-- The ports of the intended supplying set, in roster order. -/
def intendedPorts (s : State) : List Port := s.roster.intended.filterMap s.portOfHandle

/-- The paths are in line with the intended supplying set (R125). -/
def inLine (s : State) : Bool :=
  s.intendedPorts.all (fun p => s.path p = .closed) &&
  Port.all.all (fun p =>
    s.mode p != .auto || s.intends p || (s.path p = .opened && s.role p != .waiting && s.role p != .held))

/-- The roster's count: AUTO ports CLOSED or INCOMING, and the DIRECT held count (R121). -/
def rosterCount (s : State) : Nat :=
  Port.all.countP (fun p => s.mode p = .auto && (s.path p = .closed || s.role p = .incoming)) + s.directHeld

/-! ## Recomputation -/

/-- Opens an AUTO path for the roster; its role becomes NONE. -/
def openForRoster (s : State) (p : Port) : State := (s.openPath p).setRole p .none

/-- The first part of R122: an AUTO port whose record is not in the set. A close in progress is abandoned, a CLOSED path of
an ineligible record opens, and one of an eligible record is left for R123 or R124. -/
def dropUnwanted (s : State) (p : Port) : State :=
  if s.mode p = .auto && !s.intends p then
    match s.path p with
    | .closing => s.openForRoster p
    | .closed => if s.eligibleSupply p then s else s.openForRoster p
    | .opened => s.setRole p .none
  else s

/-- An AUTO port whose path is CLOSED and whose record is not in the set (R122). -/
def outgoing (s : State) (p : Port) : Bool := s.mode p = .auto && !s.intends p && s.path p = .closed

/-- The second part of R122: a port of the set whose path is CLOSED takes role NONE. -/
def keepWanted (s : State) (p : Port) : State :=
  if s.intends p && s.path p = .closed then s.setRole p .none else s

/-- A port of the set whose close must still be asked (R122). -/
def pendingClose (s : State) (p : Port) : Bool := s.path p != .closed && s.role p != .incoming

/-- Asks the close of a port of the set: taken it is INCOMING, refused it is WAITING (R123, R126). Ports refused in this
recomputation are collected, and a port of the list skip is not asked. -/
def askClose (skip : List Port) (a : State × List Port) (p : Port) : State × List Port :=
  if skip.contains p then (a.1.setRole p .waiting, a.2)
  else
    match a.1.requestClose p .roster with
    | some s => (s.setRole p .incoming, a.2)
    | none => (a.1.setRole p .waiting, a.2 ++ [p])

/-- Asks the close of a pending port while the roster's count is below two, else leaves it WAITING (R124). -/
def askIfRoom (skip : List Port) (a : State × List Port) (p : Port) : State × List Port :=
  if a.1.rosterCount < 2 then askClose skip a p else (a.1.setRole p .waiting, a.2)

/-- Make before break (R123). -/
def makeBeforeBreak (s : State) (skip : List Port) (waiting : List Port) (out : List Port) : State × List Port :=
  let a := waiting.foldl (askClose skip) (s, [])
  (out.foldl (fun s p => s.setRole p .held) a.1, a.2)

/-- Break before make (R124). -/
def breakBeforeMake (s : State) (skip : List Port) (waiting : List Port) (out : List Port) : State × List Port :=
  waiting.foldl (askIfRoom skip) (out.foldl openForRoster s, [])

/-- The open and close steps of a recomputation on a set already formed (R122 to R124). -/
def switchSteps (s : State) (skip : List Port) : State × List Port :=
  let s := Port.all.foldl dropUnwanted s
  let out := Port.all.filter s.outgoing
  let s := Port.all.foldl keepWanted s
  let wanted := s.intendedPorts
  let waiting := wanted.filter s.pendingClose
  if wanted.all (fun p => s.path p = .closed) then (out.foldl openForRoster s, [])
  else if s.policy.combine = .single ∧ s.rosterCount + waiting.length ≤ 2 then s.makeBeforeBreak skip waiting out
  else s.breakBeforeMake skip waiting out

/-- The switch-over's state after the steps: it ends with SWITCHED when the paths are in line, and SWITCHING follows the set
(R125). -/
def endSteps (s : State) (begun : Bool) : State :=
  let switching := s.intendedPorts.any (fun p => s.path p != .closed)
  let line := s.inLine
  let s' := { s with roster := { s.roster with switchOver := begun && !line, switching := switching } }
  if begun && line then s'.setDeviceFlag .switched else s'

/-- One recomputation: it forms the set and takes the steps (R119). The second part is the ports whose close was refused. -/
def recomputePass (s : State) (skip : List Port) : State × List Port :=
  let s := { s with roster := { s.roster with intended := s.formSet } }
  let begun := s.roster.switchOver || !s.inLine
  let a := s.switchSteps skip
  (a.1.endSteps begun, a.2)

/-- The recomputation of the intended supplying set with its switch-over (R119). A close refused makes one more, in which the
refused ports are not asked (R126). -/
def recompute (s : State) : State :=
  let a := s.recomputePass []
  if a.2.isEmpty then a.1 else (a.1.recomputePass a.2).1

/-- An open request of a block other than the roster, with the recomputation that "path opened" or a change of the DIRECT
held count makes (R16, R119). -/
def openRequest (s : State) (p : Port) : State :=
  if s.path p = .opened then s else (s.openPath p).recompute

/-! ## Benching and unbenching -/

/-- Benches a record IN_FORCE: BENCHED, path opened, role NONE, re-placed, flag, recomputation (R79, R115). -/
def bench (s : State) (p : Port) : State :=
  match s.record p with
  | none => s
  | some r =>
    if r.state = .inForce then
      let s := s.setRecord p (some { r with state := .benched })
      let s := s.openPath p
      let s := s.setRole p .none
      let s := s.place p
      let s := s.setFlag p .benched
      s.recompute
    else s

/-- A BENCHED record returns to IN_FORCE (R116); the re-placing and the recomputation are the caller's. -/
def unbench (s : State) (p : Port) : State :=
  s.modRecord p (fun r => if r.state = .benched then { r with state := .inForce } else r)

/-- A record that enters IN_FORCE is inserted, and the roster recomputes (R112). -/
def rosterInsert (s : State) (p : Port) : State := (s.place p).recompute

/-- A live record's entry is re-placed, and the roster recomputes (R113). -/
def rosterReplace (s : State) (p : Port) : State := (s.place p).recompute

/-- A handle leaves the roster at retirement, the port's role becomes NONE, and the roster recomputes (step 5 of R83). -/
def rosterRemove (s : State) (p : Port) (h : Handle) : State :=
  let s := s.setRole p .none
  if s.roster.list.contains h then (s.setRoster (s.roster.list.filter (fun e => e ≠ h))).recompute else s

end State

end Sys2Proof.Machine
end

