-- ==== Sys2Proof/Machine/Catalogues.lean ====
section
/-! DEFINITION. The tier catalogue: the base tier, validation of a catalogue handed over, eligibility, the automatic choice and the
burst of a tier (chapter 3). -/

namespace Sys2Proof.Machine

open Sys2Proof

/-- The base tier (R43). -/
def baseTier : Tier :=
  { id := 0, kind := .fixed, low := 237, high := 275, ceiling := 90, leaseMax := none, burst := none }

namespace Catalogue

/-- The tiers present, the base tier first and the others in ascending id order (R55). -/
def tiers (c : Catalogue) : List Tier := (if c.base then [baseTier] else []) ++ c.offered

/-- The tier of an id, if the catalogue holds it. -/
def find (c : Catalogue) (id : BitVec 3) : Option Tier := c.tiers.find? (fun t => t.id = id)

/-- The burst the monitor is told for a tier id (R48). -/
def burstOf (c : Catalogue) (id : BitVec 3) : Option Burst :=
  match c.find id with
  | some t => t.burst
  | none => none

end Catalogue

/-! ## Validation -/

/-- A current that a burst adds is over range (R45). -/
def burstOver (t : Tier) : Bool :=
  match t.burst with
  | some b => decide (b.current > 1000)
  | none => false

/-- A lease maximum outside 1 to 600 s (R45). -/
def badLease (t : Tier) : Bool :=
  match t.leaseMax with
  | some n => n = 0 || decide (n > 600)
  | none => false

/-- The first condition of R45 that an entry meets, given the ids of the entries before it. -/
def rejectEntry (earlier : List (BitVec 3)) (t : Tier) : Option RejectReason :=
  if t.id = 0 then some .badId
  else if earlier.contains t.id then some .duplicateId
  else if t.low > t.high then some .badWindow
  else if t.kind = .fixed ∧ t.low ≠ t.high then some .fixedSpread
  else if t.low > 2000 ∨ t.high > 2000 ∨ t.ceiling > 1000 ∨ burstOver t = true then some .overRange
  else if badLease t then some .badLease
  else none

/-- The reason a list of normalised entries is invalid: the first entry found invalid, in the order received (R45). -/
def rejectEntries (earlier : List (BitVec 3)) : List Tier → Option RejectReason
  | [] => none
  | t :: rest =>
    match rejectEntry earlier t with
    | some r => some r
    | none => rejectEntries (t.id :: earlier) rest

/-- Entries of distinct ids in ascending id order (R46). -/
def sortTiers (ts : List Tier) : List Tier := (List.range 8).filterMap (fun n => ts.find? (fun t => t.id.toNat = n))

/-! ## Eligibility and the automatic choice -/

/-- The voltage of a FIXED tier: 250 for tier 0 (R43). -/
def Tier.fixedVoltage (t : Tier) : Nat := if t.id = 0 then 250 else t.low

/-- The terms of a bid; the lease wanted is absent where the part itself bids on tier 0 (R51). -/
structure Terms where
  tier    : BitVec 3
  kind    : TierKind
  low     : Nat
  high    : Nat
  voltage : Nat
  current : Nat
  lease   : Option Nat
  deriving DecidableEq, Repr

namespace State

/-- The tier is eligible under the policy as it stands (R49). -/
def eligible (s : State) (t : Tier) : Bool :=
  decide (t.low ≤ s.policy.vinHigh) && decide (s.policy.vinLow ≤ t.high) && decide (10 ≤ t.ceiling)

/-- The usable voltage of a tier (R50). -/
def usableVoltage (s : State) (t : Tier) : Nat :=
  match t.kind with
  | .fixed => t.fixedVoltage
  | .span => min t.high s.policy.vinHigh

/-- The usable current of a tier (R50). -/
def usableCurrent (s : State) (t : Tier) : Nat := min t.ceiling s.policy.currentMax

/-- The offered power of a tier, a raw product (R50). -/
def offeredPower (s : State) (t : Tier) : Nat := s.usableVoltage t * s.usableCurrent t

/-- A tier is chosen over another: higher offered power, then lower usable voltage, then lower id (R50). -/
def chosenOver (s : State) (a b : Tier) : Bool :=
  if s.offeredPower a ≠ s.offeredPower b then decide (s.offeredPower b < s.offeredPower a)
  else if s.usableVoltage a ≠ s.usableVoltage b then decide (s.usableVoltage a < s.usableVoltage b)
  else decide (a.id.toNat < b.id.toNat)

/-- The better of the choice so far and a tier. -/
def betterTier (s : State) (best : Option Tier) (t : Tier) : Option Tier :=
  match best with
  | none => some t
  | some b => if s.chosenOver t b then some t else some b

/-- LEASE_WANT, lowered to the tier's lease maximum (R51, R88). -/
def leaseWanted (s : State) (t : Tier) : Nat :=
  match t.leaseMax with
  | some n => min s.policy.leaseWant n
  | none => s.policy.leaseWant

/-- The automatic choice as a bid; none when no tier is eligible (R50, R51). -/
def autoChoice (s : State) (p : Port) : Option Terms :=
  (((s.port p).catalogue.tiers.filter s.eligible).foldl s.betterTier none).map (fun t =>
    { tier := t.id, kind := t.kind, low := t.low, high := t.high, voltage := s.usableVoltage t, current := s.usableCurrent t,
      lease := if t.id = 0 then none else some (s.leaseWanted t) })

/-- The base tier's window and contract voltage with a current, and no lease (R43, R51, R61). -/
def baseTerms (current : Nat) : Terms :=
  { tier := 0, kind := .fixed, low := 237, high := 275, voltage := 250, current := current, lease := none }

/-- The current of a base-tier bid of the part itself: the lower of 90 and PORT_CURRENT_MAX (R58, R169). -/
def baseCurrent (s : State) : Nat := min 90 s.policy.currentMax

end State

/-- What a command's terms ask of a tier: none where the tier is absent or not eligible, a SPAN voltage lies outside it, or the
current is above its ceiling (the third check of R62, the fourth of R72). -/
def State.termsFor (s : State) (p : Port) (tier : BitVec 3) (voltage current lease : Nat) : Option Terms :=
  match (s.port p).catalogue.find tier with
  | none => none
  | some t =>
    if s.eligible t = false then none
    else if t.kind = .span ∧ (voltage < t.low ∨ t.high < voltage) then none
    else if t.ceiling < current then none
    else
      some { tier := t.id, kind := t.kind, low := t.low, high := t.high,
             voltage := match t.kind with
               | .fixed => t.fixedVoltage
               | .span => voltage
             current := current
             lease := some (match t.leaseMax with
               | some n => min lease n
               | none => lease) }

end Sys2Proof.Machine
end

