-- ==== Sys2Proof/Machine/Contracts.lean ====
section
/-! DEFINITION. The contract table: handles, retirement with its failures, holds and askings, and fresh bids (chapter 4). -/

namespace Sys2Proof.Machine

open Sys2Proof

/-! ## Handles (R56) -/

/-- The number after a handle, from 255 to 1. -/
def succHandle (h : Handle) : Handle := if h = 255 then 1 else h + 1

namespace State

/-- The first handle from h on that no live record holds; at most five are looked at (R56). -/
def findHandle (s : State) : Nat → Handle → Handle
  | 0, h => h
  | n + 1, h => if (s.portOfHandle h).isSome then s.findHandle n (succHandle h) else h

/-- The handle the next record takes (R56). -/
def nextHandle (s : State) : Handle := s.findHandle 4 (succHandle s.lastHandle)

end State

/-! ## Retirement -/

/-- The cause is in a REBID_CAUSES value: bit n for the cause of code n (R64, R179). -/
def inCauses (set : Word) (c : Cause) : Bool := set.getLsbD c.code

/-- A fresh bid fails with this retirement: DECLINED, NO_REPLY or SETTLE_FAIL before IN_FORCE (R63). -/
def failsBid (r : Record) (c : Cause) : Bool :=
  !r.live && (match c with
    | .declined | .noReply | .settleFail => true
    | .hostRetire | .mode | .lapsed | .supplyLost | .partnerFault | .detached => false)

namespace State

/-- Counts a failed fresh bid: attempt count, holdoff, and at 3 the hold and BID_EXHAUSTED (R63). -/
def countFailure (s : State) (p : Port) : State :=
  let n := min 3 ((s.port p).contract.attempts + 1)
  let s := s.modContract p (fun c => { c with attempts := n, holdoff := some (s.ahead 1000) })
  if n = 3 then (s.modContract p (fun c => { c with hold := true })).setFlag p .bidExhausted else s

/-- What the cause of a retirement does to the port (R64), the failure already counted; the Bool says that an asking follows
at once. -/
def rebidDecision (s : State) (p : Port) (failed : Bool) (cause : Cause) (retryLater : Bool) : State × Bool :=
  let held := s.modContract p (fun c => { c with hold := true })
  match cause with
  | .mode | .detached => (s, false)
  | .hostRetire => (held, false)
  | .declined | .noReply | .settleFail | .lapsed | .supplyLost | .partnerFault =>
    if failed && (s.port p).contract.attempts = 3 then (s, false)
    else if cause = .declined ∧ retryLater then (s, false)
    else if inCauses (s.port p).contract.rebidCauses cause then (s, !failed)
    else (held, false)

/-- Steps 2 to 4 of R83 on the link: the record's exchange is abandoned, its waiting requests are withdrawn, and on a usable link
a RELEASE is asked when the contract was granted or an exchange was abandoned. -/
def releaseLink (s : State) (p : Port) (r : Record) (cause : Cause) (granted : Bool) : State :=
  let abandoned := (s.port p).link.serves r.handle
  let s := s.modLink p (fun l => l.abandon r.handle cause)
  let s := s.modSlot p (fun q => q.withdraw r.handle)
  if r.state ≠ .bidding ∨ abandoned ∨ granted then
    s.requestRelease p { handle := some r.handle, tag := 0, cause := cause }
  else s

/-- Steps 6 and 7 of R83: the last retirement is written and the slot becomes empty; the burst-armed mark is cleared (R152). -/
def emptySlot (s : State) (p : Port) (r : Record) (cause : Cause) : State :=
  let s := s.modContract p (fun c =>
    { c with record := none, lastRetirement := some { handle := r.handle, cause := cause, tick := s.tick } })
  s.modMonitor p (fun m => { m with burstArmed := false })

/-- Retires the record of a port (R83), but for the asking that may follow, which the Bool reports. `granted` says that a
withdraw-marked record's fresh BID ended with GRANT (R81); `retryLater` that a DECLINE said RETRY_LATER (R64). -/
def retireCore (s : State) (p : Port) (cause : Cause) (granted retryLater : Bool) : State × Bool :=
  match s.record p with
  | none => (s, false)
  | some r =>
    let s := s.openPath p
    let s := s.releaseLink p r cause granted
    let s := s.rosterRemove p r.handle
    let s := s.emptySlot p r cause
    let s := s.setFlag p .retired
    let s := if failsBid r cause then s.countFailure p else s
    s.rebidDecision p (failsBid r cause) cause retryLater

/-! ## Fresh bids -/

/-- A new record with the handle it takes, the last handle issued becoming that number (R56, section 4.1). -/
def newRecord (s : State) (t : Terms) : Record :=
  { handle := s.nextHandle, state := .bidding, tier := t.tier, low := t.low, high := t.high, voltage := t.voltage,
    requested := t.current, leaseAsked := t.lease, granted := 0, trim := 0, lease := none, renewal := none,
    amendment := none, refused := false, recallPart := none, initialRecall := none, withdraw := false, stale := false,
    owed := false, owedStale := false, owedBase := false, rank := none, grantedAt := none, bidTick := s.time,
    settleDeadline := none, settledHeard := false }

/-- Puts a new record into an empty slot. -/
def createRecord (s : State) (p : Port) (r : Record) : State :=
  { s with lastHandle := r.handle }.setRecord p (some r)

/-- The BID frame of some terms: the voltage only for a SPAN tier, LEASE_WANT for tier 0 (R24, R60, R72). -/
def bidRequest (s : State) (h : Handle) (replace : Bool) (t : Terms) : BidRequest :=
  { handle := h, replace := replace, tier := t.tier, voltage := if t.kind = .span then some t.voltage else none,
    current := t.current, lease := if t.tier = 0 then s.policy.leaseWant else t.lease.getD s.policy.leaseWant }

/-- A local fresh bid on the base tier: a record in SETTLING, granted what it asks, or 90 for 0; the burst is armed (R61, R152). -/
def localBid (s : State) (p : Port) (current : Nat) : State :=
  let r := s.newRecord (baseTerms current)
  let s := s.createRecord p
    { r with state := .settling, granted := if current = 0 then 90 else current, grantedAt := some s.tick,
             settleDeadline := some (s.ahead 500) }
  s.modMonitor p (fun m => { m with burstArmed := true })

/-- A fresh bid over the link (R60). On a MUTE link it is answered at once with NO_REPLY, and the record is retired (R68); that
retirement sets the holdoff, so no asking follows it. -/
def linkBid (s : State) (p : Port) (t : Terms) : State :=
  let r := s.newRecord t
  let s := s.createRecord p r
  if s.linkState p = .mute then (s.retireCore p .noReply false false).1
  else s.requestBid p (s.bidRequest r.handle false t)

/-- A fresh bid on some terms: tier 0 locally, any other tier over the link (R58, R62). -/
def freshBid (s : State) (p : Port) (t : Terms) : State :=
  if t.tier = 0 then s.localBid p t.current else s.linkBid p t

/-- The bid an asking would make: the base tier on a MUTE link if it is eligible, else the automatic choice (R58). -/
def askingTerms (s : State) (p : Port) : Option Terms :=
  if s.linkState p = .mute then
    if (s.port p).catalogue.base && s.eligible baseTier then some (baseTerms s.baseCurrent) else none
  else s.autoChoice p

/-- The conditions of an automatic fresh bid (R58). -/
def bidDue (s : State) (p : Port) : Bool :=
  let t := s.port p
  t.front.mode = .auto && t.front.attach = .present && t.contract.record.isNone && !t.contract.hold &&
    t.contract.holdoff.isNone && (t.catalogue.held || t.link.state = .mute)

/-- An asking (R59): a fresh bid is made when the conditions of R58 hold and there is a choice. -/
def asking (s : State) (p : Port) : State :=
  if s.bidDue p then
    match s.askingTerms p with
    | some t => s.freshBid p t
    | none => s
  else s

/-- Retires the record of a port, with the asking that may follow (R64, R83). -/
def retireWith (s : State) (p : Port) (cause : Cause) (granted retryLater : Bool) : State :=
  let a := s.retireCore p cause granted retryLater
  if a.2 then a.1.asking p else a.1

/-- Retires the record of a port for a cause. -/
def retire (s : State) (p : Port) (cause : Cause) : State := s.retireWith p cause false false

end State

end Sys2Proof.Machine
end

