-- ==== Sys2Proof/Machine/Amendments.lean ====
section
/-! DEFINITION. Amendments: sending one, automatic and owed ones, the check of a record against the catalogue, taking in a
catalogue, the grant of an amendment, its application and its refusal (R46, R47, R52 to R54, R72 to R78, R109). -/

namespace Sys2Proof.Machine

open Sys2Proof

namespace State

/-! ## Sending -/

/-- The conditions under which an automatic amendment is sent at once (R73). -/
def canAmend (s : State) (p : Port) (r : Record) : Bool :=
  r.live && r.amendment.isNone && !r.renewing && !r.withdraw && s.linkUsable p

end State

/-- The amendment-owed mark is set for a cause (R73). -/
def Record.owe (r : Record) : AmendCause → Record
  | .staleTier => { r with owed := true, owedStale := true }
  | .baseTier => { r with owed := true, owedBase := true }

/-- The record with a pending amendment as it is sent: the refused mark goes (R74), and an automatic amendment clears the amendment-owed
mark with its causes (R73). -/
def Record.amending (r : Record) (a : Amendment) : Record :=
  let keeps := a.origin != .auto
  { r with
    amendment := some a, refused := false
    owed := r.owed && keeps, owedStale := r.owedStale && keeps, owedBase := r.owedBase && keeps }

/-- The cause of an owed amendment still holds: the stale-tier mark it was owed for is set, or the record it was owed for on tier 0 is on
tier 0 (R53, R73; log 15). -/
def Record.causeHolds (r : Record) : Bool := (r.owedStale && r.stale) || (r.owedBase && r.tier = 0)

/-- The record without its stale-tier mark, for which nothing is owed from then on (R53, R73; log 15). -/
def Record.notStale (r : Record) : Record := { r with stale := false, owedStale := false }

namespace State

/-- Gives a record a pending amendment and asks its BID with the replace flag set (R72, R73). -/
def sendAmendment (s : State) (p : Port) (t : Terms) (origin : Origin) : State :=
  match s.record p with
  | none => s
  | some r =>
    let a : Amendment :=
      { tier := t.tier, low := t.low, high := t.high, voltage := t.voltage, requested := t.current, lease := t.lease,
        origin := origin, bidTick := s.time, transition := none }
    let s := s.setRecord p (some (r.amending a))
    s.requestBid p (s.bidRequest r.handle true t)

/-- An automatic amendment with some terms, asked for a cause: sent at once, or the amendment-owed mark is set (R73). -/
def askAmendment (s : State) (p : Port) (cause : AmendCause) (t : Terms) : State :=
  match s.record p with
  | none => s
  | some r =>
    if s.canAmend p r then s.sendAmendment p t .auto
    else s.setRecord p (some (r.owe cause))

/-- The choice is worth an owed amendment: it names other terms than the record's present tier, contract voltage and granted
current (R73; log 15). -/
def newTerms (r : Record) (t : Terms) : Bool := !(t.tier = r.tier && t.voltage = r.voltage && t.current = r.granted)

/-- Sends an owed amendment when the conditions of R73 hold on an AUTO port and its cause still holds, with the choice made now. -/
def sendOwed (s : State) (p : Port) : State :=
  match s.record p with
  | none => s
  | some r =>
    if r.owed && s.mode p = .auto && s.canAmend p r && r.causeHolds then
      match s.autoChoice p with
      | some t => if newTerms r t then s.sendAmendment p t .auto else s
      | none => s
    else s

/-! ## The check against the catalogue -/

/-- The catalogue backs the record's granted terms (R52). -/
def backed (s : State) (p : Port) (r : Record) : Bool :=
  match (s.port p).catalogue.find r.tier with
  | some t => t.low = r.low && t.high = r.high && decide (r.granted ≤ t.ceiling)
  | none => false

/-- The check of a live record against the catalogue: it clears or sets the stale-tier mark, and on an AUTO port a failure asks
an automatic amendment with the choice of the moment (R52, R53, R54). -/
def checkRecord (s : State) (p : Port) : State :=
  match s.record p with
  | none => s
  | some r =>
    if !r.live then s
    else if s.backed p r then s.setRecord p (some r.notStale)
    else
      let s := s.setRecord p (some { r with stale := true })
      if s.mode p = .auto then
        match s.autoChoice p with
        | some t => s.askAmendment p .staleTier t
        | none => s
      else s

/-- The base-tier test: a live record on tier 0 of an AUTO port asks an automatic amendment when the choice names another
tier (R73). Where a failed check on the same catalogue has just sent one, that one is pending, and this one is owed. -/
def baseTierTest (s : State) (p : Port) : State :=
  match s.record p with
  | none => s
  | some r =>
    if r.live && r.tier = 0 && s.mode p = .auto && (s.port p).catalogue.held then
      match s.autoChoice p with
      | some t => if t.tier = 0 then s else s.askAmendment p .baseTier t
      | none => s
    else s

/-- The catalogue arrived after a bid tick (R52, R69, R76; log 6). -/
def arrivedAfter (s : State) (p : Port) (bid : Instant) : Bool :=
  match (s.port p).catalogue.arrival with
  | some a => decide (bid < a)
  | none => false

/-! ## Taking in a catalogue -/

/-- A valid catalogue is accepted (R46), with the base-tier test (R73), made after the check as R69 has it (log 33), and the asking (R59) that
follow. -/
def acceptCatalogue (s : State) (p : Port) (entries : List Tier) : State :=
  let s := s.modCatalogue p (fun c =>
    { c with offered := sortTiers entries, arrival := some s.time, held := true,
             outcome := some { rejected := none, tick := s.tick } })
  let s := s.checkRecord p
  let s := s.baseTierTest p
  let s := s.setFlag p .tiers
  s.asking p

/-- An invalid catalogue is rejected with its reason (R47), and an asking follows (R59). -/
def rejectCatalogue (s : State) (p : Port) (reason : RejectReason) : State :=
  let s := s.modCatalogue p (fun c => { c with held := true, outcome := some { rejected := some reason, tick := s.tick } })
  let s := s.setFlag p .tiers
  s.asking p

/-- A complete list of raw entries, each with its scale, is handed to the tier catalogue (R44 to R47). -/
def takeCatalogue (s : State) (p : Port) (entries : List (BitVec 2 × RawEntry)) : State :=
  let tiers := entries.map (fun e => normalise e.1 e.2)
  match rejectEntries [] tiers with
  | some reason => s.rejectCatalogue p reason
  | none => s.acceptCatalogue p tiers

/-! ## The outcome of an amendment -/

/-- An amendment is refused: it is removed, the contract continues, AMENDED is set, and an owed amendment may be sent (R74). -/
def refuseAmendment (s : State) (p : Port) : State :=
  let s := s.modRecord p (fun r => { r with amendment := none, refused := true })
  let s := s.setFlag p .amended
  s.sendOwed p

/-- The recall an amendment's application keeps: one that arrived after the amendment's bid tick and lies below the grant (R109). The
last sentence of R110 lets a recall that arrived before an AMEND remain above its ceiling: the model follows R109 (log 37). -/
def keptRecall (a : Amendment) (granted : Nat) (c : Option Recall) : Option Recall :=
  c.filter (fun c => decide (a.bidTick < c.arrival) && decide (c.ceiling < granted))

/-- The record after an amendment has applied at a tick (R76, R116). -/
def amendedRecord (s : State) (r : Record) (a : Amendment) (granted lease : Nat) : Record :=
  { r with
    tier := a.tier, low := a.low, high := a.high, voltage := a.voltage, requested := a.requested, granted := granted
    grantedAt := some s.tick
    lease := if a.tier = 0 then none else some { length := lease, expiry := some (s.ahead (lease * 1000)) }
    renewal := none
    trim := if r.state = .benched then 0 else r.trim
    state := if r.state = .benched then .inForce else r.state
    recallPart := keptRecall a granted r.recallPart
    stale := false, owedStale := false, owedBase := r.owedBase && a.tier = 0
    amendment := none }

/-- A pending amendment applies with the granted current and lease (R76): the new terms, the burst armed (R152), one publication on
a CLOSED path (R142), AMENDED, the roster re-placed, the recheck, and an owed amendment. -/
def applyAmendment (s : State) (p : Port) (granted lease : Nat) : State :=
  match s.record p with
  | none => s
  | some r =>
    match r.amendment with
    | none => s
    | some a =>
      let s := s.setRecord p (some (s.amendedRecord r a granted lease))
      let s := s.modSlot p (fun q => q.withdrawRenew r.handle)
      let s := s.modMonitor p (fun m => { m with burstArmed := true })
      let s := if s.path p = .closed then s.publish else s
      let s := s.setFlag p .amended
      let s := s.rosterReplace p
      let s := if s.arrivedAfter p a.bidTick then s.checkRecord p else s
      s.sendOwed p

/-- The tests of an amendment's GRANT (R75). -/
def amendmentGrantOk (a : Amendment) (tier : BitVec 3) (voltage current lease : Nat) : Bool :=
  tier = a.tier && voltage = a.voltage && current != 0 && (lease != 0 || a.tier = 0)

/-- A grant lowered to what was requested, 0 requesting the full ceiling (R66, R75). -/
def loweredGrant (requested current : Nat) : Nat := if requested = 0 then current else min current requested

/-- A GRANT ends an amendment's BID exchange on a record without the withdraw mark (R75): it applies at once, begins a
voltage transition (R77), or refuses the amendment. -/
def grantAmendment (s : State) (p : Port) (r : Record) (a : Amendment) (tier : BitVec 3) (voltage current lease : Nat) : State :=
  if amendmentGrantOk a tier voltage current lease then
    let granted := loweredGrant a.requested current
    if voltage = r.voltage then s.applyAmendment p granted (min lease 600)
    else
      let t : Transition :=
        { granted := granted, lease := min lease 600, deadline := s.ahead 500, settledHeard := false }
      s.setRecord p (some { r with amendment := some { a with transition := some t } })
  else s.refuseAmendment p

/-- A sample or SETTLED puts a transition to its test: with SETTLED heard and the latest sample in the new window, the amendment
applies (R78). -/
def testTransition (s : State) (p : Port) : State :=
  match s.record p with
  | none => s
  | some r =>
    match r.amendment with
    | none => s
    | some a =>
      match a.transition with
      | none => s
      | some t =>
        if r.live && t.settledHeard && windowTest (s.port p).front.voltage a.low a.high then
          s.applyAmendment p t.granted t.lease
        else s

end State

end Sys2Proof.Machine
end

