-- ==== Sys2Proof/Machine/Renewals.lean ====
section
/-! DEFINITION. Leases and renewal: the renewal point, a RENEW asked, and the outcomes of its exchange (chapter 5). -/

namespace Sys2Proof.Machine

open Sys2Proof

namespace State

/-- The renewal lead of a lease length, in ticks (R86). -/
def renewalLead (s : State) (length : Nat) : Nat := length * 10 * s.policy.renewLead

/-- The renewal point of a lease has been reached: the expiry less the present tick, as a modular difference, is at or below the
lead (R86). -/
def renewalPointReached (s : State) (l : Lease) : Bool :=
  match l.expiry with
  | some e => decide ((e - s.tick).toInt ≤ (s.renewalLead l.length : Int))
  | none => false

/-- The lease wanted of a RENEW: LEASE_WANT, lowered to the lease maximum of the record's tier if the catalogue holds it (R88). -/
def renewLease (s : State) (p : Port) (r : Record) : Nat :=
  match (s.port p).catalogue.find r.tier with
  | some t => s.leaseWanted t
  | none => s.policy.leaseWant

/-- A RENEW exchange ends with NO_REPLY (R91, the last row of R94): a renewal IN_FLIGHT waits 2000 ms, and RENEW_FAIL is
set at the first attempt; an owed amendment may be sent. A renewal in another state stays as it is (log 41). -/
def renewNoReply (s : State) (p : Port) : State :=
  match s.record p with
  | none => s
  | some r =>
    match r.renewal with
    | some n =>
      if n.state = .inFlight then
        let s := s.setRecord p (some { r with renewal := some { n with state := .retryWait (s.ahead 2000) } })
        let s := if n.attempts = 1 then s.setFlag p .renewFail else s
        s.sendOwed p
      else s.sendOwed p
    | none => s.sendOwed p

/-- A renewal attempt: the renewal is IN_FLIGHT with an attempt count, and a RENEW is asked; a MUTE link answers it at once with
NO_REPLY (R87, R88, R92). -/
def askRenew (s : State) (p : Port) (r : Record) (attempts : Nat) : State :=
  let s := s.setRecord p (some { r with renewal := some { state := .inFlight, attempts := attempts } })
  if s.linkState p = .mute then s.renewNoReply p
  else s.requestRenew p { handle := r.handle, lease := s.renewLease p r }

/-- The conditions under which a renewal begins (R87). -/
def renewalDue (s : State) (r : Record) : Bool :=
  r.live && r.renewal.isNone && !r.withdraw &&
    (match r.lease with | some l => s.renewalPointReached l | none => false)

/-- The test of R87: a renewal begins when its conditions hold. -/
def renewalTest (s : State) (p : Port) : State :=
  match s.record p with
  | none => s
  | some r => if s.renewalDue r then s.askRenew p r 1 else s

/-- The lease after a RENEWED above 0 (steps 1 and 2 of R89). -/
def renewedLease (s : State) (lease : Nat) : Lease :=
  { length := min lease 600, expiry := some (s.ahead (min lease 600 * 1000)) }

/-- A RENEWED with a lease above 0 ends the RENEW exchange: length, expiry, renewal absent, burst armed, flag, owed amendment (R89,
the first row of R94), whatever the state of the renewal (log 41). A record whose amendment to tier 0 has removed the lease takes none back (R85; log 32). -/
def extendLease (s : State) (p : Port) (lease : Nat) : State :=
  let s := s.modRecord p (fun r => { r with lease := r.lease.map (fun _ => s.renewedLease lease), renewal := none })
  let s := s.modMonitor p (fun m => { m with burstArmed := true })
  let s := s.setFlag p .renewed
  s.sendOwed p

/-- A RENEWED with lease 0 ends the RENEW exchange: REFUSED, with RENEW_FAIL unless an earlier attempt of the renewal has set it (R90,
the second row of R94). A renewal that is not IN_FLIGHT counts as absent: attempt count 1 (log 41). -/
def refuseRenewal (s : State) (p : Port) : State :=
  match s.record p with
  | none => s
  | some r =>
    let attempts := match r.renewal with | some n => if n.state = .inFlight then n.attempts else 1 | none => 1
    let s := s.setRecord p (some { r with renewal := some { state := .refused, attempts := attempts } })
    let s := if attempts = 1 then s.setFlag p .renewFail else s
    s.sendOwed p

/-- A RENEWED that ends the RENEW exchange of the port's record (R89, R90, R94). R89 and R90 speak of a renewal IN_FLIGHT and R94 of an absent
one; over one in RETRY_WAIT or REFUSED it is taken as R94 says (log 41). -/
def takeRenewed (s : State) (p : Port) (lease : Nat) : State :=
  match s.record p with
  | none => s
  | some _ => if lease = 0 then s.refuseRenewal p else s.extendLease p lease

end State

end Sys2Proof.Machine
end

