-- ==== Sys2Proof/Machine/Settling.lean ====
section
/-! DEFINITION. Settling and the entry into IN_FORCE, by SETTLED or by a sample (R61, R69, R78). -/

namespace Sys2Proof.Machine

open Sys2Proof

namespace State

/-- A record in SETTLING enters IN_FORCE: the steps of R69, and the test of R87. The manual does not place that test among the steps: the
model makes it last, so an automatic amendment of steps 3 and 4 is sent and not owed (log 36). -/
def enterInForce (s : State) (p : Port) : State :=
  match s.record p with
  | none => s
  | some r =>
    let s := s.setRecord p (some { r with state := .inForce })
    let s := s.modContract p (fun c => { c with attempts := 0, holdoff := none })
    let s := s.rosterInsert p
    let s := if s.arrivedAfter p r.bidTick then s.checkRecord p else s
    let s := s.baseTierTest p
    let s := s.setFlag p .granted
    s.renewalTest p

/-- What a sample, or SETTLED, makes of a record in SETTLING: it enters IN_FORCE when the latest sample lies in its window and,
on a tier other than 0, SETTLED has been heard (R61, R69). -/
def settlingTest (s : State) (p : Port) : State :=
  match s.record p with
  | none => s
  | some r =>
    if r.state = .settling ∧ (r.tier = 0 ∨ r.settledHeard = true) ∧
        windowTest (s.port p).front.voltage r.low r.high = true then s.enterInForce p
    else s

/-- The lease of a record once SETTLED has arrived (R69, R85). -/
def startedLease (s : State) (l : Lease) : Lease := { l with expiry := some (s.ahead (l.length * 1000)) }

/-- SETTLED on a record in SETTLING: the first one on a bid over the link sets the mark and the lease expiry and makes
the test; on a local base-tier record it is ignored (R61, R69). -/
def settleFresh (s : State) (p : Port) (r : Record) : State :=
  if r.tier = 0 ∨ r.settledHeard = true then s
  else
    let s := s.setRecord p (some { r with settledHeard := true, lease := r.lease.map s.startedLease })
    s.settlingTest p

/-- SETTLED on a live record: in a voltage transition the first one sets the settled-heard mark and makes the test (R78). -/
def settleTransition (s : State) (p : Port) (r : Record) : State :=
  match r.amendment with
  | none => s
  | some a =>
    match a.transition with
    | none => s
    | some t =>
      if t.settledHeard then s
      else
        let heard : Transition := { t with settledHeard := true }
        let s := s.setRecord p (some { r with amendment := some { a with transition := some heard } })
        s.testTransition p

/-- A SETTLED frame (R69, R71, R78). -/
def takeSettled (s : State) (p : Port) : State :=
  match s.record p with
  | none => s
  | some r =>
    match r.state with
    | .bidding => s
    | .settling => s.settleFresh p r
    | .inForce | .benched => s.settleTransition p r

end State

end Sys2Proof.Machine
end

