-- ==== Sys2Proof/Machine/Recalls.lean ====
section
/-! DEFINITION. Recalls: taking one, the yield test, a lift, the initial recall, and the recall deadline (chapter 6). -/

namespace Sys2Proof.Machine

open Sys2Proof

/-- The deadline field of a RECALL, clamped to 10 to 1000 ms (R101). -/
def clampDeadline (ms : Nat) : Nat := min 1000 (max 10 ms)

namespace State

/-- The yield test: an OWED recall is met over a path that is not CLOSED, or when the latest current is at or below its
ceiling (R103; log 17). -/
def yieldTest (s : State) (p : Port) : State :=
  match s.record p with
  | none => s
  | some r =>
    match r.recallPart with
    | none => s
    | some c =>
      if s.path p ≠ .closed ∨ (s.port p).front.current ≤ c.ceiling then s.meetRecall p else s

/-- The recall a RECALL frame sets at this tick, its deadline field already clamped (R101). -/
def newRecall (s : State) (ceiling clamped : Nat) (tag : Tag) : Recall :=
  { ceiling := ceiling, deadline := s.ahead clamped, yield := .owed, tag := tag, arrival := s.time }

/-- A recall below the grant is set or replaced (R102). -/
def setRecall (s : State) (p : Port) (r : Record) (ceiling deadline : Nat) (tag : Tag) : State :=
  let c := s.newRecall ceiling (clampDeadline deadline) tag
  let s := s.modSlot p (fun q => q.withdrawYield r.handle)
  let s := s.reviseRecord p (fun r => { r with recallPart := some c })
  let s := s.setFlag p .recall
  s.yieldTest p

/-- A recall at or above the grant lifts the recall the record carries (R105). -/
def liftRecall (s : State) (p : Port) (r : Record) : State :=
  match r.recallPart with
  | none => s
  | some _ =>
    let s := s.reviseRecord p (fun r => { r with recallPart := none })
    s.setFlag p .recall

/-- A RECALL frame (R71, R102, R105, R107, R108). -/
def takeRecall (s : State) (p : Port) (ceiling deadline : Nat) (tag : Tag) : State :=
  match s.record p with
  | none => s
  | some r =>
    if r.state = .bidding then
      let held : InitialRecall := { ceiling := ceiling, deadline := clampDeadline deadline, tag := tag }
      s.setRecord p (some { r with initialRecall := some held })
    else if ceiling < r.granted then s.setRecall p r ceiling deadline tag
    else s.liftRecall p r

/-- At an accepted grant the initial recall is set as an OWED recall, which the open path meets at once, or dropped (R107). -/
def applyInitialRecall (s : State) (p : Port) : State :=
  match s.record p with
  | none => s
  | some r =>
    match r.initialRecall with
    | none => s
    | some i =>
      if i.ceiling < r.granted then
        let s := s.setRecord p (some
          { r with initialRecall := none, recallPart := some (s.newRecall i.ceiling i.deadline i.tag) })
        let s := s.setFlag p .recall
        s.yieldTest p
      else s.setRecord p (some { r with initialRecall := none })

/-- A recall deadline reached with the yield OWED: OPENED, benched, YIELD OPENED (R104). -/
def recallOverdue (s : State) (p : Port) (r : Record) (c : Recall) : State :=
  let s := s.setRecord p (some { r with recallPart := some { c with yield := .opened } })
  let s := s.bench p
  s.requestYield p { handle := r.handle, tag := c.tag, status := .opened }

end State

end Sys2Proof.Machine
end

