-- ==== Sys2Proof/Machine/Enforcement.lean ====
section
/-! DEFINITION. The overdraw monitor and the supply watch: samples, window ends, trim, recovery and supply loss (chapter 9). -/

namespace Sys2Proof.Machine

open Sys2Proof

namespace State

/-! ## Trim -/

/-- Sets the recovery deadline 1000 ms ahead on a port in AUTO_TRIM (R150, R154, R155). -/
def restartRecovery (s : State) (p : Port) : State :=
  let deadline := s.ahead 1000
  s.modMonitor p (fun m => if m.trimMode = .auto then { m with recovery := some deadline } else m)

/-- Raises the trim steps, stopping at 15, with the effective ceiling that follows (R57). -/
def raiseTrim (s : State) (p : Port) (steps : Nat) : State :=
  s.reviseRecord p (fun r => { r with trim := min 15 (r.trim + steps) })

/-- The trim steps as they stood before any droop or strain raise of the present tick (R150). -/
def trimBefore (s : State) (p : Port) (r : Record) : Nat :=
  match (s.port p).monitor.raiseBase with
  | some (t, n) => if t = s.time then n else r.trim
  | none => r.trim

/-- A droop or strain raise on a port in AUTO_TRIM: it keeps the trim steps as they stood before the first raise of the tick, raises
them, and sets the recovery deadline (R150, R154, R155). -/
def troubleTrim (s : State) (p : Port) (steps : Nat) : State :=
  match s.record p with
  | none => s
  | some r =>
    let base := some (s.time, s.trimBefore p r)
    let s := s.modMonitor p (fun m => { m with raiseBase := base })
    let s := s.raiseTrim p steps
    s.restartRecovery p

/-- A strain mark that reaches the monitor (R26, R155). -/
def strainTrim (s : State) (p : Port) : State :=
  if s.path p = .closed ∧ (s.port p).monitor.trimMode = .auto then s.troubleTrim p 4 else s

/-! ## Overdraw windows -/

/-- The margin of an effective ceiling: OVERDRAW_MARGIN percent, at least 5 (R148). -/
def overdrawMargin (s : State) (ceiling : Nat) : Nat := max 5 (ceiling * s.policy.overdrawMargin / 100)

/-- What a burst window adds to the margin at this tick (R148, R152). -/
def burstMargin (s : State) (w : OverdrawWindow) : Nat :=
  match w.burst with
  | some (current, last) => if reached s.tick last then 0 else current
  | none => 0

/-- The sample is over the limit (R148). -/
def overLimit (s : State) (p : Port) (r : Record) (w : OverdrawWindow) : Bool :=
  decide (r.effectiveCeiling + s.overdrawMargin r.effectiveCeiling + s.burstMargin w < (s.port p).front.current)

/-- A window at its beginning; while the burst is armed it is a burst window and asks the catalogue (R149, R152). -/
def newOverdrawWindow (s : State) (p : Port) (r : Record) : OverdrawWindow :=
  let armed := (s.port p).monitor.burstArmed
  { count := 0, allOver := true, isBurst := armed, due := false
    burst :=
      if armed then ((s.port p).catalogue.burstOf r.tier).map (fun b => (b.current, s.ahead b.length))
      else none }

/-- One sample in the overdraw window of a CLOSED path (R149). -/
def overdrawSample (s : State) (p : Port) : State :=
  match s.record p with
  | none => s
  | some r =>
    if s.path p = .closed then
      let m := (s.port p).monitor
      let w := m.window.getD (s.newOverdrawWindow p r)
      let w' : OverdrawWindow :=
        { w with count := w.count + 1, allOver := w.allOver && s.overLimit p r w
                 due := decide (s.policy.overdrawWindow ≤ w.count + 1) }
      s.modMonitor p (fun m => { m with window := some w', burstArmed := m.burstArmed && m.window.isSome })
    else s

/-- Stage 1 of an overdraw (R150). -/
def overdrawStage1 (s : State) (p : Port) : State :=
  let s := s.raiseTrim p 2
  let s := s.setFlag p .overdraw
  s.restartRecovery p

/-- Stage 2 of an overdraw (R151). -/
def overdrawStage2 (s : State) (p : Port) : State :=
  let s := s.setFlag p .overdraw
  s.bench p

/-- The end of an overdraw window: quietly, or as an overdraw (R149 to R151). -/
def endOverdrawWindow (s : State) (p : Port) (w : OverdrawWindow) : State :=
  let s := s.modMonitor p (fun m => { m with window := none })
  match s.record p with
  | none => s
  | some r =>
    if w.allOver = false then s
    else if s.trimBefore p r < 15 then s.overdrawStage1 p
    else s.overdrawStage2 p

/-- The recovery deadline is reached on a CLOSED path in AUTO_TRIM: one step less, and the deadline set anew (R156). -/
def recover (s : State) (p : Port) : State :=
  let s := s.reviseRecord p (fun r => { r with trim := r.trim - 1 })
  s.restartRecovery p

/-! ## The supply watch -/

/-- The dropout threshold a sample is counted against: that of the repeat state, else the record's (R159, R163). -/
def watchThreshold (s : State) (p : Port) : Option Nat :=
  match (s.port p).watch.repeatAt with
  | some t => some t
  | none => (s.record p).map (fun r => s.dropoutThreshold r.low)

/-- The sample lies below the threshold; without one nothing clears the all-below mark. -/
def belowThreshold (s : State) (p : Port) : Bool :=
  match s.watchThreshold p with
  | some t => decide ((s.port p).front.voltage < t)
  | none => true

/-- A droop sample: rejected low by the window test, at or above the dropout threshold, outside a transition (R154). -/
def droopSample (s : State) (p : Port) : Bool :=
  match s.record p with
  | some r =>
    let v := (s.port p).front.voltage
    !r.inTransition && decide (v < bandLow r.low) && decide (s.dropoutThreshold r.low ≤ v)
  | none => false

/-- The port's record carries the transition mark. -/
def transitionStands (s : State) (p : Port) : Bool :=
  match s.record p with
  | some r => r.inTransition
  | none => false

/-- One sample in the watch window of a port, begun if none is running (R158). -/
def watchSample (s : State) (p : Port) : State :=
  if s.watchRuns p then
    let w := (s.port p).watch.window.getD { count := 0, allBelow := true, droop := 0, touched := false }
    let w' : WatchWindow :=
      { count := w.count + 1, allBelow := w.allBelow && s.belowThreshold p
        droop := if s.droopSample p then w.droop + 1 else w.droop
        touched := w.touched || s.transitionStands p }
    s.modWatch p (fun x => { x with window := some w' })
  else s

/-- A supply loss on a CLOSED path (R161). The repeat state of step 5 is stored first, so that a running watch window runs on
through it (R163; log 19). -/
def supplyLoss (s : State) (p : Port) (cause : Cause) : State :=
  match s.record p with
  | none => s
  | some r =>
    let threshold := s.dropoutThreshold r.low
    let s := s.modWatch p (fun w => { w with repeatAt := some threshold })
    let s := s.openPath p
    let lastLost := !s.anyClosed
    let s := s.retire p cause
    let s := s.setFlag p .loss
    if lastLost then s.setPassEnable false else s

/-- The droop judgement of a window (R154). -/
def judgeDroop (s : State) (p : Port) (w : WatchWindow) : State :=
  if s.path p = .closed ∧ (s.port p).monitor.trimMode = .auto ∧ 3 ≤ w.droop ∧ w.touched = false then s.troubleTrim p 1
  else s

/-- The judgement of a window for repeated reports (R163). -/
def judgeRepeat (s : State) (p : Port) (w : WatchWindow) : State :=
  if (s.port p).watch.repeatAt.isSome ∧ s.watchEnable = true ∧ (s.port p).front.attach = .present then
    if w.allBelow then s.setFlag p .loss
    else (s.modWatch p (fun x => { x with repeatAt := none })).tidyWatch p
  else s

/-- The window is a supply loss: the watch is on, the path CLOSED, and either a forced-loss test stands or every sample lay below
the threshold with no transition (R160, R164). -/
def lossJudged (s : State) (p : Port) (w : WatchWindow) : Bool :=
  s.watchEnable && s.path p = .closed && ((s.port p).watch.forced || (w.allBelow && !w.touched))

/-- The end of a watch window: droop, loss, repeated reports and forced tests (R158). -/
def endWatchWindow (s : State) (p : Port) (w : WatchWindow) : State :=
  let s := s.modWatch p (fun x => { x with window := none })
  let s := s.judgeDroop p w
  if s.lossJudged p w then s.supplyLoss p .supplyLost
  else
    let s := s.judgeRepeat p w
    if s.watchEnable && (s.port p).watch.forced && s.path p != .closed then s.setFlag p .loss else s

/-- A FAULT frame: a supply loss on a CLOSED path while the watch is on, else a retirement (R82, R162; log 20). -/
def takeFault (s : State) (p : Port) : State :=
  if s.path p = .closed ∧ s.watchEnable = true then s.supplyLoss p .partnerFault else s.retire p .partnerFault

end State

end Sys2Proof.Machine
end

