-- ==== Sys2Proof/Machine/Replies.lean ====
section
/-! DEFINITION. What partner frames, their absence and a disturbed wire do: the outcomes of exchanges, stale replies, RESYNC, MUTE and
the TIERS assembly (R25 to R39, R66 to R68, R81). -/

namespace Sys2Proof.Machine

open Sys2Proof

/-- The pending amendment of a record whose BID exchange has not ended. -/
def Record.openAmendment (r : Record) : Option Amendment := r.amendment.filter (fun a => a.transition.isNone)

namespace State

/-! ## Outcomes of a BID exchange -/

/-- A fresh bid ends declined (R67). -/
def declineFresh (s : State) (p : Port) (retryLater : Bool) : State :=
  let s := s.setFlag p .declined
  s.retireWith p .declined false retryLater

/-- An accepted grant of a fresh bid: the record enters SETTLING, the burst is armed, and an initial recall is applied (R66, R107,
R152). -/
def acceptFresh (s : State) (p : Port) (r : Record) (current lease : Nat) : State :=
  let s := s.setRecord p (some
    { r with
      state := .settling, granted := loweredGrant r.requested current
      lease := if r.tier = 0 then none else some { length := min lease 600, expiry := none }
      grantedAt := some s.tick, settleDeadline := some (s.ahead 500) })
  let s := s.modMonitor p (fun m => { m with burstArmed := true })
  s.applyInitialRecall p

/-- A GRANT ends the exchange of a fresh bid (R66). -/
def grantFresh (s : State) (p : Port) (r : Record) (tier : BitVec 3) (voltage current lease : Nat) : State :=
  if tier ≠ r.tier ∨ voltage ≠ r.voltage then s.declineFresh p false
  else if current = 0 ∨ (lease = 0 ∧ r.tier ≠ 0) then s.declineFresh p false
  else s.acceptFresh p r current lease

/-- The exchange of a withdraw-marked record ends (R81). -/
def endWithdrawn (s : State) (p : Port) (r : Record) (granted : Bool) : State :=
  s.retireWith p .hostRetire (granted && r.state = .bidding) false

/-- A GRANT that ended the BID exchange of the port's record (R66, R75, R81). -/
def takeGrant (s : State) (p : Port) (tier : BitVec 3) (voltage current lease : Nat) : State :=
  match s.record p with
  | none => s
  | some r =>
    if r.withdraw then s.endWithdrawn p r true
    else if r.state = .bidding then s.grantFresh p r tier voltage current lease
    else
      match r.openAmendment with
      | some a => s.grantAmendment p r a tier voltage current lease
      | none => s

/-- A DECLINE that ended the BID exchange of the port's record (R67, R74, R81). -/
def takeDecline (s : State) (p : Port) (retryLater : Bool) : State :=
  match s.record p with
  | none => s
  | some r =>
    if r.withdraw then s.endWithdrawn p r false
    else if r.state = .bidding then s.declineFresh p retryLater
    else if (r.openAmendment).isSome then s.refuseAmendment p
    else s

/-- A BID ends with NO_REPLY, waiting or in flight (R68, R74, R81). -/
def bidNoReply (s : State) (p : Port) : State :=
  match s.record p with
  | none => s
  | some r =>
    if r.withdraw then s.endWithdrawn p r false
    else if r.state = .bidding then s.retire p .noReply
    else if (r.openAmendment).isSome then s.refuseAmendment p
    else s

/-! ## Exchanges that end without a reply -/

/-- The exchange in flight ends with NO_REPLY (R32, R35, R38, R41): a HELLO in OPENING begins anew, in RESYNC it only ends (log 12), a
fresh bid's tag is remembered, and the contract table takes the rest. -/
def exchangeNoReply (s : State) (p : Port) : State :=
  match (s.port p).link.exchange with
  | none => s
  | some e =>
    match e.body with
    | .hello => s.modLink p (fun l => if l.state = .opening then l.endExchange.beginExchange .hello else l.endExchange)
    | .bid b =>
      let s := s.modLink p (fun l =>
        { l.endExchange with
          memory := if b.replace then l.memory else some { tag := e.tag, kind := .bid, cause := .noReply } })
      s.bidNoReply p
    | .renew _ =>
      let s := s.modLink p Link.endExchange
      s.renewNoReply p

/-- The send of the exchange in flight has failed: a retry is spent, or the exchange ends with NO_REPLY (R32, R38). -/
def sendFailed (s : State) (p : Port) : State :=
  match (s.port p).link.exchange with
  | none => s
  | some e =>
    if e.retries = 0 then s.exchangeNoReply p
    else s.modLink p (fun l => { l with exchange := some { e with retries := e.retries - 1, deadline := none } })

/-! ## RESYNC and MUTE -/

/-- The link enters RESYNC and begins its first break: it records where to return, stops its frame, and throws the assembly away (R37,
R38). -/
def beginResync (s : State) (p : Port) : State :=
  let deadline := s.ahead 3
  s.modLink p (fun l =>
    { l.cutOff with
      state := .resync, assembly := none, receiving := false
      resync := some
        { breaks := 0, phase := .breaking, deadline := deadline
          returnTo := if l.state = .opening then .opening else .ready } })

/-- RESYNC with what it does to the exchange in flight (R38; log 11, 12). -/
def enterResync (s : State) (p : Port) : State := (s.beginResync p).sendFailed p

/-- MUTE is entered: every request waiting is taken out of the slot, and each RENEW and BID answered with NO_REPLY (step 3 of
R39). -/
def answerWaiting (s : State) (p : Port) : State :=
  let q := (s.port p).link.slot
  let s := s.modSlot p (fun _ => .empty)
  let s := if q.renew.isSome then s.renewNoReply p else s
  if q.bid.isSome then s.bidNoReply p else s

/-- The link becomes MUTE (R39), which is an asking (R59). -/
def enterMute (s : State) (p : Port) : State :=
  let s := s.modLink p (fun l =>
    { l with state := .mute, openingDeadline := none, resync := none, sending := none, receiving := false })
  let s := s.exchangeNoReply p
  let s := s.answerWaiting p
  let s := s.modLink p (fun l => { l with memory := none, assembly := none })
  let s := s.setFlag p .link
  s.asking p

/-! ## Replies -/

/-- A frame's tag is that of the exchange in flight, whose kind the test names (R31). -/
def matchesExchange (s : State) (p : Port) (tag : Tag) (kind : ExchangeBody → Bool) : Bool :=
  match (s.port p).link.exchange with
  | some e => e.tag = tag && kind e.body
  | none => false

/-- A stale reply (R36): `undoes` is the kind of exchange it would undo, absent for a DECLINE. -/
def staleReply (s : State) (p : Port) (tag : Tag) (undoes : Option AbandonedKind) : State :=
  match (s.port p).link.memory with
  | some m =>
    if m.tag = tag then
      s.modLink p (fun l =>
        { l with
          memory := none
          slot := if undoes = some m.kind then l.slot.putRelease { handle := none, tag := tag, cause := m.cause }
                  else l.slot })
    else s
  | none => s

end State

/-- A body that a GRANT or DECLINE answers. -/
def ExchangeBody.isBid : ExchangeBody → Bool
  | .bid _ => true
  | .hello | .renew _ => false

/-- A body that a RENEWED answers. -/
def ExchangeBody.isRenew : ExchangeBody → Bool
  | .renew _ => true
  | .hello | .bid _ => false

/-- A body that a completed TIERS assembly answers. -/
def ExchangeBody.isHello : ExchangeBody → Bool
  | .hello => true
  | .bid _ | .renew _ => false

namespace State

/-- A GRANT frame: it ends a BID exchange, or is stale (R31, R36). -/
def onGrant (s : State) (p : Port) (tag : Tag) (tier : BitVec 3) (voltage current lease : Nat) : State :=
  if s.matchesExchange p tag ExchangeBody.isBid then
    (s.modLink p Link.endExchange).takeGrant p tier voltage current lease
  else s.staleReply p tag (some .bid)

/-- A DECLINE frame: it ends a BID exchange, or is stale (R31, R36). Reason 3 is RETRY_LATER. -/
def onDecline (s : State) (p : Port) (tag : Tag) (reason : BitVec 2) : State :=
  if s.matchesExchange p tag ExchangeBody.isBid then
    (s.modLink p Link.endExchange).takeDecline p (reason = 3)
  else s.staleReply p tag none

/-- A RENEWED frame: it ends a RENEW exchange, or is stale (R31, R36). -/
def onRenewed (s : State) (p : Port) (tag : Tag) (lease : Nat) : State :=
  if s.matchesExchange p tag ExchangeBody.isRenew then (s.modLink p Link.endExchange).takeRenewed p lease
  else s.staleReply p tag (some .renew)

/-! ## The TIERS assembly -/

/-- The assembly with a part taken in; none when the part is thrown away with the assembly (R27). -/
def extendAssembly (s : State) (l : Link) (tag : Tag) (index : Nat) (entries : List (BitVec 2 × RawEntry)) :
    Option Assembly :=
  if index = 0 then some { tag := tag, next := 1, entries := entries, deadline := s.ahead 25 }
  else
    match l.assembly with
    | some a =>
      if a.tag = tag ∧ a.next = index then
        some { tag := tag, next := index + 1, entries := a.entries ++ entries, deadline := s.ahead 25 }
      else none
    | none => none

end State

/-- A HELLO exchange of the tag whose reply deadline runs has it moved (R27; log 28). -/
def Link.moveHello (l : Link) (tag : Tag) (deadline : Tick) : Link :=
  match l.exchange with
  | some e =>
    if e.body.isHello ∧ e.tag = tag ∧ e.deadline.isSome then { l with exchange := some { e with deadline := some deadline } }
    else l
  | none => l

namespace State

/-- A completed assembly ends the HELLO exchange of its tag, which takes an opening link to READY, and goes to the tier
catalogue (R27, R31, R41). -/
def completeAssembly (s : State) (p : Port) (tag : Tag) (entries : List (BitVec 2 × RawEntry)) : State :=
  let s :=
    if s.matchesExchange p tag ExchangeBody.isHello then
      s.modLink p (fun l => { l.endExchange with state := .ready, openingDeadline := none })
    else s
  s.takeCatalogue p entries

/-- A TIERS part (R27). -/
def onTiersPart (s : State) (p : Port) (tag : Tag) (scale : BitVec 2) (total index : Nat) (last : Bool)
    (entries : List RawEntry) : State :=
  match s.extendAssembly (s.port p).link tag index (entries.map (scale, ·)) with
  | none => s.modLink p (fun l => { l with assembly := none })
  | some a =>
    let s := s.modLink p (fun l => l.moveHello tag a.deadline)
    if last then
      let s := s.modLink p (fun l => { l with assembly := none })
      if a.entries.length = total then s.completeAssembly p tag a.entries else s
    else s.modLink p (fun l => { l with assembly := some a })

/-! ## Frames on the wire -/

/-- The link takes partner frames (R25). -/
def hears (s : State) (p : Port) : Bool :=
  match s.linkState p with
  | .quiet | .resync | .mute => false
  | .opening | .ready | .exchange => true

/-- A frame on the wire reaches its declared end: a reception that a collision began is over. -/
def endReception (s : State) (p : Port) : State := s.modLink p (fun l => { l with receiving := false })

/-- A partner frame at its declared end: discarded where a field is out of range (R23) or the link does not hear it (R25); else
its strain mark goes first (R26) and it is handled by its kind. -/
def takeFrame (s : State) (p : Port) (strain : Bool) (body : PartnerBody) (handle : State → State) : State :=
  let s := s.endReception p
  if s.hears p && bodyFieldsOk body then handle (if strain then s.strainTrim p else s) else s

/-- What a partner frame does by its kind (R25). -/
def handleBody (p : Port) (tag : Tag) (body : PartnerBody) (s : State) : State :=
  match body with
  | .tiers scale total index last entries => s.onTiersPart p tag scale total.toNat index.toNat last entries
  | .grant tier voltage current lease => s.onGrant p tag tier voltage.toNat current.toNat lease.toNat
  | .decline reason => s.onDecline p tag reason
  | .settled => s.takeSettled p
  | .renewed lease => s.onRenewed p tag lease.toNat
  | .recall ceiling deadline => s.takeRecall p ceiling.toNat deadline.toNat tag
  | .fault _ => s.takeFault p

/-- A partner frame, read whole, at its declared end. -/
def receive (s : State) (p : Port) (f : PartnerFrame) : State := s.takeFrame p f.strain f.body (handleBody p f.tag f.body)

end State

end Sys2Proof.Machine
end

