-- ==== Sys2Proof/Machine/ColdStart.lean ====
section
/-! DEFINITION. The cold start unit (chapter 10). -/

namespace Sys2Proof.Machine

open Sys2Proof

namespace State

/-- A port in SENSE becomes AUTO for the cold start: the link opens, the hold is cleared and the roster recomputes (step 2 of
R169). -/
def coldAuto (s : State) (p : Port) : State :=
  if s.mode p = .sense then
    let s := s.modFront p (fun f => { f with mode := .auto })
    let s := s.modContract p (fun c => { c with hold := false })
    let s := s.enterOpening p
    s.recompute
  else s

/-- The first port that becomes PRESENT in COLD_WAIT is the cold port, with a local bid on the base tier (R169). -/
def coldTake (s : State) (p : Port) : State :=
  if s.cold = .coldWait then
    let s := { s with cold := .coldSupply, coldPort := some p }
    let s := s.coldAuto p
    if (s.record p).isNone then s.localBid p s.baseCurrent else s
  else s

/-- The cold port has become VACANT (R171). -/
def coldLost (s : State) (p : Port) : State :=
  if s.cold = .coldSupply ∧ s.coldPort = some p then { s with cold := .coldWait, coldPort := none } else s

/-- The host takes over (R172). -/
def coldTakeover (s : State) : State :=
  if s.cold = .idle then s else { s with cold := .idle, coldPort := none }.setDeviceFlag .coldDone

end State

end Sys2Proof.Machine
end

