-- ==== Sys2Proof/Machine/Views.lean ====
section
/-! DEFINITION. What the command port shows: records, catalogues, statuses, frozen copies and the bytes of a response (R55, R176,
R178, R180 to R182). -/

namespace Sys2Proof.Machine

open Sys2Proof

/-- A path state as the status shows it (R178). -/
def PathState.view : PathState → PathView
  | .opened => .opened
  | .closing => .switching
  | .closed => .closed

/-- A transition as QUERY RECORD shows it (section 4.1). -/
def Transition.view (t : Transition) : TransitionView := { granted := t.granted, lease := t.lease, deadline := t.deadline }

/-- A pending amendment as QUERY RECORD shows it (R178). -/
def Amendment.view (a : Amendment) : AmendmentView :=
  { tier := a.tier, low := a.low, high := a.high, voltage := a.voltage, requested := a.requested, lease := a.lease,
    origin := a.origin, transition := a.transition.map Transition.view }

/-- A recall as QUERY RECORD shows it (R178). -/
def Recall.view (c : Recall) : RecallView := { ceiling := c.ceiling, deadline := c.deadline, yield := c.yield }

/-- The visible fields of a record on a port (R178). -/
def Record.view (p : Port) (r : Record) : RecordView :=
  { handle := r.handle, port := p, state := r.state, tier := r.tier, low := r.low, high := r.high, voltage := r.voltage,
    requested := r.requested, granted := r.granted, trim := r.trim, ceiling := r.effectiveCeiling, lease := r.lease,
    renewal := r.renewal, amendment := r.amendment.map Amendment.view, refused := r.refused,
    recallPart := r.recallPart.map Recall.view, withdraw := r.withdraw, stale := r.stale, rank := r.rank,
    grantedAt := r.grantedAt }

namespace State

/-- What QUERY RECORD returns of a port (R178). -/
def recordView (s : State) (p : Port) : Option RecordView := (s.record p).map (Record.view p)

/-- The trim steps of the port's record, 0 with none (R153, R178). -/
def trimSteps (s : State) (p : Port) : Nat := ((s.record p).map Record.trim).getD 0

/-- What QUERY TIERS returns of a port (R55). -/
def tiersView (s : State) (p : Port) : TiersView :=
  let c := (s.port p).catalogue
  { held := c.held, arrival := (c.arrival.map tickOf).getD 0, outcome := c.outcome
    tiers := c.tiers.map (fun t => { tier := t, eligible := s.eligible t }) }

/-- Port QUERY STATUS (R178). -/
def portStatus (s : State) (p : Port) : PortStatus :=
  let t := s.port p
  { attach := t.front.attach, link := t.link.state, mode := t.front.mode, voltage := t.front.voltage,
    current := t.front.current, pathRequest := t.front.pathRequest, path := t.front.path.view, rank := t.rank,
    trimMode := t.monitor.trimMode, trim := s.trimSteps p, hold := t.contract.hold, forced := t.watch.forced,
    lastRetirement := t.contract.lastRetirement, tick := s.tick }

/-- The status copy that FREEZE takes (R180). -/
def frozenStatusOf (s : State) (p : Port) : FrozenStatus :=
  let t := s.port p
  { attach := t.front.attach, link := t.link.state, mode := t.front.mode, voltage := t.front.voltage,
    current := t.front.current, pathRequest := t.front.pathRequest, path := t.front.path.view, trim := s.trimSteps p,
    hold := t.contract.hold, lastRetirement := t.contract.lastRetirement, tick := s.tick }

/-- The record copy that FREEZE takes (R180). -/
def frozenRecordOf (s : State) (p : Port) : FrozenRecord := { record := s.recordView p, tick := s.tick }

/-- The record of a handle is BENCHED. -/
def benchedHandle (s : State) (h : Handle) : Bool :=
  match s.recordOfHandle h with
  | some r => r.state = .benched
  | none => false

/-- A claim with its published allocation (R145). -/
def claimView (s : State) (k : Sink) : ClaimView :=
  { claim := s.allocator.claims.get k, allocation := s.allocator.allocations.get k }

/-- Device QUERY STATUS (R145, R173, R178). -/
def deviceStatus (s : State) : DeviceStatus :=
  { roster := s.roster.list.map (fun h => (h, s.benchedHandle h)), intended := s.roster.intended,
    directHeld := s.directHeld, switching := s.roster.switching,
    claims := ⟨s.claimView .system, s.claimView .charge, s.claimView .pass⟩, passEnable := s.allocator.passEnable,
    pool := s.allocator.pool, short := s.allocator.short, publishedAt := s.allocator.publishedAt,
    watchEnable := s.watchEnable, alertRoute := s.alertRoute, lock := s.lock, policy := s.policy,
    rebidCauses := s.ports.map (fun t => t.contract.rebidCauses), cold := s.cold, coldPort := s.coldPort,
    enables := s.enables, tick := s.tick }

/-! ## Frozen copies -/

/-- Fills the record slot of a port if it is empty (R180). -/
def fillRecord (s : State) (p : Port) : State :=
  let copy := s.frozenRecordOf p
  s.modPort p (fun t => { t with frozenRecord := some (t.frozenRecord.getD copy) })

/-- Fills the status slot of a port if it is empty (R180). -/
def fillStatus (s : State) (p : Port) : State :=
  let copy := s.frozenStatusOf p
  s.modPort p (fun t => { t with frozenStatus := some (t.frozenStatus.getD copy) })

/-- Fills the slots that FREEZE names on one port (R180). -/
def freezePort (ports parts : Byte) (s : State) (p : Port) : State :=
  if ports.getLsbD p.index then
    let s := if parts.getLsbD 0 then s.fillRecord p else s
    if parts.getLsbD 1 then s.fillStatus p else s
  else s

/-- The byte of the held map for one port: bits 0 and 1 what is held after the command, bits 2 and 3 what it filled (R180). Its bits 4 to 7
are sent as 0 (log 43). -/
def heldByte (before after : PortState) : Byte :=
  let r := after.frozenRecord.isSome
  let t := after.frozenStatus.isSome
  (BitVec.ofBool (t && before.frozenStatus.isNone) ++ BitVec.ofBool (r && before.frozenRecord.isNone) ++
    BitVec.ofBool t ++ BitVec.ofBool r).setWidth 8

/-- The held map, a byte for each port (R180), sent with that of P0 first and that of P3 last (log 40). -/
def heldMap (before after : State) : PerPort Byte :=
  ⟨heldByte before.ports.p0 after.ports.p0, heldByte before.ports.p1 after.ports.p1,
    heldByte before.ports.p2 after.ports.p2, heldByte before.ports.p3 after.ports.p3⟩

/-- What READ FROZEN returns of a port, and the state with the slot it empties (R181). -/
def takeFrozen (s : State) (p : Port) : State × FrozenAnswer :=
  match (s.port p).frozenStatus with
  | some c => (s.modPort p (fun t => { t with frozenStatus := none }), .status c)
  | none =>
    match (s.port p).frozenRecord with
    | some c => (s.modPort p (fun t => { t with frozenRecord := none }), .record c)
    | none => (s, .live (s.recordView p))

end State

/-! ## The bytes of a response -/

/-- A two-byte value, low byte first (log 29). -/
def wordBytes (w : Word) : List Byte := [w.setWidth 8, w.extractLsb' 8 8]

/-- The bytes of a response's data: those of the command table where it gives them, else the free value (log 8), at most the 255
that the length can state (R176). The held map's four bytes go in the order P0 to P3 (log 40). The enables
of READ FLAGS stand where SET ATTENTION has them, under three bits of 0 (log 42). -/
def ResponseData.bytes (d : ResponseData) : List Byte :=
  match d with
  | .empty => []
  | .noRecord => [0]
  | .heldMap m => m.toList
  | .handle h => [h]
  | .trimSteps n => [BitVec.ofNat 8 n]
  | .flags ports device enables => (ports.toList ++ [device]).flatMap wordBytes ++ [enables.setWidth 8]
  | .record _ | .tiers _ | .portStatus _ | .deviceStatus _ | .frozen _ => (Config.dataBytes d).take 255

/-- A response as a read returns it: status, length, data (R176). -/
def Response.bytes (r : Response) : List Byte :=
  r.status.code :: BitVec.ofNat 8 r.data.bytes.length :: r.data.bytes

/-- What a read of the buffer returns: an empty one gives NONE with length 0 (R176). -/
def bufferBytes (b : Option Response) : List Byte :=
  match b with
  | some r => r.bytes
  | none => [Status.none.code, 0]

/-- The first n bytes of a read; those past the end are 0 (R176). -/
def readBytes (b : Option Response) (n : Nat) : List Byte :=
  (bufferBytes b).take n ++ List.replicate (n - (bufferBytes b).length) 0

end Sys2Proof.Machine
end

