-- ==== Sys2Proof/Machine/HostCommands.lean ====
section
/-! DEFINITION. The commands of the command port: checks in their order, effect and response (section 11.2), and the taking of a
command with the end of a cold state (R172, R175). -/

namespace Sys2Proof.Machine

open Sys2Proof

/-- A command's outcome: the state after it, and its response. -/
abbrev Answer := State × Response

/-- DONE without data (R177). -/
def Answer.done (s : State) : Answer := (s, { status := .done, data := .empty })

/-- DONE with data. -/
def Answer.give (s : State) (d : ResponseData) : Answer := (s, { status := .done, data := d })

/-- A refusal, which returns length 0 and takes no effect (R177). -/
def Answer.refuse (s : State) (c : Status) : Answer := (s, { status := c, data := .empty })

namespace State

/-! ## Queries and copies -/

/-- QUERY RECORD (R178). -/
def queryRecord (s : State) (port : Byte) : Answer :=
  match portOf port with
  | some p =>
    match s.recordView p with
    | some v => .give s (.record v)
    | none => .give s .noRecord
  | none => .refuse s .refusedRange

/-- QUERY TIERS (R55, R178). -/
def queryTiers (s : State) (port : Byte) : Answer :=
  match portOf port with
  | some p => .give s (.tiers (s.tiersView p))
  | none => .refuse s .refusedRange

/-- QUERY STATUS: a port, or the device for target 4 (R178). -/
def queryStatus (s : State) (target : Byte) : Answer :=
  match portOf target with
  | some p => .give s (.portStatus (s.portStatus p))
  | none => if target = 4 then .give s (.deviceStatus s.deviceStatus) else .refuse s .refusedRange

/-- FREEZE (R180). -/
def freeze (s : State) (portMask partsMask : Byte) : Answer :=
  if portMask.extractLsb' 4 4 ≠ 0 ∨ partsMask.extractLsb' 2 6 ≠ 0 then .refuse s .refusedRange
  else
    let after := Port.all.foldl (freezePort portMask partsMask) s
    .give after (.heldMap (heldMap s after))

/-- READ FROZEN (R181). -/
def readFrozen (s : State) (port : Byte) : Answer :=
  match portOf port with
  | some p =>
    let a := s.takeFrozen p
    .give a.1 (.frozen a.2)
  | none => .refuse s .refusedRange

/-- READ FLAGS (R182). -/
def readFlags (s : State) : Answer := .give s (.flags (s.ports.map PortState.flags) s.deviceFlags s.enables)

/-! ## Port modes -/

/-- SET MODE SENSE on a port in AUTO or DIRECT (R4, R128). -/
def toSense (s : State) (p : Port) : State :=
  let s := s.retire p .mode
  let s := s.openPath p
  let s := s.modFront p (fun f => { f with mode := .sense })
  let s := s.setRole p .none
  let s := s.enterQuiet p
  s.recompute

/-- The link of a port that leaves SENSE opens when the port is PRESENT (R5). -/
def openLink (s : State) (p : Port) : State :=
  if (s.port p).front.attach = .present then s.enterOpening p else s

/-- A MUTE link sends a fresh HELLO (R6, R7, R41), and an owed amendment may be sent as the link leaves MUTE (R73; log 15). -/
def reopenMute (s : State) (p : Port) : State :=
  if s.linkState p = .mute then
    let s := s.enterOpening p
    if s.mode p = .auto then s.sendOwed p else s
  else s

/-- A host close in progress continues with the roster as its requester (R7, R128). -/
def adoptClose (s : State) (p : Port) : State :=
  if s.path p = .closing then
    let s := s.modFront p (fun f => { f with closeOp := f.closeOp.map (fun c => { c with requester := .roster }) })
    s.setRole p .incoming
  else s

/-- SET MODE AUTO on a port in another mode or in AUTO (R5, R7, R65, R128), which is an asking (R59; log 16). -/
def toAuto (s : State) (p : Port) : State :=
  let was := s.mode p
  let s := s.modContract p (fun c => { c with hold := false })
  let s :=
    match was with
    | .sense => ((s.modFront p (fun f => { f with mode := .auto })).openLink p).recompute
    | .direct => ((s.modFront p (fun f => { f with mode := .auto })).adoptClose p).recompute
    | .auto => s.reopenMute p
  s.asking p

/-- SET MODE DIRECT (R5, R6, R128). -/
def toDirect (s : State) (p : Port) : State :=
  match s.mode p with
  | .sense => ((s.modFront p (fun f => { f with mode := .direct })).openLink p).recompute
  | .auto =>
    let s := if s.path p = .closing then s.openPath p else s
    let s := s.modFront p (fun f => { f with mode := .direct })
    let s := s.setRole p .none
    s.recompute
  | .direct => s.reopenMute p

/-- SET MODE (R3). -/
def setMode (s : State) (port mode : Byte) : Answer :=
  match portOf port, modeOf mode with
  | some p, some .sense => if s.mode p = .sense then .done s else .done (s.toSense p)
  | some p, some .auto => .done (s.toAuto p)
  | some p, some .direct => .done (s.toDirect p)
  | _, _ => .refuse s .refusedRange

/-! ## Path requests -/

/-- Stores a path request (R18). -/
def storeRequest (s : State) (p : Port) (r : PathRequest) : State := s.modFront p (fun f => { f with pathRequest := r })

/-- A host close may be asked: the record IN_FORCE with its contract voltage in the input window (check 1 of R19). -/
def mayClose (s : State) (p : Port) : Bool :=
  match s.record p with
  | some r => r.state = .inForce && s.inInputWindow r.voltage
  | none => false

/-- A close request of the host on a DIRECT port, with the report of the DIRECT held count (R13, R19, R117). -/
def hostClose (s : State) (p : Port) : State :=
  if s.path p = .opened then
    match s.requestClose p .host with
    | some s => s.recompute
    | none => s
  else s

/-- SET PATH (R18, R19). -/
def setPath (s : State) (port request : Byte) : Answer :=
  match portOf port, requestOf request with
  | some p, some r =>
    if s.mode p ≠ .direct then .done (s.storeRequest p r)
    else
      match r with
      | .opened => .done ((s.storeRequest p .opened).openRequest p)
      | .closed =>
        if s.mayClose p = false then .refuse s .refusedState
        else if s.path p = .opened ∧ 2 ≤ s.pathCount then .refuse s .refusedLimit
        else .done ((s.storeRequest p .closed).hostClose p)
  | _, _ => .refuse s .refusedRange

/-! ## Bids, amendments and retirement -/

/-- The first check of BID and AMEND (R62, R72). -/
def bidOutOfRange (tier : Byte) (current lease : Word) : Bool :=
  decide (7 < tier.toNat) || decide (1000 < current.toNat) ||
    (tier != 0 && (lease == 0 || decide (600 < lease.toNat)))

/-- BID (R62). -/
def bid (s : State) (port tier : Byte) (voltage current lease : Word) : Answer :=
  match portOf port with
  | none => .refuse s .refusedRange
  | some p =>
    if bidOutOfRange tier current lease then .refuse s .refusedRange
    else if s.mode p = .sense ∨ (s.record p).isSome = true then .refuse s .refusedState
    else
      match s.termsFor p (tier.setWidth 3) voltage.toNat current.toNat lease.toNat with
      | none => .refuse s .refusedRange
      | some t =>
        if t.tier ≠ 0 ∧ s.linkState p ≠ .ready then .refuse s .refusedState
        else
          let s := if s.mode p = .auto then s.modContract p (fun c => { c with hold := false }) else s
          .give (s.freshBid p t) (.handle s.nextHandle)

/-- AMEND is refused BUSY (R72). -/
def amendBusy (r : Record) : Bool := r.amendment.isSome || r.renewing || r.withdraw

/-- AMEND (R72). -/
def amend (s : State) (port tier : Byte) (voltage current lease : Word) : Answer :=
  match portOf port with
  | none => .refuse s .refusedRange
  | some p =>
    if bidOutOfRange tier current lease then .refuse s .refusedRange
    else
      match s.record p with
      | none => .refuse s .refusedState
      | some r =>
        if r.live = false then .refuse s .refusedState
        else if amendBusy r then .refuse s .refusedBusy
        else
          match s.termsFor p (tier.setWidth 3) voltage.toNat current.toNat lease.toNat with
          | none => .refuse s .refusedRange
          | some t => if s.linkUsable p then .done (s.sendAmendment p t .host) else .refuse s .refusedState

/-- A host retirement waits for the end of the record's BID exchange, else is made at once (R80). -/
def hostRetire (s : State) (p : Port) (r : Record) : State :=
  if r.withdraw then s
  else if (s.port p).link.bidInFlight r.handle then s.setRecord p (some { r with withdraw := true })
  else s.retire p .hostRetire

/-- RETIRE (R80). -/
def retireCommand (s : State) (port : Byte) : Answer :=
  match portOf port with
  | none => .refuse s .refusedRange
  | some p =>
    match s.record p with
    | none => .refuse s .refusedState
    | some r => .done (s.hostRetire p r)

/-- A rank written for a port (R114, R116). -/
def writeRank (s : State) (p : Port) (rank : Nat) : State :=
  let s := s.modPort p (fun t => { t with rank := rank })
  match s.record p with
  | some r => if r.live then (s.unbench p).rosterReplace p else s
  | none => s

/-- RANK (R114). -/
def rankCommand (s : State) (port rank : Byte) : Answer :=
  match portOf port with
  | none => .refuse s .refusedRange
  | some p => if 3 < rank.toNat then .refuse s .refusedRange else .done (s.writeRank p rank.toNat)

/-! ## The allocator's commands -/

/-- SET CLAIM (R133). -/
def setClaim (s : State) (sink : Byte) (request floor : Word) (priority : Byte) : Answer :=
  match sinkOf sink with
  | none => .refuse s .refusedRange
  | some k =>
    if 4000 < request.toNat ∨ 4000 < floor.toNat ∨ 3 < priority.toNat then .refuse s .refusedRange
    else if request ≠ 0 ∧ request.toNat < floor.toNat then .refuse s .refusedRange
    else
      let c : Claim := { request := request.toNat, floor := floor.toNat, priority := priority.toNat }
      .done { s with allocator := { s.allocator with claims := s.allocator.claims.set k c } }.publish

/-- SET PASS (R134). -/
def setPass (s : State) (value : Byte) : Answer :=
  match onOff value with
  | none => .refuse s .refusedRange
  | some on => .done (s.setPassEnable on)

/-! ## Policy -/

/-- The value of a parameter lies in its range (R179). -/
def inRange (n : Parameter) (v : Nat) : Bool :=
  match n with
  | .vinLow => decide (200 ≤ v) && decide (v ≤ 1000)
  | .vinHigh => decide (250 ≤ v) && decide (v ≤ 2000)
  | .currentMax => decide (10 ≤ v) && decide (v ≤ 1000)
  | .leaseWant => decide (1 ≤ v) && decide (v ≤ 600)
  | .renewLead => v = 10 || v = 25 || v = 50
  | .settleTime => decide (5 ≤ v) && decide (v ≤ 100)
  | .overdrawMargin => decide (1 ≤ v) && decide (v ≤ 20)
  | .overdrawWindow => decide (2 ≤ v) && decide (v ≤ 20)
  | .derate => decide (v ≤ 15)
  | .combine => decide (v ≤ 1)
  | .dropout => decide (60 ≤ v) && decide (v ≤ 95)
  | .rebidCauses => true
  | .rank => decide (v ≤ 3)

/-- The fourth check of R179. -/
def windowKept (s : State) (n : Parameter) (v : Nat) : Bool :=
  match n with
  | .vinLow => decide (v < s.policy.vinHigh)
  | .vinHigh => decide (s.policy.vinLow < v)
  | _ => true

/-- The bits of a REBID_CAUSES value that name a cause (R179). -/
def causeBits : Word := 0x03FE

/-- An asking on every port, in port order (R59; log 27). -/
def askAll (s : State) : State := Port.all.foldl asking s

/-- A change of the input window: the roster recomputes, and every port makes an asking (R59, R120). -/
def windowChanged (s : State) : State := s.recompute.askAll

/-- The effect of a parameter's value (R179 and the rules it names). A write of the value held has none of the effects of a
change. -/
def writePolicy (s : State) (p : Port) (n : Parameter) (w : Word) : State :=
  let v := w.toNat
  match n with
  | .vinLow =>
    let s' := { s with policy := { s.policy with vinLow := v } }
    if v = s.policy.vinLow then s' else s'.windowChanged
  | .vinHigh =>
    let s' := { s with policy := { s.policy with vinHigh := v } }
    if v = s.policy.vinHigh then s' else s'.windowChanged
  | .currentMax =>
    let s' := { s with policy := { s.policy with currentMax := v } }
    if v = s.policy.currentMax then s' else s'.askAll
  | .leaseWant => { s with policy := { s.policy with leaseWant := v } }
  | .renewLead =>
    let s' := { s with policy := { s.policy with renewLead := v } }
    if s.policy.renewLead < v then Port.all.foldl renewalTest s' else s'
  | .settleTime => { s with policy := { s.policy with settleTime := v } }
  | .overdrawMargin => { s with policy := { s.policy with overdrawMargin := v } }
  | .overdrawWindow => { s with policy := { s.policy with overdrawWindow := v } }
  | .derate =>
    let s' := { s with policy := { s.policy with derate := v } }
    if v = s.policy.derate then s' else s'.publish
  | .combine =>
    let c : Combine := if v = 0 then .single else .pair
    let s' := { s with policy := { s.policy with combine := c } }
    if c = s.policy.combine then s' else s'.recompute
  | .dropout => { s with policy := { s.policy with dropout := v } }
  | .rebidCauses => s.modContract p (fun c => { c with rebidCauses := w &&& causeBits })
  | .rank => s.writeRank p v

/-- SET POLICY (R179): its four checks in order. The port is read only for a per-port parameter. -/
def setPolicy (s : State) (parameter port : Byte) (value : Word) : Answer :=
  match parameterOf parameter with
  | none => .refuse s .refusedRange
  | some n =>
    match portOf (if n.perPort then port else 0) with
    | none => .refuse s .refusedRange
    | some p =>
      if n = .dropout ∧ s.lock = true then .refuse s .refusedLocked
      else if inRange n value.toNat = false then .refuse s .refusedRange
      else if s.windowKept n value.toNat = false then .refuse s .refusedRange
      else .done (s.writePolicy p n value)

/-! ## Trim and watch -/

/-- SET TRIM AUTO_TRIM on a port (R153). -/
def trimAuto (s : State) (p : Port) : State :=
  let was := (s.port p).monitor.trimMode
  let s := s.modMonitor p (fun m => { m with trimMode := .auto })
  if was = .manual ∧ s.path p = .closed then s.restartRecovery p else s

/-- SET TRIM MANUAL_TRIM on a port (R153). -/
def trimManual (s : State) (p : Port) (steps : Nat) : State :=
  let s := s.modMonitor p (fun m => { m with trimMode := .manual, recovery := none, raiseBase := none })
  s.reviseRecord p (fun r => { r with trim := steps })

/-- SET TRIM (R153). -/
def setTrim (s : State) (port mode steps : Byte) : Answer :=
  match portOf port, trimModeOf mode with
  | some p, some m =>
    if 15 < steps.toNat then .refuse s .refusedRange
    else
      let s := match m with
        | .auto => s.trimAuto p
        | .manual => s.trimManual p steps.toNat
      .give s (.trimSteps (s.trimSteps p))
  | _, _ => .refuse s .refusedRange

/-- What the watch enable off ends on a port: the repeat state, and a window that ran for it or for a forced test (R157, R158,
R163). -/
def watchOff (s : State) (p : Port) : State := (s.modWatch p (fun w => { w with repeatAt := none })).tidyWatch p

/-- SET WATCH (R157, R165). -/
def setWatch (s : State) (enable route : Byte) : Answer :=
  if s.lock then .refuse s .refusedLocked
  else
    match onOff enable, onOff route with
    | some e, some r =>
      let s := { s with watchEnable := e, alertRoute := r }
      let s := if e then s else Port.all.foldl watchOff s
      .done s.lockTest
    | _, _ => .refuse s .refusedRange

/-- FORCE LOSS (R164). -/
def forceLoss (s : State) (port value : Byte) : Answer :=
  match portOf port, onOff value with
  | some p, some on => .done ((s.modWatch p (fun w => { w with forced := on })).tidyWatch p)
  | _, _ => .refuse s .refusedRange

/-! ## Attention and soft reset -/

/-- SET ATTENTION (R183). -/
def setAttention (s : State) (enables : Byte) : Answer :=
  if enables.extractLsb' 5 3 ≠ 0 then .refuse s .refusedRange
  else .done { s with enables := enables.setWidth 5 }.lockTest

/-- CLEAR FLAGS (R184). -/
def clearFlags (s : State) (group : Byte) (mask : Word) : Answer :=
  if 4 < group.toNat then .refuse s .refusedRange else .done (s.clearGroup group.toNat mask)

/-- What soft reset clears on one port (R167, R186). -/
def softResetPort (s : State) (p : Port) : State :=
  let s := s.modPort p (fun t =>
    { t with
      flags := 0, frozenRecord := none, frozenStatus := none
      watch := { t.watch with forced := false, repeatAt := none }
      contract := { t.contract with hold := false, attempts := 0, holdoff := none } })
  s.tidyWatch p

/-- Soft reset (R186), with the asking on each AUTO port that follows. -/
def softReset (s : State) : State :=
  let s := { s with deviceFlags := 0, enables := 0 }
  (Port.all.foldl softResetPort s).askAll

/-- RESET PART (R186). -/
def resetCommand (s : State) : Answer := .done s.softReset

/-! ## The taking of a command -/

/-- The effect and response of a command with its full form (R175). -/
def runCommand (s : State) (c : HostCommand) : Answer :=
  match c with
  | .queryRecord port => s.queryRecord port
  | .queryTiers port => s.queryTiers port
  | .queryStatus target => s.queryStatus target
  | .freeze portMask partsMask => s.freeze portMask partsMask
  | .readFrozen port => s.readFrozen port
  | .setMode port mode => s.setMode port mode
  | .setPath port request => s.setPath port request
  | .bid port tier voltage current lease => s.bid port tier voltage current lease
  | .amend port tier voltage current lease => s.amend port tier voltage current lease
  | .retire port => s.retireCommand port
  | .rank port rank => s.rankCommand port rank
  | .setClaim sink request floor priority => s.setClaim sink request floor priority
  | .setPass value => s.setPass value
  | .setPolicy parameter port value => s.setPolicy parameter port value
  | .setTrim port mode steps => s.setTrim port mode steps
  | .setWatch enable route => s.setWatch enable route
  | .forceLoss port value => s.forceLoss port value
  | .setAttention enables => s.setAttention enables
  | .readFlags => s.readFlags
  | .clearFlags group mask => s.clearFlags group mask
  | .resetPart => s.resetCommand

/-- The response of an answer replaces the buffer (R175, R176). -/
def respond (a : Answer) : State := { a.1 with response := some a.2 }

/-- A known command with its full form is taken: a cold state ends first where the command ends one (R172), then it acts, and its
response replaces the buffer. While RESET# is asserted nothing is taken (R174). -/
def takeCommand (s : State) (c : HostCommand) : State :=
  if s.straps.isNone then s
  else
    let s := if c.endsCold then s.coldTakeover else s
    respond (s.runCommand c)

/-- The end of a write to the part's address (R175). -/
def takeWrite (s : State) (bytes : List Byte) : State :=
  match parseWrite bytes with
  | .nothing => s
  | .unknown => respond (.refuse s .unknown)
  | .wrongForm =>
    let s := if codeEndsCold (bytes.headD 0) then s.coldTakeover else s
    respond (.refuse s .refusedRange)
  | .command c => s.takeCommand c

/-- The end of a read that sent some bytes: the part drove them, and the buffer becomes empty when the status byte was sent
(R176). -/
def takeRead (s : State) (count : Nat) : State :=
  { s with lastRead := readBytes s.response count, response := if count = 0 then s.response else none }

end State

end Sys2Proof.Machine
end

