-- ==== Sys2Proof/Machine/PowerSteps.lean ====
section
/-! DEFINITION. The power-on reset and the straps: POWER_ON_RESET, STRAP_SAMPLING. -/

namespace Sys2Proof.Machine

open Sys2Proof

/-- POWER_ON_RESET: every block takes its power-on state, and the straps are not sampled until the reset ends (R20, R42, R55, R84,
R131, R146, R167, R187). -/
def execPowerOnReset (s : State) : Host.Outcome State Fault Refusal := .next { State.powerOn with pending := s.pending }

/-- STRAP_SAMPLING: the straps are sampled once, when a power-on reset ends (R168, R174). -/
def execStrapSampling (addr1 addr0 cold : Bool) (s : State) : Host.Outcome State Fault Refusal :=
  if s.straps.isSome then .next s
  else
    .next { s with straps := some ⟨addr1, addr0, cold⟩, cold := if cold then .coldWait else .idle, coldPort := none }

end Sys2Proof.Machine
end

