-- ==== Sys2Proof/Machine/SampleSteps.lean ====
section
/-! DEFINITION. The meter's tick and what its samples complete: METER_SAMPLE, ATTACH, DETACH, PATH_CLOSE_COMPLETE,
OVERDRAW_WINDOW_END, WATCH_WINDOW_END. A completion is due from the sample that makes it so; one that has not been taken by the end of
its tick is taken as the next tick begins (log 2). -/

namespace Sys2Proof.Machine

open Sys2Proof

namespace State

/-! ## Completions -/

/-- A debounce count of 50 changes the attach state of a VACANT port (R8, R9), and a waiting cold start takes the port (R169). -/
def attachPort (s : State) (p : Port) : State :=
  let s := s.modFront p (fun f => { f with attach := .present, debounce := 0 })
  let s := s.setFlag p .attach
  let s := s.modCatalogue p (fun c => { c with base := true })
  let s := if s.mode p = .sense then s else s.enterOpening p
  s.coldTake p

/-- ATTACH, when the count has reached 50 on a VACANT port. -/
def attachIfDue (s : State) (p : Port) : State :=
  let f := (s.port p).front
  if f.attach = .vacant ∧ 50 ≤ f.debounce then s.attachPort p else s

/-- A debounce count of 50 changes the attach state of a PRESENT port: the steps of R10, the bidding history (R65), the repeat
state (R163) and a lost cold port (R171). -/
def detachPort (s : State) (p : Port) : State :=
  let s := s.modFront p (fun f => { f with attach := .vacant, debounce := 0 })
  let s := s.enterQuiet p
  let s := s.retire p .detached
  let s := s.modCatalogue p (fun _ => .reset)
  let s := s.modContract p (fun c => { c with attempts := 0, holdoff := none })
  let s := s.setFlag p .detach
  let s := (s.modWatch p (fun w => { w with repeatAt := none })).tidyWatch p
  s.coldLost p

/-- DETACH, when the count has reached 50 on a PRESENT port. -/
def detachIfDue (s : State) (p : Port) : State :=
  let f := (s.port p).front
  if f.attach = .present ∧ 50 ≤ f.debounce then s.detachPort p else s

/-- The record is IN_FORCE and the mode AUTO or DIRECT, as R14 checks at a close's completion. -/
def mayComplete (s : State) (p : Port) : Bool :=
  (match s.record p with | some r => r.state = .inForce | none => false) && s.mode p != .sense

/-- A close completes, with the roster's recomputation on "path closed" (R14, R119). -/
def completeClose (s : State) (p : Port) : State := ((s.closePath p).setRole p .none).recompute

/-- PATH_CLOSE_COMPLETE, when the completing sample has been taken on a CLOSING path (R14). -/
def closeIfDue (s : State) (p : Port) : State :=
  match (s.port p).front.closeOp with
  | some c =>
    if s.path p = .closing ∧ c.due = true then
      if s.mayComplete p then s.completeClose p
      else s.modFront p (fun f => { f with closeOp := some { c with due := false } })
    else s
  | none => s

/-- OVERDRAW_WINDOW_END, when the window's count has reached OVERDRAW_WINDOW (R149). -/
def overdrawEndIfDue (s : State) (p : Port) : State :=
  match (s.port p).monitor.window with
  | some w => if w.due then s.endOverdrawWindow p w else s
  | none => s

/-- WATCH_WINDOW_END, when the eighth sample has been taken (R158). -/
def watchEndIfDue (s : State) (p : Port) : State :=
  match (s.port p).watch.window with
  | some w => if 8 ≤ w.count then s.endWatchWindow p w else s
  | none => s

/-- Everything the samples of a tick have made due on a port, in the order the model takes what the queue has not ordered (log 2). -/
def settlePort (s : State) (p : Port) : State :=
  let s := s.overdrawEndIfDue p
  let s := s.watchEndIfDue p
  let s := s.closeIfDue p
  let s := s.detachIfDue p
  s.attachIfDue p

/-- The next tick begins: what is still due is taken (log 2), on P0 first and P3 last (log 39), and the count advances. -/
def beginTick (s : State) : State :=
  let s := Port.all.foldl settlePort s
  { s with time := s.time + 1, sampleTaken := false }

/-! ## One sample -/

/-- The samples of a tick, each limited to its range (R1; log 25). -/
def storeReading (r : PerPort Reading) (s : State) (p : Port) : State :=
  s.modFront p (fun f =>
    { f with voltage := min 2000 (r.get p).voltage, current := min 1000 (r.get p).current.toNat })

/-- The debounce count of a port (R8). -/
def debounceSample (s : State) (p : Port) : State :=
  s.modFront p (fun f =>
    let contrary := match f.attach with
      | .vacant => decide (175 ≤ f.voltage)
      | .present => decide (f.voltage < 175)
    { f with debounce := if contrary then min 50 (f.debounce + 1) else 0 })

/-- One sample in a close operation: the window test against the record's window (R14). -/
def closeSample (s : State) (p : Port) : State :=
  match (s.port p).front.closeOp, s.record p with
  | some c, some r =>
    let n := if windowTest (s.port p).front.voltage r.low r.high then c.settle + 1 else 0
    let c' : CloseOp := { c with settle := n, due := n != 0 && decide (s.policy.settleTime ≤ n) }
    s.modFront p (fun f => { f with closeOp := some c' })
  | _, _ => s

/-- One sample in the contract table: settling, the yield test, and a voltage transition (R69, R78, R103; log 18). -/
def contractSample (s : State) (p : Port) : State := ((s.settlingTest p).yieldTest p).testTransition p

/-- The samples of one tick are handed to every block (R1), block by block (log 4), and within a block for P0 first and P3 last (log 39). -/
def takeSamples (s : State) (r : PerPort Reading) : State :=
  let s := Port.all.foldl (storeReading r) s
  let s := Port.all.foldl debounceSample s
  let s := Port.all.foldl closeSample s
  let s := Port.all.foldl overdrawSample s
  let s := Port.all.foldl watchSample s
  let s := Port.all.foldl contractSample s
  { s with sampleTaken := true }

end State

/-! ## Commands -/

/-- METER_SAMPLE: the sample of the present tick, or of the next when the present one has its sample (R1; log 1). -/
def execMeterSample (readings : PerPort Reading) (s : State) : Host.Outcome State Fault Refusal :=
  if s.straps.isNone then .next s
  else .next ((if s.sampleTaken then s.beginTick else s).takeSamples readings)

/-- ATTACH (R9). -/
def execAttach (p : Port) (s : State) : Host.Outcome State Fault Refusal := .next (s.attachIfDue p)

/-- DETACH (R10). -/
def execDetach (p : Port) (s : State) : Host.Outcome State Fault Refusal := .next (s.detachIfDue p)

/-- PATH_CLOSE_COMPLETE (R14). -/
def execPathCloseComplete (p : Port) (s : State) : Host.Outcome State Fault Refusal := .next (s.closeIfDue p)

/-- OVERDRAW_WINDOW_END (R149 to R151). -/
def execOverdrawWindowEnd (p : Port) (s : State) : Host.Outcome State Fault Refusal := .next (s.overdrawEndIfDue p)

/-- WATCH_WINDOW_END (R158, R160, R163, R164). -/
def execWatchWindowEnd (p : Port) (s : State) : Host.Outcome State Fault Refusal := .next (s.watchEndIfDue p)

end Sys2Proof.Machine
end

