-- ==== Sys2Proof/Machine/DeadlineSteps.lean ====
section
/-! DEFINITION. The deadlines of paths, contracts, leases, recalls and trim: CLOSE_DEADLINE, SETTLE_DEADLINE, TRANSITION_DEADLINE,
LEASE_EXPIRY, RENEWAL_POINT, NEXT_ATTEMPT, HOLDOFF_DEADLINE, RECALL_DEADLINE, RECOVERY_DEADLINE. Each acts when its deadline has been
reached and the state it belongs to still stands; else it finds nothing to do (log 3). -/

namespace Sys2Proof.Machine

open Sys2Proof

namespace State

/-- A close fails: the close operation ends with the path OPEN, the role becomes NONE, and a record IN_FORCE is benched (R15,
R127). -/
def failClose (s : State) (p : Port) : State :=
  let s := s.modFront p (fun f => { f with path := .opened, closeOp := none })
  let s := s.setRole p .none
  match s.record p with
  | some r => if r.state = .inForce then s.bench p else s.recompute
  | none => s.recompute

/-- The close deadline of a port has been reached on a CLOSING path. -/
def closeOverdue (s : State) (p : Port) : Bool :=
  s.path p = .closing && s.due ((s.port p).front.closeOp.map CloseOp.deadline)

/-- The settle deadline of a record in SETTLING has been reached. -/
def settleOverdue (s : State) (p : Port) : Bool :=
  match s.record p with
  | some r => r.state = .settling && s.due r.settleDeadline
  | none => false

/-- The deadline of a voltage transition has been reached. -/
def transitionOverdue (s : State) (p : Port) : Bool :=
  match s.record p with
  | some r =>
    match r.amendment with
    | some a => s.due (a.transition.map Transition.deadline)
    | none => false
  | none => false

/-- The expiry of a live record's lease has been reached. -/
def leaseOverdue (s : State) (p : Port) : Bool :=
  match s.record p with
  | some r =>
    match r.lease with
    | some l => r.live && s.due l.expiry
    | none => false
  | none => false

/-- The next attempt of a renewal in RETRY_WAIT, when its tick has been reached (R92). -/
def nextAttempt (s : State) (p : Port) : State :=
  match s.record p with
  | none => s
  | some r =>
    match r.renewal with
    | none => s
    | some n =>
      match n.state with
      | .retryWait next => if reached s.tick next then s.askRenew p r (min 255 (n.attempts + 1)) else s
      | .inFlight | .refused => s

/-- The holdoff deadline is reached: it goes, and an asking is made (R63). -/
def endHoldoff (s : State) (p : Port) : State :=
  (s.modContract p (fun c => { c with holdoff := none })).asking p

/-- The recall deadline of a record, when it has been reached with the yield OWED (R104). -/
def recallDeadline (s : State) (p : Port) : State :=
  match s.record p with
  | none => s
  | some r =>
    match r.recallPart with
    | none => s
    | some c => if c.yield = .owed ∧ reached s.tick c.deadline = true then s.recallOverdue p r c else s

/-- The recovery deadline has been reached on a CLOSED path in AUTO_TRIM (R156). -/
def recoveryDue (s : State) (p : Port) : Bool :=
  s.path p = .closed && (s.port p).monitor.trimMode = .auto && s.due (s.port p).monitor.recovery

end State

/-- CLOSE_DEADLINE (R15, R127). -/
def execCloseDeadline (p : Port) (s : State) : Host.Outcome State Fault Refusal :=
  .next (if s.closeOverdue p then s.failClose p else s)

/-- SETTLE_DEADLINE (R70). -/
def execSettleDeadline (p : Port) (s : State) : Host.Outcome State Fault Refusal :=
  .next (if s.settleOverdue p then s.retire p .settleFail else s)

/-- TRANSITION_DEADLINE (R78). -/
def execTransitionDeadline (p : Port) (s : State) : Host.Outcome State Fault Refusal :=
  .next (if s.transitionOverdue p then s.retire p .settleFail else s)

/-- LEASE_EXPIRY (R95). -/
def execLeaseExpiry (p : Port) (s : State) : Host.Outcome State Fault Refusal :=
  .next (if s.leaseOverdue p then s.retire p .lapsed else s)

/-- RENEWAL_POINT (R87). -/
def execRenewalPoint (p : Port) (s : State) : Host.Outcome State Fault Refusal := .next (s.renewalTest p)

/-- NEXT_ATTEMPT (R92). -/
def execNextAttempt (p : Port) (s : State) : Host.Outcome State Fault Refusal := .next (s.nextAttempt p)

/-- HOLDOFF_DEADLINE (R63). -/
def execHoldoffDeadline (p : Port) (s : State) : Host.Outcome State Fault Refusal :=
  .next (if s.due (s.port p).contract.holdoff then s.endHoldoff p else s)

/-- RECALL_DEADLINE (R104). -/
def execRecallDeadline (p : Port) (s : State) : Host.Outcome State Fault Refusal := .next (s.recallDeadline p)

/-- RECOVERY_DEADLINE (R156). -/
def execRecoveryDeadline (p : Port) (s : State) : Host.Outcome State Fault Refusal :=
  .next (if s.recoveryDue p then s.recover p else s)

end Sys2Proof.Machine
end

