-- ==== Sys2Proof/Machine/WireSteps.lean ====
section
/-! DEFINITION. The wire and the link engine: FRAME_SEND_START, SEND_AGAIN, OPENING_HELLO_SEND, FRAME_SEND_END, the two collisions,
LINK_DISTURBANCE, BREAK_END, IDLE_FOUND, IDLE_WAIT_EXPIRY, REPLY_DEADLINE, OPENING_DEADLINE, ASSEMBLY_DEADLINE. The command says that
the wire's timing holds (log 7); the guards are on the state. -/

namespace Sys2Proof.Machine

open Sys2Proof

/-- A waiting request may start: READY, no exchange in flight, no frame on the wire (R28, R33). -/
def Link.mayServe (l : Link) : Bool := l.state = .ready && l.exchange.isNone && l.wireFree

/-- The exchange in flight awaits send and its frame may start (R28, R30, R32). -/
def Link.maySend (l : Link) : Bool :=
  (l.state = .exchange || l.state = .opening) && l.wireFree &&
    (match l.exchange with | some e => e.deadline.isNone | none => false)

/-- A HELLO may start in OPENING: one that awaits send, or a fresh one after a RESYNC that ended the last (R38, R41). -/
def Link.mayOpen (l : Link) : Bool :=
  l.state = .opening && l.wireFree && l.exchange.all (fun e => e.body.isHello && e.deadline.isNone)

/-- The link may be disturbed: open, and not in RESYNC already (section 2.8). -/
def Link.disturbable (l : Link) : Bool :=
  match l.state with
  | .opening | .ready | .exchange => true
  | .quiet | .resync | .mute => false

/-- The state a RESYNC returns to once idle is found (R37). -/
def Link.afterIdle (l : Link) (r : Resync) : LinkState :=
  match r.returnTo with
  | .opening => .opening
  | .ready => if l.exchange.isSome then .exchange else .ready

namespace State

/-- Starts the HELLO of an opening link. One that RESYNC has ended is followed by a fresh one here, since a link returns from RESYNC with
no exchange (R30, R38, R41; log 12). -/
def sendOpeningHello (s : State) (p : Port) : State :=
  if (s.port p).link.mayOpen then
    (s.modLink p (fun l => if l.exchange.isNone then l.beginExchange .hello else l)).startExchangeFrame p
  else s

/-- A start-pulse collision: the part stops, its frame counts as not sent, and it receives (R29). -/
def startPulseCollision (s : State) (p : Port) : State := s.modLink p (fun l => { l.cutOff with receiving := true })

/-- The phase and deadline of a RESYNC. -/
def setPhase (s : State) (p : Port) (r : Resync) : State := s.modLink p (fun l => { l with resync := some r })

/-- A break ends when its 3 ms are over: the part releases the wire and waits up to 10 ms (R37). -/
def breakEnd (s : State) (p : Port) : State :=
  match (s.port p).link.resync with
  | some r =>
    if r.phase = .breaking ∧ reached s.tick r.deadline = true then
      s.setPhase p { r with breaks := r.breaks + 1, phase := .idleWait, deadline := s.ahead 10 }
    else s
  | none => s

/-- Idle is found in the wait: RESYNC ends (R37). -/
def idleFound (s : State) (p : Port) : State :=
  match (s.port p).link.resync with
  | some r =>
    if r.phase = .idleWait then s.modLink p (fun l => { l with state := l.afterIdle r, resync := none }) else s
  | none => s

/-- The wait passes without idle: another break follows, or after the third the link becomes MUTE (R37, R39). -/
def idleWaitExpiry (s : State) (p : Port) : State :=
  match (s.port p).link.resync with
  | some r =>
    if r.phase = .idleWait ∧ reached s.tick r.deadline = true then
      if 3 ≤ r.breaks then s.enterMute p else s.setPhase p { r with phase := .breaking, deadline := s.ahead 3 }
    else s
  | none => s

/-- The reply deadline of the exchange in flight has been reached. -/
def replyOverdue (s : State) (p : Port) : Bool :=
  match (s.port p).link.exchange with
  | some e => s.due e.deadline
  | none => false

/-- The opening deadline has been reached in OPENING, or in RESYNC entered from OPENING (R41). -/
def openingOverdue (s : State) (p : Port) : Bool :=
  let l := (s.port p).link
  l.opening && s.due l.openingDeadline

/-- The assembly deadline has been reached (R27). -/
def assemblyOverdue (s : State) (p : Port) : Bool := s.due ((s.port p).link.assembly.map Assembly.deadline)

end State

/-- FRAME_SEND_START (R28, R33). -/
def execFrameSendStart (p : Port) (s : State) : Host.Outcome State Fault Refusal :=
  .next (if (s.port p).link.mayServe then s.startWaiting p else s)

/-- SEND_AGAIN (R29, R32). -/
def execSendAgain (p : Port) (s : State) : Host.Outcome State Fault Refusal :=
  .next (if (s.port p).link.maySend then s.startExchangeFrame p else s)

/-- OPENING_HELLO_SEND (R30, R41). -/
def execOpeningHelloSend (p : Port) (s : State) : Host.Outcome State Fault Refusal := .next (s.sendOpeningHello p)

/-- FRAME_SEND_END (R30, R33). -/
def execFrameSendEnd (p : Port) (s : State) : Host.Outcome State Fault Refusal := .next (s.endOwnFrame p)

/-- START_PULSE_COLLISION (R29). -/
def execStartPulseCollision (p : Port) (s : State) : Host.Outcome State Fault Refusal :=
  .next (if (s.port p).link.sending.isSome then s.startPulseCollision p else s)

/-- IN_FRAME_COLLISION (R29, R38; log 11). -/
def execInFrameCollision (p : Port) (s : State) : Host.Outcome State Fault Refusal :=
  .next (if (s.port p).link.sending.isSome then s.enterResync p else s)

/-- LINK_DISTURBANCE (R28, R37, R38). -/
def execLinkDisturbance (p : Port) (s : State) : Host.Outcome State Fault Refusal :=
  .next (if (s.port p).link.disturbable then s.enterResync p else s)

/-- BREAK_END (R37). -/
def execBreakEnd (p : Port) (s : State) : Host.Outcome State Fault Refusal := .next (s.breakEnd p)

/-- IDLE_FOUND (R37). -/
def execIdleFound (p : Port) (s : State) : Host.Outcome State Fault Refusal := .next (s.idleFound p)

/-- IDLE_WAIT_EXPIRY (R37, R39). -/
def execIdleWaitExpiry (p : Port) (s : State) : Host.Outcome State Fault Refusal := .next (s.idleWaitExpiry p)

/-- REPLY_DEADLINE (R32). -/
def execReplyDeadline (p : Port) (s : State) : Host.Outcome State Fault Refusal :=
  .next (if s.replyOverdue p then s.sendFailed p else s)

/-- OPENING_DEADLINE (R39, R41). -/
def execOpeningDeadline (p : Port) (s : State) : Host.Outcome State Fault Refusal :=
  .next (if s.openingOverdue p then s.enterMute p else s)

/-- ASSEMBLY_DEADLINE (R27). -/
def execAssemblyDeadline (p : Port) (s : State) : Host.Outcome State Fault Refusal :=
  .next (if s.assemblyOverdue p then s.modLink p (fun l => { l with assembly := none }) else s)

end Sys2Proof.Machine
end

