-- ==== Sys2Proof/Machine/FrameSteps.lean ====
section
/-! DEFINITION. Partner frames at their declared end: PARTNER_FRAME_DISCARD and the seven kinds a partner sends. -/

namespace Sys2Proof.Machine

open Sys2Proof

/-- PARTNER_FRAME_DISCARD: a frame that fails the checks of R23 is delivered to no block; one that passes them is taken by its kind
(log 24). -/
def execPartnerFrameDiscard (p : Port) (frame : WireFrame) (s : State) : Host.Outcome State Fault Refusal :=
  match readFrame frame with
  | none => .next (s.endReception p)
  | some f => .next (s.receive p f)

/-- TIERS_PART (R27). -/
def execTiersPart (p : Port) (strain : Bool) (tag : Tag) (scale : BitVec 2) (total : BitVec 3) (index : BitVec 2) (last : Bool)
    (entries : List RawEntry) (s : State) : Host.Outcome State Fault Refusal :=
  .next (s.receive p ⟨strain, tag, .tiers scale total index last entries⟩)

/-- GRANT (R31, R36, R66, R75, R81). -/
def execGrant (p : Port) (strain : Bool) (tag : Tag) (tier : BitVec 3) (voltage : BitVec 11) (current : BitVec 10) (lease : Word)
    (s : State) : Host.Outcome State Fault Refusal :=
  .next (s.receive p ⟨strain, tag, .grant tier voltage current lease⟩)

/-- DECLINE (R31, R36, R67, R74, R81). -/
def execDecline (p : Port) (strain : Bool) (tag : Tag) (reason : BitVec 2) (s : State) : Host.Outcome State Fault Refusal :=
  .next (s.receive p ⟨strain, tag, .decline reason⟩)

/-- SETTLED (R69, R71, R78). -/
def execSettled (p : Port) (strain : Bool) (tag : Tag) (s : State) : Host.Outcome State Fault Refusal :=
  .next (s.receive p ⟨strain, tag, .settled⟩)

/-- RENEWED (R31, R36, R89, R90, R94). -/
def execRenewed (p : Port) (strain : Bool) (tag : Tag) (lease : Word) (s : State) : Host.Outcome State Fault Refusal :=
  .next (s.receive p ⟨strain, tag, .renewed lease⟩)

/-- RECALL (R71, R102, R105, R107, R108). -/
def execRecall (p : Port) (strain : Bool) (tag : Tag) (ceiling : BitVec 10) (deadline : Word) (s : State) :
    Host.Outcome State Fault Refusal :=
  .next (s.receive p ⟨strain, tag, .recall ceiling deadline⟩)

/-- FAULT (R82, R162). -/
def execFault (p : Port) (strain : Bool) (tag : Tag) (code : BitVec 2) (s : State) : Host.Outcome State Fault Refusal :=
  .next (s.receive p ⟨strain, tag, .fault code⟩)

end Sys2Proof.Machine
end

