-- ==== Sys2Proof/Machine/HostSteps.lean ====
section
/-! DEFINITION. The command port: WRITE_TAKEN, RESPONSE_READ, and a meaning for each command a host writes (chapter 11). The row of a
command stands for a write of it with its full form to the part's own address. -/

namespace Sys2Proof.Machine

open Sys2Proof

/-! ## Transport -/

/-- WRITE_TAKEN: traffic to another address is ignored, and so is every write while RESET# is asserted (R174, R175). -/
def execWriteTaken (address : BitVec 7) (bytes : List Byte) (s : State) : Host.Outcome State Fault Refusal :=
  .next (if s.targetAddress = some address then s.takeWrite bytes else s)

/-- RESPONSE_READ: traffic to another address is ignored, and so is every read while RESET# is asserted (R174, R176). -/
def execResponseRead (address : BitVec 7) (count : Nat) (s : State) : Host.Outcome State Fault Refusal :=
  .next (if s.targetAddress = some address then s.takeRead count else s)

/-! ## Queries and copies -/

/-- QUERY_RECORD (R178). -/
def execQueryRecord (port : Byte) (s : State) : Host.Outcome State Fault Refusal :=
  .next (s.takeCommand (.queryRecord port))

/-- QUERY_TIERS (R55). -/
def execQueryTiers (port : Byte) (s : State) : Host.Outcome State Fault Refusal :=
  .next (s.takeCommand (.queryTiers port))

/-- QUERY_PORT_STATUS (R178). -/
def execQueryPortStatus (target : Byte) (s : State) : Host.Outcome State Fault Refusal :=
  .next (s.takeCommand (.queryStatus target))

/-- QUERY_DEVICE_STATUS (R145, R173, R178). -/
def execQueryDeviceStatus (s : State) : Host.Outcome State Fault Refusal :=
  .next (s.takeCommand (.queryStatus 4))

/-- FREEZE (R180). -/
def execFreeze (portMask partsMask : Byte) (s : State) : Host.Outcome State Fault Refusal :=
  .next (s.takeCommand (.freeze portMask partsMask))

/-- READ_FROZEN (R181). -/
def execReadFrozen (port : Byte) (s : State) : Host.Outcome State Fault Refusal :=
  .next (s.takeCommand (.readFrozen port))

/-! ## Modes and paths -/

/-- SET_MODE_SENSE (R3, R4). -/
def execSetModeSense (port : Byte) (s : State) : Host.Outcome State Fault Refusal :=
  .next (s.takeCommand (.setMode port 0))

/-- SET_MODE_AUTO (R3, R5, R7). -/
def execSetModeAuto (port : Byte) (s : State) : Host.Outcome State Fault Refusal :=
  .next (s.takeCommand (.setMode port 1))

/-- SET_MODE_DIRECT (R3, R5, R6). -/
def execSetModeDirect (port : Byte) (s : State) : Host.Outcome State Fault Refusal :=
  .next (s.takeCommand (.setMode port 2))

/-- SET_PATH_OPEN (R18, R19). -/
def execSetPathOpen (port : Byte) (s : State) : Host.Outcome State Fault Refusal :=
  .next (s.takeCommand (.setPath port 0))

/-- SET_PATH_CLOSED (R18, R19). -/
def execSetPathClosed (port : Byte) (s : State) : Host.Outcome State Fault Refusal :=
  .next (s.takeCommand (.setPath port 1))

/-! ## Contracts -/

/-- BID (R62). -/
def execBid (port tier : Byte) (voltage current lease : Word) (s : State) : Host.Outcome State Fault Refusal :=
  .next (s.takeCommand (.bid port tier voltage current lease))

/-- AMEND (R72). -/
def execAmend (port tier : Byte) (voltage current lease : Word) (s : State) : Host.Outcome State Fault Refusal :=
  .next (s.takeCommand (.amend port tier voltage current lease))

/-- RETIRE (R80). -/
def execRetire (port : Byte) (s : State) : Host.Outcome State Fault Refusal :=
  .next (s.takeCommand (.retire port))

/-- RANK (R114). -/
def execRank (port rank : Byte) (s : State) : Host.Outcome State Fault Refusal :=
  .next (s.takeCommand (.rank port rank))

/-! ## Allocator, trim and watch -/

/-- SET_CLAIM (R133). -/
def execSetClaim (sink : Byte) (request floor : Word) (priority : Byte) (s : State) : Host.Outcome State Fault Refusal :=
  .next (s.takeCommand (.setClaim sink request floor priority))

/-- SET_PASS (R134). -/
def execSetPass (value : Byte) (s : State) : Host.Outcome State Fault Refusal :=
  .next (s.takeCommand (.setPass value))

/-- SET_TRIM_AUTO (R153). -/
def execSetTrimAuto (port steps : Byte) (s : State) : Host.Outcome State Fault Refusal :=
  .next (s.takeCommand (.setTrim port 0 steps))

/-- SET_TRIM_MANUAL (R153). -/
def execSetTrimManual (port steps : Byte) (s : State) : Host.Outcome State Fault Refusal :=
  .next (s.takeCommand (.setTrim port 1 steps))

/-- SET_WATCH (R157, R165). -/
def execSetWatch (enable route : Byte) (s : State) : Host.Outcome State Fault Refusal :=
  .next (s.takeCommand (.setWatch enable route))

/-- FORCE_LOSS (R164). -/
def execForceLoss (port value : Byte) (s : State) : Host.Outcome State Fault Refusal :=
  .next (s.takeCommand (.forceLoss port value))

/-! ## Attention and soft reset -/

/-- SET_ATTENTION (R165, R183). -/
def execSetAttention (enables : Byte) (s : State) : Host.Outcome State Fault Refusal :=
  .next (s.takeCommand (.setAttention enables))

/-- READ_FLAGS (R182). -/
def execReadFlags (s : State) : Host.Outcome State Fault Refusal :=
  .next (s.takeCommand (.readFlags))

/-- CLEAR_FLAGS (R184). -/
def execClearFlags (group : Byte) (mask : Word) (s : State) : Host.Outcome State Fault Refusal :=
  .next (s.takeCommand (.clearFlags group mask))

/-- RESET_PART (R186). -/
def execResetPart (s : State) : Host.Outcome State Fault Refusal :=
  .next (s.takeCommand (.resetPart))

/-! ## Policy -/

/-- POLICY_VIN_LOW (R120, R179). -/
def execPolicyVinLow (port : Byte) (value : Word) (s : State) : Host.Outcome State Fault Refusal :=
  .next (s.takeCommand (.setPolicy Parameter.vinLow.code port value))

/-- POLICY_VIN_HIGH (R120, R179). -/
def execPolicyVinHigh (port : Byte) (value : Word) (s : State) : Host.Outcome State Fault Refusal :=
  .next (s.takeCommand (.setPolicy Parameter.vinHigh.code port value))

/-- POLICY_PORT_CURRENT_MAX (R59, R179). -/
def execPolicyPortCurrentMax (port : Byte) (value : Word) (s : State) : Host.Outcome State Fault Refusal :=
  .next (s.takeCommand (.setPolicy Parameter.currentMax.code port value))

/-- POLICY_LEASE_WANT (R99, R179). -/
def execPolicyLeaseWant (port : Byte) (value : Word) (s : State) : Host.Outcome State Fault Refusal :=
  .next (s.takeCommand (.setPolicy Parameter.leaseWant.code port value))

/-- POLICY_RENEW_LEAD (R99, R179). -/
def execPolicyRenewLead (port : Byte) (value : Word) (s : State) : Host.Outcome State Fault Refusal :=
  .next (s.takeCommand (.setPolicy Parameter.renewLead.code port value))

/-- POLICY_SETTLE_TIME (R14, R179). -/
def execPolicySettleTime (port : Byte) (value : Word) (s : State) : Host.Outcome State Fault Refusal :=
  .next (s.takeCommand (.setPolicy Parameter.settleTime.code port value))

/-- POLICY_OVERDRAW_MARGIN (R148, R179). -/
def execPolicyOverdrawMargin (port : Byte) (value : Word) (s : State) : Host.Outcome State Fault Refusal :=
  .next (s.takeCommand (.setPolicy Parameter.overdrawMargin.code port value))

/-- POLICY_OVERDRAW_WINDOW (R149, R179). -/
def execPolicyOverdrawWindow (port : Byte) (value : Word) (s : State) : Host.Outcome State Fault Refusal :=
  .next (s.takeCommand (.setPolicy Parameter.overdrawWindow.code port value))

/-- POLICY_DERATE (R137, R179). -/
def execPolicyDerate (port : Byte) (value : Word) (s : State) : Host.Outcome State Fault Refusal :=
  .next (s.takeCommand (.setPolicy Parameter.derate.code port value))

/-- POLICY_COMBINE (R120, R179). -/
def execPolicyCombine (port : Byte) (value : Word) (s : State) : Host.Outcome State Fault Refusal :=
  .next (s.takeCommand (.setPolicy Parameter.combine.code port value))

/-- POLICY_DROPOUT (R157, R179). -/
def execPolicyDropout (port : Byte) (value : Word) (s : State) : Host.Outcome State Fault Refusal :=
  .next (s.takeCommand (.setPolicy Parameter.dropout.code port value))

/-- POLICY_REBID_CAUSES (R64, R179). -/
def execPolicyRebidCauses (port : Byte) (value : Word) (s : State) : Host.Outcome State Fault Refusal :=
  .next (s.takeCommand (.setPolicy Parameter.rebidCauses.code port value))

/-- POLICY_RANK (R114, R179). -/
def execPolicyRank (port : Byte) (value : Word) (s : State) : Host.Outcome State Fault Refusal :=
  .next (s.takeCommand (.setPolicy Parameter.rank.code port value))

end Sys2Proof.Machine
end

