-- ==== Sys2Proof/Machine/Dispatch.lean ====
section
/-! DEFINITION. The meaning of each command: one arm per constructor of Instr. -/

namespace Sys2Proof.Machine

open Sys2Proof

/-- The effect of a command on everything but the queue. -/
def exec (i : Instr) (s : State) : Host.Outcome State Fault Refusal :=
  match i with
  | .powerOnReset => Sys2Proof.Machine.execPowerOnReset s
  | .strapSampling addr1 addr0 cold => Sys2Proof.Machine.execStrapSampling addr1 addr0 cold s
  | .meterSample readings => Sys2Proof.Machine.execMeterSample readings s
  | .attach p => Sys2Proof.Machine.execAttach p s
  | .detach p => Sys2Proof.Machine.execDetach p s
  | .pathCloseComplete p => Sys2Proof.Machine.execPathCloseComplete p s
  | .closeDeadline p => Sys2Proof.Machine.execCloseDeadline p s
  | .settleDeadline p => Sys2Proof.Machine.execSettleDeadline p s
  | .transitionDeadline p => Sys2Proof.Machine.execTransitionDeadline p s
  | .leaseExpiry p => Sys2Proof.Machine.execLeaseExpiry p s
  | .renewalPoint p => Sys2Proof.Machine.execRenewalPoint p s
  | .nextAttempt p => Sys2Proof.Machine.execNextAttempt p s
  | .holdoffDeadline p => Sys2Proof.Machine.execHoldoffDeadline p s
  | .recallDeadline p => Sys2Proof.Machine.execRecallDeadline p s
  | .overdrawWindowEnd p => Sys2Proof.Machine.execOverdrawWindowEnd p s
  | .recoveryDeadline p => Sys2Proof.Machine.execRecoveryDeadline p s
  | .watchWindowEnd p => Sys2Proof.Machine.execWatchWindowEnd p s
  | .frameSendStart p => Sys2Proof.Machine.execFrameSendStart p s
  | .sendAgain p => Sys2Proof.Machine.execSendAgain p s
  | .frameSendEnd p => Sys2Proof.Machine.execFrameSendEnd p s
  | .startPulseCollision p => Sys2Proof.Machine.execStartPulseCollision p s
  | .inFrameCollision p => Sys2Proof.Machine.execInFrameCollision p s
  | .linkDisturbance p => Sys2Proof.Machine.execLinkDisturbance p s
  | .breakEnd p => Sys2Proof.Machine.execBreakEnd p s
  | .idleFound p => Sys2Proof.Machine.execIdleFound p s
  | .idleWaitExpiry p => Sys2Proof.Machine.execIdleWaitExpiry p s
  | .replyDeadline p => Sys2Proof.Machine.execReplyDeadline p s
  | .openingDeadline p => Sys2Proof.Machine.execOpeningDeadline p s
  | .assemblyDeadline p => Sys2Proof.Machine.execAssemblyDeadline p s
  | .partnerFrameDiscard p frame => Sys2Proof.Machine.execPartnerFrameDiscard p frame s
  | .tiersPart p strain tag scale total index last entries => Sys2Proof.Machine.execTiersPart p strain tag scale total index last entries s
  | .grant p strain tag tier voltage current lease => Sys2Proof.Machine.execGrant p strain tag tier voltage current lease s
  | .decline p strain tag reason => Sys2Proof.Machine.execDecline p strain tag reason s
  | .settled p strain tag => Sys2Proof.Machine.execSettled p strain tag s
  | .renewed p strain tag lease => Sys2Proof.Machine.execRenewed p strain tag lease s
  | .recall p strain tag ceiling deadline => Sys2Proof.Machine.execRecall p strain tag ceiling deadline s
  | .fault p strain tag code => Sys2Proof.Machine.execFault p strain tag code s
  | .writeTaken address bytes => Sys2Proof.Machine.execWriteTaken address bytes s
  | .responseRead address count => Sys2Proof.Machine.execResponseRead address count s
  | .queryRecord port => Sys2Proof.Machine.execQueryRecord port s
  | .queryTiers port => Sys2Proof.Machine.execQueryTiers port s
  | .queryPortStatus target => Sys2Proof.Machine.execQueryPortStatus target s
  | .queryDeviceStatus => Sys2Proof.Machine.execQueryDeviceStatus s
  | .freeze portMask partsMask => Sys2Proof.Machine.execFreeze portMask partsMask s
  | .readFrozen port => Sys2Proof.Machine.execReadFrozen port s
  | .setModeSense port => Sys2Proof.Machine.execSetModeSense port s
  | .setModeAuto port => Sys2Proof.Machine.execSetModeAuto port s
  | .setModeDirect port => Sys2Proof.Machine.execSetModeDirect port s
  | .setPathOpen port => Sys2Proof.Machine.execSetPathOpen port s
  | .setPathClosed port => Sys2Proof.Machine.execSetPathClosed port s
  | .bid port tier voltage current lease => Sys2Proof.Machine.execBid port tier voltage current lease s
  | .amend port tier voltage current lease => Sys2Proof.Machine.execAmend port tier voltage current lease s
  | .retire port => Sys2Proof.Machine.execRetire port s
  | .rank port rank => Sys2Proof.Machine.execRank port rank s
  | .setClaim sink request floor priority => Sys2Proof.Machine.execSetClaim sink request floor priority s
  | .setPass value => Sys2Proof.Machine.execSetPass value s
  | .policyVinLow port value => Sys2Proof.Machine.execPolicyVinLow port value s
  | .policyVinHigh port value => Sys2Proof.Machine.execPolicyVinHigh port value s
  | .policyPortCurrentMax port value => Sys2Proof.Machine.execPolicyPortCurrentMax port value s
  | .policyLeaseWant port value => Sys2Proof.Machine.execPolicyLeaseWant port value s
  | .policyRenewLead port value => Sys2Proof.Machine.execPolicyRenewLead port value s
  | .policySettleTime port value => Sys2Proof.Machine.execPolicySettleTime port value s
  | .policyOverdrawMargin port value => Sys2Proof.Machine.execPolicyOverdrawMargin port value s
  | .policyOverdrawWindow port value => Sys2Proof.Machine.execPolicyOverdrawWindow port value s
  | .policyDerate port value => Sys2Proof.Machine.execPolicyDerate port value s
  | .policyCombine port value => Sys2Proof.Machine.execPolicyCombine port value s
  | .policyDropout port value => Sys2Proof.Machine.execPolicyDropout port value s
  | .policyRebidCauses port value => Sys2Proof.Machine.execPolicyRebidCauses port value s
  | .policyRank port value => Sys2Proof.Machine.execPolicyRank port value s
  | .setTrimAuto port steps => Sys2Proof.Machine.execSetTrimAuto port steps s
  | .setTrimManual port steps => Sys2Proof.Machine.execSetTrimManual port steps s
  | .setWatch enable route => Sys2Proof.Machine.execSetWatch enable route s
  | .forceLoss port value => Sys2Proof.Machine.execForceLoss port value s
  | .setAttention enables => Sys2Proof.Machine.execSetAttention enables s
  | .readFlags => Sys2Proof.Machine.execReadFlags s
  | .clearFlags group mask => Sys2Proof.Machine.execClearFlags group mask s
  | .resetPart => Sys2Proof.Machine.execResetPart s
  | .openingHelloSend p => Sys2Proof.Machine.execOpeningHelloSend p s

end Sys2Proof.Machine
end

