-- ==== Sys2Proof/Machine/Step.lean ====
section
/-! DEFINITION. One step: the command at the front of the queue, or the passing of time when the queue is empty. -/

namespace Sys2Proof.Machine

open Sys2Proof

/-- The state with its front command taken off the queue. -/
def State.withPending (s : State) (rest : List Instr) : State := { s with pending := rest }

/-- On an empty queue the part's time passes: once the present tick has its sample, the next tick begins; else nothing happens
(log 1). -/
def State.idle (s : State) : State := if s.straps.isSome ∧ s.sampleTaken = true then s.beginTick else s

/-- One step of the block. -/
def step (s : State) : Host.Outcome State Fault Refusal :=
  match s.pending with
  | [] => .next s.idle
  | c :: rest => exec c (s.withPending rest)

/-- The state with the command that a word spells put at the front of its queue; unchanged where the word spells none. -/
def State.withFetchWord (s : State) (nbits w : Nat) : State :=
  match decodeTableWord nbits w with
  | some c => s.withPending (c :: s.pending)
  | none => s

end Sys2Proof.Machine
end

