-- ==== Sys2Proof/Safety.lean ====
section
/-! DEFINITION. What statements about the block are made of: the parts of a state that an event on one port leaves alone, and the
properties that the manual says always hold (R11, R12, R56, R112, R135, R139, R165). Nothing here gives a command its meaning. -/

namespace Sys2Proof.Machine

open Sys2Proof

/-! ## What an event on another port leaves alone -/

/-- A record without the yield of its recall, which R103 moves to MET when the roster opens the path. -/
def Record.lasting (r : Record) : Record :=
  { r with recallPart := r.recallPart.map (fun c => { c with yield := .owed }) }

/-- What the roster's work for an event on another port never changes of a port: everything but its path, close operation and role, its
overdraw and watch windows with what belongs to them, the yield of its recall and a waiting YIELD. -/
def PortState.lasting (t : PortState) : PortState :=
  { t with
    front := { t.front with path := .opened, closeOp := none }
    role := .none
    monitor := { t.monitor with window := none, burstArmed := false, recovery := none }
    watch := { t.watch with window := none, repeatAt := none }
    link := { t.link with slot := { t.link.slot with yield := none } }
    contract := { t.contract with record := t.contract.record.map Record.lasting } }

/-- What no event of a contract changes of the part: the queue, the straps, the time, the policy, the claims, the watch settings and the lock,
the cold state, the enables and the command port's buffers. -/
def State.lasting (s : State) : State :=
  { s with
    ports := .all .reset, lastHandle := 0, roster := .reset, deviceFlags := 0
    allocator := { Allocator.reset with claims := s.allocator.claims } }

/-- The frame of an event of a contract on port p, whose path changes the roster may answer on the other ports. -/
abbrev State.FrameAt (s t : State) (p : Port) : Prop :=
  t.lasting = s.lasting ∧ ∀ q, q ≠ p → (t.port q).lasting = (s.port q).lasting

/-! ## What a retirement leaves (R63, R64, R83) -/

/-- The causes after which a port that is neither held nor in holdoff makes an asking at once (R64). -/
def asksAgain (rebid : Word) (r : Record) (c : Cause) : Bool :=
  !failsBid r c && (match c with
    | .hostRetire | .mode | .detached => false
    | .declined | .noReply | .settleFail | .lapsed | .supplyLost | .partnerFault => inCauses rebid c)

/-- The retirement sets the hold of the port by itself (R64). -/
def holdsPort (rebid : Word) (c : Cause) (retryLater : Bool) : Bool :=
  match c with
  | .mode | .detached => false
  | .hostRetire => true
  | .declined => !retryLater && !inCauses rebid c
  | .noReply | .settleFail | .lapsed | .supplyLost | .partnerFault => !inCauses rebid c

/-- A port's slot after the retirement of its record at a tick, the holdoff deadline of a failed fresh bid given (R63, R64, R83). -/
def ContractSlot.retired (k : ContractSlot) (r : Record) (c : Cause) (retryLater : Bool) (now holdoff : Tick) : ContractSlot :=
  let attempts := if failsBid r c then min 3 (k.attempts + 1) else k.attempts
  { record := none, lastRetirement := some { handle := r.handle, cause := c, tick := now }, attempts := attempts
    holdoff := if failsBid r c then some holdoff else k.holdoff
    hold := k.hold || (failsBid r c && attempts = 3) || holdsPort k.rebidCauses c retryLater, rebidCauses := k.rebidCauses }

/-- The flags of a port's group after a retirement (R63, R83). -/
def PortState.flagsRetired (t : PortState) (r : Record) (c : Cause) : Word :=
  t.flags ||| oneBit PortFlag.retired.bit |||
    (if failsBid r c && 2 ≤ t.contract.attempts then oneBit PortFlag.bidExhausted.bit else 0)

/-- A port's link after the retirement of its record (steps 2 to 4 of R83): the exchange of the record abandoned, its waiting requests
withdrawn, and on a usable link a RELEASE waiting. `granted` says that a withdrawn fresh bid ended with GRANT (R81). -/
def Link.retired (l : Link) (usable : Bool) (r : Record) (c : Cause) (granted : Bool) : Link :=
  let l' := l.abandon r.handle c
  let q := l'.slot.withdraw r.handle
  { l' with slot :=
      if usable && (r.state != .bidding || l.serves r.handle || granted) then
        q.putRelease { handle := some r.handle, tag := 0, cause := c }
      else q }

/-- What the retirement of a port's record leaves, up to the asking that may follow (R83): the slot and the link as R63, R64 and R83 say, the
path OPEN, nothing of the record on the roster or among the waiting requests, everything else of the port as it was. -/
def State.RetiredAt (s t : State) (p : Port) (r : Record) (c : Cause) (granted retryLater : Bool) : Prop :=
  s.FrameAt t p ∧ t.lastHandle = s.lastHandle ∧
  (t.port p).lasting =
    { s.port p with
      link := (s.port p).link.retired (s.linkUsable p) r c granted
      contract := (s.port p).contract.retired r c retryLater s.tick (s.ahead 1000)
      flags := (s.port p).flagsRetired r c }.lasting ∧
  t.path p = .opened ∧ (s.path p ≠ .opened → (t.port p).front.closeOp = none) ∧ t.role p = .none ∧
  r.handle ∉ t.roster.list ∧ (t.port p).monitor.burstArmed = false ∧
  (t.port p).link.slot.yield.all (fun y => y.handle ≠ r.handle) = true

/-! ## Shapes of a next state -/

/-- Nothing but one port's part of the state has changed. -/
abbrev State.OnlyPort (s t : State) (p : Port) : Prop := t = s.modPort p (fun _ => t.port p)

/-- The state with a response in the buffer (R176). -/
def State.answered (s : State) (c : Status) (d : ResponseData) : State := { s with response := some { status := c, data := d } }

/-- RESET# is released and no cold state stands: a host command acts on the state as it is. -/
abbrev State.Listening (s : State) : Prop := s.straps.isSome = true ∧ s.cold = .idle

/-- The state once a reception that a collision began is over. -/
def State.heard (s : State) (p : Port) : State := s.modPort p (fun u => { u with link := { u.link with receiving := false } })

/-- A link whose exchange has ended (R31, R32). -/
def Link.ended (l : Link) : Link := { l with exchange := none, state := if l.state = .exchange then .ready else l.state }

/-- A link that begins an exchange: a fresh tag from the counter, 2 retries, awaiting send; the memory of that tag goes (R24, R30, R35). -/
def Link.issued (l : Link) (body : ExchangeBody) : Link :=
  { l with
    exchange := some { body := body, tag := l.tagCounter, retries := 2, deadline := none }
    tagCounter := if l.tagCounter = 31 then 1 else l.tagCounter + 1
    memory := l.memory.filter (fun m => m.tag ≠ l.tagCounter) }

/-- A link that opens: its opening deadline and a HELLO exchange (R41). -/
def Link.opens (l : Link) (deadline : Tick) : Link :=
  { l with state := .opening, openingDeadline := some deadline, resync := none }.issued .hello

/-- A link whose own frame is cut off: a YIELD or RELEASE goes back into the slot unless a newer one has taken its place (R29, R38). -/
def Link.cut (l : Link) : Link :=
  { l with
    sending := none
    slot := match l.sending with
      | some (.yield y _) => { l.slot with yield := l.slot.yield.or (some y) }
      | some (.release r) => { l.slot with release := l.slot.release.or (some r) }
      | _ => l.slot }

/-- A link at its entry into RESYNC, the exchange in flight left as it is (R37, R38). -/
def Link.resynced (l : Link) (deadline : Tick) : Link :=
  { l.cut with
    state := .resync, assembly := none, receiving := false
    resync := some
      { breaks := 0, phase := .breaking, deadline := deadline, returnTo := if l.state = .opening then .opening else .ready } }

/-- A link whose HELLO exchange of a tag has its running reply deadline moved (R27). -/
def Link.helloMoved (l : Link) (tag : Tag) (deadline : Tick) : Link :=
  { l with exchange := l.exchange.map (fun e =>
      if e.body = .hello ∧ e.tag = tag ∧ e.deadline.isSome = true then { e with deadline := some deadline } else e) }

/-- A link in QUIET or MUTE: nothing but its tag counter is left (R39, R40). -/
def Link.silenced (l : Link) (state : LinkState) : Link := { Link.reset with state := state, tagCounter := l.tagCounter }

/-- The terms of a record: all but the yield of its recall, its pending amendment with the marks about amendments, and its renewal. -/
def Record.terms (r : Record) : Record :=
  { r.lasting with
    amendment := none, refused := false, stale := false, owed := false, owedStale := false, owedBase := false, renewal := none }

/-- What the benching of a record IN_FORCE leaves (R79, R115). -/
def State.BenchedAt (s t : State) (p : Port) (r : Record) : Prop :=
  s.FrameAt t p ∧ t.lastHandle = s.lastHandle ∧
  (t.port p).lasting =
    { s.port p with
      contract := { (s.port p).contract with record := some { r with state := .benched, rank := some (s.port p).rank } }
      flags := (s.port p).flags ||| oneBit PortFlag.benched.bit }.lasting ∧
  t.path p = .opened ∧ t.role p = .none ∧ (s.path p ≠ .opened → (t.port p).front.closeOp = none)

/-- An asking makes a fresh bid here (R58): a free, PRESENT and unheld AUTO port out of holdoff, with a catalogue or on a MUTE link. -/
def State.MayBid (s : State) (p : Port) : Prop :=
  s.mode p = .auto ∧ (s.port p).front.attach = .present ∧ s.record p = none ∧ (s.port p).contract.hold = false ∧
    (s.port p).contract.holdoff = none ∧ ((s.port p).catalogue.held = true ∨ s.linkState p = .mute)

/-- The record of a local fresh bid on the base tier; it has no lease and asks none (R51, R61). -/
def State.baseRecord (s : State) (current : Nat) : Record :=
  { handle := s.nextHandle, state := .settling, tier := 0, low := 237, high := 275, voltage := 250, requested := current,
    leaseAsked := none, granted := if current = 0 then 90 else current, trim := 0, lease := none, renewal := none,
    amendment := none, refused := false, recallPart := none, initialRecall := none, withdraw := false, stale := false,
    owed := false, owedStale := false, owedBase := false, rank := none, grantedAt := some s.tick, bidTick := s.time, settleDeadline := some (s.ahead 500),
    settledHeard := false }

/-- The record of a fresh bid over the link on an offered tier (R60). -/
def State.biddingRecord (s : State) (b : Terms) : Record :=
  { handle := s.nextHandle, state := .bidding, tier := b.tier, low := b.low, high := b.high, voltage := b.voltage,
    requested := b.current, leaseAsked := b.lease, granted := 0, trim := 0, lease := none, renewal := none, amendment := none,
    refused := false, recallPart := none, initialRecall := none, withdraw := false, stale := false, owed := false, owedStale := false,
    owedBase := false, rank := none, grantedAt := none, bidTick := s.time, settleDeadline := none, settledHeard := false }

/-- The BID frame of some terms: a voltage for a SPAN tier only, LEASE_WANT in the lease field of tier 0 (R24, R60, R72). -/
def State.bidFrame (s : State) (h : Handle) (replace : Bool) (b : Terms) : BidRequest :=
  { handle := h, replace := replace, tier := b.tier, voltage := if b.kind = .span then some b.voltage else none
    current := b.current, lease := if b.tier = 0 then s.policy.leaseWant else b.lease.getD s.policy.leaseWant }

/-- What an asking has left on a free port, under a handle: a local record on the base tier, a record in BIDDING with its request, or none where
there is no choice (R58, R60, R61). Every value is of the tick, the policy, the link and the catalogue as they stand. -/
def State.BidStands (t : State) (p : Port) (h : Handle) : Prop :=
  let locally (current : Nat) : Prop := t.record p = some { t.baseRecord current with handle := h }
  if t.linkState p = .mute then
    if (t.port p).catalogue.base = true ∧ t.policy.vinLow ≤ 275 ∧ 237 ≤ t.policy.vinHigh then locally (min 90 t.policy.currentMax)
    else t.record p = none
  else
    match t.autoChoice p with
    | none => t.record p = none
    | some b =>
      if b.tier = 0 then locally b.current
      else
        t.record p = some { t.biddingRecord b with handle := h } ∧
          (t.linkUsable p = true → (t.port p).link.slot.bid = some (t.bidFrame h false b))

/-- A pending amendment as it is sent (R72, R73). -/
def State.pendingAmendment (s : State) (b : Terms) (origin : Origin) : Amendment :=
  { tier := b.tier, low := b.low, high := b.high, voltage := b.voltage, requested := b.current, lease := b.lease, origin := origin,
    bidTick := s.time, transition := none }

/-- The record after a granted amendment has applied (R76, R109, R116; log 37), with the rank its roster entry takes (R113). -/
def State.recordAmended (s : State) (p : Port) (r : Record) (a : Amendment) (granted lease : Nat) : Record :=
  { r with
    state := .inForce, tier := a.tier, low := a.low, high := a.high, voltage := a.voltage, requested := a.requested
    granted := granted, grantedAt := some s.tick, trim := if r.state = .benched then 0 else r.trim
    lease := if a.tier = 0 then none else some { length := lease, expiry := some (s.ahead (lease * 1000)) }
    recallPart := r.recallPart.filter (fun c => decide (a.bidTick < c.arrival) && decide (c.ceiling < granted))
    rank := some (s.port p).rank }

/-- A change of a port's record, published when the path is CLOSED, the record live and its effective ceiling changed (R57, R142). -/
def State.ceilingReported (s : State) (p : Port) (before after : Record) : State :=
  if after.effectiveCeiling ≠ before.effectiveCeiling ∧ after.live = true ∧ s.path p = .closed then s.publish else s

/-- What the end of a pending amendment or of a RENEW exchange makes of an owed amendment (R53, R73; log 15): on an AUTO port it is sent with the
choice of the moment when the record can be amended, a cause for which it is owed still holds, and the choice names other than the present
terms; else nothing happens. -/
def State.owedReleased (s : State) (p : Port) : State :=
  match s.record p, s.autoChoice p with
  | some k, some b =>
    if k.owed = true ∧ ((k.owedStale = true ∧ k.stale = true) ∨ (k.owedBase = true ∧ k.tier = 0)) ∧ s.mode p = .auto ∧
        k.live = true ∧ k.amendment = none ∧ k.renewing = false ∧ k.withdraw = false ∧ s.linkState p ≠ .quiet ∧ s.linkState p ≠ .mute ∧
        ¬(b.tier = k.tier ∧ b.voltage = k.voltage ∧ b.current = k.granted) then
      s.modPort p (fun u =>
        { u with
          contract := { u.contract with
            record := some
              { k with
                amendment := some (s.pendingAmendment b .auto), refused := false, owed := false, owedStale := false
                owedBase := false } }
          link := { u.link with slot := { u.link.slot with bid := some (s.bidFrame k.handle true b) } } })
    else s
  | _, _ => s

/-! ## What a recomputation of the roster leaves (R117, R118, R121 to R125) -/

/-- The record of an AUTO port may supply: not BENCHED, its contract voltage in the input window (R118). -/
def State.maySupply (s : State) (p : Port) : Bool :=
  s.mode p = .auto && (s.record p).any (fun k =>
    k.state != .benched && decide (s.policy.vinLow ≤ k.voltage) && decide (k.voltage ≤ s.policy.vinHigh))

/-- The intended supplying set: the first entries of the roster that may supply, one under SINGLE and two under PAIR, less the DIRECT held count
(R117, R118). -/
def State.supplyingSet (s : State) : List Handle :=
  (s.roster.list.filter (fun h => (s.portOfHandle h).any s.maySupply)).take ((if s.policy.combine = .pair then 2 else 1) - s.directHeld)

/-- The port's record is in the supplying set. -/
def State.wanted (s : State) (p : Port) : Bool := (s.record p).any (fun k => s.supplyingSet.contains k.handle)

/-- An AUTO port outside the supplying set whose path is CLOSED over a record that may supply (R122). -/
def State.outgoes (s : State) (p : Port) : Bool := s.maySupply p && !s.wanted p && s.path p = .closed

/-- Some port of the supplying set has its path not yet CLOSED: there are incoming paths (R122). -/
def State.incomes (s : State) : Bool := Port.all.any (fun p => s.wanted p && s.path p != .closed)

/-- Make before break: under SINGLE, while the ports of the set, the outgoing ports and the DIRECT held count are at most two (R123). -/
def State.makesFirst (s : State) : Bool :=
  s.policy.combine = .single && decide (Port.all.countP (fun p => s.wanted p || s.outgoes p) + s.directHeld ≤ 2)

/-- The paths are in line with the supplying set (R125). -/
def State.linedUp (s : State) : Bool :=
  Port.all.all (fun p =>
    if s.wanted p then s.path p = .closed
    else s.mode p != .auto || (s.path p = .opened && s.role p != .waiting && s.role p != .held))

/-- Path, close operation and role of a port. -/
structure Placing where
  path    : PathState
  closeOp : Option CloseOp
  role    : Role
  deriving DecidableEq, Repr

/-- Path, close operation and role of a port as they stand. -/
def State.placing (s : State) (p : Port) : Placing :=
  { path := s.path p, closeOp := (s.port p).front.closeOp, role := s.role p }

/-- Where a recomputation puts a port (R122 to R124): a port of the set stays CLOSED, goes on closing, or begins to close as INCOMING; an outgoing
path is HELD in a make before break while another comes in; every other AUTO path is OPEN. -/
def State.placingAfter (s : State) (p : Port) : Placing :=
  if s.mode p ≠ .auto then s.placing p
  else if s.wanted p then
    match s.path p with
    | .closed => { s.placing p with role := .none }
    | .closing => { s.placing p with role := .incoming }
    | .opened =>
      if s.role p = .incoming then s.placing p
      else
        { path := .closing, role := .incoming
          closeOp := some { settle := 0, deadline := s.ahead 500, requester := .roster, due := false } }
  else if s.outgoes p && s.incomes && s.makesFirst then { s.placing p with role := .held }
  else { path := .opened, closeOp := none, role := .none }

/-- What a recomputation on s leaves in t of the intended supplying set, of every path and role, and of the switch-over with SWITCHING and the
SWITCHED flag (R118, R122 to R125). -/
def State.SwitchedOver (s t : State) : Prop :=
  let begun := s.roster.switchOver || !s.linedUp
  t.roster = { list := s.roster.list, intended := s.supplyingSet, switchOver := begun && s.incomes, switching := s.incomes } ∧
  (∀ p, t.placing p = s.placingAfter p) ∧
  t.deviceFlags.getLsbD DeviceFlag.switched.bit = (s.deviceFlags.getLsbD DeviceFlag.switched.bit || (begun && !s.incomes))

/-! ## What a tick's end takes -/

/-- The state after a row, which always gives one. -/
def State.ran (s : State) (c : Instr) : State :=
  match exec c s with
  | .next t => t
  | .fault _ | .refused _ => s

/-- The rows of what samples complete, port by port, as the next tick takes what is still due of them (log 2, log 39). -/
def completionRows : List Instr :=
  Port.all.flatMap (fun p => [.overdrawWindowEnd p, .watchWindowEnd p, .pathCloseComplete p, .detach p, .attach p])

/-! ## Samples (R1, R8, R14, R148, R149, R158) -/

/-- A record that a sample does not move: not SETTLING, no recall OWED, no voltage transition. -/
abbrev Record.AtRest (r : Record) : Prop :=
  r.state ≠ .settling ∧ r.recallPart.all (fun c => c.yield ≠ .owed) = true ∧ r.inTransition = false

/-- A close operation after one sample (R14). -/
def CloseOp.sampled (c : CloseOp) (pass : Bool) (settleTime : Nat) : CloseOp :=
  { c with settle := if pass then c.settle + 1 else 0, due := pass && decide (settleTime ≤ c.settle + 1) }

/-- An overdraw window after one sample (R149). -/
def OverdrawWindow.sampled (w : OverdrawWindow) (exceeds : Bool) (size : Nat) : OverdrawWindow :=
  { w with count := w.count + 1, allOver := w.allOver && exceeds, due := decide (size ≤ w.count + 1) }

/-- The debounce count after a sample (R8). -/
def debounced (a : Attach) (count voltage : Nat) : Nat :=
  if (a = .vacant ∧ 175 ≤ voltage) ∨ (a = .present ∧ voltage < 175) then min 50 (count + 1) else 0

/-- The overdraw monitor of a CLOSED path after a sample (R148, R149, R152). -/
def State.sampledMonitor (s : State) (u : PortState) (r : Record) (current : Nat) : Monitor :=
  let fresh : OverdrawWindow :=
    { count := 0, allOver := true, isBurst := u.monitor.burstArmed, due := false
      burst := if u.monitor.burstArmed then (u.catalogue.burstOf r.tier).map (fun b => (b.current, s.ahead b.length)) else none }
  let w := u.monitor.window.getD fresh
  let burst := match w.burst with
    | some (n, last) => if reached s.tick last then 0 else n
    | none => 0
  let margin := max 5 (r.effectiveCeiling * s.policy.overdrawMargin / 100) + burst
  { u.monitor with
    window := some (w.sampled (decide (r.effectiveCeiling + margin < current)) s.policy.overdrawWindow)
    burstArmed := u.monitor.burstArmed && u.monitor.window.isSome }

/-- The watch window of a port after a sample (R154, R158, R159). -/
def State.sampledWatch (s : State) (u : PortState) (voltage : Nat) : WatchWindow :=
  let w := u.watch.window.getD { count := 0, allBelow := true, droop := 0, touched := false }
  let own := u.contract.record.map (fun r => r.low * s.policy.dropout / 100)
  let droops := match u.contract.record, own with
    | some r, some d => !r.inTransition && decide (voltage < r.low - r.low * 5 / 100) && decide (d ≤ voltage)
    | _, _ => false
  { count := w.count + 1
    allBelow := w.allBelow && (match u.watch.repeatAt.or own with | some d => decide (voltage < d) | none => true)
    droop := if droops then w.droop + 1 else w.droop
    touched := w.touched || (match u.contract.record with | some r => r.inTransition | none => false) }

/-- A port whose record rests, after a sample. -/
def State.sampledPort (s : State) (u : PortState) (r : Reading) : PortState :=
  let v := min 2000 r.voltage
  let i := min 1000 r.current.toNat
  { u with
    front :=
      { u.front with
        voltage := v, current := i, debounce := debounced u.front.attach u.front.debounce v
        closeOp := match u.front.closeOp, u.contract.record with
          | some c, some k => some (c.sampled (windowTest v k.low k.high) s.policy.settleTime)
          | c, _ => c }
    monitor := match u.front.path, u.contract.record with
      | .closed, some k => s.sampledMonitor u k i
      | _, _ => u.monitor
    watch :=
      if u.front.path = .closed ∨ (u.watch.forced = true ∧ s.watchEnable = true) ∨ u.watch.repeatAt.isSome = true then
        { u.watch with window := some (s.sampledWatch u v) }
      else u.watch }

/-! ## Partner frames and host commands as rows of the table -/

/-- The row of a partner frame. -/
def frameRow (f : PartnerFrame) (p : Port) : Instr :=
  match f.body with
  | .tiers scale total index last entries => .tiersPart p f.strain f.tag scale total index last entries
  | .grant tier voltage current lease => .grant p f.strain f.tag tier voltage current lease
  | .decline reason => .decline p f.strain f.tag reason
  | .settled => .settled p f.strain f.tag
  | .renewed lease => .renewed p f.strain f.tag lease
  | .recall ceiling deadline => .recall p f.strain f.tag ceiling deadline
  | .fault code => .fault p f.strain f.tag code

/-- The command that a row of the command port stands for, as the host writes it; none for the other rows. -/
def hostCommandOf : Instr → Option HostCommand
  | .queryRecord port => some (.queryRecord port)
  | .queryTiers port => some (.queryTiers port)
  | .queryPortStatus target => some (.queryStatus target)
  | .queryDeviceStatus => some (.queryStatus 4)
  | .freeze ports parts => some (.freeze ports parts)
  | .readFrozen port => some (.readFrozen port)
  | .setModeSense port => some (.setMode port 0)
  | .setModeAuto port => some (.setMode port 1)
  | .setModeDirect port => some (.setMode port 2)
  | .setPathOpen port => some (.setPath port 0)
  | .setPathClosed port => some (.setPath port 1)
  | .bid port tier voltage current lease => some (.bid port tier voltage current lease)
  | .amend port tier voltage current lease => some (.amend port tier voltage current lease)
  | .retire port => some (.retire port)
  | .rank port rank => some (.rank port rank)
  | .setClaim sink request floor priority => some (.setClaim sink request floor priority)
  | .setPass value => some (.setPass value)
  | .policyVinLow port value => some (.setPolicy 1 port value)
  | .policyVinHigh port value => some (.setPolicy 2 port value)
  | .policyPortCurrentMax port value => some (.setPolicy 3 port value)
  | .policyLeaseWant port value => some (.setPolicy 4 port value)
  | .policyRenewLead port value => some (.setPolicy 5 port value)
  | .policySettleTime port value => some (.setPolicy 6 port value)
  | .policyOverdrawMargin port value => some (.setPolicy 7 port value)
  | .policyOverdrawWindow port value => some (.setPolicy 8 port value)
  | .policyDerate port value => some (.setPolicy 9 port value)
  | .policyCombine port value => some (.setPolicy 10 port value)
  | .policyDropout port value => some (.setPolicy 11 port value)
  | .policyRebidCauses port value => some (.setPolicy 12 port value)
  | .policyRank port value => some (.setPolicy 13 port value)
  | .setTrimAuto port steps => some (.setTrim port 0 steps)
  | .setTrimManual port steps => some (.setTrim port 1 steps)
  | .setWatch enable route => some (.setWatch enable route)
  | .forceLoss port value => some (.forceLoss port value)
  | .setAttention enables => some (.setAttention enables)
  | .readFlags => some .readFlags
  | .clearFlags group mask => some (.clearFlags group mask)
  | .resetPart => some .resetPart
  | _ => none

/-- The bytes a host writes for a command: its code, then its parameters, the low byte of a two-byte value first (section 11.2, R175). -/
def HostCommand.bytes : HostCommand → List Byte
  | .queryRecord port => [0x01, port]
  | .queryTiers port => [0x02, port]
  | .queryStatus target => [0x03, target]
  | .freeze ports parts => [0x04, ports, parts]
  | .readFrozen port => [0x05, port]
  | .setMode port mode => [0x10, port, mode]
  | .setPath port request => [0x11, port, request]
  | .bid port tier voltage current lease => [0x12, port, tier] ++ wordBytes voltage ++ wordBytes current ++ wordBytes lease
  | .amend port tier voltage current lease => [0x13, port, tier] ++ wordBytes voltage ++ wordBytes current ++ wordBytes lease
  | .retire port => [0x14, port]
  | .rank port value => [0x15, port, value]
  | .setClaim sink request floor priority => [0x20, sink] ++ wordBytes request ++ wordBytes floor ++ [priority]
  | .setPass value => [0x21, value]
  | .setPolicy parameter port value => [0x22, parameter, port] ++ wordBytes value
  | .setTrim port mode steps => [0x23, port, mode, steps]
  | .setWatch enable route => [0x24, enable, route]
  | .forceLoss port value => [0x25, port, value]
  | .setAttention enables => [0x30, enables]
  | .readFlags => [0x31]
  | .clearFlags group mask => [0x32, group] ++ wordBytes mask
  | .resetPart => [0x3F]

/-! ## What always holds -/

namespace State

/-- At most two paths are closed or closing (R12). -/
def TwoPaths (s : State) : Prop := s.pathCount ≤ 2

/-- A path is closed or closing only on a port whose record is IN_FORCE and whose mode is AUTO or DIRECT (R11), and a close operation
stands exactly while the path is CLOSING (R13 to R16). -/
def PathsBacked (s : State) : Prop :=
  ∀ p, (s.path p ≠ .opened → (∃ r, s.record p = some r ∧ r.state = .inForce) ∧ s.mode p ≠ .sense) ∧
    ((s.port p).front.closeOp.isSome ↔ s.path p = .closing)

/-- The allocator's closed-path set holds exactly the ports whose path is CLOSED (R135). -/
def ClosedSetRight (s : State) : Prop := ∀ p, s.allocator.closedSet.get p = true ↔ s.path p = .closed

/-- No two live records share a handle, and none is 0 (R56). -/
def HandlesDistinct (s : State) : Prop :=
  (∀ p r, s.record p = some r → r.handle ≠ 0) ∧
    ∀ p q r r', p ≠ q → s.record p = some r → s.record q = some r' → r.handle ≠ r'.handle

/-- A lock that is set stands over a watch that is enabled and routed to ALERT# (R165). -/
def LockedWatch (s : State) : Prop := s.lock = true → s.watchEnable = true ∧ s.alertRoute = true

/-- A pending amendment stands only on a record IN_FORCE or BENCHED (R72). -/
def AmendmentsLive (s : State) : Prop := ∀ p r, s.record p = some r → r.amendment.isSome = true → r.live = true

/-- The roster holds exactly the handles of records in IN_FORCE or BENCHED, each once (R112). -/
def RosterExact (s : State) : Prop :=
  s.roster.list.Nodup ∧ ∀ h, h ∈ s.roster.list ↔ ∃ p r, s.record p = some r ∧ r.live = true ∧ r.handle = h

/-- The roster stands in the order of its keys: benched mark, rank, granted power, port number (R113). -/
def RosterOrdered (s : State) : Prop :=
  s.roster.list.Pairwise (fun g h =>
    ∀ p q r k, s.record p = some r → s.record q = some k → r.handle = g → k.handle = h → (s.keyOf p r).ahead (s.keyOf q k) = true)

end State

/-- The claims are ones that SET CLAIM takes (R133), and the published values obey the allocator's law (R139): the allocations add up to at
most the pool, none exceeds a nonzero request, and PASS holds 0 while the pass-through enable is off. -/
def Allocator.Lawful (a : Allocator) : Prop :=
  (∀ k, (a.claims.get k).request ≠ 0 → (a.claims.get k).floor ≤ (a.claims.get k).request) ∧
  a.allocations.system + a.allocations.charge + a.allocations.pass ≤ a.pool ∧
  (∀ k, (a.claims.get k).request ≠ 0 → a.allocations.get k ≤ (a.claims.get k).request) ∧
  (a.passEnable = false → a.allocations.pass = 0)

end Sys2Proof.Machine
end

