-- ==== Sys2Proof/Certificates/Slice0/Obligations.lean ====
section
/-! DEFINITION. What is to be proved of the block: the step and its invariants, and for every row of the opcode table what its command
leaves of the state. A statement gives the whole next state where the command touches one port alone, and else the facts its rules give
with a frame (State.FrameAt, State.OnlyPort). -/

section Statements

open Sys2Proof Sys2Proof.Machine

/-! ## The queue, time and resets -/

/-- A step takes the command at the front of the queue and runs it with the queue's rest. With nothing waiting, it passes time once the present
tick has its sample, and else leaves the state as it is (the model's choice: log 1). -/
def Obligations.StepTakesFrontCommand : Prop :=
  (∀ (s : State) (c : Instr) (rest : List Instr), s.pending = c :: rest → step s = exec c (s.withPending rest)) ∧
  ∀ s : State, s.pending = [] →
    (s.straps = none ∨ s.sampleTaken = false → step s = .next s) ∧
    (s.straps.isSome = true → s.sampleTaken = true →
      ∃ t : State, step s = .next t ∧ t.time = s.time + 1 ∧ t.sampleTaken = false ∧ t.pending = [])

/-- No command stops the machine, and none touches the queue. -/
def Obligations.EveryCommandCompletes : Prop :=
  ∀ (s : State) (c : Instr), ∃ t : State, exec c s = .next t ∧ t.pending = s.pending

/-- POWER_ON_RESET puts every block into its power-on state (R20, R42, R55, R84, R131, R132, R146, R167, R179, R187); at its end
STRAP_SAMPLING samples the straps, once: the target address follows ADDR1 and ADDR0, the cold state COLD (R168, R174).
The straps are absent until then: log 5. -/
def Obligations.PowerOnResetAndStraps : Prop :=
  (∀ (s : State) (addr1 addr0 cold : Bool),
    (s.straps = none → ∃ t : State, exec (.strapSampling addr1 addr0 cold) s = .next t ∧
      t = { s with straps := some ⟨addr1, addr0, cold⟩, cold := if cold then .coldWait else .idle, coldPort := none } ∧
      t.targetAddress = some (BitVec.ofNat 7 (0x38 + 2 * addr1.toNat + addr0.toNat))) ∧
    (s.straps.isSome = true → exec (.strapSampling addr1 addr0 cold) s = .next s)) ∧
  ∀ s : State, ∃ t : State, exec .powerOnReset s = .next t ∧ t.pending = s.pending ∧ t.straps = none ∧ t.time = 0 ∧
    (∀ p,
      (t.port p).front =
        { mode := .sense, attach := .vacant, debounce := 0, voltage := 0, current := 0, pathRequest := .opened, path := .opened,
          closeOp := none } ∧
      (t.port p).link =
        { state := .quiet, exchange := none, tagCounter := 1, memory := none, assembly := none, openingDeadline := none
          slot := { release := none, yield := none, renew := none, bid := none, hello := false }
          resync := none, sending := none, receiving := false } ∧
      (t.port p).catalogue = { base := false, offered := [], held := false, arrival := none, outcome := none } ∧
      (t.port p).contract =
        { record := none, lastRetirement := none, attempts := 0, holdoff := none, hold := false, rebidCauses := 0x01F8 } ∧
      (t.port p).monitor = { trimMode := .auto, window := none, burstArmed := false, recovery := none, raiseBase := none } ∧
      (t.port p).watch = { window := none, forced := false, repeatAt := none } ∧
      (t.port p).rank = 2 ∧ (t.port p).role = .none ∧ (t.port p).flags = 0 ∧ (t.port p).frozenRecord = none ∧
      (t.port p).frozenStatus = none) ∧
    t.lastHandle = 0 ∧ t.roster = { list := [], intended := [], switchOver := false, switching := false } ∧
    t.allocator =
      { claims := ⟨⟨150, 100, 0⟩, ⟨0, 0, 1⟩, ⟨0, 0, 2⟩⟩, passEnable := false, closedSet := ⟨false, false, false, false⟩, pool := 0
        allocations := ⟨0, 0, 0⟩, limits := ⟨.off, .off, .off⟩, short := false, publishedAt := 0 } ∧
    t.policy =
      { vinLow := 225, vinHigh := 1400, currentMax := 500, leaseWant := 120, renewLead := 25, settleTime := 20,
        overdrawMargin := 5, overdrawWindow := 4, derate := 5, combine := .single, dropout := 85 } ∧
    t.watchEnable = false ∧ t.alertRoute = false ∧ t.lock = false ∧ t.deviceFlags = 0 ∧ t.enables = 0 ∧ t.response = none ∧
    (∀ p, t.gate p = false) ∧ t.attn = false ∧ t.alert = false

/-! ## Invariants -/

/-- The state after reset obeys every invariant stated below. -/
def Obligations.InvariantsAtReset : Prop :=
  State.reset.TwoPaths ∧ State.reset.PathsBacked ∧ State.reset.ClosedSetRight ∧ State.reset.HandlesDistinct ∧
    State.reset.AmendmentsLive ∧ State.reset.RosterExact ∧ State.reset.RosterOrdered ∧ State.reset.LockedWatch ∧ State.reset.allocator.Lawful

/-- At most two paths are closed or closing (R12), each over a record IN_FORCE on a port in AUTO or DIRECT (R11), and the allocator's
closed-path set is the set of CLOSED paths (R135), after every step. -/
def Obligations.PathInvariantsKept : Prop :=
  ∀ s t : State, s.TwoPaths → s.PathsBacked → s.ClosedSetRight → step s = .next t →
    t.TwoPaths ∧ t.PathsBacked ∧ t.ClosedSetRight

/-- The allocator's law holds of the published values after every step (R139), with floors no higher than nonzero requests (R132). -/
def Obligations.AllocatorLawKept : Prop :=
  ∀ s t : State, s.allocator.Lawful → step s = .next t → t.allocator.Lawful

/-- No two records ever share a handle and none carries 0 (R56), a pending amendment stands on a live record alone (R72), and the roster stays
the list of the handles of live records, each once (R112). -/
def Obligations.HandlesAndRosterKept : Prop :=
  ∀ s t : State, s.HandlesDistinct → s.AmendmentsLive → s.RosterExact → step s = .next t →
    t.HandlesDistinct ∧ t.AmendmentsLive ∧ t.RosterExact

/-- The roster stays in the order of benched mark, rank, granted power and port number (R113). -/
def Obligations.RosterKeptOrdered : Prop :=
  ∀ s t : State, s.HandlesDistinct → s.RosterExact → s.RosterOrdered → step s = .next t → t.RosterOrdered

/-- A lock that is set stands over an enabled, routed watch, and neither it nor the dropout percentage changes until a power-on reset
(R165). -/
def Obligations.LockedWatchKept : Prop :=
  ∀ s t : State, s.LockedWatch → step s = .next t →
    t.LockedWatch ∧
    (s.lock = true → s.pending.head? ≠ some .powerOnReset →
      t.lock = true ∧ t.watchEnable = true ∧ t.alertRoute = true ∧ t.policy.dropout = s.policy.dropout)

/-! ## Encodings -/

/-- A partner frame whose fields are in range is read back whole from the words a partner sends for it (R22, R23). -/
def Obligations.PartnerFramesReadBack : Prop :=
  ∀ f : PartnerFrame, bodyFieldsOk f.body = true → readFrame (encodeFrame f) = some f

/-- A write of a command's bytes to the part's address is taken: the part does what the row of the command does, and its response stands in the
buffer (section 11.2, R175, R176). A mode, path request, trim
mode or policy parameter that no row carries is refused with REFUSED_RANGE (R3, R18, R153, R179). -/
def Obligations.WrittenCommandIsItsRow : Prop :=
  (∀ (s : State) (c : Instr) (h : HostCommand) (a : BitVec 7), hostCommandOf c = some h → s.targetAddress = some a →
    ∃ t : State, exec (.writeTaken a h.bytes) s = .next t ∧ exec c s = .next t ∧ t.response.isSome = true) ∧
  ∀ (s : State) (a : BitVec 7) (port value steps low high : Byte), s.Listening → s.targetAddress = some a →
    let refused : Host.Outcome State Fault Refusal := .next (s.answered .refusedRange .empty)
    (2 < value.toNat → exec (.writeTaken a [0x10, port, value]) s = refused) ∧
    (1 < value.toNat → exec (.writeTaken a [0x11, port, value]) s = refused ∧
      exec (.writeTaken a [0x23, port, value, steps]) s = refused) ∧
    (value = 0 ∨ 13 < value.toNat → exec (.writeTaken a [0x22, value, port, low, high]) s = refused)

/-! ## Functions of the rules -/

/-- The reason of the first entry found invalid, its conditions tested in the order of the table (R45). -/
def Obligations.CatalogueValidity : Prop :=
  rejectEntries [] [] = none ∧
  ∀ (before : List Tier) (e : Tier) (rest : List Tier), rejectEntries [] before = none →
    let reason : Option RejectReason :=
      if e.id = 0 then some .badId
      else if e.id ∈ before.map Tier.id then some .duplicateId
      else if e.high < e.low then some .badWindow
      else if e.kind = .fixed ∧ e.low ≠ e.high then some .fixedSpread
      else if 2000 < e.low ∨ 2000 < e.high ∨ 1000 < e.ceiling ∨ e.burst.any (fun b => 1000 < b.current) = true then some .overRange
      else if e.leaseMax.any (fun n => n = 0 || 600 < n) = true then some .badLease
      else none
    (∀ x, reason = some x → rejectEntries [] (before ++ e :: rest) = some x) ∧
    (reason = none → rejectEntries [] (before ++ [e]) = none)

/-- The automatic choice (R49, R50, R51): the eligible tier of the highest offered power, then of the lower usable voltage, then of the lower
id, with a lease wanted but on tier 0; none exactly when no tier is eligible. -/
def Obligations.AutomaticChoice : Prop :=
  ∀ (s : State) (p : Port),
    let eligible (t : Tier) : Prop := t.low ≤ s.policy.vinHigh ∧ s.policy.vinLow ≤ t.high ∧ 10 ≤ t.ceiling
    let volts (t : Tier) : Nat :=
      if t.kind = .fixed then (if t.id = 0 then 250 else t.low) else min t.high s.policy.vinHigh
    let amps (t : Tier) : Nat := min t.ceiling s.policy.currentMax
    (s.autoChoice p = none ↔ ∀ t ∈ (s.port p).catalogue.tiers, ¬ eligible t) ∧
    ∀ b, s.autoChoice p = some b →
      ∃ t ∈ (s.port p).catalogue.tiers, eligible t ∧
        b = { tier := t.id, kind := t.kind, low := t.low, high := t.high, voltage := volts t, current := amps t
              lease := if t.id = 0 then none
                else some (match t.leaseMax with | some n => min s.policy.leaseWant n | none => s.policy.leaseWant) } ∧
        ∀ o ∈ (s.port p).catalogue.tiers, eligible o →
          volts o * amps o < volts t * amps t ∨
          (volts o * amps o = volts t * amps t ∧ (volts t < volts o ∨ (volts t = volts o ∧ t.id.toNat ≤ o.id.toNat)))

/-- The two stages of an allocation (R138, R139): a pool that covers the enabled floors gives every enabled claim its floor; what stage B
leaves over is nothing unless every enabled claim has a nonzero request and holds it; PASS while disabled receives 0. In both stages claims
come by priority and then in the order SYSTEM, CHARGE, PASS: nothing is given past a claim short of its floor, and nothing is raised above its
floor past a claim that could still be raised. -/
def Obligations.AllocationStages : Prop :=
  ∀ (a : Allocator) (pool : Nat),
    (∀ k, (a.claims.get k).priority ≤ 3) → (∀ k, (a.claims.get k).request ≠ 0 → (a.claims.get k).floor ≤ (a.claims.get k).request) →
    let given := a.divide pool
    let total := given.system + given.charge + given.pass
    let before (k j : Sink) : Prop :=
      (a.claims.get k).priority < (a.claims.get j).priority ∨
        ((a.claims.get k).priority = (a.claims.get j).priority ∧ ((k = .system ∧ j ≠ .system) ∨ (k = .charge ∧ j = .pass)))
    total ≤ pool ∧ (a.passEnable = false → given.pass = 0) ∧
    (∀ k, (a.claims.get k).request ≠ 0 → given.get k ≤ (a.claims.get k).request) ∧
    (∀ k, a.enabled k = true → a.floors ≤ pool → (a.claims.get k).floor ≤ given.get k) ∧
    (total < pool → ∀ k, a.enabled k = true → (a.claims.get k).request ≠ 0 ∧ given.get k = (a.claims.get k).request) ∧
    (∀ k j, a.enabled k = true → a.enabled j = true → before k j →
      (given.get k < (a.claims.get k).floor → given.get j = 0) ∧
      ((a.claims.get j).floor < given.get j → (a.claims.get k).request ≠ 0 ∧ given.get k = (a.claims.get k).request))

/-! ## Samples and what they complete -/

/-- METER_SAMPLE stores the limited pair of samples of every port and moves its debounce count, and takes the tick's sample; a tick whose
sample is taken begins the next one first (R1, R8). As a tick begins, the rows of all that samples have made due and that nothing has taken run,
port by port, in the order overdraw window end, watch window end, close completion, detach, attach; then the count advances.
The tick is the model's choice: log 1; so are what its beginning takes, log 2, and the order of the ports, log 39. -/
def Obligations.SampleStored : Prop :=
  ∀ (s : State) (r : PerPort Reading), s.straps.isSome = true →
    (s.sampleTaken = true →
      exec (.meterSample r) s = exec (.meterSample r) s.beginTick ∧
      s.beginTick = { completionRows.foldl State.ran s with time := s.time + 1, sampleTaken := false }) ∧
    (s.sampleTaken = false → ∃ t : State, exec (.meterSample r) s = .next t ∧ t.sampleTaken = true ∧ t.time = s.time ∧
      ∀ p, (t.port p).front.voltage = min 2000 (r.get p).voltage ∧ (t.port p).front.current = min 1000 (r.get p).current.toNat ∧
        (t.port p).front.debounce = debounced (s.port p).front.attach (s.port p).front.debounce (min 2000 (r.get p).voltage) ∧
        (t.port p).front.attach = (s.port p).front.attach ∧ t.mode p = s.mode p ∧
        (t.port p).front.pathRequest = (s.port p).front.pathRequest)

/-- The window test passes a sample from 5 % below the window to 5 % above it, each amount rounded down (R2); and a sample over ports whose
records rest moves their close operations, overdraw windows and watch windows as the rules say, and nothing else (R1, R8, R14, R148, R149,
R152, R154, R158, R159).
The due bits of close operations and overdraw windows are the model's: log 2; that a window without record and repeat state keeps its all-below
mark is its reading: log 34. -/
def Obligations.SampleAtRest : Prop :=
  (∀ v low high : Nat, windowTest v low high = true ↔ low - low * 5 / 100 ≤ v ∧ v ≤ high + high * 5 / 100) ∧
  ∀ (s : State) (r : PerPort Reading), s.straps.isSome = true → s.sampleTaken = false →
    (∀ p k, s.record p = some k → k.AtRest) →
    ∃ t : State, exec (.meterSample r) s = .next t ∧ t = { s with ports := t.ports, sampleTaken := true } ∧
      ∀ p, t.port p = s.sampledPort (s.port p) (r.get p)

/-- A sample takes a record that waits for it into IN_FORCE (R61, R69), meets an OWED recall (R103), and ends a voltage transition whose
SETTLED has been heard (R76, R78).
The order of the tests is the model's choice: log 18; that a recall older than the amendment goes whatever the grant is its reading: log 37. -/
def Obligations.SampleMovesContract : Prop :=
  ∀ (s : State) (r : PerPort Reading) (p : Port) (k : Record), s.straps.isSome = true → s.sampleTaken = false →
    s.record p = some k →
    (k.state = .settling → (k.tier = 0 ∨ k.settledHeard = true) → k.amendment = none →
      windowTest (min 2000 (r.get p).voltage) k.low k.high = true →
      ∃ (t : State) (k' : Record), exec (.meterSample r) s = .next t ∧ t.record p = some k' ∧
        k'.terms = { k with state := .inForce, rank := some (s.port p).rank }.terms ∧ (t.port p).contract.attempts = 0 ∧
        (t.port p).contract.holdoff = none ∧ t.flag p .granted = true ∧ k.handle ∈ t.roster.list) ∧
    (∀ c, k.recallPart = some c → c.yield = .owed → k.inTransition = false →
      (s.path p ≠ .closed ∨ min 1000 (r.get p).current.toNat ≤ c.ceiling) →
      ∃ (t : State) (k' : Record), exec (.meterSample r) s = .next t ∧ t.record p = some k' ∧ k'.recallPart = some { c with yield := .met } ∧
        (s.linkUsable p = true → (t.port p).link.slot.yield = some { handle := k.handle, tag := c.tag, status := .met })) ∧
    (∀ a x, k.live = true → k.amendment = some a → a.transition = some x → x.settledHeard = true →
      windowTest (min 2000 (r.get p).voltage) a.low a.high = true →
      ∃ (t : State) (k' : Record), exec (.meterSample r) s = .next t ∧ t.record p = some k' ∧
        k'.terms = (s.recordAmended p k a x.granted x.lease).terms ∧ k'.renewal = none ∧ t.flag p .amended = true ∧
        (t.port p).monitor.burstArmed = true ∧ (s.path p = .closed → t.allocator.publishedAt = s.tick))

/-- ATTACH at a debounce count of 50 on a VACANT port: PRESENT, the ATTACH flag, the base tier, and outside SENSE a HELLO (R8, R9, R41); in
COLD_WAIT the port is the cold port, leaves SENSE, and a free slot takes a base-tier record (R61, R169).
That the row acts when its sample has made it due is the model's choice: log 2. -/
def Obligations.AttachCompletes : Prop :=
  ∀ (s : State) (p : Port), (s.port p).front.attach = .vacant → 50 ≤ (s.port p).front.debounce →
    (s.cold ≠ .coldWait → exec (.attach p) s = .next (s.modPort p (fun u =>
      { u with
        front := { u.front with attach := .present, debounce := 0 }
        flags := u.flags ||| oneBit PortFlag.attach.bit
        catalogue := { u.catalogue with base := true }
        link := if u.front.mode = .sense then u.link else u.link.opens (s.ahead 250) }))) ∧
    (s.cold = .coldWait → ∃ t : State, exec (.attach p) s = .next t ∧ t.cold = .coldSupply ∧ t.coldPort = some p ∧
      (t.port p).front.attach = .present ∧ (t.port p).front.debounce = 0 ∧ t.flag p .attach = true ∧
      (t.port p).catalogue = { (s.port p).catalogue with base := true } ∧
      t.mode p = (if s.mode p = .sense then .auto else s.mode p) ∧
      (s.mode p = .sense → (t.port p).contract.hold = false) ∧
      t.linkState p = .opening ∧ (t.port p).link.openingDeadline = some (s.ahead 250) ∧
      (s.record p = none →
        t.record p = some (s.baseRecord (min 90 s.policy.currentMax)) ∧ t.lastHandle = s.nextHandle ∧
        (t.port p).monitor.burstArmed = true) ∧
      (∀ k, s.record p = some k → ∃ k', t.record p = some k' ∧ k'.lasting = k.lasting) ∧
      (∀ q, q ≠ p → (t.port q).lasting = (s.port q).lasting) ∧ t.response = s.response)

/-- DETACH at a debounce count of 50 on a PRESENT port: VACANT, the link QUIET, the record retired as DETACHED, the catalogue empty, the
DETACH flag, the attempts and holdoff gone, and a lost cold port (R8, R10, R40, R65, R163, R171).
That the row acts when its sample has made it due is the model's choice: log 2. -/
def Obligations.DetachCompletes : Prop :=
  ∀ (s : State) (p : Port), s.PathsBacked → (s.port p).front.attach = .present → 50 ≤ (s.port p).front.debounce →
    ∃ t : State, exec (.detach p) s = .next t ∧
      (t.port p).front =
        { (s.port p).front with attach := .vacant, debounce := 0, path := .opened, closeOp := none } ∧
      (t.port p).link = (s.port p).link.silenced .quiet ∧
      (t.port p).catalogue = { base := false, offered := [], held := false, arrival := none, outcome := none } ∧
      (t.port p).contract =
        { record := none, attempts := 0, holdoff := none, hold := (s.port p).contract.hold
          rebidCauses := (s.port p).contract.rebidCauses
          lastRetirement := match s.record p with
            | some k => some { handle := k.handle, cause := .detached, tick := s.tick }
            | none => (s.port p).contract.lastRetirement } ∧
      (t.port p).flags = (s.port p).flags ||| oneBit PortFlag.detach.bit |||
        (if (s.record p).isSome then oneBit PortFlag.retired.bit else 0) ∧
      (t.port p).watch.repeatAt = none ∧ t.role p = (if (s.record p).isSome then .none else s.role p) ∧
      (s.cold = .coldSupply ∧ s.coldPort = some p → t.cold = .coldWait ∧ t.coldPort = none) ∧
      (¬(s.cold = .coldSupply ∧ s.coldPort = some p) → t.cold = s.cold ∧ t.coldPort = s.coldPort) ∧
      ∀ q, q ≠ p → (t.port q).lasting = (s.port q).lasting

/-- PATH_CLOSE_COMPLETE on a CLOSING path whose settle count is reached: over a record IN_FORCE on a DIRECT port, or one of the set the roster
forms, the path is CLOSED with its monitor and watch begun anew, reported to the allocator (R14, R119, R142, R147, R158), and the roster
recomputes, which opens a path HELD for it (R119, R122 to R125); over any other the close goes on.
That the row acts when its sample has made it due is the model's choice: log 2. -/
def Obligations.CloseCompletes : Prop :=
  ∀ (s : State) (p : Port) (c : CloseOp), s.path p = .closing → (s.port p).front.closeOp = some c → c.due = true →
    (∀ k, s.record p = some k → k.state = .inForce → (s.mode p = .direct ∨ (s.mode p = .auto ∧ k.handle ∈ s.formSet)) →
      ∃ t : State, exec (.pathCloseComplete p) s = .next t ∧ s.FrameAt t p ∧
        t.port p =
          { s.port p with
            front := { (s.port p).front with path := .closed, closeOp := none }
            role := .none
            monitor := { (s.port p).monitor with
              window := none
              recovery := if (s.port p).monitor.trimMode = .auto then some (s.ahead 1000) else none }
            watch := { (s.port p).watch with window := none, repeatAt := none } } ∧
        t.gate p = true ∧ t.allocator.closedSet.get p = true ∧ t.allocator.publishedAt = s.tick ∧
        (s.PathsBacked → s.HandlesDistinct → s.RosterExact →
          (s.modPort p (fun u => { u with front := { u.front with path := .closed, closeOp := none }, role := .none })).SwitchedOver t)) ∧
    ((∀ k, s.record p = some k → k.state ≠ .inForce) ∨ s.mode p = .sense →
      exec (.pathCloseComplete p) s =
        .next (s.modPort p (fun u => { u with front := { u.front with closeOp := some { c with due := false } } })))

/-- CLOSE_DEADLINE on a path still CLOSING: the close fails, the path is OPEN, a record IN_FORCE is benched, and the roster recomputes past it: a path
HELD for it stays, or the next entry comes in (R15, R79, R122 to R125, R127).
That the roster recomputes once, when the record is benched, is the model's reading: log 10. -/
def Obligations.CloseDeadlineFails : Prop :=
  ∀ (s : State) (p : Port) (c : CloseOp), s.path p = .closing → (s.port p).front.closeOp = some c →
    reached s.tick c.deadline = true →
    (∀ k, s.record p = some k → k.state = .inForce →
      ∃ t : State, exec (.closeDeadline p) s = .next t ∧ s.BenchedAt t p k ∧
        (s.PathsBacked → s.HandlesDistinct → s.RosterExact →
          { s.modPort p (fun u =>
              { u with
                front := { u.front with path := .opened, closeOp := none }, role := .none
                contract := { u.contract with record := some { k with state := .benched } } }) with
            roster := { s.roster with list := t.roster.list } }.SwitchedOver t)) ∧
    ((∀ k, s.record p = some k → k.state ≠ .inForce) →
      ∃ t : State, exec (.closeDeadline p) s = .next t ∧ s.FrameAt t p ∧ t.path p = .opened ∧ (t.port p).front.closeOp = none ∧
        t.role p ≠ .incoming ∧ (t.port p).lasting = (s.port p).lasting)

/-! ## Paths and modes by command -/

/-- SET PATH (R13, R16, R18, R19): refused for a port or value out of range; outside DIRECT the request is only stored; on a DIRECT port OPEN
opens the path at once, and CLOSED is checked for the record, the input window and the two-path limit, and begins a close. -/
def Obligations.SetPath : Prop :=
  ∀ (s : State) (b : Byte), s.Listening →
    (portOf b = none →
      exec (.setPathOpen b) s = .next (s.answered .refusedRange .empty) ∧
      exec (.setPathClosed b) s = .next (s.answered .refusedRange .empty)) ∧
    ∀ p, portOf b = some p →
      let stored (r : PathRequest) : State :=
        s.modPort p (fun u => { u with front := { u.front with pathRequest := r } })
      let mayClose : Prop :=
        ∃ k, s.record p = some k ∧ k.state = .inForce ∧ s.policy.vinLow ≤ k.voltage ∧ k.voltage ≤ s.policy.vinHigh
      (s.mode p ≠ .direct →
        exec (.setPathOpen b) s = .next ((stored .opened).answered .done .empty) ∧
        exec (.setPathClosed b) s = .next ((stored .closed).answered .done .empty)) ∧
      (s.mode p = .direct → s.path p = .opened → exec (.setPathOpen b) s = .next ((stored .opened).answered .done .empty)) ∧
      (s.mode p = .direct → s.path p ≠ .opened →
        ∃ t : State, exec (.setPathOpen b) s = .next (t.answered .done .empty) ∧ s.FrameAt t p ∧
          (t.port p).lasting = ((stored .opened).port p).lasting ∧ t.path p = .opened ∧ (t.port p).front.closeOp = none ∧
          (s.path p = .closed → t.allocator.closedSet.get p = false ∧ t.allocator.publishedAt = s.tick)) ∧
      (s.mode p = .direct → ¬ mayClose → exec (.setPathClosed b) s = .next (s.answered .refusedState .empty)) ∧
      (s.mode p = .direct → mayClose → s.path p = .opened → 2 ≤ s.pathCount →
        exec (.setPathClosed b) s = .next (s.answered .refusedLimit .empty)) ∧
      (s.mode p = .direct → mayClose → s.path p ≠ .opened →
        exec (.setPathClosed b) s = .next ((stored .closed).answered .done .empty)) ∧
      (s.mode p = .direct → mayClose → s.path p = .opened → s.pathCount < 2 →
        ∃ t : State, exec (.setPathClosed b) s = .next (t.answered .done .empty) ∧ s.FrameAt t p ∧
          (t.port p).lasting = ((stored .closed).port p).lasting ∧ t.path p = .closing ∧
          (t.port p).front.closeOp =
            some { settle := 0, deadline := s.ahead 500, requester := .host, due := false })

/-- SET MODE SENSE (R3, R4, R40, R83, R128): nothing on a port in SENSE; else the record is retired as MODE, the path is OPEN, the link QUIET,
and the attach state, catalogue and path request stay. -/
def Obligations.SetModeSense : Prop :=
  ∀ (s : State) (b : Byte), s.Listening →
    (portOf b = none → exec (.setModeSense b) s = .next (s.answered .refusedRange .empty)) ∧
    ∀ p, portOf b = some p →
      (s.mode p = .sense → exec (.setModeSense b) s = .next (s.answered .done .empty)) ∧
      (s.mode p ≠ .sense → s.PathsBacked → ∃ t : State, exec (.setModeSense b) s = .next (t.answered .done .empty) ∧
        s.FrameAt t p ∧ (t.port p).front = { (s.port p).front with mode := .sense, path := .opened, closeOp := none } ∧
        (t.port p).link = (s.port p).link.silenced .quiet ∧ (t.port p).catalogue = (s.port p).catalogue ∧
        t.role p = .none ∧ t.record p = none ∧
        (t.port p).contract =
          (match s.record p with
          | some k =>
            { (s.port p).contract with
              record := none, lastRetirement := some { handle := k.handle, cause := .mode, tick := s.tick } }
          | none => (s.port p).contract) ∧
        t.flag p .retired = (s.flag p .retired || (s.record p).isSome))

/-- SET MODE AUTO (R3, R5, R7, R41, R65, R128): the mode is AUTO and the hold clear; a PRESENT port that leaves SENSE, and a MUTE link on a port
already in AUTO, begin a HELLO; a record stays; a host close goes on for the roster. An asking follows, on which a free port bids (R58 to R61, R65);
a link that leaves MUTE lets an owed amendment go out (R73).
The one asking at the end of the command is the model's reading: log 16; the release at the HELLO of a MUTE link is too: log 15. -/
def Obligations.SetModeAuto : Prop :=
  ∀ (s : State) (b : Byte), s.Listening →
    (portOf b = none → exec (.setModeAuto b) s = .next (s.answered .refusedRange .empty)) ∧
    ∀ p, portOf b = some p → ∃ t : State, exec (.setModeAuto b) s = .next (t.answered .done .empty) ∧
      s.FrameAt t p ∧ t.mode p = .auto ∧ (t.port p).contract.hold = false ∧
      (t.port p).front.attach = (s.port p).front.attach ∧ (t.port p).front.pathRequest = (s.port p).front.pathRequest ∧
      (t.port p).catalogue = (s.port p).catalogue ∧ (t.port p).flags = (s.port p).flags ∧
      (∀ k, s.record p = some k → ∃ k', t.record p = some k' ∧ k'.terms = k.terms ∧ k'.renewal = k.renewal) ∧
      ((s.mode p = .sense ∧ (s.port p).front.attach = .present) ∨ (s.mode p = .auto ∧ s.linkState p = .mute) →
        t.linkState p = .opening ∧ (t.port p).link.openingDeadline = some (s.ahead 250) ∧
        (t.port p).link.exchange = some { body := .hello, tag := (s.port p).link.tagCounter, retries := 2, deadline := none }) ∧
      (¬((s.mode p = .sense ∧ (s.port p).front.attach = .present) ∨ (s.mode p = .auto ∧ s.linkState p = .mute)) →
        t.linkState p = s.linkState p ∧ (t.port p).link.exchange = (s.port p).link.exchange) ∧
      (s.mode p = .direct → s.PathsBacked → t.path p = .closing →
        (t.port p).front.closeOp.map CloseOp.requester = some .roster) ∧
      (s.mode p = .auto → (s.record p).isSome = true →
        let clear := s.modPort p (fun u => { u with contract := { u.contract with hold := false } })
        t =
          if s.linkState p = .mute then (clear.modPort p (fun u => { u with link := u.link.opens (s.ahead 250) })).owedReleased p
          else clear) ∧
      (s.record p = none →
        let asks : Prop := (s.port p).front.attach = .present ∧ (s.port p).contract.holdoff = none ∧
          ((s.port p).catalogue.held = true ∨ t.linkState p = .mute)
        (asks → t.BidStands p s.nextHandle) ∧ (¬asks → t.record p = none))

/-- SET MODE DIRECT (R3, R5, R6, R41, R128): from AUTO a CLOSED or OPEN path stays and a close is abandoned, the role is NONE, and record and
link stay; a PRESENT port that leaves SENSE, and a MUTE link on a port already in DIRECT, begin a HELLO. -/
def Obligations.SetModeDirect : Prop :=
  ∀ (s : State) (b : Byte), s.Listening →
    (portOf b = none → exec (.setModeDirect b) s = .next (s.answered .refusedRange .empty)) ∧
    ∀ p, portOf b = some p →
      (s.mode p = .auto → ∃ t : State, exec (.setModeDirect b) s = .next (t.answered .done .empty) ∧ s.FrameAt t p ∧
        (s.path p = .opened ∨ s.path p = .closed →
          t.port p = { s.port p with front := { (s.port p).front with mode := .direct }, role := .none }) ∧
        (s.path p = .closing →
          t.port p =
            { s.port p with front := { (s.port p).front with mode := .direct, path := .opened, closeOp := none }, role := .none })) ∧
      (s.mode p = .sense → s.path p = .opened → ∃ t : State, exec (.setModeDirect b) s = .next (t.answered .done .empty) ∧ s.FrameAt t p ∧
        (t.port p).front = { (s.port p).front with mode := .direct } ∧
        (t.port p).link =
          (if (s.port p).front.attach = .present then (s.port p).link.opens (s.ahead 250) else (s.port p).link) ∧
        (t.port p).contract = (s.port p).contract ∧ (t.port p).catalogue = (s.port p).catalogue) ∧
      (s.mode p = .direct → exec (.setModeDirect b) s =
        .next ((if s.linkState p = .mute then s.modPort p (fun u => { u with link := u.link.opens (s.ahead 250) }) else s).answered
          .done .empty))

/-! ## The wire and the link engine -/

/-- FRAME_SEND_START on a READY link with a free wire takes the first waiting request in the order RELEASE, YIELD, RENEW, BID, HELLO; a
RENEW, BID or HELLO begins an exchange with a fresh tag, a YIELD carries the latest current (R24, R30, R33). -/
def Obligations.FrameStartsInSlotOrder : Prop :=
  ∀ (s : State) (p : Port),
    let l := (s.port p).link
    let q := l.slot
    l.state = .ready → l.exchange = none → l.sending = none → l.receiving = false →
    let begins (body : ExchangeBody) (rest : RequestSlot) : State :=
      s.modLink p (fun l =>
        { l.issued body with state := .exchange, slot := rest, sending := some (.exchange body l.tagCounter) })
    (∀ r, q.release = some r → exec (.frameSendStart p) s =
      .next (s.modLink p (fun l => { l with slot := { q with release := none }, sending := some (.release r) }))) ∧
    (∀ y, q.release = none → q.yield = some y → exec (.frameSendStart p) s =
      .next (s.modLink p (fun l =>
        { l with slot := { q with yield := none }, sending := some (.yield y (s.port p).front.current) }))) ∧
    (∀ r, q.release = none → q.yield = none → q.renew = some r →
      exec (.frameSendStart p) s = .next (begins (.renew r) { q with renew := none })) ∧
    (∀ r, q.release = none → q.yield = none → q.renew = none → q.bid = some r →
      exec (.frameSendStart p) s = .next (begins (.bid r) { q with bid := none })) ∧
    (q.release = none → q.yield = none → q.renew = none → q.bid = none → q.hello = true →
      exec (.frameSendStart p) s = .next (begins .hello { q with hello := false }))

/-- SEND_AGAIN and OPENING_HELLO_SEND start the frame of the exchange that awaits send, with the tag it has; in OPENING without an exchange, as
RESYNC may leave it, OPENING_HELLO_SEND begins a fresh HELLO (R38, R41; the row that begins it is log 12's reading); FRAME_SEND_END sets the reply
deadline of the exchange whose frame ends 25 ms ahead, and ends any other frame (R24, R30, R32, R33, R41).
That both rows start the HELLO is the model's reading: log 30. -/
def Obligations.ExchangeFrameSent : Prop :=
  ∀ (s : State) (p : Port),
    let l := (s.port p).link
    (∀ e, l.sending = none → l.receiving = false → l.exchange = some e → e.deadline = none →
      (l.state = .exchange ∨ l.state = .opening → exec (.sendAgain p) s =
        .next (s.modLink p (fun l => { l with sending := some (.exchange e.body e.tag) }))) ∧
      (l.state = .opening → e.body = .hello → exec (.openingHelloSend p) s =
        .next (s.modLink p (fun l => { l with sending := some (.exchange e.body e.tag) })))) ∧
    (l.sending = none → l.receiving = false → l.exchange = none → l.state = .opening → exec (.openingHelloSend p) s =
      .next (s.modLink p (fun l => { l.issued .hello with sending := some (.exchange .hello l.tagCounter) }))) ∧
    (∀ f, l.sending = some f →
      (∀ body e, f = .exchange body e.tag → l.exchange = some e → e.deadline = none → exec (.frameSendEnd p) s =
        .next (s.modLink p (fun l =>
          { l with sending := none, exchange := some { e with deadline := some (s.ahead 25) } }))) ∧
      ((∀ e, l.exchange = some e → e.deadline = none → ∀ body, f ≠ .exchange body e.tag) → exec (.frameSendEnd p) s =
        .next (s.modLink p (fun l => { l with sending := none }))))

/-- A start-pulse collision cuts the part's frame off and lets it receive (R29). A collision inside its frame, and a disturbance of an open
link, take the link to RESYNC; the exchange in flight has lost its send, as if its reply deadline had been reached (R28, R29, R37, R38).
A HELLO that is out of retries ends there with no other in its place (R38).
The retry spent by a collision inside a frame is the model's reading: log 11. -/
def Obligations.CollisionsAndDisturbance : Prop :=
  ∀ (s : State) (p : Port),
    let l := (s.port p).link
    (l.sending.isSome = true → exec (.startPulseCollision p) s =
      .next (s.modLink p (fun l => { l.cut with receiving := true }))) ∧
    ∀ c, (c = .inFrameCollision p ∧ l.sending.isSome = true) ∨
        (c = .linkDisturbance p ∧ (l.state = .opening ∨ l.state = .ready ∨ l.state = .exchange)) →
      (l.exchange = none → exec c s = .next (s.modLink p (fun l => l.resynced (s.ahead 3)))) ∧
      (∀ e, l.exchange = some e → 0 < e.retries → exec c s =
        .next (s.modLink p (fun l =>
          { l.resynced (s.ahead 3) with exchange := some { e with retries := e.retries - 1, deadline := none } }))) ∧
      (∀ e, l.exchange = some e → e.retries = 0 → e.body = .hello → exec c s =
        .next (s.modLink p (fun l => { l.resynced (s.ahead 3) with exchange := none }))) ∧
      (∀ e, l.exchange = some e → e.retries = 0 → exec c s =
        exec (.replyDeadline p) (s.modLink p (fun l =>
          { l.resynced (s.ahead 3) with exchange := some { e with deadline := some s.tick } })))

/-- The phases of RESYNC: a break ends after 3 ms and a wait of 10 ms follows; idle ends RESYNC in OPENING, or in READY, which is EXCHANGE while
an exchange awaits send; a wait without idle is followed by another break while fewer than three have been made (R37). -/
def Obligations.ResyncPhases : Prop :=
  ∀ (s : State) (p : Port) (r : Resync), (s.port p).link.resync = some r →
    (r.phase = .breaking → reached s.tick r.deadline = true → exec (.breakEnd p) s =
      .next (s.modLink p (fun l =>
        { l with resync := some { r with breaks := r.breaks + 1, phase := .idleWait, deadline := s.ahead 10 } }))) ∧
    (r.phase = .idleWait → exec (.idleFound p) s =
      .next (s.modLink p (fun l =>
        { l with
          resync := none
          state := if r.returnTo = .opening then .opening else if l.exchange.isSome then .exchange else .ready }))) ∧
    (r.phase = .idleWait → reached s.tick r.deadline = true → r.breaks < 3 → exec (.idleWaitExpiry p) s =
      .next (s.modLink p (fun l => { l with resync := some { r with phase := .breaking, deadline := s.ahead 3 } })))

/-- MUTE is entered at an opening deadline, or when the wait after the third break ends without idle (R37, R39, R41): nothing of the link is left
but its tag counter, LINK is set, a BID that waits or is in flight ends with NO_REPLY (R68, R74), and so does a RENEW (R91); a live contract
and its path stay; the asking that follows bids the base tier on a free AUTO port (R58, R59, R61).
That a renewal in RETRY_WAIT or REFUSED stays as it is, is the model's choice: log 41. -/
def Obligations.LinkBecomesMute : Prop :=
  ∀ (s : State) (p : Port) (c : Instr),
    let l := (s.port p).link
    (c = .openingDeadline p ∧ l.opening = true ∧ s.due l.openingDeadline = true) ∨
      (c = .idleWaitExpiry p ∧ ∃ r, l.resync = some r ∧ r.phase = .idleWait ∧ reached s.tick r.deadline = true ∧ 3 ≤ r.breaks) →
    let bidEnds : Bool := l.exchange.any (fun e => e.body.isBid) || l.slot.bid.isSome
    let renewEnds : Bool := l.exchange.any (fun e => e.body.isRenew) || l.slot.renew.isSome
    ∃ t : State, exec c s = .next t ∧ s.FrameAt t p ∧ (t.port p).link = l.silenced .mute ∧ t.flag p .link = true ∧
      (t.port p).front.attach = (s.port p).front.attach ∧ t.mode p = s.mode p ∧ (t.port p).catalogue = (s.port p).catalogue ∧
      (∀ k, s.record p = some k → k.live = true → k.withdraw = false →
        t.path p = s.path p ∧ ∃ k', t.record p = some k' ∧ k'.terms = k.terms ∧
          k'.amendment = (if bidEnds then k.amendment.filter (fun a => a.transition.isSome) else k.amendment) ∧
          k'.renewal =
            if renewEnds then
              k.renewal.map (fun n => if n.state = .inFlight then { n with state := .retryWait (s.ahead 2000) } else n)
            else k.renewal) ∧
      (∀ k, s.record p = some k → k.state = .bidding → k.withdraw = false → bidEnds = true →
        t.record p = none ∧
        (t.port p).contract.lastRetirement = some { handle := k.handle, cause := .noReply, tick := s.tick } ∧
        t.flag p .retired = true) ∧
      (s.record p = none →
        let asks : Prop := s.mode p = .auto ∧ (s.port p).front.attach = .present ∧ (s.port p).contract.hold = false ∧
          (s.port p).contract.holdoff = none
        (asks → t.BidStands p s.nextHandle) ∧ (¬asks → t.record p = none))

/-- A reply deadline reached (R32): a retry is spent and the frame awaits send again; with none left the exchange ends with NO_REPLY. A HELLO in
OPENING begins anew (R41), a fresh bid is retired as NO_REPLY and its tag remembered (R35, R63, R68), an amendment is refused (R74), a
renewal waits 2 s (R91), a withdrawn record is retired (R81), and an owed amendment may go out at the end of an amendment or a renewal (R53, R73, R74, R91,
R94).
The memory of a withdrawn bid is the model's reading: log 14; for which causes an amendment is owed is too: log 15. That a renewal in RETRY_WAIT or
REFUSED stays as it is, is the model's choice: log 41. -/
def Obligations.ReplyDeadlineReached : Prop :=
  ∀ (s : State) (p : Port) (e : Exchange) (d : Tick),
    let l := (s.port p).link
    l.exchange = some e → e.deadline = some d → reached s.tick d = true →
    (0 < e.retries → exec (.replyDeadline p) s =
      .next (s.modLink p (fun l => { l with exchange := some { e with retries := e.retries - 1, deadline := none } }))) ∧
    (e.retries = 0 →
      (e.body = .hello → exec (.replyDeadline p) s =
        .next (s.modLink p (fun l => if l.state = .opening then l.issued .hello else l.ended))) ∧
      (∀ b, e.body = .bid b →
        let after := s.modLink p (fun l =>
          { l.ended with
            memory := if b.replace then l.memory else some { tag := e.tag, kind := .bid, cause := .noReply } })
        (s.record p = none → exec (.replyDeadline p) s = .next after) ∧
        ∀ k, s.record p = some k →
          (k.withdraw = true → ∃ u : State, exec (.replyDeadline p) s = .next u ∧ after.RetiredAt u p k .hostRetire false false) ∧
          (k.withdraw = false → k.state = .bidding →
            ∃ u : State, exec (.replyDeadline p) s = .next u ∧ after.RetiredAt u p k .noReply false false) ∧
          (∀ a, k.withdraw = false → k.state ≠ .bidding → k.amendment = some a → a.transition = none →
            exec (.replyDeadline p) s = .next ((after.modPort p (fun u =>
              { u with
                contract := { u.contract with record := some { k with amendment := none, refused := true } }
                flags := u.flags ||| oneBit PortFlag.amended.bit })).owedReleased p))) ∧
      (∀ b k, e.body = .renew b → s.record p = some k →
        (∀ n, k.renewal = some n → n.state = .inFlight → exec (.replyDeadline p) s = .next ((s.modPort p (fun u =>
          { u with
            link := u.link.ended
            contract := { u.contract with record := some { k with renewal := some { n with state := .retryWait (s.ahead 2000) } } }
            flags := u.flags ||| (if n.attempts = 1 then oneBit PortFlag.renewFail.bit else 0) })).owedReleased p)) ∧
        (k.renewing = false → exec (.replyDeadline p) s = .next ((s.modLink p Link.ended).owedReleased p))))

/-! ## Partner frames -/

/-- TIERS_PART and ASSEMBLY_DEADLINE (R25, R27): a part 0, or the next part of the assembly in its tag, is taken in with its scale, and moves the
assembly deadline and that of its HELLO exchange; any other part, a wrong total, and the deadline throw the assembly away.
The HELLO that awaits send keeps no deadline: log 28. -/
def Obligations.TiersAssembly : Prop :=
  ∀ (s : State) (p : Port),
    let l := (s.port p).link
    (∀ (tag : Tag) (scale : BitVec 2) (total : BitVec 3) (index : BitVec 2) (last : Bool) (entries : List RawEntry),
      let part : Instr := .tiersPart p false tag scale total index last entries
      let taken : List (BitVec 2 × RawEntry) := entries.map (fun e => (scale, e))
      let gathered : Option (List (BitVec 2 × RawEntry)) :=
        if index = 0 then some taken
        else (l.assembly.filter (fun a => a.tag = tag ∧ a.next = index.toNat)).map (fun a => a.entries ++ taken)
      s.hears p = true → bodyFieldsOk (.tiers scale total index last entries) = true →
        (gathered = none → exec part s =
          .next (s.modLink p (fun l => { l with receiving := false, assembly := none }))) ∧
        (∀ g, gathered = some g → last = false → exec part s =
          .next (s.modLink p (fun l =>
            { l.helloMoved tag (s.ahead 25) with
              receiving := false
              assembly := some { tag := tag, next := index.toNat + 1, entries := g, deadline := s.ahead 25 } }))) ∧
        (∀ g, gathered = some g → last = true → g.length ≠ total.toNat → exec part s =
          .next (s.modLink p (fun l =>
            { l.helloMoved tag (s.ahead 25) with receiving := false, assembly := none })))) ∧
    (∀ a, l.assembly = some a → reached s.tick a.deadline = true → exec (.assemblyDeadline p) s =
      .next (s.modLink p (fun l => { l with assembly := none })))

/-- The last part of a whole catalogue (R27, R31, R41, R44 to R47, R52): a HELLO exchange of its tag ends with the link READY; a valid catalogue
replaces the offered tiers in ascending id order, an invalid one only leaves its reason; TIERS is set, and a live record is put to the check
when the catalogue is accepted. On an AUTO port a failed check (R53) and the base-tier test (R73) give the record a pending automatic amendment
with its BID waiting, or the owed mark with its cause: a base-tier test beside a failed check that has just sent is owed; a free port makes an
asking (R58 to R61).
That the base-tier test comes after the check is the model's reading: log 33; the causes kept with the owed mark are too: log 15. -/
def Obligations.CatalogueTaken : Prop :=
  ∀ (s : State) (p : Port) (tag : Tag) (scale : BitVec 2) (total : BitVec 3) (index : BitVec 2) (entries : List RawEntry)
      (gathered : List (BitVec 2 × RawEntry)),
    let l := (s.port p).link
    let c := (s.port p).catalogue
    let part : Instr := .tiersPart p false tag scale total index true entries
    let taken : List (BitVec 2 × RawEntry) := entries.map (fun e => (scale, e))
    let tiers := gathered.map (fun e => normalise e.1 e.2)
    let answersHello : Prop := ∃ e, l.exchange = some e ∧ e.body = .hello ∧ e.tag = tag
    s.hears p = true → bodyFieldsOk (.tiers scale total index true entries) = true →
    (index = 0 ∧ gathered = taken) ∨
      (index ≠ 0 ∧ ∃ a, l.assembly = some a ∧ a.tag = tag ∧ a.next = index.toNat ∧ gathered = a.entries ++ taken) →
    gathered.length = total.toNat →
    ∃ t : State, exec part s = .next t ∧ s.FrameAt t p ∧ t.flag p .tiers = true ∧ (t.port p).link.assembly = none ∧
      (answersHello → t.linkState p = .ready ∧ (t.port p).link.exchange = none ∧ (t.port p).link.openingDeadline = none) ∧
      (¬answersHello → t.linkState p = s.linkState p ∧ (t.port p).link.exchange = l.exchange ∧
        (t.port p).link.openingDeadline = l.openingDeadline) ∧
      (∀ x, rejectEntries [] tiers = some x →
        (t.port p).catalogue = { c with held := true, outcome := some { rejected := some x, tick := s.tick } } ∧
        ∀ k, s.record p = some k → t.record p = some k) ∧
      (rejectEntries [] tiers = none →
        (t.port p).catalogue =
          { c with
            offered := (List.range 8).filterMap (fun n => tiers.find? (fun e => e.id.toNat = n))
            held := true, arrival := some s.time, outcome := some { rejected := none, tick := s.tick } } ∧
        ∀ k, s.record p = some k → ∃ k', t.record p = some k' ∧ k'.terms = k.terms ∧ k'.renewal = k.renewal ∧
          (k.live = false → k' = k) ∧
          (k.live = true →
            (k'.stale = false ↔
              ∃ e, (t.port p).catalogue.find k.tier = some e ∧ e.low = k.low ∧ e.high = k.high ∧ k.granted ≤ e.ceiling) ∧
            let raises (b : Terms) : Bool := k.tier = 0 && b.tier ≠ 0
            let asks (b : Terms) : Prop := s.mode p = .auto ∧ t.autoChoice p = some b ∧ (k'.stale = true ∨ raises b = true)
            let free : Prop := k.amendment = none ∧ k.renewing = false ∧ k.withdraw = false
            (∀ b, asks b → free → k'.amendment = some (s.pendingAmendment b .auto) ∧ k'.owed = (k'.stale && raises b) ∧
              k'.owedStale = false ∧ k'.owedBase = (k'.stale && raises b) ∧ k'.refused = false ∧
              (t.port p).link.slot.bid = some (s.bidFrame k.handle true b)) ∧
            (∀ b, asks b → ¬free → k'.amendment = k.amendment ∧ k'.owed = true ∧ k'.owedStale = k'.stale ∧
              k'.owedBase = (k.owedBase || raises b) ∧ k'.refused = k.refused) ∧
            ((∀ b, ¬asks b) → k'.amendment = k.amendment ∧ k'.owed = k.owed ∧ k'.owedStale = (k.owedStale && k'.stale) ∧
              k'.owedBase = k.owedBase ∧ k'.refused = k.refused))) ∧
      (s.record p = none →
        let asks : Prop := s.mode p = .auto ∧ (s.port p).front.attach = .present ∧ (s.port p).contract.hold = false ∧
          (s.port p).contract.holdoff = none
        (asks → t.BidStands p s.nextHandle) ∧ (¬asks → t.record p = none))

/-- Frames in general (R23, R25, R26, R155): one that fails the checks, or that the link does not hear, is discarded; one that passes them is taken by
its kind; a strain mark over a CLOSED path in AUTO_TRIM first raises the trim by 4 steps, up to 15, and sets the recovery deadline, and is
ignored elsewhere.
Discarded strain marks, frames that pass and the remembered trim steps are the model's: log 13, log 24, log 31. -/
def Obligations.FramesAndStrain : Prop :=
  ∀ (s : State) (p : Port),
    (∀ w, readFrame w = none → exec (.partnerFrameDiscard p w) s = .next (s.heard p)) ∧
    (∀ w f, readFrame w = some f → exec (.partnerFrameDiscard p w) s = exec (frameRow f p) s) ∧
    ∀ f : PartnerFrame,
      (s.hears p = false ∨ bodyFieldsOk f.body = false → exec (frameRow f p) s = .next (s.heard p)) ∧
      (s.hears p = true → bodyFieldsOk f.body = true → f.strain = true →
        (s.path p ≠ .closed ∨ (s.port p).monitor.trimMode = .manual ∨ s.record p = none →
          exec (frameRow f p) s = exec (frameRow { f with strain := false } p) s) ∧
        (∀ k, s.path p = .closed → (s.port p).monitor.trimMode = .auto → s.record p = some k →
          let base := match (s.port p).monitor.raiseBase with
            | some (t, n) => if t = s.time then n else k.trim
            | none => k.trim
          let raised : Record := { k with trim := min 15 (k.trim + 4) }
          let marked := s.modPort p (fun u =>
            { u with
              contract := { u.contract with record := some raised }
              monitor := { u.monitor with raiseBase := some (s.time, base), recovery := some (s.ahead 1000) } })
          exec (frameRow f p) s = exec (frameRow { f with strain := false } p) (marked.ceilingReported p k raised)))

/-- A GRANT, DECLINE or RENEWED that does not end the exchange in flight is stale (R31, R36): a GRANT for a remembered BID, or a RENEWED for a
remembered RENEW, is answered with a RELEASE of its tag and the remembered cause, and a reply in the remembered tag empties the memory;
nothing else changes. -/
def Obligations.StaleReplies : Prop :=
  ∀ (s : State) (p : Port) (tag : Tag) (c : Instr) (undoes : Option AbandonedKind),
    let l := (s.port p).link
    s.hears p = true →
    (((∃ tier v i n, c = .grant p false tag tier v i n ∧ bodyFieldsOk (.grant tier v i n) = true) ∧ undoes = some .bid ∧
        ∀ e, l.exchange = some e → e.tag = tag → e.body.isBid = false) ∨
      ((∃ reason, c = .decline p false tag reason ∧ reason ≠ 0) ∧ undoes = none ∧
        ∀ e, l.exchange = some e → e.tag = tag → e.body.isBid = false) ∨
      ((∃ n, c = .renewed p false tag n) ∧ undoes = some .renew ∧
        ∀ e, l.exchange = some e → e.tag = tag → e.body.isRenew = false)) →
    ((∀ m, l.memory = some m → m.tag ≠ tag) → exec c s = .next (s.heard p)) ∧
    (∀ m, l.memory = some m → m.tag = tag → undoes ≠ some m.kind → exec c s =
      .next (s.modLink p (fun l => { l with receiving := false, memory := none }))) ∧
    (∀ m, l.memory = some m → m.tag = tag → undoes = some m.kind → exec c s =
      .next (s.modLink p (fun l =>
        { l with
          receiving := false, memory := none
          slot := { l.slot with release := some { handle := none, tag := tag, cause := m.cause } } })))

/-- A reply that ends a fresh bid's exchange (R31, R63, R64, R66, R67, R81, R107, R152): an accepted GRANT takes the record into SETTLING with its
grant, lease and settle deadline, the burst armed, and an initial recall below the grant set and met; a DECLINE, or a GRANT that fails a test,
retires it as DECLINED; a withdrawn record is retired as HOST_RETIRE. -/
def Obligations.FreshBidAnswered : Prop :=
  ∀ (s : State) (p : Port) (tag : Tag) (e : Exchange) (k : Record),
    let l := (s.port p).link
    s.hears p = true → l.exchange = some e → e.tag = tag → e.body.isBid = true → s.record p = some k → k.state = .bidding →
    let after := (s.heard p).modLink p Link.ended
    let declined := after.modPort p (fun u => { u with flags := u.flags ||| oneBit PortFlag.declined.bit })
    (∀ reason : BitVec 2, reason ≠ 0 →
      (k.withdraw = true → ∃ u : State, exec (.decline p false tag reason) s = .next u ∧ after.RetiredAt u p k .hostRetire false false) ∧
      (k.withdraw = false → ∃ u : State, exec (.decline p false tag reason) s = .next u ∧
        declined.RetiredAt u p k .declined false (reason = 3))) ∧
    (∀ (tier : BitVec 3) (v : BitVec 11) (i : BitVec 10) (n : Word), bodyFieldsOk (.grant tier v i n) = true →
      let fails : Prop := tier ≠ k.tier ∨ v.toNat ≠ k.voltage ∨ i = 0 ∨ (n = 0 ∧ k.tier ≠ 0)
      let granted := if k.requested = 0 then i.toNat else min i.toNat k.requested
      let settling : Record :=
        { k with
          state := .settling, granted := granted
          lease := if k.tier = 0 then none else some { length := min n.toNat 600, expiry := none }
          grantedAt := some s.tick, settleDeadline := some (s.ahead 500) }
      let set (x : InitialRecall) : Recall :=
        { ceiling := x.ceiling, deadline := s.ahead x.deadline, yield := .met, tag := x.tag, arrival := s.time }
      (k.withdraw = true → ∃ u : State, exec (.grant p false tag tier v i n) s = .next u ∧ after.RetiredAt u p k .hostRetire true false) ∧
      (k.withdraw = false → fails → ∃ u : State, exec (.grant p false tag tier v i n) s = .next u ∧
        declined.RetiredAt u p k .declined false false) ∧
      (k.withdraw = false → ¬fails →
        ((∀ x, k.initialRecall = some x → granted ≤ x.ceiling) → exec (.grant p false tag tier v i n) s =
          .next (after.modPort p (fun u =>
            { u with
              contract := { u.contract with record := some { settling with initialRecall := none } }
              monitor := { u.monitor with burstArmed := true } }))) ∧
        (∀ x, k.initialRecall = some x → x.ceiling < granted → s.path p ≠ .closed →
          exec (.grant p false tag tier v i n) s =
            .next (after.modPort p (fun u =>
              { u with
                contract := { u.contract with record := some { settling with initialRecall := none, recallPart := some (set x) } }
                monitor := { u.monitor with burstArmed := true }
                flags := u.flags ||| oneBit PortFlag.recall.bit
                link := { u.link with slot := { u.link.slot with
                  yield := some { handle := k.handle, tag := x.tag, status := .met } } } })))))

/-- A reply that ends an amendment's exchange (R73 to R77, R81, R109, R116, R142, R152): a GRANT that passes its tests applies at once at the same
voltage, and else begins a transition of 500 ms; any other reply refuses the amendment, after which an owed one may go out; a withdrawn
record is retired.
What present terms are and for which causes an amendment is owed, and that a recall older than the amendment goes whatever the grant, are the
model's readings: log 15, log 37. -/
def Obligations.AmendmentAnswered : Prop :=
  ∀ (s : State) (p : Port) (tag : Tag) (e : Exchange) (k : Record) (a : Amendment),
    let l := (s.port p).link
    s.hears p = true → l.exchange = some e → e.tag = tag → e.body.isBid = true → s.record p = some k → k.live = true →
    k.amendment = some a → a.transition = none →
    let after := (s.heard p).modLink p Link.ended
    let refusal := after.modPort p (fun u =>
      { u with
        contract := { u.contract with record := some { k with refused := true, amendment := none } }
        flags := u.flags ||| oneBit PortFlag.amended.bit })
    let refuses (c : Instr) : Prop :=
      (k.withdraw = true → ∃ u : State, exec c s = .next u ∧ after.RetiredAt u p k .hostRetire false false) ∧
      (k.withdraw = false → exec c s = .next (refusal.owedReleased p))
    (∀ reason : BitVec 2, reason ≠ 0 → refuses (.decline p false tag reason)) ∧
    ∀ (tier : BitVec 3) (v : BitVec 11) (i : BitVec 10) (n : Word), bodyFieldsOk (.grant tier v i n) = true →
      let fails : Prop := tier ≠ a.tier ∨ v.toNat ≠ a.voltage ∨ i = 0 ∨ (n = 0 ∧ a.tier ≠ 0)
      let granted := if a.requested = 0 then i.toNat else min i.toNat a.requested
      (fails ∨ k.withdraw = true → refuses (.grant p false tag tier v i n)) ∧
      (k.withdraw = false → ¬fails → a.voltage ≠ k.voltage →
        let x : Transition := { granted := granted, lease := min n.toNat 600, deadline := s.ahead 500, settledHeard := false }
        exec (.grant p false tag tier v i n) s = .next (after.modPort p (fun u =>
          { u with contract := { u.contract with
              record := some { k with amendment := some { a with transition := some x } } } }))) ∧
      (k.withdraw = false → ¬fails → a.voltage = k.voltage →
        ∃ (t : State) (k' : Record), exec (.grant p false tag tier v i n) s = .next t ∧ s.FrameAt t p ∧ t.record p = some k' ∧
          k'.terms = (s.recordAmended p k a granted (min n.toNat 600)).terms ∧ k'.renewal = none ∧
          t.flag p .amended = true ∧ (t.port p).monitor.burstArmed = true ∧ (t.port p).link.exchange = none ∧
          (t.port p).link.slot.renew.all (fun r => r.handle ≠ k.handle) = true ∧
          (s.path p = .closed → t.allocator.publishedAt = s.tick))

/-- SETTLED (R61, R69, R71, R78, R85): the first one on a bid over the link starts the lease and takes the record into IN_FORCE when the latest
sample is in its window; the first one in a voltage transition applies the amendment when the sample is in the new window; every other one is
ignored.
That a recall older than the amendment goes whatever the grant is the model's reading: log 37. -/
def Obligations.SettledHeard : Prop :=
  ∀ (s : State) (p : Port) (tag : Tag), s.hears p = true →
    let v := (s.port p).front.voltage
    (s.record p = none → exec (.settled p false tag) s = .next (s.heard p)) ∧
    ∀ k, s.record p = some k →
      (k.state = .bidding ∨ (k.state = .settling ∧ (k.tier = 0 ∨ k.settledHeard = true)) ∨
          (k.live = true ∧ k.inTransition = false) →
        exec (.settled p false tag) s = .next (s.heard p)) ∧
      (k.state = .settling → k.tier ≠ 0 → k.settledHeard = false →
        let heard : Record :=
          { k with
            settledHeard := true
            lease := k.lease.map (fun n => { n with expiry := some (s.ahead (n.length * 1000)) }) }
        (windowTest v k.low k.high = false → exec (.settled p false tag) s =
          .next ((s.heard p).modPort p (fun u => { u with contract := { u.contract with record := some heard } }))) ∧
        (windowTest v k.low k.high = true →
          ∃ (t : State) (k' : Record), exec (.settled p false tag) s = .next t ∧ s.FrameAt t p ∧ t.record p = some k' ∧
            (k.amendment = none →
              k'.terms = { heard with state := .inForce, rank := some (s.port p).rank }.terms) ∧
            (t.port p).contract.attempts = 0 ∧ (t.port p).contract.holdoff = none ∧ t.flag p .granted = true ∧
            k.handle ∈ t.roster.list)) ∧
      (∀ a x, k.live = true → k.amendment = some a → a.transition = some x →
        (x.settledHeard = true → exec (.settled p false tag) s = .next (s.heard p)) ∧
        (x.settledHeard = false → windowTest v a.low a.high = false → exec (.settled p false tag) s =
          .next ((s.heard p).modPort p (fun u =>
            { u with contract := { u.contract with
                record := some { k with amendment := some { a with transition := some { x with settledHeard := true } } } } }))) ∧
        (x.settledHeard = false → windowTest v a.low a.high = true →
          ∃ (t : State) (k' : Record), exec (.settled p false tag) s = .next t ∧ s.FrameAt t p ∧ t.record p = some k' ∧
            k'.terms = (s.recordAmended p k a x.granted x.lease).terms ∧ k'.renewal = none ∧ t.flag p .amended = true ∧
            (s.path p = .closed → t.allocator.publishedAt = s.tick)))

/-- A RENEWED that ends a RENEW exchange (R31, R89, R90, R94): a lease above 0 sets length and expiry, ends the renewal, arms the burst and sets
RENEWED; a lease of 0 is the refusal, with RENEW_FAIL unless an earlier attempt has set it. An exchange whose renewal an amendment has ended is
taken the same way, as a first attempt. An owed amendment may go out after either (R53, R73).
For which causes one is owed is the model's reading: log 15. A record that an amendment to tier 0 has left without a lease takes none: log 32. That
an exchange which finds the renewal in RETRY_WAIT or REFUSED is taken as one that finds it absent is the model's choice: log 41. -/
def Obligations.RenewedTaken : Prop :=
  ∀ (s : State) (p : Port) (tag : Tag) (lease : Word) (e : Exchange) (k : Record),
    let l := (s.port p).link
    s.hears p = true → l.exchange = some e → e.tag = tag → e.body.isRenew = true → s.record p = some k →
    let after := (s.heard p).modLink p Link.ended
    let attempts := match k.renewal with
      | some n => if n.state = .inFlight then n.attempts else 1
      | none => 1
    let renewed : Lease := { length := min lease.toNat 600, expiry := some (s.ahead (min lease.toNat 600 * 1000)) }
    (lease ≠ 0 → exec (.renewed p false tag lease) s = .next ((after.modPort p (fun u =>
      { u with
        contract := { u.contract with record := some { k with renewal := none, lease := k.lease.map (fun _ => renewed) } }
        monitor := { u.monitor with burstArmed := true }
        flags := u.flags ||| oneBit PortFlag.renewed.bit })).owedReleased p)) ∧
    (lease = 0 → exec (.renewed p false tag lease) s = .next ((after.modPort p (fun u =>
      { u with
        contract := { u.contract with record := some { k with renewal := some { state := .refused, attempts := attempts } } }
        flags := u.flags ||| (if attempts = 1 then oneBit PortFlag.renewFail.bit else 0) })).owedReleased p))

/-- RECALL and RECALL_DEADLINE (R71, R101 to R105, R107, R108): a recall of a record in BIDDING is held aside; one below the grant is set, with
its clamped deadline, RECALL set, a waiting YIELD of the record withdrawn, and met at once unless a CLOSED path draws more; one at or above the
grant lifts a recall carried; a deadline reached over an OWED yield opens and benches the record.
That the test at the taking reads the latest stored sample is the model's reading: log 17. -/
def Obligations.RecallTaken : Prop :=
  ∀ (s : State) (p : Port),
    (∀ (tag : Tag) (ceiling : BitVec 10) (ms : Word), s.hears p = true → ceiling.toNat ≤ 1000 →
      let clamped := min 1000 (max 10 ms.toNat)
      let keep (k' : Record) : State :=
        (s.heard p).modPort p (fun u => { u with contract := { u.contract with record := some k' } })
      (s.record p = none → exec (.recall p false tag ceiling ms) s = .next (s.heard p)) ∧
      ∀ k, s.record p = some k →
        (k.state = .bidding → exec (.recall p false tag ceiling ms) s =
          .next (keep { k with initialRecall := some { ceiling := ceiling.toNat, deadline := clamped, tag := tag } })) ∧
        (k.state ≠ .bidding → ceiling.toNat < k.granted →
          let met : Prop := s.path p ≠ .closed ∨ (s.port p).front.current ≤ ceiling.toNat
          let c : Recall :=
            { ceiling := ceiling.toNat, deadline := s.ahead clamped, yield := if met then .met else .owed, tag := tag,
              arrival := s.time }
          let k' : Record := { k with recallPart := some c }
          exec (.recall p false tag ceiling ms) s =
            .next (((keep k').modPort p (fun u =>
              { u with
                flags := u.flags ||| oneBit PortFlag.recall.bit
                link := { u.link with slot := { u.link.slot with
                  yield := if met then some { handle := k.handle, tag := tag, status := .met }
                    else u.link.slot.yield.filter (fun y => y.handle ≠ k.handle) } } })).ceilingReported p k k')) ∧
        (k.state ≠ .bidding → k.granted ≤ ceiling.toNat → k.recallPart = none →
          exec (.recall p false tag ceiling ms) s = .next (s.heard p)) ∧
        (k.state ≠ .bidding → k.granted ≤ ceiling.toNat → k.recallPart.isSome = true →
          exec (.recall p false tag ceiling ms) s =
            .next (((keep { k with recallPart := none }).modPort p (fun u =>
              { u with flags := u.flags ||| oneBit PortFlag.recall.bit })).ceilingReported p k { k with recallPart := none }))) ∧
    ∀ k c, s.record p = some k → k.recallPart = some c → c.yield = .owed → reached s.tick c.deadline = true →
      let owed : YieldRequest := { handle := k.handle, tag := c.tag, status := .opened }
      (k.state = .inForce → ∃ (t : State) (k' : Record), exec (.recallDeadline p) s = .next t ∧ s.BenchedAt t p k ∧ t.record p = some k' ∧
        k'.recallPart = some { c with yield := .opened } ∧
        (s.linkUsable p = true → (t.port p).link.slot.yield = some owed)) ∧
      (k.state ≠ .inForce → exec (.recallDeadline p) s = .next (s.modPort p (fun u =>
        { u with
          contract := { u.contract with record := some { k with recallPart := some { c with yield := .opened } } }
          link := if s.linkUsable p then { u.link with slot := { u.link.slot with yield := some owed } } else u.link })))

/-- A supply loss, taken from a FAULT frame or at the end of a watch window (R82, R160 to R164): the path is OPEN, the record retired, LOSS set, the
pass-through enable cleared when no path is left CLOSED, and the threshold remembered. A FAULT over a path that is not CLOSED, or with the watch
off, retires the record without a loss.
A FAULT is taken by the watch first: log 19, log 20. -/
def Obligations.SupplyLossTaken : Prop :=
  ∀ (s : State) (p : Port),
    (∀ c cause k, s.record p = some k → s.path p = .closed → s.watchEnable = true →
      ((cause = .partnerFault ∧ s.hears p = true ∧ ∃ tag code, code ≠ 0 ∧ c = .fault p false tag code) ∨
        (cause = .supplyLost ∧ c = .watchWindowEnd p ∧ ∃ w, (s.port p).watch.window = some w ∧ 8 ≤ w.count ∧
          ((s.port p).watch.forced = true ∨ (w.allBelow = true ∧ w.touched = false)))) →
      ∃ t : State, exec c s = .next t ∧ s.FrameAt t p ∧ t.path p = .opened ∧
        (t.port p).contract.lastRetirement = some { handle := k.handle, cause := cause, tick := s.tick } ∧
        (∀ k', t.record p = some k' → k'.live = false) ∧ t.flag p .loss = true ∧ t.flag p .retired = true ∧
        (t.port p).watch.repeatAt = some (k.low * s.policy.dropout / 100) ∧
        ((∀ q, q ≠ p → s.path q ≠ .closed) → t.allocator.passEnable = false ∧ t.allocator.allocations.pass = 0) ∧
        ((∃ q, q ≠ p ∧ s.path q = .closed) → t.allocator.passEnable = s.allocator.passEnable)) ∧
    (∀ (tag : Tag) (code : BitVec 2), code ≠ 0 → s.hears p = true → s.path p ≠ .closed ∨ s.watchEnable = false →
      (s.record p = none → exec (.fault p false tag code) s = .next (s.heard p)) ∧
      ∀ k, s.record p = some k → ∃ u : State,
        exec (.fault p false tag code) s =
          .next (if asksAgain (s.port p).contract.rebidCauses k .partnerFault then u.asking p else u) ∧
        (s.heard p).RetiredAt u p k .partnerFault false false)

/-! ## Deadlines of contracts, the overdraw monitor and the watch -/

/-- A settle deadline, a transition deadline and a lease's expiry retire their record, as SETTLE_FAIL, SETTLE_FAIL and LAPSED (R70, R78, R95), with all
that a retirement does (R63, R64, R83). -/
def Obligations.DeadlinesRetire : Prop :=
  ∀ (s : State) (p : Port) (k : Record) (c : Instr) (cause : Cause), s.record p = some k →
    (c = .settleDeadline p ∧ cause = .settleFail ∧ k.state = .settling ∧ s.due k.settleDeadline = true) ∨
      (c = .transitionDeadline p ∧ cause = .settleFail ∧
        ∃ a x, k.amendment = some a ∧ a.transition = some x ∧ reached s.tick x.deadline = true) ∨
      (c = .leaseExpiry p ∧ cause = .lapsed ∧ k.live = true ∧ ∃ n, k.lease = some n ∧ s.due n.expiry = true) →
    ∃ u : State, exec c s = .next (if asksAgain (s.port p).contract.rebidCauses k cause then u.asking p else u) ∧
      s.RetiredAt u p k cause false false

/-- RENEWAL_POINT and NEXT_ATTEMPT (R86 to R88, R91, R92, R98): the renewal is IN_FLIGHT with its attempt count and a RENEW waits, its lease the lower
of LEASE_WANT and the tier's maximum; on a MUTE link the attempt fails at once, 2 s to the next. -/
def Obligations.RenewalAsked : Prop :=
  ∀ (s : State) (p : Port) (k : Record) (c : Instr) (attempts : Nat), s.record p = some k →
    (c = .renewalPoint p ∧ attempts = 1 ∧ k.live = true ∧ k.renewal = none ∧ k.withdraw = false ∧
        ∃ n e, k.lease = some n ∧ n.expiry = some e ∧ (e - s.tick).toInt ≤ (n.length * 10 * s.policy.renewLead : Nat)) ∨
      (c = .nextAttempt p ∧ ∃ n d, k.renewal = some n ∧ n.state = .retryWait d ∧ reached s.tick d = true ∧
        attempts = min 255 (n.attempts + 1)) →
    let wanted := match (s.port p).catalogue.find k.tier with
      | some t => match t.leaseMax with
        | some n => min s.policy.leaseWant n
        | none => s.policy.leaseWant
      | none => s.policy.leaseWant
    (s.linkState p ≠ .mute → exec c s = .next (s.modPort p (fun u =>
      { u with
        contract := { u.contract with record := some { k with renewal := some { state := .inFlight, attempts := attempts } } }
        link := if s.linkState p = .quiet then u.link
          else { u.link with slot := { u.link.slot with renew := some { handle := k.handle, lease := wanted } } } }))) ∧
    (s.linkState p = .mute → exec c s = .next (s.modPort p (fun u =>
      { u with
        contract := { u.contract with
          record := some { k with renewal := some { state := .retryWait (s.ahead 2000), attempts := attempts } } }
        flags := u.flags ||| (if attempts = 1 then oneBit PortFlag.renewFail.bit else 0) })))

/-- HOLDOFF_DEADLINE removes the holdoff and makes an asking (R58 to R61, R63): on a free, PRESENT, unheld AUTO port with a catalogue, or a MUTE link, a
fresh bid follows, on the automatic choice, or on a MUTE link on the base tier: tier 0 locally, any other over the link. -/
def Obligations.HoldoffEndsWithAsking : Prop :=
  ∀ (s : State) (p : Port), s.due (s.port p).contract.holdoff = true →
    let after := s.modPort p (fun u => { u with contract := { u.contract with holdoff := none } })
    let bids : Prop := s.mode p = .auto ∧ (s.port p).front.attach = .present ∧ s.record p = none ∧
      (s.port p).contract.hold = false ∧ ((s.port p).catalogue.held = true ∨ s.linkState p = .mute)
    let locally (current : Nat) : State :=
      { after with lastHandle := s.nextHandle }.modPort p (fun u =>
        { u with
          contract := { u.contract with record := some (s.baseRecord current) }
          monitor := { u.monitor with burstArmed := true } })
    (¬bids → exec (.holdoffDeadline p) s = .next after) ∧
    (bids → s.linkState p ≠ .mute →
      (s.autoChoice p = none → exec (.holdoffDeadline p) s = .next after) ∧
      ∀ b, s.autoChoice p = some b →
        (b.tier = 0 → exec (.holdoffDeadline p) s = .next (locally b.current)) ∧
        (b.tier ≠ 0 → exec (.holdoffDeadline p) s =
          .next ({ after with lastHandle := s.nextHandle }.modPort p (fun u =>
            { u with
              contract := { u.contract with record := some (s.biddingRecord b) }
              link := if s.linkUsable p then
                  { u.link with slot := { u.link.slot with bid := some (s.bidFrame s.nextHandle false b) } }
                else u.link })))) ∧
    (bids → s.linkState p = .mute →
      ((s.port p).catalogue.base = true ∧ s.policy.vinLow ≤ 275 ∧ 237 ≤ s.policy.vinHigh →
        exec (.holdoffDeadline p) s = .next (locally (min 90 s.policy.currentMax))) ∧
      (¬((s.port p).catalogue.base = true ∧ s.policy.vinLow ≤ 275 ∧ 237 ≤ s.policy.vinHigh) →
        exec (.holdoffDeadline p) s = .next after))

/-- OVERDRAW_WINDOW_END and RECOVERY_DEADLINE (R57, R149 to R151, R156): a window that was not over throughout ends quietly; an overdraw adds 2 trim
steps, up to 15, or benches a record already at 15; a recovery takes one step off and sets the deadline anew.
The remembered trim steps are the model's: log 31. -/
def Obligations.OverdrawAndRecovery : Prop :=
  ∀ (s : State) (p : Port) (k : Record), s.record p = some k →
    (∀ w, (s.port p).monitor.window = some w → w.due = true →
      let closed := s.modPort p (fun u => { u with monitor := { u.monitor with window := none } })
      let flagged := closed.modPort p (fun u => { u with flags := u.flags ||| oneBit PortFlag.overdraw.bit })
      let before := match (s.port p).monitor.raiseBase with
        | some (t, n) => if t = s.time then n else k.trim
        | none => k.trim
      let raised : Record := { k with trim := min 15 (k.trim + 2) }
      (w.allOver = false → exec (.overdrawWindowEnd p) s = .next closed) ∧
      (w.allOver = true → before < 15 → exec (.overdrawWindowEnd p) s =
        .next ((flagged.modPort p (fun u =>
          { u with
            contract := { u.contract with record := some raised }
            monitor := { u.monitor with
              recovery := if u.monitor.trimMode = .auto then some (s.ahead 1000) else u.monitor.recovery } })).ceilingReported
            p k raised)) ∧
      (w.allOver = true → 15 ≤ before → k.state = .inForce →
        ∃ t : State, exec (.overdrawWindowEnd p) s = .next t ∧ flagged.BenchedAt t p k)) ∧
    (s.path p = .closed → (s.port p).monitor.trimMode = .auto → s.due (s.port p).monitor.recovery = true →
      exec (.recoveryDeadline p) s =
        .next ((s.modPort p (fun u =>
          { u with
            contract := { u.contract with record := some { k with trim := k.trim - 1 } }
            monitor := { u.monitor with recovery := some (s.ahead 1000) } })).ceilingReported p k { k with trim := k.trim - 1 }))

/-- WATCH_WINDOW_END without a loss (R154, R158, R163, R164): on a path that is not CLOSED a repeat state sets LOSS again or ends, and a forced-loss test
sets LOSS; on a CLOSED path in AUTO_TRIM three droop samples raise the trim by one.
The remembered trim steps are the model's: log 31. -/
def Obligations.WatchWindowJudged : Prop :=
  ∀ (s : State) (p : Port) (w : WatchWindow), (s.port p).watch.window = some w → 8 ≤ w.count →
    (s.path p ≠ .closed →
      let repeats : Bool := (s.port p).watch.repeatAt.isSome && s.watchEnable && (s.port p).front.attach = .present
      exec (.watchWindowEnd p) s = .next (s.modPort p (fun u =>
        { u with
          watch := { u.watch with window := none, repeatAt := if repeats && !w.allBelow then none else u.watch.repeatAt }
          flags := u.flags ||| (if (repeats && w.allBelow) || (s.watchEnable && u.watch.forced) then oneBit PortFlag.loss.bit
            else 0) }))) ∧
    (s.path p = .closed → (s.port p).watch.repeatAt = none →
      (s.watchEnable = false ∨ ((s.port p).watch.forced = false ∧ (w.allBelow = false ∨ w.touched = true))) →
      let closed := s.modPort p (fun u => { u with watch := { u.watch with window := none } })
      ((s.port p).monitor.trimMode = .manual ∨ w.droop < 3 ∨ w.touched = true → exec (.watchWindowEnd p) s = .next closed) ∧
      ∀ k, s.record p = some k → (s.port p).monitor.trimMode = .auto → 3 ≤ w.droop → w.touched = false →
        let before := match (s.port p).monitor.raiseBase with
          | some (t, n) => if t = s.time then n else k.trim
          | none => k.trim
        let raised : Record := { k with trim := min 15 (k.trim + 1) }
        exec (.watchWindowEnd p) s =
          .next ((closed.modPort p (fun u =>
            { u with
              contract := { u.contract with record := some raised }
              monitor := { u.monitor with raiseBase := some (s.time, before), recovery := some (s.ahead 1000) } })).ceilingReported
              p k raised))

/-- A command of the part's own clock or wire that finds nothing of its own due changes nothing. The model's choice for what the manual never
raises: log 3. -/
def Obligations.NothingDueNothingDone : Prop :=
  ∀ (s : State) (p : Port),
    let u := s.port p
    let l := u.link
    (u.front.attach = .present ∨ u.front.debounce < 50 → exec (.attach p) s = .next s) ∧
    (u.front.attach = .vacant ∨ u.front.debounce < 50 → exec (.detach p) s = .next s) ∧
    (u.front.path ≠ .closing ∨ u.front.closeOp.all (fun c => !c.due) = true → exec (.pathCloseComplete p) s = .next s) ∧
    (u.front.path ≠ .closing ∨ s.due (u.front.closeOp.map CloseOp.deadline) = false → exec (.closeDeadline p) s = .next s) ∧
    ((∀ k, s.record p = some k → k.state = .settling → s.due k.settleDeadline = false) →
      exec (.settleDeadline p) s = .next s) ∧
    ((∀ k a x, s.record p = some k → k.amendment = some a → a.transition = some x → reached s.tick x.deadline = false) →
      exec (.transitionDeadline p) s = .next s) ∧
    ((∀ k n, s.record p = some k → k.lease = some n → k.live = true → s.due n.expiry = false) →
      exec (.leaseExpiry p) s = .next s) ∧
    ((∀ k n e, s.record p = some k → k.live = true → k.renewal = none → k.withdraw = false → k.lease = some n → n.expiry = some e →
        (n.length * 10 * s.policy.renewLead : Nat) < (e - s.tick).toInt) →
      exec (.renewalPoint p) s = .next s) ∧
    ((∀ k n d, s.record p = some k → k.renewal = some n → n.state = .retryWait d → reached s.tick d = false) →
      exec (.nextAttempt p) s = .next s) ∧
    (s.due u.contract.holdoff = false → exec (.holdoffDeadline p) s = .next s) ∧
    ((∀ k c, s.record p = some k → k.recallPart = some c → c.yield = .owed → reached s.tick c.deadline = false) →
      exec (.recallDeadline p) s = .next s) ∧
    (u.monitor.window.all (fun w => !w.due) = true → exec (.overdrawWindowEnd p) s = .next s) ∧
    (u.front.path ≠ .closed ∨ u.monitor.trimMode = .manual ∨ s.due u.monitor.recovery = false →
      exec (.recoveryDeadline p) s = .next s) ∧
    (u.watch.window.all (fun w => w.count < 8) = true → exec (.watchWindowEnd p) s = .next s) ∧
    (l.state ≠ .ready ∨ l.exchange.isSome = true ∨ l.sending.isSome = true ∨ l.receiving = true ∨
        (l.slot.release = none ∧ l.slot.yield = none ∧ l.slot.renew = none ∧ l.slot.bid = none ∧ l.slot.hello = false) →
      exec (.frameSendStart p) s = .next s) ∧
    ((l.state ≠ .exchange ∧ l.state ≠ .opening) ∨ l.exchange.all (fun e => e.deadline.isSome) = true ∨ l.sending.isSome = true ∨
        l.receiving = true →
      exec (.sendAgain p) s = .next s) ∧
    (l.state ≠ .opening ∨ l.exchange.any (fun e => e.deadline.isSome || !e.body.isHello) = true ∨ l.sending.isSome = true ∨ l.receiving = true →
      exec (.openingHelloSend p) s = .next s) ∧
    (l.sending = none → exec (.frameSendEnd p) s = .next s ∧ exec (.startPulseCollision p) s = .next s ∧
      exec (.inFrameCollision p) s = .next s) ∧
    (l.state = .quiet ∨ l.state = .resync ∨ l.state = .mute → exec (.linkDisturbance p) s = .next s) ∧
    (l.resync.all (fun r => r.phase = .idleWait || !reached s.tick r.deadline) = true → exec (.breakEnd p) s = .next s) ∧
    (l.resync.all (fun r => r.phase = .breaking) = true → exec (.idleFound p) s = .next s) ∧
    (l.resync.all (fun r => r.phase = .breaking || !reached s.tick r.deadline) = true → exec (.idleWaitExpiry p) s = .next s) ∧
    (s.due (l.exchange.bind Exchange.deadline) = false → exec (.replyDeadline p) s = .next s) ∧
    (l.opening = false ∨ s.due l.openingDeadline = false → exec (.openingDeadline p) s = .next s) ∧
    (s.due (l.assembly.map Assembly.deadline) = false → exec (.assemblyDeadline p) s = .next s)

/-! ## Contracts by command -/

/-- The next handle is the first number after the last one issued, from 255 to 1 and past 0, that no record holds (R56). BID (R60 to R62, R65, R152):
its checks in order, and a fresh bid under the next handle, on tier 0 locally and on any other tier over a READY link; on an AUTO port it clears
the hold. -/
def Obligations.BidTaken : Prop :=
  (∀ s : State,
    let number (n : Nat) : Handle := BitVec.ofNat 8 ((s.lastHandle.toNat + 254 + n) % 255 + 1)
    let used (h : Handle) : Prop := ∃ p k, s.record p = some k ∧ k.handle = h
    ∃ n, 1 ≤ n ∧ n ≤ 5 ∧ s.nextHandle = number n ∧ ¬used (number n) ∧ ∀ m, 1 ≤ m → m < n → used (number m)) ∧
  ∀ (s : State) (b tier : Byte) (v i n : Word), s.Listening →
    let range : Prop := portOf b = none ∨ 7 < tier.toNat ∨ 1000 < i.toNat ∨ (tier ≠ 0 ∧ (n = 0 ∨ 600 < n.toNat))
    (range → exec (.bid b tier v i n) s = .next (s.answered .refusedRange .empty)) ∧
    ∀ p, portOf b = some p → ¬range →
      (s.mode p = .sense ∨ (s.record p).isSome = true →
        exec (.bid b tier v i n) s = .next (s.answered .refusedState .empty)) ∧
      (s.mode p ≠ .sense → s.record p = none →
        let fits (t : Tier) : Prop := t.low ≤ s.policy.vinHigh ∧ s.policy.vinLow ≤ t.high ∧ 10 ≤ t.ceiling ∧ i.toNat ≤ t.ceiling ∧
          (t.kind = .span → t.low ≤ v.toNat ∧ v.toNat ≤ t.high)
        let record (r : Record) (f : PortState → PortState) : State :=
          { s with lastHandle := s.nextHandle }.modPort p (fun u => f
            { u with contract := { u.contract with
                record := some r, hold := if s.mode p = Mode.auto then false else u.contract.hold } })
        ((∀ t, (s.port p).catalogue.find (tier.setWidth 3) = some t → ¬fits t) →
          exec (.bid b tier v i n) s = .next (s.answered .refusedRange .empty)) ∧
        (tier = 0 → (s.port p).catalogue.base = true → fits baseTier →
          exec (.bid b tier v i n) s =
            .next ((record (s.baseRecord i.toNat)
              (fun u => { u with monitor := { u.monitor with burstArmed := true } })).answered .done (.handle s.nextHandle))) ∧
        ∀ t, tier ≠ 0 → (s.port p).catalogue.find (tier.setWidth 3) = some t → fits t →
          (s.linkState p ≠ .ready → exec (.bid b tier v i n) s = .next (s.answered .refusedState .empty)) ∧
          (s.linkState p = .ready →
            let terms : Terms :=
              { tier := tier.setWidth 3, kind := t.kind, low := t.low, high := t.high, current := i.toNat
                voltage := if t.kind = .span then v.toNat else t.low
                lease := some (match t.leaseMax with | some m => min n.toNat m | none => n.toNat) }
            exec (.bid b tier v i n) s =
              .next ((record (s.biddingRecord terms) (fun u =>
                { u with link := { u.link with slot := { u.link.slot with
                    bid := some (s.bidFrame s.nextHandle false terms) } } })).answered .done (.handle s.nextHandle))))

/-- AMEND (R72): its checks in order; one that passes gives the live record a pending amendment of the host and a BID with the replace flag waits;
state, terms and path stay.
That the lease wanted of an AMEND to tier 0 is stored as written is the model's reading: log 38. -/
def Obligations.AmendTaken : Prop :=
  ∀ (s : State) (b tier : Byte) (v i n : Word), s.Listening →
    let range : Prop := portOf b = none ∨ 7 < tier.toNat ∨ 1000 < i.toNat ∨ (tier ≠ 0 ∧ (n = 0 ∨ 600 < n.toNat))
    (range → exec (.amend b tier v i n) s = .next (s.answered .refusedRange .empty)) ∧
    ∀ p, portOf b = some p → ¬range →
      ((∀ k, s.record p = some k → k.live = false) → exec (.amend b tier v i n) s = .next (s.answered .refusedState .empty)) ∧
      ∀ k, s.record p = some k → k.live = true →
        (k.amendment.isSome = true ∨ k.renewing = true ∨ k.withdraw = true →
          exec (.amend b tier v i n) s = .next (s.answered .refusedBusy .empty)) ∧
        (k.amendment = none → k.renewing = false → k.withdraw = false →
          let fits (t : Tier) : Prop := t.low ≤ s.policy.vinHigh ∧ s.policy.vinLow ≤ t.high ∧ 10 ≤ t.ceiling ∧
            i.toNat ≤ t.ceiling ∧ (t.kind = .span → t.low ≤ v.toNat ∧ v.toNat ≤ t.high)
          ((∀ t, (s.port p).catalogue.find (tier.setWidth 3) = some t → ¬fits t) →
            exec (.amend b tier v i n) s = .next (s.answered .refusedRange .empty)) ∧
          ∀ t, (s.port p).catalogue.find (tier.setWidth 3) = some t → fits t →
            (s.linkState p = .quiet ∨ s.linkState p = .mute →
              exec (.amend b tier v i n) s = .next (s.answered .refusedState .empty)) ∧
            (s.linkState p ≠ .quiet → s.linkState p ≠ .mute →
              let terms : Terms :=
                { tier := tier.setWidth 3, kind := t.kind, low := t.low, high := t.high, current := i.toNat
                  voltage := if t.kind = .span then v.toNat else if tier = 0 then 250 else t.low
                  lease := some (match t.leaseMax with | some m => min n.toNat m | none => n.toNat) }
              exec (.amend b tier v i n) s =
                .next ((s.modPort p (fun u =>
                  { u with
                    contract := { u.contract with
                      record := some { k with amendment := some (s.pendingAmendment terms .host), refused := false } }
                    link := { u.link with slot := { u.link.slot with
                      bid := some (s.bidFrame k.handle true terms) } } })).answered .done .empty)))

/-- RETIRE (R80, R83): refused without a record; a record whose BID is in flight is marked for withdrawal; any other is retired at once as HOST_RETIRE,
which holds the port (R64); a second RETIRE changes nothing. -/
def Obligations.RetireTaken : Prop :=
  ∀ (s : State) (b : Byte), s.Listening →
    (portOf b = none → exec (.retire b) s = .next (s.answered .refusedRange .empty)) ∧
    ∀ p, portOf b = some p →
      let inFlight (k : Record) : Prop := ∃ e r, (s.port p).link.exchange = some e ∧ e.body = .bid r ∧ r.handle = k.handle
      (s.record p = none → exec (.retire b) s = .next (s.answered .refusedState .empty)) ∧
      ∀ k, s.record p = some k →
        (k.withdraw = true → exec (.retire b) s = .next (s.answered .done .empty)) ∧
        (k.withdraw = false → inFlight k → exec (.retire b) s =
          .next ((s.modPort p (fun u =>
            { u with contract := { u.contract with record := some { k with withdraw := true } } })).answered .done .empty)) ∧
        (k.withdraw = false → ¬inFlight k →
          ∃ u : State, exec (.retire b) s = .next (u.answered .done .empty) ∧ s.RetiredAt u p k .hostRetire false false)

/-- RANK, and a RANK written through SET POLICY (R113, R114, R116, R179): refused above 3; else the rank is stored, and a live record leaves BENCHED and is
re-placed with its rank field written. -/
def Obligations.RankTaken : Prop :=
  ∀ (s : State) (b : Byte) (value : Nat) (c : Instr), s.Listening →
    (c = .rank b (BitVec.ofNat 8 value) ∧ value < 256) ∨ (c = .policyRank b (BitVec.ofNat 16 value) ∧ value < 65536) →
    (portOf b = none ∨ 3 < value → exec c s = .next (s.answered .refusedRange .empty)) ∧
    ∀ p, portOf b = some p → value ≤ 3 →
      ((∀ k, s.record p = some k → k.live = false) →
        exec c s = .next ((s.modPort p (fun u => { u with rank := value })).answered .done .empty)) ∧
      ∀ k, s.record p = some k → k.live = true →
        ∃ t : State, exec c s = .next (t.answered .done .empty) ∧ s.FrameAt t p ∧ t.lastHandle = s.lastHandle ∧
          (t.port p).lasting =
            { s.port p with
              rank := value
              contract := { (s.port p).contract with
                record := some { k with state := .inForce, rank := some value } } }.lasting ∧
          ∀ h, h ∈ t.roster.list ↔ h = k.handle ∨ h ∈ s.roster.list

/-! ## The allocator, trim and watch by command -/

/-- SET CLAIM (R133), SET PASS (R134) and DERATE (R137): their checks; each publishes, SET PASS and DERATE only on a change; and what a publication does:
the pool (R136), the budget-short test (R141), the allocation, the outputs (R143) and the tick, and nothing else (R142). -/
def Obligations.ClaimsAndPublication : Prop :=
  (∀ (s : State) (sink : Byte) (request floor : Word) (priority : Byte), s.Listening →
    let refused : Prop := 2 < sink.toNat ∨ 4000 < request.toNat ∨ 4000 < floor.toNat ∨ 3 < priority.toNat ∨
      (request ≠ 0 ∧ request.toNat < floor.toNat)
    (refused → exec (.setClaim sink request floor priority) s = .next (s.answered .refusedRange .empty)) ∧
    ∀ k, sinkOf sink = some k → ¬refused →
      let claim : Claim := { request := request.toNat, floor := floor.toNat, priority := priority.toNat }
      exec (.setClaim sink request floor priority) s =
        .next ({ s with allocator := { s.allocator with claims := s.allocator.claims.set k claim } }.publish.answered .done
          .empty)) ∧
  (∀ (s : State) (v : Byte), s.Listening →
    (1 < v.toNat → exec (.setPass v) s = .next (s.answered .refusedRange .empty)) ∧
    (v.toNat ≤ 1 →
      let on : Bool := v = 1
      (s.allocator.passEnable = on → exec (.setPass v) s = .next (s.answered .done .empty)) ∧
      (s.allocator.passEnable ≠ on → exec (.setPass v) s =
        .next ({ s with allocator := { s.allocator with passEnable := on } }.publish.answered .done .empty)))) ∧
  (∀ (s : State) (b : Byte) (v : Word), s.Listening →
    (15 < v.toNat → exec (.policyDerate b v) s = .next (s.answered .refusedRange .empty)) ∧
    (v.toNat ≤ 15 →
      (s.policy.derate = v.toNat → exec (.policyDerate b v) s = .next (s.answered .done .empty)) ∧
      (s.policy.derate ≠ v.toNat → exec (.policyDerate b v) s =
        .next ({ s with policy := { s.policy with derate := v.toNat } }.publish.answered .done .empty)))) ∧
  ∀ s : State,
    let supply (p : Port) : Nat :=
      if s.allocator.closedSet.get p then ((s.record p).map (fun k => k.voltage * k.effectiveCeiling / 500)).getD 0 else 0
    let pool := min 4000 ((supply .p0 + supply .p1 + supply .p2 + supply .p3) * (100 - s.policy.derate) / 100)
    let floors := (s.allocator.claims.get .system).floor + (s.allocator.claims.get .charge).floor +
      (if s.allocator.passEnable then (s.allocator.claims.get .pass).floor else 0)
    let given := s.allocator.divide pool
    let drive (n : Nat) : LimitOutput := if n = 0 then .off else .power n
    s.publish =
      { s with
        deviceFlags := if pool < floors ∧ s.allocator.short = false then s.deviceFlags ||| oneBit DeviceFlag.short.bit else s.deviceFlags
        allocator := { s.allocator with
          pool := pool, short := decide (pool < floors), allocations := given, publishedAt := s.tick
          limits := ⟨drive given.system, drive given.charge, drive given.pass⟩ } }

/-- SET POLICY for the parameters whose value only acts later (R14, R88, R99, R148, R149, R159, R64, R179): each is stored when in range, refused else, and
changes nothing more; DROPOUT is refused while the lock is set (R157, R165). -/
def Obligations.PolicyStored : Prop :=
  ∀ (s : State) (b : Byte) (v : Word), s.Listening →
    let n := v.toNat
    let refused : State := s.answered .refusedRange .empty
    let stored (P : Policy) : State := { s with policy := P }.answered .done .empty
    exec (.policyLeaseWant b v) s = .next (if 1 ≤ n ∧ n ≤ 600 then stored { s.policy with leaseWant := n } else refused) ∧
    exec (.policySettleTime b v) s = .next (if 5 ≤ n ∧ n ≤ 100 then stored { s.policy with settleTime := n } else refused) ∧
    exec (.policyOverdrawMargin b v) s =
      .next (if 1 ≤ n ∧ n ≤ 20 then stored { s.policy with overdrawMargin := n } else refused) ∧
    exec (.policyOverdrawWindow b v) s =
      .next (if 2 ≤ n ∧ n ≤ 20 then stored { s.policy with overdrawWindow := n } else refused) ∧
    exec (.policyDropout b v) s =
      .next (if s.lock then s.answered .refusedLocked .empty
        else if 60 ≤ n ∧ n ≤ 95 then stored { s.policy with dropout := n } else refused) ∧
    (portOf b = none → exec (.policyRebidCauses b v) s = .next refused) ∧
    ∀ p, portOf b = some p → exec (.policyRebidCauses b v) s =
      .next ((s.modPort p (fun u => { u with contract := { u.contract with rebidCauses := v &&& 0x03FE } })).answered .done .empty)

/-- SET POLICY for the parameters that act at once when they change (R59, R99, R119, R120, R179): the value is stored, a write of the value held does nothing
more; a change of the input window or COMBINE makes the roster form its intended set anew (R117, R118) and switch over to it (R121 to R125), one of
the window or PORT_CURRENT_MAX makes an asking on every port (R58 to R61), a raised RENEW_LEAD begins the renewals that have become due; no record
ends or changes its terms. In a switch-over a close that finds no room, or is refused, leaves its port OPEN and WAITING (R124, R126). -/
def Obligations.PolicyActsAtOnce : Prop :=
  (∀ (s : State) (p : Port) (refused : List Port), s.path p = .opened →
    let waits := s.modPort p (fun u => { u with role := .waiting })
    (2 ≤ s.rosterCount → State.askIfRoom [] (s, refused) p = (waits, refused)) ∧
    (2 ≤ s.pathCount ∨ s.mode p = .sense ∨ (∀ k, s.record p = some k → k.state ≠ .inForce) →
      State.askClose [] (s, refused) p = (waits, refused ++ [p]))) ∧
  ∀ (s : State) (b : Byte) (v : Word) (c : Instr) (P : Policy) (ok : Prop), s.Listening →
    let n := v.toNat
    let supplies (h : Handle) : Bool := (s.portOfHandle h).any (fun p => s.mode p = .auto && (s.record p).any (fun k =>
      k.state != .benched && decide (P.vinLow ≤ k.voltage) && decide (k.voltage ≤ P.vinHigh)))
    (c = .policyVinLow b v ∧ P = { s.policy with vinLow := n } ∧ (ok ↔ 200 ≤ n ∧ n ≤ 1000 ∧ n < s.policy.vinHigh)) ∨
      (c = .policyVinHigh b v ∧ P = { s.policy with vinHigh := n } ∧ (ok ↔ 250 ≤ n ∧ n ≤ 2000 ∧ s.policy.vinLow < n)) ∨
      (c = .policyPortCurrentMax b v ∧ P = { s.policy with currentMax := n } ∧ (ok ↔ 10 ≤ n ∧ n ≤ 1000)) ∨
      (c = .policyRenewLead b v ∧ P = { s.policy with renewLead := n } ∧ (ok ↔ n = 10 ∨ n = 25 ∨ n = 50)) ∨
      (c = .policyCombine b v ∧ P = { s.policy with combine := if n = 0 then .single else .pair } ∧ (ok ↔ n ≤ 1)) →
    (¬ok → exec c s = .next (s.answered .refusedRange .empty)) ∧
    (ok → P = s.policy → exec c s = .next (s.answered .done .empty)) ∧
    (ok → P ≠ s.policy → ∃ t : State, exec c s = .next (t.answered .done .empty) ∧ t.policy = P ∧
      t.allocator.claims = s.allocator.claims ∧ t.time = s.time ∧ t.lock = s.lock ∧
      (∀ p k, s.record p = some k → ∃ k', t.record p = some k' ∧ k'.terms = k.terms ∧ k'.amendment = k.amendment ∧
        (c ≠ .policyRenewLead b v → k'.renewal = k.renewal)) ∧
      (∀ p, (t.port p).flags = (s.port p).flags ||| (t.port p).flags ∧ t.mode p = s.mode p ∧
        (t.port p).catalogue = (s.port p).catalogue ∧ t.linkState p = s.linkState p) ∧
      (c = .policyVinLow b v ∨ c = .policyVinHigh b v ∨ c = .policyCombine b v →
        t.roster.intended = (s.roster.list.filter supplies).take ((if P.combine = .pair then 2 else 1) - s.directHeld) ∧
        (s.PathsBacked → s.HandlesDistinct → s.RosterExact → { s with policy := P }.SwitchedOver t)) ∧
      (c = .policyVinLow b v ∨ c = .policyVinHigh b v ∨ c = .policyPortCurrentMax b v → ∀ p, s.MayBid p → ∃ h, t.BidStands p h) ∧
      (∀ p, ¬ s.MayBid p → s.record p = none → t.record p = none) ∧
      (c = .policyRenewLead b v → s.policy.renewLead < n → ∀ p k x e, s.record p = some k → k.live = true → k.renewal = none →
        k.withdraw = false → k.lease = some x → x.expiry = some e → (e - s.tick).toInt ≤ (x.length * 10 * n : Nat) →
        ∃ k', t.record p = some k' ∧ k'.renewal =
          some { attempts := 1, state := if s.linkState p = .mute then .retryWait (s.ahead 2000) else .inFlight }))

/-- SET TRIM (R57, R153): refused out of range; AUTO_TRIM after MANUAL_TRIM on a CLOSED path sets the recovery deadline and ignores the step value;
MANUAL_TRIM removes it and gives the steps to the port's record, if it has one; the answer carries the steps as they stand after. The effective
ceiling that follows from the trim steps is the grant less the trim, rounded down and lowered to the ceiling of a recall (R57).
That MANUAL_TRIM forgets the remembered trim steps (raiseBase) is the model's reading: log 31. -/
def Obligations.TrimTaken : Prop :=
  (∀ k : Record,
    let trimmed := k.granted * (32 - k.trim) / 32
    k.effectiveCeiling = match k.recallPart with | some c => min trimmed c.ceiling | none => trimmed) ∧
  ∀ (s : State) (b steps : Byte), s.Listening →
    (portOf b = none ∨ 15 < steps.toNat →
      exec (.setTrimAuto b steps) s = .next (s.answered .refusedRange .empty) ∧
      exec (.setTrimManual b steps) s = .next (s.answered .refusedRange .empty)) ∧
    ∀ p, portOf b = some p → steps.toNat ≤ 15 →
      let manual := s.modPort p (fun u =>
        { u with monitor := { u.monitor with trimMode := .manual, recovery := none, raiseBase := none } })
      exec (.setTrimAuto b steps) s =
        .next ((s.modPort p (fun u =>
          { u with monitor := { u.monitor with
              trimMode := .auto
              recovery := if u.monitor.trimMode = .manual ∧ s.path p = .closed then some (s.ahead 1000) else u.monitor.recovery } })).answered
          .done (.trimSteps (((s.record p).map Record.trim).getD 0))) ∧
      (s.record p = none → exec (.setTrimManual b steps) s = .next (manual.answered .done (.trimSteps 0))) ∧
      ∀ k, s.record p = some k →
        let written : Record := { k with trim := steps.toNat }
        exec (.setTrimManual b steps) s =
          .next (((manual.modPort p (fun u => { u with contract := { u.contract with record := some written } })).ceilingReported
            p k written).answered .done (.trimSteps steps.toNat))

/-- SET WATCH, SET ATTENTION and FORCE LOSS (R157, R158, R163 to R165, R183): while the lock is set SET WATCH is refused; a watch turned off ends every
repeat state and every window of a path that is not CLOSED; the lock test follows SET WATCH and SET ATTENTION; a forced-loss test is stored
whatever the lock. -/
def Obligations.WatchAndLock : Prop :=
  ∀ (s : State), s.Listening →
    let anyGroup (e : BitVec 5) : Bool := e.extractLsb' 0 4 != 0
    (∀ e r : Byte,
      (s.lock = true → exec (.setWatch e r) s = .next (s.answered .refusedLocked .empty)) ∧
      (s.lock = false → 1 < e.toNat ∨ 1 < r.toNat → exec (.setWatch e r) s = .next (s.answered .refusedRange .empty)) ∧
      (s.lock = false → e.toNat ≤ 1 → r.toNat ≤ 1 → exec (.setWatch e r) s =
        .next ({ s with
          watchEnable := e = 1, alertRoute := r = 1, lock := e = 1 && r = 1 && anyGroup s.enables
          ports := if e = 1 then s.ports else s.ports.map (fun u : PortState =>
            { u with watch := { u.watch with
                repeatAt := none, window := if u.front.path = PathState.closed then u.watch.window else none } }) }.answered .done .empty))) ∧
    (∀ e : Byte,
      (32 ≤ e.toNat → exec (.setAttention e) s = .next (s.answered .refusedRange .empty)) ∧
      (e.toNat < 32 → exec (.setAttention e) s =
        .next ({ s with
          enables := e.setWidth 5
          lock := s.lock || (s.watchEnable && s.alertRoute && anyGroup (e.setWidth 5)) }.answered .done .empty))) ∧
    ∀ b v : Byte,
      (portOf b = none ∨ 1 < v.toNat → exec (.forceLoss b v) s = .next (s.answered .refusedRange .empty)) ∧
      ∀ p, portOf b = some p → v.toNat ≤ 1 → exec (.forceLoss b v) s =
        .next ((s.modPort p (fun u =>
          { u with watch := { u.watch with
              forced := v = 1
              window := if u.front.path = .closed ∨ (v = 1 ∧ s.watchEnable = true) ∨ u.watch.repeatAt.isSome = true
                then u.watch.window else none } })).answered .done .empty)

/-! ## Queries, copies, flags and transport -/

/-- The query commands answer what stands, and change nothing but the response (R55, R145, R173, R178). -/
def Obligations.QueriesAnswer : Prop :=
  ∀ (s : State), s.straps.isSome = true →
    (∀ b, portOf b = none → exec (.queryRecord b) s = .next (s.answered .refusedRange .empty) ∧
      exec (.queryTiers b) s = .next (s.answered .refusedRange .empty) ∧
      (b ≠ 4 → exec (.queryPortStatus b) s = .next (s.answered .refusedRange .empty))) ∧
    (∀ b p, portOf b = some p →
      let u := s.port p
      (s.record p = none → exec (.queryRecord b) s = .next (s.answered .done .noRecord)) ∧
      (∀ k, s.record p = some k → exec (.queryRecord b) s = .next (s.answered .done (.record
        { handle := k.handle, port := p, state := k.state, tier := k.tier, low := k.low, high := k.high, voltage := k.voltage,
          requested := k.requested, granted := k.granted, trim := k.trim, ceiling := k.effectiveCeiling, lease := k.lease,
          renewal := k.renewal, refused := k.refused, withdraw := k.withdraw, stale := k.stale, rank := k.rank,
          grantedAt := k.grantedAt
          amendment := k.amendment.map (fun a =>
            { tier := a.tier, low := a.low, high := a.high, voltage := a.voltage, requested := a.requested, lease := a.lease,
              origin := a.origin,
              transition := a.transition.map (fun x => { granted := x.granted, lease := x.lease, deadline := x.deadline }) })
          recallPart := k.recallPart.map (fun c => { ceiling := c.ceiling, deadline := c.deadline, yield := c.yield }) }))) ∧
      exec (.queryTiers b) s = .next (s.answered .done (.tiers
        { held := u.catalogue.held, arrival := (u.catalogue.arrival.map (BitVec.ofNat 32)).getD 0, outcome := u.catalogue.outcome
          tiers := ((if u.catalogue.base then [baseTier] else []) ++ u.catalogue.offered).map (fun t =>
            { tier := t
              eligible := decide (t.low ≤ s.policy.vinHigh ∧ s.policy.vinLow ≤ t.high ∧ 10 ≤ t.ceiling) }) })) ∧
      exec (.queryPortStatus b) s = .next (s.answered .done (.portStatus
        { attach := u.front.attach, link := u.link.state, mode := u.front.mode, voltage := u.front.voltage, current := u.front.current,
          pathRequest := u.front.pathRequest, rank := u.rank, trimMode := u.monitor.trimMode,
          path := match u.front.path with | .opened => .opened | .closing => .switching | .closed => .closed
          trim := ((s.record p).map Record.trim).getD 0, hold := u.contract.hold, forced := u.watch.forced,
          lastRetirement := u.contract.lastRetirement, tick := BitVec.ofNat 32 s.time }))) ∧
    exec .queryDeviceStatus s = .next (s.answered .done (.deviceStatus
      { roster := s.roster.list.map (fun h => (h, (s.recordOfHandle h).any (fun k => k.state = .benched)))
        intended := s.roster.intended, directHeld := s.directHeld, switching := s.roster.switching
        claims :=
          ⟨⟨s.allocator.claims.system, s.allocator.allocations.system⟩, ⟨s.allocator.claims.charge, s.allocator.allocations.charge⟩,
            ⟨s.allocator.claims.pass, s.allocator.allocations.pass⟩⟩
        passEnable := s.allocator.passEnable, pool := s.allocator.pool, short := s.allocator.short,
        publishedAt := s.allocator.publishedAt, watchEnable := s.watchEnable, alertRoute := s.alertRoute, lock := s.lock,
        policy := s.policy
        rebidCauses := s.ports.map (fun u => u.contract.rebidCauses), cold := s.cold, coldPort := s.coldPort, enables := s.enables,
        tick := BitVec.ofNat 32 s.time })) ∧
    exec .readFlags s = .next (s.answered .done
      (.flags ⟨s.ports.p0.flags, s.ports.p1.flags, s.ports.p2.flags, s.ports.p3.flags⟩ s.deviceFlags s.enables))

/-- FREEZE fills each empty slot that it names with a copy of the port as it stands and its tick, leaves a held copy, and answers what is held and what it
filled (R180); READ FROZEN returns and empties the status copy, else the record copy, else shows the live record (R181).
That bits 4 to 7 of a port's byte are 0 is the model's choice: log 43. -/
def Obligations.FreezeAndReadFrozen : Prop :=
  ∀ (s : State), s.straps.isSome = true →
    (∀ ports parts : Byte,
      (16 ≤ ports.toNat ∨ 4 ≤ parts.toNat →
        exec (.freeze ports parts) s = .next (s.answered .refusedRange .empty)) ∧
      (ports.toNat < 16 → parts.toNat < 4 → ∃ (t : State) (held : PerPort Byte), exec (.freeze ports parts) s = .next (t.answered .done (.heldMap held)) ∧
        t = { s with ports := t.ports } ∧ ∀ p,
          let u := s.port p
          let record : Bool := ports.getLsbD p.index && parts.getLsbD 0
          let status : Bool := ports.getLsbD p.index && parts.getLsbD 1
          t.port p =
            { u with
              frozenRecord := if record then some (u.frozenRecord.getD { record := s.recordView p, tick := s.tick }) else u.frozenRecord
              frozenStatus :=
                if status then some (u.frozenStatus.getD
                  { attach := u.front.attach, link := u.link.state, mode := u.front.mode, voltage := u.front.voltage,
                    current := u.front.current, pathRequest := u.front.pathRequest, path := u.front.path.view,
                    trim := ((s.record p).map Record.trim).getD 0, hold := u.contract.hold,
                    lastRetirement := u.contract.lastRetirement, tick := s.tick })
                else u.frozenStatus } ∧
          (held.get p).getLsbD 0 = (t.port p).frozenRecord.isSome ∧ (held.get p).getLsbD 1 = (t.port p).frozenStatus.isSome ∧
          (held.get p).getLsbD 2 = (record && u.frozenRecord.isNone) ∧ (held.get p).getLsbD 3 = (status && u.frozenStatus.isNone) ∧
          (held.get p).extractLsb' 4 4 = 0)) ∧
    (∀ b, portOf b = none → exec (.readFrozen b) s = .next (s.answered .refusedRange .empty)) ∧
    ∀ b p, portOf b = some p →
      (∀ c, (s.port p).frozenStatus = some c → exec (.readFrozen b) s =
        .next ((s.modPort p (fun u => { u with frozenStatus := none })).answered .done (.frozen (.status c)))) ∧
      (∀ c, (s.port p).frozenStatus = none → (s.port p).frozenRecord = some c → exec (.readFrozen b) s =
        .next ((s.modPort p (fun u => { u with frozenRecord := none })).answered .done (.frozen (.record c)))) ∧
      ((s.port p).frozenStatus = none → (s.port p).frozenRecord = none → exec (.readFrozen b) s =
        .next (s.answered .done (.frozen (.live (s.recordView p)))))

/-- CLEAR FLAGS clears the flags of its mask in one group (R184); RESET PART clears flags, enables, copies, forced-loss tests, repeat states, holds, attempt
counts and holdoffs, makes an asking on every AUTO port (R58 to R61), and leaves contracts, paths, catalogues, the roster, the allocator, the policy and the watch configuration as they stand
(R167, R186). -/
def Obligations.ClearFlagsAndSoftReset : Prop :=
  ∀ (s : State), s.Listening →
    (∀ (g : Byte) (m : Word),
      (4 < g.toNat → exec (.clearFlags g m) s = .next (s.answered .refusedRange .empty)) ∧
      (g = 4 → exec (.clearFlags g m) s = .next ({ s with deviceFlags := s.deviceFlags &&& ~~~m }.answered .done .empty)) ∧
      ∀ p, portOf g = some p → exec (.clearFlags g m) s =
        .next ((s.modPort p (fun u => { u with flags := u.flags &&& ~~~m })).answered .done .empty)) ∧
    ∃ t : State, exec .resetPart s = .next (t.answered .done .empty) ∧ t.deviceFlags = 0 ∧ t.enables = 0 ∧ t.attn = false ∧
      t.alert = false ∧ t.roster = s.roster ∧ t.allocator = s.allocator ∧ t.policy = s.policy ∧ t.time = s.time ∧
      t.watchEnable = s.watchEnable ∧ t.alertRoute = s.alertRoute ∧ t.lock = s.lock ∧ t.straps = s.straps ∧ t.cold = s.cold ∧
      ∀ p, (t.port p).flags = 0 ∧ (t.port p).frozenRecord = none ∧ (t.port p).frozenStatus = none ∧
        (t.port p).contract.hold = false ∧ (t.port p).contract.attempts = 0 ∧ (t.port p).contract.holdoff = none ∧
        (t.port p).watch =
          { window := if s.path p = .closed then (s.port p).watch.window else none, forced := false, repeatAt := none } ∧
        (t.port p).front = (s.port p).front ∧ (t.port p).catalogue = (s.port p).catalogue ∧ (t.port p).rank = (s.port p).rank ∧
        t.role p = s.role p ∧ (t.port p).monitor = { (s.port p).monitor with burstArmed := (t.port p).monitor.burstArmed } ∧
        (t.port p).link = { (s.port p).link with slot := { (s.port p).link.slot with bid := (t.port p).link.slot.bid } } ∧
        (∀ k, s.record p = some k →
          t.record p = some k ∧ (t.port p).monitor = (s.port p).monitor ∧ (t.port p).link = (s.port p).link) ∧
        (s.record p = none →
          let asks : Prop := s.mode p = .auto ∧ (s.port p).front.attach = .present ∧
            ((s.port p).catalogue.held = true ∨ s.linkState p = .mute)
          (asks → ∃ h, t.BidStands p h) ∧ (¬asks → t.record p = none))

/-- The transport of the command port (R172, R174 to R177): other addresses and the time of a reset are ignored; an empty write is nothing, an unknown
code answers UNKNOWN, a wrong form REFUSED_RANGE; a read returns status, length, data and then zeros and empties the buffer once the status byte is
sent; and a known command that is no query ends a cold state before it acts or is refused, its form wrong or not.
That a part in reset takes no sample, and the bytes of the last read, are the model's: log 5, log 9. -/
def Obligations.CommandTransport : Prop :=
  (∀ s : State, s.straps = none →
    (∀ c h, hostCommandOf c = some h → exec c s = .next s) ∧ (∀ a bytes, exec (.writeTaken a bytes) s = .next s) ∧
    (∀ a n, exec (.responseRead a n) s = .next s) ∧ ∀ r, exec (.meterSample r) s = .next s) ∧
  (∀ (s : State) (a : BitVec 7), s.targetAddress ≠ some a →
    (∀ bytes, exec (.writeTaken a bytes) s = .next s) ∧ ∀ n, exec (.responseRead a n) s = .next s) ∧
  (∀ (s : State) (a : BitVec 7), s.targetAddress = some a →
    exec (.writeTaken a []) s = .next s ∧
    (∀ code rest, code.toNat ∉ [1, 2, 3, 4, 5, 16, 17, 18, 19, 20, 21, 32, 33, 34, 35, 36, 37, 48, 49, 50, 63] →
      exec (.writeTaken a (code :: rest)) s = .next (s.answered .unknown .empty)) ∧
    (∀ (code : Byte) rest length,
      (code.toNat, length) ∈ [(1, 1), (2, 1), (3, 1), (4, 2), (5, 1), (16, 2), (17, 2), (18, 8), (19, 8), (20, 1), (21, 2), (32, 6),
        (33, 1), (34, 4), (35, 3), (36, 2), (37, 2), (48, 1), (49, 0), (50, 3), (63, 0)] → rest.length ≠ length →
      let query : Prop := code.toNat ∈ [1, 2, 3, 4, 5, 49]
      (s.cold = .idle ∨ query → exec (.writeTaken a (code :: rest)) s = .next (s.answered .refusedRange .empty)) ∧
      (s.cold ≠ .idle → ¬query → exec (.writeTaken a (code :: rest)) s =
        .next ({ s with
          cold := .idle, coldPort := none
          deviceFlags := s.deviceFlags ||| oneBit DeviceFlag.coldDone.bit }.answered .refusedRange .empty))) ∧
    ∀ n, exec (.responseRead a n) s =
      .next { s with
        response := if n = 0 then s.response else none
        lastRead :=
          let sent : List Byte := match s.response with
            | some r => r.status.code :: BitVec.ofNat 8 r.data.bytes.length :: r.data.bytes
            | none => [0x0F, 0]
          sent.take n ++ List.replicate (n - sent.length) 0 }) ∧
  ∀ (s : State) (c : Instr) (h : HostCommand), hostCommandOf c = some h → s.straps.isSome = true → s.cold ≠ .idle →
    let query : Prop := c = .queryDeviceStatus ∨ c = .readFlags ∨ (∃ b, c = .queryRecord b ∨ c = .queryTiers b ∨
      c = .queryPortStatus b ∨ c = .readFrozen b) ∨ ∃ m q, c = .freeze m q
    (query → ∃ t : State, exec c s = .next t ∧ t.cold = s.cold ∧ t.coldPort = s.coldPort ∧ t.deviceFlags = s.deviceFlags) ∧
    (¬query → exec c s = exec c
      { s with cold := .idle, coldPort := none, deviceFlags := s.deviceFlags ||| oneBit DeviceFlag.coldDone.bit })

end Statements
end

