-- ==== Sys2Proof/Laws/State.lean ====
section
/-! SUPPORT. One lemma per field per update of the state, and what storage per port answers after a write. -/

namespace Sys2Proof

namespace PerPort

variable {α : Type}

@[simp] theorem get_set_self (v : PerPort α) (p : Port) (x : α) : (v.set p x).get p = x := by cases p <;> rfl

@[simp] theorem get_set_ne (v : PerPort α) {p q : Port} (x : α) (h : q ≠ p) : (v.set p x).get q = v.get q := by
  cases p <;> cases q <;> first | rfl | exact absurd rfl h

@[simp] theorem get_all (x : α) (p : Port) : (PerPort.all x).get p = x := by cases p <;> rfl

@[simp] theorem set_get_self (v : PerPort α) (p : Port) : v.set p (v.get p) = v := by cases p <;> rfl

@[simp] theorem set_set_self (v : PerPort α) (p : Port) (x y : α) : (v.set p x).set p y = v.set p y := by cases p <;> rfl

theorem ext_get {v w : PerPort α} (h : ∀ p, v.get p = w.get p) : v = w := by
  obtain ⟨a, b, c, d⟩ := v
  obtain ⟨a', b', c', d'⟩ := w
  have h0 := h .p0
  have h1 := h .p1
  have h2 := h .p2
  have h3 := h .p3
  simp only [get] at h0 h1 h2 h3
  simp [h0, h1, h2, h3]

end PerPort

namespace Machine

namespace State

variable (s : State) (p : Port) (f : PortState → PortState)

/-! ## One port's update -/

@[simp] theorem port_modPort_self : (s.modPort p f).port p = f (s.port p) := PerPort.get_set_self _ _ _

@[simp] theorem port_modPort_ne {q : Port} (h : q ≠ p) : (s.modPort p f).port q = s.port q := PerPort.get_set_ne _ _ h

@[simp] theorem modPort_pending : (s.modPort p f).pending = s.pending := rfl
@[simp] theorem modPort_straps : (s.modPort p f).straps = s.straps := rfl
@[simp] theorem modPort_time : (s.modPort p f).time = s.time := rfl
@[simp] theorem modPort_sampleTaken : (s.modPort p f).sampleTaken = s.sampleTaken := rfl
@[simp] theorem modPort_lastHandle : (s.modPort p f).lastHandle = s.lastHandle := rfl
@[simp] theorem modPort_roster : (s.modPort p f).roster = s.roster := rfl
@[simp] theorem modPort_allocator : (s.modPort p f).allocator = s.allocator := rfl
@[simp] theorem modPort_policy : (s.modPort p f).policy = s.policy := rfl
@[simp] theorem modPort_watchEnable : (s.modPort p f).watchEnable = s.watchEnable := rfl
@[simp] theorem modPort_alertRoute : (s.modPort p f).alertRoute = s.alertRoute := rfl
@[simp] theorem modPort_lock : (s.modPort p f).lock = s.lock := rfl
@[simp] theorem modPort_cold : (s.modPort p f).cold = s.cold := rfl
@[simp] theorem modPort_coldPort : (s.modPort p f).coldPort = s.coldPort := rfl
@[simp] theorem modPort_deviceFlags : (s.modPort p f).deviceFlags = s.deviceFlags := rfl
@[simp] theorem modPort_enables : (s.modPort p f).enables = s.enables := rfl
@[simp] theorem modPort_response : (s.modPort p f).response = s.response := rfl
@[simp] theorem modPort_lastRead : (s.modPort p f).lastRead = s.lastRead := rfl
@[simp] theorem modPort_tick : (s.modPort p f).tick = s.tick := rfl
@[simp] theorem modPort_ahead (n : Nat) : (s.modPort p f).ahead n = s.ahead n := rfl

@[simp] theorem modPort_modPort (g : PortState → PortState) :
    (s.modPort p f).modPort p g = s.modPort p (fun t => g (f t)) := by
  simp [modPort, port]

theorem modPort_congr {f g : PortState → PortState} (h : f (s.port p) = g (s.port p)) : s.modPort p f = s.modPort p g := by
  simp only [modPort, h]

theorem modPort_id {f : PortState → PortState} (h : f (s.port p) = s.port p) : s.modPort p f = s := by
  have e : s.ports.set p (s.port p) = s.ports := PerPort.set_get_self _ _
  simp only [modPort, h, e]

/-! ## The updates of one block are updates of the port -/

@[simp] theorem modFront_eq (g : FrontEnd → FrontEnd) : s.modFront p g = s.modPort p (fun t => { t with front := g t.front }) := rfl
@[simp] theorem modLink_eq (g : Link → Link) : s.modLink p g = s.modPort p (fun t => { t with link := g t.link }) := rfl
@[simp] theorem modSlot_eq (g : RequestSlot → RequestSlot) :
    s.modSlot p g = s.modPort p (fun t => { t with link := { t.link with slot := g t.link.slot } }) := rfl
@[simp] theorem modCatalogue_eq (g : Catalogue → Catalogue) :
    s.modCatalogue p g = s.modPort p (fun t => { t with catalogue := g t.catalogue }) := rfl
@[simp] theorem modContract_eq (g : ContractSlot → ContractSlot) :
    s.modContract p g = s.modPort p (fun t => { t with contract := g t.contract }) := rfl
@[simp] theorem modMonitor_eq (g : Monitor → Monitor) : s.modMonitor p g = s.modPort p (fun t => { t with monitor := g t.monitor }) := rfl
@[simp] theorem modWatch_eq (g : PortWatch → PortWatch) : s.modWatch p g = s.modPort p (fun t => { t with watch := g t.watch }) := rfl
@[simp] theorem setRole_eq (r : Role) : s.setRole p r = s.modPort p (fun t => { t with role := r }) := rfl
@[simp] theorem setRecord_eq (r : Option Record) :
    s.setRecord p r = s.modPort p (fun t => { t with contract := { t.contract with record := r } }) := rfl
@[simp] theorem modRecord_eq (g : Record → Record) :
    s.modRecord p g = s.modPort p (fun t => { t with contract := { t.contract with record := t.contract.record.map g } }) := rfl
@[simp] theorem setFlag_eq (g : PortFlag) :
    s.setFlag p g = s.modPort p (fun t => { t with flags := t.flags ||| oneBit g.bit }) := rfl

/-- Two states that agree in everything but the ports, and on every port, are one. -/
theorem ext_ports {s t : State} (h : { t with ports := s.ports } = s) (hp : ∀ p, t.port p = s.port p) : t = s := by
  have e : t.ports = s.ports := PerPort.ext_get hp
  have e' : t = { t with ports := s.ports } := by rw [← e]
  exact e'.trans h

end State

end Machine

end Sys2Proof
end

