-- ==== Sys2Proof/Laws/Amending.lean ====
section
/-! SUPPORT. What sending an automatic amendment, and the release of an owed one, leave (R53, R72, R73). -/

namespace Sys2Proof.Machine

open Sys2Proof

/-- The record with an automatic amendment as it is sent. -/
theorem Record.amending_auto (r : Record) (a : Amendment) (h : a.origin = .auto) :
    r.amending a = { r with amendment := some a, refused := false, owed := false, owedStale := false, owedBase := false } := by
  simp [Record.amending, h]

namespace State

variable (s : State) (p : Port)

theorem linkUsable_iff : s.linkUsable p = true ↔ s.linkState p ≠ .quiet ∧ s.linkState p ≠ .mute := by
  unfold linkUsable
  cases s.linkState p <;> simp

/-- The whole effect of sending an automatic amendment over a link that is neither QUIET nor MUTE (R72, R73). -/
theorem sendAmendment_auto {r : Record} (b : Terms) (h : s.record p = some r) (hu : s.linkUsable p = true) :
    s.sendAmendment p b .auto = s.modPort p (fun u =>
      { u with
        contract := { u.contract with
          record := some
            { r with amendment := some (s.pendingAmendment b .auto), refused := false, owed := false, owedStale := false
                     owedBase := false } }
        link := { u.link with slot := { u.link.slot with bid := some (s.bidFrame r.handle true b) } } }) := by
  unfold sendAmendment
  rw [h]
  dsimp only
  rw [Record.amending_auto r _ rfl]
  unfold requestBid
  have hl : ∀ x, (s.setRecord p x).linkUsable p = s.linkUsable p := by
    intro x
    unfold linkUsable linkState
    rw [setRecord_eq, port_modPort_self]
  rw [hl, if_pos hu]
  simp only [setRecord_eq, modSlot_eq, modPort_modPort]
  rfl

theorem newTerms_iff (r : Record) (b : Terms) :
    newTerms r b = true ↔ ¬(b.tier = r.tier ∧ b.voltage = r.voltage ∧ b.current = r.granted) := by
  simp only [newTerms, Bool.not_eq_true', Bool.and_eq_false_iff, decide_eq_false_iff_not]
  tauto

/-- The release of an owed amendment, as the statements have it (R53, R73). -/
theorem sendOwed_eq : s.sendOwed p = s.owedReleased p := by
  unfold sendOwed owedReleased
  cases hr : s.record p with
  | none => rfl
  | some r =>
    dsimp only
    cases hb : s.autoChoice p with
    | none => dsimp only; split <;> rfl
    | some b =>
      dsimp only
      have e : (r.owed && decide (s.mode p = .auto) && s.canAmend p r && r.causeHolds) = true ∧ newTerms r b = true ↔
          r.owed = true ∧ ((r.owedStale = true ∧ r.stale = true) ∨ (r.owedBase = true ∧ r.tier = 0)) ∧ s.mode p = .auto ∧
            r.live = true ∧ r.amendment = none ∧ r.renewing = false ∧ r.withdraw = false ∧ s.linkState p ≠ .quiet ∧
            s.linkState p ≠ .mute ∧ ¬(b.tier = r.tier ∧ b.voltage = r.voltage ∧ b.current = r.granted) := by
        rw [newTerms_iff]
        simp only [canAmend, Record.causeHolds, Bool.and_eq_true, Bool.or_eq_true, Bool.not_eq_true', decide_eq_true_eq,
          Option.isNone_iff_eq_none, linkUsable_iff]
        tauto
      by_cases hc : (r.owed && decide (s.mode p = .auto) && s.canAmend p r && r.causeHolds) = true
      · rw [if_pos hc]
        by_cases hn : newTerms r b = true
        · rw [if_pos hn, if_pos (e.mp ⟨hc, hn⟩)]
          refine sendAmendment_auto s p b hr ?_
          simp only [canAmend, Bool.and_eq_true] at hc
          exact hc.1.2.2
        · rw [if_neg hn, if_neg (fun x => hn (e.mpr x).2)]
      · rw [if_neg hc, if_neg (fun x => hc (e.mpr x).1)]

end State

end Sys2Proof.Machine
end

