-- ==== Sys2Proof/Laws/Asking.lean ====
section
/-! SUPPORT. What an asking leaves (R58 to R61): nothing where its conditions fail, and else the bid that the choice of the moment gives. -/

namespace Sys2Proof.Machine

open Sys2Proof

namespace State

variable (s : State) (p : Port)

/-- The whole effect of a local bid on the base tier (R61, R152). -/
theorem localBid_eq (current : Nat) :
    s.localBid p current = { s with lastHandle := s.nextHandle }.modPort p (fun u =>
      { u with
        contract := { u.contract with record := some (s.baseRecord current) }
        monitor := { u.monitor with burstArmed := true } }) := by
  simp only [localBid, createRecord, setRecord_eq, modMonitor_eq, modPort_modPort]
  rfl

/-- The whole effect of a bid over a link that is not MUTE (R60). -/
theorem linkBid_eq (b : Terms) (h : s.linkState p ≠ .mute) :
    s.linkBid p b = { s with lastHandle := s.nextHandle }.modPort p (fun u =>
      { u with
        contract := { u.contract with record := some (s.biddingRecord b) }
        link := if s.linkUsable p then { u.link with slot := { u.link.slot with bid := some (s.bidFrame s.nextHandle false b) } }
          else u.link }) := by
  have hl : (s.createRecord p (s.newRecord b)).linkState p = s.linkState p := by
    unfold linkState createRecord
    rw [setRecord_eq, port_modPort_self]
    rfl
  have hu : (s.createRecord p (s.newRecord b)).linkUsable p = s.linkUsable p := by simp only [linkUsable, hl]
  unfold linkBid
  dsimp only
  rw [hl, if_neg h]
  unfold requestBid
  rw [hu]
  by_cases hc : s.linkUsable p = true
  · simp only [hc, if_true, createRecord, setRecord_eq, modSlot_eq, modPort_modPort]
    rfl
  · simp only [hc, createRecord, setRecord_eq]
    rfl

/-! ## Askings -/

theorem bidDue_iff : s.bidDue p = true ↔ s.MayBid p := by
  simp only [bidDue, MayBid, mode, record, linkState, Bool.and_eq_true, Bool.or_eq_true, Bool.not_eq_true', decide_eq_true_eq,
    Option.isNone_iff_eq_none, and_assoc]

/-- An asking that finds its conditions unmet leaves no trace (R59). -/
theorem asking_idle (h : ¬ s.MayBid p) : s.asking p = s := by
  have e : s.bidDue p ≠ true := fun e => h ((s.bidDue_iff p).mp e)
  unfold asking
  rw [if_neg e]

/-- An asking that finds its conditions met makes the bid of its choice, if it has one (R58). -/
theorem asking_bids (h : s.MayBid p) :
    s.asking p = match s.askingTerms p with | some b => s.freshBid p b | none => s := by
  have e : s.bidDue p = true := (s.bidDue_iff p).mpr h
  cases ht : s.askingTerms p <;> simp [asking, e, ht]

theorem askingTerms_mute (h : s.linkState p = .mute) :
    s.askingTerms p =
      if (s.port p).catalogue.base = true ∧ s.policy.vinLow ≤ 275 ∧ 237 ≤ s.policy.vinHigh then some (baseTerms (min 90 s.policy.currentMax))
      else none := by
  have e : ((s.port p).catalogue.base && s.eligible baseTier) = true ↔
      (s.port p).catalogue.base = true ∧ s.policy.vinLow ≤ 275 ∧ 237 ≤ s.policy.vinHigh := by
    have e : s.eligible baseTier = (decide (237 ≤ s.policy.vinHigh) && decide (s.policy.vinLow ≤ 275)) := by
      simp [eligible, baseTier]
      rfl
    rw [e]
    simp only [Bool.and_eq_true, decide_eq_true_eq]
    tauto
  unfold askingTerms
  rw [if_pos h]
  simp only [e]
  rfl

theorem askingTerms_open (h : s.linkState p ≠ .mute) : s.askingTerms p = s.autoChoice p := by
  unfold askingTerms
  rw [if_neg h]

/-- What the choice of the moment reads stays as it is when a port's record, monitor and request slot change. -/
theorem autoChoice_congr {s t : State} (hp : t.policy = s.policy) (hc : (t.port p).catalogue = (s.port p).catalogue) :
    t.autoChoice p = s.autoChoice p := by
  have he : t.eligible = s.eligible := by funext x; simp only [eligible, hp]
  have hv : t.usableVoltage = s.usableVoltage := by funext x; simp only [usableVoltage, hp]
  have hi : t.usableCurrent = s.usableCurrent := by funext x; simp only [usableCurrent, hp]
  have hl : t.leaseWanted = s.leaseWanted := by funext x; simp only [leaseWanted, hp]
  have hb : t.betterTier = s.betterTier := by
    funext b x
    simp only [betterTier, chosenOver, offeredPower, hv, hi]
    cases b <;> rfl
  unfold autoChoice
  simp only [hc, he, hv, hi, hl, hb]

/-- An asking that finds its conditions met leaves the bid of its choice standing (R58, R60, R61). -/
theorem asking_stands (h : s.MayBid p) : (s.asking p).BidStands p s.nextHandle := by
  rw [asking_bids s p h]
  have hr : s.record p = none := h.2.2.1
  by_cases hm : s.linkState p = .mute
  · rw [askingTerms_mute s p hm]
    by_cases hc : (s.port p).catalogue.base = true ∧ s.policy.vinLow ≤ 275 ∧ 237 ≤ s.policy.vinHigh
    · have ht : (s.localBid p (min 90 s.policy.currentMax)).linkState p = .mute := by
        rw [localBid_eq]; unfold linkState; rw [port_modPort_self]; exact hm
      rw [if_pos hc]
      show (s.localBid p (min 90 s.policy.currentMax)).BidStands p s.nextHandle
      unfold BidStands
      dsimp only
      rw [if_pos ht, localBid_eq]
      rw [if_pos (by rw [port_modPort_self]; exact hc)]
      unfold record
      rw [port_modPort_self]
      rfl
    · rw [if_neg hc]
      unfold BidStands
      dsimp only
      rw [if_pos hm, if_neg hc]
      exact hr
  · rw [askingTerms_open s p hm]
    cases hb : s.autoChoice p with
    | none =>
      unfold BidStands
      dsimp only
      rw [if_neg hm, hb]
      exact hr
    | some b =>
      show (s.freshBid p b).BidStands p s.nextHandle
      unfold freshBid
      by_cases h0 : b.tier = 0
      · rw [if_pos h0, localBid_eq]
        generalize ht : { s with lastHandle := s.nextHandle }.modPort p _ = t
        have hp := ht ▸ port_modPort_self { s with lastHandle := s.nextHandle } p _
        have hl : t.linkState p ≠ .mute := by unfold linkState; rw [hp]; exact hm
        have ha : t.autoChoice p = some b := by
          rw [← hb]
          exact autoChoice_congr p (by rw [← ht]; rfl) (by rw [hp]; rfl)
        unfold BidStands
        dsimp only
        rw [if_neg hl, ha]
        dsimp only
        rw [if_pos h0]
        unfold record
        rw [hp, ← ht]
        rfl
      · rw [if_neg h0, linkBid_eq s p b hm]
        generalize ht : { s with lastHandle := s.nextHandle }.modPort p _ = t
        have hp := ht ▸ port_modPort_self { s with lastHandle := s.nextHandle } p _
        have hs : t.linkState p = s.linkState p := by
          unfold linkState; rw [hp]; dsimp only; split <;> rfl
        have ha : t.autoChoice p = some b := by
          rw [← hb]
          exact autoChoice_congr p (by rw [← ht]; rfl) (by rw [hp]; rfl)
        have hu : t.linkUsable p = s.linkUsable p := by unfold linkUsable; rw [hs]
        unfold BidStands
        dsimp only
        rw [if_neg (by rw [hs]; exact hm), ha]
        dsimp only
        rw [if_neg h0]
        refine ⟨?_, fun hx => ?_⟩
        · unfold record
          rw [hp, ← ht]
          rfl
        · rw [hu] at hx
          rw [hp, ← ht]
          dsimp only
          rw [if_pos hx]
          rfl

end State

end Sys2Proof.Machine
end

