-- ==== Sys2Proof/Laws/Moves.lean ====
section
/-! SUPPORT. What an event on one port can do to a state, said once: every operation that serves an event on port p is a chain of a few kinds of
move. What the moves keep, every operation keeps. -/

namespace Sys2Proof.Machine

open Sys2Proof

/-- What the moves watch of a port: its path, whether a close operation stands, its mode, and the handle and state of its record. -/
def PortState.core (t : PortState) : PathState × Bool × Mode × Option (Handle × RecordState) :=
  (t.front.path, t.front.closeOp.isSome, t.front.mode, t.contract.record.map (fun r => (r.handle, r.state)))

namespace State

/-- A change that the moves do not watch: on any field of port p, and on other ports only where the roster may act. -/
def Still (p : Port) (s t : State) : Prop :=
  t.lasting = s.lasting ∧ t.allocator = s.allocator ∧ (∀ q, (t.port q).core = (s.port q).core) ∧
    ∀ q, q ≠ p → (t.port q).lasting = (s.port q).lasting

/-- The state with a close operation begun on a port (R13). -/
def beginClose (s : State) (q : Port) (c : CloseOp) : State := s.modFront q (fun f => { f with path := .closing, closeOp := some c })

/-- The state with the close operation of a port gone and its path OPEN (R15, R16). -/
def dropClose (s : State) (q : Port) : State := s.modFront q (fun f => { f with path := .opened, closeOp := none })

/-- What an event on port p can do. -/
inductive Moves (p : Port) : State → State → Prop
  | still {s t : State} : Still p s t → Moves p s t
  | ask {s : State} (q : Port) (c : CloseOp) : s.admitsClose q = true → s.path q = .opened → Moves p s (s.beginClose q c)
  | drop {s : State} (q : Port) : s.path q = .closing → Moves p s (s.dropClose q)
  | opens {s : State} (q : Port) : s.path q = .closed → Moves p s (s.openPath q)
  | closes {s : State} : s.path p = .closing → Moves p s (s.closePath p)
  | publish {s : State} : Moves p s s.publish
  | pass {s : State} (b : Bool) : Moves p s (s.setPassEnable b)
  | create {s : State} (r : Record) : s.record p = none → r.handle = s.nextHandle → Moves p s (s.createRecord p r)
  | revise {s : State} (r r' : Record) : s.record p = some r → r'.handle = r.handle →
      (r.state = .inForce → r'.state = .inForce) → Moves p s (s.setRecord p (some r'))
  | benches {s : State} (r : Record) : s.record p = some r →
      Moves p s ((s.setRecord p (some { r with state := .benched })).openPath p)
  | clear {s : State} : s.path p = .opened → Moves p s (s.setRecord p none)
  | mode {s : State} (m : Mode) : (m = .sense → s.path p = .opened) → Moves p s (s.modFront p (fun f => { f with mode := m }))
  | trans {s t u : State} : Moves p s t → Moves p t u → Moves p s u

namespace Moves

variable {p : Port} {s t u : State}

theorem refl (p : Port) (s : State) : Moves p s s := .still ⟨rfl, rfl, fun _ => rfl, fun _ _ => rfl⟩

theorem ite {c : Prop} [Decidable c] (h : Moves p s t) (g : Moves p s u) : Moves p s (if c then t else u) := by
  split <;> assumption

theorem iteD {c : Prop} [Decidable c] (h : c → Moves p s t) (g : ¬ c → Moves p s u) : Moves p s (if c then t else u) := by
  split
  · exact h ‹_›
  · exact g ‹_›

/-- A change of port p that keeps its core. -/
theorem port (s : State) (f : PortState → PortState) (h : (f (s.port p)).core = (s.port p).core) : Moves p s (s.modPort p f) := by
  refine .still ⟨rfl, rfl, fun q => ?_, fun q hq => ?_⟩
  · by_cases hq : q = p
    · subst hq
      simpa using h
    · simp [hq]
  · simp [hq]

theorem link (s : State) (f : Link → Link) : Moves p s (s.modLink p f) := port s _ rfl
theorem slot (s : State) (f : RequestSlot → RequestSlot) : Moves p s (s.modSlot p f) := link s _
theorem catalogue (s : State) (f : Catalogue → Catalogue) : Moves p s (s.modCatalogue p f) := port s _ rfl
theorem monitor (s : State) (f : Monitor → Monitor) : Moves p s (s.modMonitor p f) := port s _ rfl
theorem watch (s : State) (f : PortWatch → PortWatch) : Moves p s (s.modWatch p f) := port s _ rfl
theorem flag (s : State) (f : PortFlag) : Moves p s (s.setFlag p f) := port s _ rfl

/-- A change of the slot's bidding history. -/
theorem history (s : State) (f : ContractSlot → ContractSlot) (h : (f (s.port p).contract).record = (s.port p).contract.record) :
    Moves p s (s.modContract p f) := port s _ (by simp [PortState.core, h])

/-- A role of any port. -/
theorem role (s : State) (q : Port) (r : Role) : Moves p s (s.setRole q r) := by
  refine .still ⟨rfl, rfl, fun q' => ?_, fun q' _ => ?_⟩ <;>
  · by_cases hq : q' = q
    · subst hq
      simp [PortState.core, PortState.lasting]
    · simp [hq]

/-- A change of the roster or of the DEVICE flags. -/
theorem part (h : ∀ q, t.port q = s.port q) (hl : t.lasting = s.lasting) (ha : t.allocator = s.allocator) : Moves p s t :=
  .still ⟨hl, ha, fun q => by rw [h], fun q _ => by rw [h]⟩

theorem deviceFlag (s : State) (f : DeviceFlag) : Moves p s (s.setDeviceFlag f) := part (fun _ => rfl) rfl rfl

theorem roster (s : State) (r : Roster) : Moves p s { s with roster := r } := part (fun _ => rfl) rfl rfl

/-- A write of the record that keeps its handle and state. -/
theorem record {r r' : Record} (h : s.record p = some r) (hh : r'.handle = r.handle) (hs : r'.state = r.state) :
    Moves p s (s.setRecord p (some r')) := .revise r r' h hh (fun e => by rw [hs, e])

end Moves

end State

end Sys2Proof.Machine
end

