-- ==== Sys2Proof/Laws/MovesOps.lean ====
section
/-! SUPPORT. Every shared operation that serves an event on port p is a chain of moves: one lemma X_moves per operation. -/

namespace Sys2Proof.Machine

open Sys2Proof

namespace State

variable (s : State) (p : Port)

/-! ## Allocator and link -/

theorem reviseRecord_moves (f : Record → Record) (hh : ∀ r, (f r).handle = r.handle) (hs : ∀ r, (f r).state = r.state) :
    Moves p s (s.reviseRecord p f) := by
  unfold reviseRecord
  split
  · exact .refl p s
  · rename_i r h
    exact (Moves.record h (hh r) (hs r)).trans (.ite .publish (.refl p _))

theorem requestYield_moves (r : YieldRequest) : Moves p s (s.requestYield p r) := .ite (.slot s _) (.refl p s)
theorem requestRelease_moves (r : ReleaseRequest) : Moves p s (s.requestRelease p r) := .ite (.slot s _) (.refl p s)
theorem requestBid_moves (r : BidRequest) : Moves p s (s.requestBid p r) := .ite (.slot s _) (.refl p s)
theorem requestRenew_moves (r : RenewRequest) : Moves p s (s.requestRenew p r) := .ite (.slot s _) (.refl p s)
theorem enterOpening_moves : Moves p s (s.enterOpening p) := .link s _
theorem enterQuiet_moves : Moves p s (s.enterQuiet p) := .link s _

theorem startWaiting_moves : Moves p s (s.startWaiting p) := by
  unfold startWaiting
  dsimp only
  repeat' split
  all_goals first | exact .link s _ | exact .refl p s

theorem startExchangeFrame_moves : Moves p s (s.startExchangeFrame p) := .link s _
theorem endOwnFrame_moves : Moves p s (s.endOwnFrame p) := .link s _

/-! ## Paths -/

theorem tidyWatch_moves : Moves p s (s.tidyWatch p) := .ite (.refl p s) (.watch s _)

theorem meetRecall_moves : Moves p s (s.meetRecall p) := by
  unfold meetRecall
  split
  · exact .refl p s
  · rename_i r h
    split
    · exact .refl p s
    · exact .ite ((Moves.record h (by rfl) (by rfl)).trans (requestYield_moves _ p _)) (.refl p s)

theorem openPath_moves (q : Port) : Moves p s (s.openPath q) := by
  cases h : s.path q with
  | opened =>
    have e : s.openPath q = s := by simp only [openPath, h]
    rw [e]
    exact .refl p s
  | closing =>
    have e : s.openPath q = s.dropClose q := by simp only [openPath, h, dropClose]
    rw [e]
    exact .drop q h
  | closed => exact .opens q h

theorem requestClose_moves (q : Port) (who : Requester) (t : State) (h : s.requestClose q who = some t) : Moves p s t := by
  unfold requestClose at h
  split at h
  · split at h
    · rename_i ho ha
      simp only [Option.some.injEq] at h
      subst h
      exact .ask q _ ha ho
    · simp at h
  all_goals
    simp only [Option.some.injEq] at h
    subst h
    exact .refl p _

/-! ## The roster -/

theorem setRoster_moves (l : List Handle) : Moves p s (s.setRoster l) :=
  .ite (.roster s _) ((Moves.roster s _).trans (.deviceFlag _ _))

theorem place_moves : Moves p s (s.place p) := by
  unfold place
  split
  · exact .refl p s
  · rename_i r h
    exact (Moves.record h (by rfl) (by rfl)).trans (setRoster_moves _ p _)

theorem openForRoster_moves (q : Port) : Moves p s (s.openForRoster q) := (openPath_moves s p q).trans (.role _ q _)

theorem dropUnwanted_moves (q : Port) : Moves p s (s.dropUnwanted q) := by
  unfold dropUnwanted
  repeat' split
  all_goals first | exact .refl p s | exact openForRoster_moves s p q | exact .role s q _

theorem keepWanted_moves (q : Port) : Moves p s (s.keepWanted q) := .ite (.role s q _) (.refl p s)

theorem askClose_moves (skip : List Port) (a : State × List Port) (q : Port) : Moves p a.1 (askClose skip a q).1 := by
  unfold askClose
  split
  · exact .role _ q _
  · split
    · rename_i t h
      exact (requestClose_moves _ p q _ t h).trans (.role _ q _)
    · exact .role _ q _

theorem askIfRoom_moves (skip : List Port) (a : State × List Port) (q : Port) : Moves p a.1 (askIfRoom skip a q).1 := by
  unfold askIfRoom
  split
  · exact askClose_moves p skip a q
  · exact .role _ q _

/-- A fold of moves is a move. -/
theorem Moves.fold {α : Type} (f : State → α → State) (h : ∀ s a, Moves p s (f s a)) (l : List α) : Moves p s (l.foldl f s) := by
  induction l generalizing s with
  | nil => exact .refl p s
  | cons a l ih => exact (h s a).trans (ih _)

/-- A fold of moves that collects something beside the state is a move. -/
theorem Moves.fold₂ {α β : Type} (f : State × β → α → State × β) (h : ∀ a x, Moves p a.1 (f a x).1) (l : List α)
    (a : State × β) : Moves p a.1 (l.foldl f a).1 := by
  induction l generalizing a with
  | nil => exact .refl p _
  | cons x l ih => exact (h a x).trans (ih _)

theorem makeBeforeBreak_moves (skip waiting out : List Port) : Moves p s (s.makeBeforeBreak skip waiting out).1 :=
  (Moves.fold₂ p _ (askClose_moves p skip) waiting (s, [])).trans (Moves.fold _ p _ (fun s q => .role s q _) out)

theorem breakBeforeMake_moves (skip waiting out : List Port) : Moves p s (s.breakBeforeMake skip waiting out).1 :=
  (Moves.fold s p _ (fun s q => openForRoster_moves s p q) out).trans (Moves.fold₂ p _ (askIfRoom_moves p skip) waiting (_, []))

theorem switchSteps_moves (skip : List Port) : Moves p s (s.switchSteps skip).1 := by
  unfold switchSteps
  refine ((Moves.fold s p _ (fun s q => dropUnwanted_moves s p q) Port.all).trans
    (Moves.fold _ p _ (fun s q => keepWanted_moves s p q) Port.all)).trans ?_
  dsimp only
  repeat' split
  · exact Moves.fold _ p _ (fun s q => openForRoster_moves s p q) _
  · exact makeBeforeBreak_moves ..
  · exact breakBeforeMake_moves ..

theorem endSteps_moves (begun : Bool) : Moves p s (s.endSteps begun) :=
  .ite ((Moves.roster s _).trans (.deviceFlag _ _)) (.roster s _)

theorem recomputePass_moves (skip : List Port) : Moves p s (s.recomputePass skip).1 :=
  ((Moves.roster s _).trans (switchSteps_moves _ p skip)).trans (endSteps_moves _ p _)

theorem recompute_moves : Moves p s s.recompute := by
  unfold recompute
  dsimp only
  split
  · exact recomputePass_moves s p []
  · exact (recomputePass_moves s p []).trans (recomputePass_moves _ p _)

theorem openRequest_moves : Moves p s (s.openRequest p) :=
  .ite (.refl p s) ((openPath_moves s p p).trans (recompute_moves _ p))

theorem bench_moves : Moves p s (s.bench p) := by
  unfold bench
  split
  · exact .refl p s
  · rename_i r h
    refine .ite ?_ (.refl p s)
    exact ((((Moves.benches r h).trans (.role _ p _)).trans (place_moves _ p)).trans (.flag _ _)).trans (recompute_moves _ p)

theorem rosterInsert_moves : Moves p s (s.rosterInsert p) := (place_moves s p).trans (recompute_moves _ p)

theorem rosterReplace_moves : Moves p s (s.rosterReplace p) := (place_moves s p).trans (recompute_moves _ p)

theorem rosterRemove_moves (h : Handle) : Moves p s (s.rosterRemove p h) :=
  (Moves.role s p _).trans (.ite ((setRoster_moves _ p _).trans (recompute_moves _ p)) (.refl p _))

end State

end Sys2Proof.Machine
end

