-- ==== Sys2Proof/Laws/Paths.lean ====
section
/-! SUPPORT. What publishing, opening and asking for a close leave alone, and when the roster's recomputation leaves a path OPEN. -/

namespace Sys2Proof.Machine

open Sys2Proof

namespace State

variable (s : State) (p : Port)

/-! ## Publication -/

@[simp] theorem setDeviceFlag_port (f : DeviceFlag) (q : Port) : (s.setDeviceFlag f).port q = s.port q := rfl
@[simp] theorem setDeviceFlag_roster (f : DeviceFlag) : (s.setDeviceFlag f).roster = s.roster := rfl

@[simp] theorem publish_port (q : Port) : s.publish.port q = s.port q := by
  simp only [publish]; split <;> rfl
@[simp] theorem publish_lasting : s.publish.lasting = s.lasting := by
  simp only [publish]; split <;> rfl
@[simp] theorem publish_roster : s.publish.roster = s.roster := by
  simp only [publish]; split <;> rfl
@[simp] theorem publish_lastHandle : s.publish.lastHandle = s.lastHandle := by
  simp only [publish]; split <;> rfl

@[simp] theorem reportPath_port (b : Bool) (q : Port) : (s.reportPath p b).port q = s.port q := by
  simp only [reportPath, publish_port]; rfl
@[simp] theorem reportPath_lasting (b : Bool) : (s.reportPath p b).lasting = s.lasting := by
  simp only [reportPath, publish_lasting]; rfl
@[simp] theorem reportPath_roster (b : Bool) : (s.reportPath p b).roster = s.roster := by
  simp only [reportPath, publish_roster]
@[simp] theorem reportPath_lastHandle (b : Bool) : (s.reportPath p b).lastHandle = s.lastHandle := by
  simp only [reportPath, publish_lastHandle]

@[simp] theorem setPassEnable_port (b : Bool) (q : Port) : (s.setPassEnable b).port q = s.port q := by
  unfold setPassEnable; dsimp only; split
  · rfl
  · simp only [publish_port]; rfl
@[simp] theorem setPassEnable_lasting (b : Bool) : (s.setPassEnable b).lasting = s.lasting := by
  unfold setPassEnable; dsimp only; split
  · rfl
  · simp only [publish_lasting]; rfl

/-! ## Opening a path -/

theorem requestYield_others (r : YieldRequest) {q : Port} (h : q ≠ p) : (s.requestYield p r).port q = s.port q := by
  unfold requestYield; split <;> simp [h]

theorem requestYield_self (r : YieldRequest) :
    (s.requestYield p r).port p =
      if s.linkUsable p then
        { s.port p with link := { (s.port p).link with slot := { (s.port p).link.slot with yield := some r } } }
      else s.port p := by
  unfold requestYield; split <;> simp

@[simp] theorem requestYield_roster (r : YieldRequest) : (s.requestYield p r).roster = s.roster := by
  unfold requestYield; split <;> simp
@[simp] theorem requestYield_lasting (r : YieldRequest) : (s.requestYield p r).lasting = s.lasting := by
  unfold requestYield; split <;> rfl

theorem tidyWatch_others {q : Port} (h : q ≠ p) : (s.tidyWatch p).port q = s.port q := by
  unfold tidyWatch; split <;> simp [h]
@[simp] theorem tidyWatch_roster : (s.tidyWatch p).roster = s.roster := by unfold tidyWatch; split <;> rfl
@[simp] theorem tidyWatch_lasting : (s.tidyWatch p).lasting = s.lasting := by unfold tidyWatch; split <;> rfl

theorem meetRecall_others {q : Port} (h : q ≠ p) : (s.meetRecall p).port q = s.port q := by
  unfold meetRecall; dsimp only; (repeat' split) <;> simp [h, requestYield_others]
@[simp] theorem meetRecall_roster : (s.meetRecall p).roster = s.roster := by
  unfold meetRecall; dsimp only; (repeat' split) <;> simp
@[simp] theorem meetRecall_lasting : (s.meetRecall p).lasting = s.lasting := by
  unfold meetRecall; dsimp only; (repeat' split)
  all_goals first | rfl | (simp only [requestYield_lasting]; rfl)

theorem openPath_others {q : Port} (h : q ≠ p) : (s.openPath p).port q = s.port q := by
  unfold openPath; dsimp only; split <;> simp [h, tidyWatch_others, meetRecall_others]
@[simp] theorem openPath_roster : (s.openPath p).roster = s.roster := by
  unfold openPath; dsimp only; split <;> simp
@[simp] theorem openPath_lasting : (s.openPath p).lasting = s.lasting := by
  unfold openPath; dsimp only; split
  all_goals first | rfl | (simp only [reportPath_lasting, meetRecall_lasting, tidyWatch_lasting]; rfl)

end State

end Sys2Proof.Machine
end

