-- ==== Sys2Proof/Laws/RosterWork.lean ====
section
/-! SUPPORT. What the roster's recomputation leaves alone on every port, the one whose event it answers included, and which paths it never
touches. -/

namespace Sys2Proof.Machine

open Sys2Proof

namespace State

/-- The roster's work: on every port only what `PortState.lasting` passes over changes, and nothing of the part but the intended set, the
switch-over, the DEVICE flags and what the allocator publishes. -/
def Worked (s t : State) : Prop :=
  t.lasting = s.lasting ∧ t.lastHandle = s.lastHandle ∧ t.roster.list = s.roster.list ∧
    ∀ q, (t.port q).lasting = (s.port q).lasting

namespace Worked

variable {s t u : State}

theorem refl (s : State) : Worked s s := ⟨rfl, rfl, rfl, fun _ => rfl⟩

theorem trans (h : Worked s t) (g : Worked t u) : Worked s u :=
  ⟨g.1.trans h.1, g.2.1.trans h.2.1, g.2.2.1.trans h.2.2.1, fun q => (g.2.2.2 q).trans (h.2.2.2 q)⟩

theorem ite {c : Prop} [Decidable c] (h : Worked s t) (g : Worked s u) : Worked s (if c then t else u) := by
  split <;> assumption

/-- A change of one port that keeps what lasts. -/
theorem port (s : State) (p : Port) (f : PortState → PortState) (h : (f (s.port p)).lasting = (s.port p).lasting) :
    Worked s (s.modPort p f) := by
  refine ⟨rfl, rfl, rfl, fun q => ?_⟩
  by_cases hq : q = p
  · subst hq; simpa using h
  · simp [hq]

theorem part (h : ∀ q, t.port q = s.port q) (hl : t.lasting = s.lasting) (hh : t.lastHandle = s.lastHandle)
    (hr : t.roster.list = s.roster.list) : Worked s t := ⟨hl, hh, hr, fun q => by rw [h]⟩

theorem publish (s : State) : Worked s s.publish :=
  part (publish_port s) (publish_lasting s) (publish_lastHandle s) (by rw [publish_roster])

/-- A fold of the roster's work is the roster's work. -/
theorem fold {α : Type} (f : State → α → State) (h : ∀ s a, Worked s (f s a)) (l : List α) (s : State) : Worked s (l.foldl f s) := by
  induction l generalizing s with
  | nil => exact refl s
  | cons a l ih => exact (h s a).trans (ih _)

theorem fold₂ {α β : Type} (f : State × β → α → State × β) (h : ∀ a x, Worked a.1 (f a x).1) (l : List α) (a : State × β) :
    Worked a.1 (l.foldl f a).1 := by
  induction l generalizing a with
  | nil => exact refl _
  | cons x l ih => exact (h a x).trans (ih _)

/-! ### What lasts, field by field -/

theorem mode (h : Worked s t) (q : Port) : t.mode q = s.mode q := congrArg (fun x => x.front.mode) (h.2.2.2 q)
theorem records (h : Worked s t) (q : Port) : (t.record q).map Record.lasting = (s.record q).map Record.lasting :=
  congrArg (fun x => x.contract.record) (h.2.2.2 q)
theorem policy (h : Worked s t) : t.policy = s.policy := by
  have e := congrArg State.policy h.1
  exact e
theorem linkState (h : Worked s t) (q : Port) : t.linkState q = s.linkState q := congrArg (fun x => x.link.state) (h.2.2.2 q)
theorem flags (h : Worked s t) (q : Port) : (t.port q).flags = (s.port q).flags := congrArg (fun x => x.flags) (h.2.2.2 q)
theorem catalogue (h : Worked s t) (q : Port) : (t.port q).catalogue = (s.port q).catalogue :=
  congrArg (fun x => x.catalogue) (h.2.2.2 q)
theorem rank (h : Worked s t) (q : Port) : (t.port q).rank = (s.port q).rank := congrArg (fun x => x.rank) (h.2.2.2 q)

/-- A field of the record that the roster's work leaves alone. -/
theorem field {α : Type} (h : Worked s t) (q : Port) (f : Record → α) (hf : ∀ r, f r.lasting = f r) :
    (t.record q).map f = (s.record q).map f := by
  have e : ∀ o : Option Record, o.map f = (o.map Record.lasting).map f := by
    intro o; cases o <;> simp [hf]
  rw [e, e (s.record q), h.records q]

theorem handles (h : Worked s t) (q : Port) : (t.record q).map Record.handle = (s.record q).map Record.handle :=
  h.field q _ (fun _ => rfl)

end Worked

variable (s : State) (p : Port)

theorem setRole_worked (r : Role) : Worked s (s.setRole p r) := .port s p _ rfl

theorem requestYield_worked (r : YieldRequest) : Worked s (s.requestYield p r) := .ite (.port s p _ rfl) (.refl s)

theorem tidyWatch_worked : Worked s (s.tidyWatch p) := .ite (.refl s) (.port s p _ rfl)

theorem meetRecall_worked : Worked s (s.meetRecall p) := by
  unfold meetRecall
  split
  · exact .refl s
  · rename_i r h
    split
    · exact .refl s
    · rename_i c hc
      refine .ite ?_ (.refl s)
      refine (Worked.port s p _ ?_).trans (requestYield_worked _ p _)
      have h' : (s.port p).contract.record = some r := h
      simp [PortState.lasting, Record.lasting, h', hc]

theorem openPath_worked : Worked s (s.openPath p) := by
  unfold openPath
  split
  · exact .refl s
  · exact .port s p _ rfl
  · refine ((((Worked.port s p (fun x => { x with front := { x.front with path := .opened, closeOp := none } }) rfl).trans
      (.port _ p (fun x => { x with monitor := x.monitor.stop }) rfl)).trans (tidyWatch_worked _ p)).trans
      (meetRecall_worked _ p)).trans ?_
    exact .part (reportPath_port _ p _) (reportPath_lasting _ p _) (reportPath_lastHandle _ p _)
      (by rw [reportPath_roster]; rfl)

theorem requestClose_worked (who : Requester) (t : State) (h : s.requestClose p who = some t) : Worked s t := by
  unfold requestClose at h
  repeat' split at h
  all_goals
    simp only [Option.some.injEq, reduceCtorEq] at h
    try subst h
  · exact .port s p _ rfl
  · exact .refl s
  · exact .refl s

theorem openForRoster_worked : Worked s (s.openForRoster p) := (openPath_worked s p).trans (setRole_worked _ p _)

theorem dropUnwanted_worked : Worked s (s.dropUnwanted p) := by
  unfold dropUnwanted
  repeat' split
  all_goals first | exact .refl s | exact openForRoster_worked s p | exact setRole_worked s p _

theorem keepWanted_worked : Worked s (s.keepWanted p) := .ite (setRole_worked s p _) (.refl s)

theorem askClose_worked (skip : List Port) (a : State × List Port) (q : Port) : Worked a.1 (askClose skip a q).1 := by
  unfold askClose
  split
  · exact setRole_worked _ q _
  · split
    · rename_i t h
      exact (requestClose_worked _ q _ t h).trans (setRole_worked _ q _)
    · exact setRole_worked _ q _

theorem askIfRoom_worked (skip : List Port) (a : State × List Port) (q : Port) : Worked a.1 (askIfRoom skip a q).1 := by
  unfold askIfRoom
  split
  · exact askClose_worked skip a q
  · exact setRole_worked _ q _

theorem makeBeforeBreak_worked (skip waiting out : List Port) : Worked s (s.makeBeforeBreak skip waiting out).1 :=
  (Worked.fold₂ _ (askClose_worked skip) waiting (s, [])).trans (.fold _ (fun s q => setRole_worked s q _) out _)

theorem breakBeforeMake_worked (skip waiting out : List Port) : Worked s (s.breakBeforeMake skip waiting out).1 :=
  (Worked.fold _ openForRoster_worked out s).trans (.fold₂ _ (askIfRoom_worked skip) waiting (_, []))

theorem switchSteps_worked (skip : List Port) : Worked s (s.switchSteps skip).1 := by
  unfold switchSteps
  refine ((Worked.fold _ dropUnwanted_worked Port.all s).trans (.fold _ keepWanted_worked Port.all _)).trans ?_
  dsimp only
  repeat' split
  · exact .fold _ openForRoster_worked _ _
  · exact makeBeforeBreak_worked ..
  · exact breakBeforeMake_worked ..

theorem endSteps_worked (begun : Bool) : Worked s (s.endSteps begun) := by
  unfold endSteps
  dsimp only
  split <;> exact .part (fun _ => rfl) rfl rfl rfl

/-- The state with its intended supplying set formed anew (R118). -/
def formed : State := { s with roster := { s.roster with intended := s.formSet } }

theorem formed_worked : Worked s s.formed := .part (fun _ => rfl) rfl rfl rfl

theorem recomputePass_eq (skip : List Port) :
    s.recomputePass skip =
      ((s.formed.switchSteps skip).1.endSteps (s.roster.switchOver || !s.formed.inLine), (s.formed.switchSteps skip).2) := rfl

theorem recomputePass_worked (skip : List Port) : Worked s (s.recomputePass skip).1 := by
  rw [recomputePass_eq]
  exact ((formed_worked s).trans (switchSteps_worked _ skip)).trans (endSteps_worked _ _)

theorem recompute_worked : Worked s s.recompute := by
  unfold recompute
  dsimp only
  split
  · exact recomputePass_worked s []
  · exact (recomputePass_worked s []).trans (recomputePass_worked _ _)

theorem openRequest_worked : Worked s (s.openRequest p) :=
  .ite (.refl s) ((openPath_worked s p).trans (recompute_worked _))

end State

end Sys2Proof.Machine
end

