-- ==== Sys2Proof/Laws/RosterPaths.lean ====
section
/-! SUPPORT. Which paths a recomputation leaves alone: those of ports that are not in AUTO, OPEN ones of records that the roster does not want, and
CLOSED ones of records in the intended supplying set. -/

namespace Sys2Proof.Machine

open Sys2Proof

/-- A port without its role. -/
def PortState.noRole (t : PortState) : PortState := { t with role := .none }

/-- A port kept as it was, but that its role may have become NONE. -/
def PortState.Kept (a b : PortState) : Prop := b.noRole = a.noRole ∧ (b.role = a.role ∨ b.role = .none)

theorem PortState.Kept.refl (a : PortState) : a.Kept a := ⟨rfl, .inl rfl⟩

theorem PortState.Kept.trans {a b c : PortState} (h : a.Kept b) (g : b.Kept c) : a.Kept c := by
  refine ⟨g.1.trans h.1, ?_⟩
  obtain e | e := g.2
  · rw [e]; exact h.2
  · exact .inr e

/-- A kept port that held role NONE is the same. -/
theorem PortState.Kept.eq {a b : PortState} (h : a.Kept b) (hr : a.role = .none) : b = a := by
  have e : b.role = .none := by
    obtain e | e := h.2
    · rw [e, hr]
    · exact e
  obtain ⟨h, -⟩ := h
  cases a; cases b
  simp only [PortState.noRole, PortState.mk.injEq] at h e hr ⊢
  simp_all

namespace State

variable {s t : State} {p : Port}

/-! ## What the roster reads of the ports it works on -/

theorem Worked.portOfHandle (h : Worked s t) (x : Handle) : t.portOfHandle x = s.portOfHandle x := by
  unfold State.portOfHandle
  congr 1
  funext q
  have e := h.handles q
  cases ht : t.record q <;> cases hs : s.record q <;> simp_all

theorem Worked.eligibleSupply (h : Worked s t) (q : Port) : t.eligibleSupply q = s.eligibleSupply q := by
  have e := h.field q (fun r => (r.state, r.voltage)) (fun _ => rfl)
  unfold State.eligibleSupply State.inInputWindow
  rw [h.mode q, h.policy]
  cases ht : t.record q <;> cases hs : s.record q <;> simp_all

theorem Worked.eligibleHandle (h : Worked s t) (x : Handle) : t.eligibleHandle x = s.eligibleHandle x := by
  unfold State.eligibleHandle
  rw [h.portOfHandle x]
  split
  · exact h.eligibleSupply _
  · rfl

theorem portOfHandle_record {x : Handle} (h : s.portOfHandle x = some p) : ∃ r, s.record p = some r ∧ r.handle = x := by
  have e := List.find?_some h
  cases hr : s.record p with
  | none => simp [hr] at e
  | some r => exact ⟨r, rfl, by simpa [hr] using e⟩

/-- A port of the intended supplying set has its record in the set. -/
theorem intends_of_mem (h : p ∈ s.intendedPorts) : s.intends p = true := by
  simp only [intendedPorts, List.mem_filterMap] at h
  obtain ⟨x, hx, hp⟩ := h
  obtain ⟨r, hr, e⟩ := portOfHandle_record hp
  simp [intends, hr, e, hx]

/-- A port whose record the set just formed holds meets the conditions of R118. -/
theorem eligible_of_formed (h : p ∈ s.formed.intendedPorts) : s.eligibleSupply p = true := by
  simp only [intendedPorts, List.mem_filterMap] at h
  obtain ⟨x, hx, hp⟩ := h
  have hx' : x ∈ s.formSet := hx
  have hf : s.eligibleHandle x = true := (List.mem_filter.mp (List.mem_of_mem_take hx')).2
  have hp' : s.portOfHandle x = some p := hp
  simpa [eligibleHandle, hp'] using hf

/-! ## One recomputation's steps -/

/-- The steps of a recomputation leave the port alone, but for its role. -/
def Spared (s : State) (p : Port) : Prop :=
  (p ∉ s.intendedPorts ∧ (s.mode p ≠ .auto ∨ s.path p = .opened)) ∨ (s.intends p = true ∧ s.path p = .closed)

/-- The roster's work on other ports: the port keeps everything but its role, and the set stays as formed. -/
def Spares (p : Port) (s t : State) : Prop :=
  Worked s t ∧ t.roster.intended = s.roster.intended ∧ (s.port p).Kept (t.port p)

namespace Spares

variable {u : State}

theorem refl (p : Port) (s : State) : Spares p s s := ⟨.refl s, rfl, .refl _⟩

theorem trans (h : Spares p s t) (g : Spares p t u) : Spares p s u :=
  ⟨h.1.trans g.1, g.2.1.trans h.2.1, h.2.2.trans g.2.2⟩

theorem path (h : Spares p s t) : t.path p = s.path p := congrArg (fun x => x.front.path) h.2.2.1

theorem intendedPorts (h : Spares p s t) : t.intendedPorts = s.intendedPorts := by
  unfold State.intendedPorts
  rw [h.2.1]
  congr 1
  funext x
  exact h.1.portOfHandle x

theorem intends (h : Spares p s t) (q : Port) : t.intends q = s.intends q := by
  have e := h.1.handles q
  unfold State.intends
  rw [h.2.1]
  cases ht : t.record q <;> cases hs : s.record q <;> simp_all

theorem spared (h : Spares p s t) (hs : Spared s p) : Spared t p := by
  unfold Spared
  rw [h.intendedPorts, h.1.mode p, h.path, h.intends p]
  exact hs

theorem role (s : State) {q : Port} (h : p ≠ q) (r : Role) : Spares p s (s.setRole q r) :=
  ⟨setRole_worked s q r, rfl, by simpa [h] using PortState.Kept.refl _⟩

theorem roleNone (s : State) (p q : Port) : Spares p s (s.setRole q .none) := by
  by_cases h : p = q
  · subst h
    exact ⟨setRole_worked s p _, rfl, by simp [PortState.Kept, PortState.noRole]⟩
  · exact role s h _

theorem ofOthers (hw : Worked s t) (hi : t.roster.intended = s.roster.intended) (hp : t.port p = s.port p) : Spares p s t :=
  ⟨hw, hi, by rw [hp]; exact .refl _⟩

theorem openForRoster (s : State) {q : Port} (h : p ≠ q) : Spares p s (s.openForRoster q) :=
  (ofOthers (openPath_worked s q) (by rw [openPath_roster]) (openPath_others s q h)).trans (role _ h _)

theorem dropUnwanted (hs : Spared s p) (q : Port) : Spares p s (s.dropUnwanted q) := by
  unfold State.dropUnwanted
  split
  · rename_i hq
    simp only [Bool.and_eq_true, decide_eq_true_eq, Bool.not_eq_true'] at hq
    by_cases h : p = q
    · subst h
      obtain ⟨-, hm | ho⟩ | ⟨hi, -⟩ := hs
      · exact absurd hq.1 hm
      · rw [ho]; exact roleNone s p p
      · simp [hq.2] at hi
    · split
      · exact openForRoster s h
      · split
        · exact refl p s
        · exact openForRoster s h
      · exact role s h _
  · exact refl p s

theorem keepWanted (s : State) (p q : Port) : Spares p s (s.keepWanted q) := by
  unfold State.keepWanted
  split
  · exact roleNone s p q
  · exact refl p s

theorem askClose (skip : List Port) (a : State × List Port) {q : Port} (h : p ≠ q) : Spares p a.1 (askClose skip a q).1 := by
  unfold State.askClose
  split
  · exact role _ h _
  · split
    · rename_i t ht
      refine (ofOthers (requestClose_worked _ q _ t ht) ?_ ?_).trans (role _ h _)
      all_goals
        unfold requestClose at ht
        repeat' split at ht
        all_goals
          simp only [Option.some.injEq, reduceCtorEq] at ht
          try subst ht
          try simp [h]
    · exact role _ h _

theorem askIfRoom (skip : List Port) (a : State × List Port) {q : Port} (h : p ≠ q) : Spares p a.1 (askIfRoom skip a q).1 := by
  unfold State.askIfRoom
  split
  · exact askClose skip a h
  · exact role _ h _

/-- A fold over ports other than p. -/
theorem fold (f : State → Port → State) (h : ∀ s q, p ≠ q → Spares p s (f s q)) (l : List Port) (hl : p ∉ l) (s : State) :
    Spares p s (l.foldl f s) := by
  induction l generalizing s with
  | nil => exact refl p s
  | cons q l ih =>
    simp only [List.mem_cons, not_or] at hl
    exact (h s q hl.1).trans (ih hl.2 _)

theorem fold₂ {β : Type} (f : State × β → Port → State × β) (h : ∀ a q, p ≠ q → Spares p a.1 (f a q).1) (l : List Port)
    (hl : p ∉ l) (a : State × β) : Spares p a.1 (l.foldl f a).1 := by
  induction l generalizing a with
  | nil => exact refl p _
  | cons q l ih =>
    simp only [List.mem_cons, not_or] at hl
    exact (h a q hl.1).trans (ih hl.2 _)

theorem dropAll (l : List Port) (s : State) (hs : Spared s p) : Spares p s (l.foldl State.dropUnwanted s) := by
  induction l generalizing s with
  | nil => exact refl p s
  | cons q l ih => exact (dropUnwanted hs q).trans (ih _ ((dropUnwanted hs q).spared hs))

theorem keepAll (l : List Port) (s : State) : Spares p s (l.foldl State.keepWanted s) := by
  induction l generalizing s with
  | nil => exact refl p s
  | cons q l ih => exact (keepWanted s p q).trans (ih _)

theorem makeBeforeBreak (s : State) (skip : List Port) {waiting : List Port} (out : List Port) (hw : p ∉ waiting) (ho : p ∉ out) :
    Spares p s (s.makeBeforeBreak skip waiting out).1 :=
  (fold₂ _ (fun a _ h => askClose skip a h) waiting hw (s, [])).trans (fold _ (fun s _ h => role s h _) out ho _)

theorem breakBeforeMake (s : State) (skip : List Port) {waiting : List Port} (out : List Port) (hw : p ∉ waiting) (ho : p ∉ out) :
    Spares p s (s.breakBeforeMake skip waiting out).1 :=
  (fold _ (fun s _ h => openForRoster s h) out ho s).trans (fold₂ _ (fun a _ h => askIfRoom skip a h) waiting hw (_, []))

theorem switchSteps (hs : Spared s p) (skip : List Port) : Spares p s (s.switchSteps skip).1 := by
  have h1 : Spares p s (Port.all.foldl State.dropUnwanted s) := dropAll _ s hs
  have h2 := h1.trans (keepAll Port.all (Port.all.foldl State.dropUnwanted s))
  have hs1 := h1.spared hs
  have hs2 := h2.spared hs
  have hout : p ∉ Port.all.filter (Port.all.foldl State.dropUnwanted s).outgoing := by
    intro hm
    have hm := (List.mem_filter.mp hm).2
    simp only [State.outgoing, Bool.and_eq_true, decide_eq_true_eq, Bool.not_eq_true'] at hm
    obtain ⟨-, ha | ho⟩ | ⟨hi, -⟩ := hs1
    · exact ha hm.1.1
    · simp [ho] at hm
    · simp [hi] at hm
  have hwait : p ∉ (Port.all.foldl State.keepWanted (Port.all.foldl State.dropUnwanted s)).intendedPorts.filter
      (Port.all.foldl State.keepWanted (Port.all.foldl State.dropUnwanted s)).pendingClose := by
    intro hm
    have hm := List.mem_filter.mp hm
    obtain ⟨hn, -⟩ | ⟨-, hc⟩ := hs2
    · exact hn hm.1
    · simp [State.pendingClose, hc] at hm
  unfold State.switchSteps
  refine h2.trans ?_
  dsimp only
  split
  · exact fold _ (fun s _ h => openForRoster s h) _ hout _
  · split
    · exact makeBeforeBreak _ skip _ hwait hout
    · exact breakBeforeMake _ skip _ hwait hout

end Spares

/-! ## One recomputation -/

theorem endSteps_port (s : State) (b : Bool) (q : Port) : (s.endSteps b).port q = s.port q := by
  unfold endSteps
  dsimp only
  split <;> rfl

theorem recomputePass_spared (skip : List Port) (h : Spared s.formed p) :
    (s.port p).Kept ((s.recomputePass skip).1.port p) := by
  rw [recomputePass_eq, endSteps_port]
  exact (Spares.switchSteps h skip).2.2

/-- A port that the roster has no say on: it is not in AUTO, or its path is OPEN and its record not eligible by R118. -/
def Aside (s : State) (p : Port) : Prop := s.mode p ≠ .auto ∨ (s.eligibleSupply p = false ∧ s.path p = .opened)

theorem Aside.spared (h : Aside s p) : Spared s.formed p := by
  refine .inl ⟨fun hm => ?_, ?_⟩
  · have he := eligible_of_formed hm
    obtain hm | ⟨hf, -⟩ := h
    · cases hr : s.record p with
      | none => simp [eligibleSupply, hr] at he
      | some r => simp [eligibleSupply, hr, hm] at he
    · simp [he] at hf
  · obtain hm | ⟨-, ho⟩ := h
    · exact .inl hm
    · exact .inr ho

theorem Aside.pass (h : Aside s p) (skip : List Port) : Aside (s.recomputePass skip).1 p := by
  have hw := recomputePass_worked s skip
  have hp := recomputePass_spared skip h.spared
  obtain hm | ⟨he, ho⟩ := h
  · exact .inl (by rw [hw.mode p]; exact hm)
  · refine .inr ⟨by rw [hw.eligibleSupply p]; exact he, ?_⟩
    have e : (s.recomputePass skip).1.path p = s.path p := congrArg (fun x => x.front.path) hp.1
    rw [e, ho]

/-- A recomputation leaves a port on which the roster has no say as it was, but for its role. -/
theorem recompute_aside (h : Aside s p) : (s.port p).Kept (s.recompute.port p) := by
  unfold recompute
  dsimp only
  split
  · exact recomputePass_spared [] h.spared
  · exact (recomputePass_spared [] h.spared).trans (recomputePass_spared _ (h.pass []).spared)

/-- A port whose path is OPEN and whose record is not on the roster. -/
def Unlisted (s : State) (p : Port) : Prop := s.path p = .opened ∧ ∀ r, s.record p = some r → r.handle ∉ s.roster.list

theorem Unlisted.spared (h : Unlisted s p) : Spared s.formed p := by
  refine .inl ⟨fun hm => ?_, .inr h.1⟩
  simp only [intendedPorts, List.mem_filterMap] at hm
  obtain ⟨x, hx, hp⟩ := hm
  have hx' : x ∈ s.formSet := hx
  obtain ⟨r, hr, e⟩ := portOfHandle_record hp
  have hl := (List.mem_filter.mp (List.mem_of_mem_take hx')).1
  exact h.2 r hr (by rw [e]; exact hl)

theorem Unlisted.pass (h : Unlisted s p) (skip : List Port) : Unlisted (s.recomputePass skip).1 p := by
  have hw := recomputePass_worked s skip
  have hp := recomputePass_spared skip h.spared
  refine ⟨(congrArg (fun x => x.front.path) hp.1).trans h.1, fun r hr => ?_⟩
  have e : (s.recomputePass skip).1.record p = s.record p := congrArg (fun x => x.contract.record) hp.1
  rw [hw.2.2.1]
  exact h.2 r (by rw [← e]; exact hr)

/-- A recomputation leaves a port whose record is not on the roster as it was, but for its role. -/
theorem recompute_unlisted (h : Unlisted s p) : (s.port p).Kept (s.recompute.port p) := by
  unfold recompute
  dsimp only
  split
  · exact recomputePass_spared [] h.spared
  · exact (recomputePass_spared [] h.spared).trans (recomputePass_spared _ (h.pass []).spared)

theorem directHeld_congr (hm : ∀ q, t.mode q = s.mode q) (hp : ∀ q, s.mode q = .direct → t.path q = s.path q) :
    t.directHeld = s.directHeld := by
  unfold directHeld
  apply List.countP_congr
  intro q _
  rw [hm q]
  by_cases hd : s.mode q = .direct
  · simp [hd, hp q hd]
  · simp [hd]

/-- A recomputation's set is the one that a second recomputation forms. -/
theorem formSet_pass (s : State) (skip : List Port) : (s.recomputePass skip).1.formSet = s.formSet := by
  have hw := recomputePass_worked s skip
  have hd : (s.recomputePass skip).1.directHeld = s.directHeld := by
    refine directHeld_congr hw.mode (fun q hq => ?_)
    have ha : Aside s q := .inl (by rw [hq]; decide)
    have e := recomputePass_spared skip ha.spared
    exact congrArg (fun x => x.front.path) e.1
  unfold formSet allowed
  rw [hw.2.2.1, hd, hw.policy]
  congr 2
  funext x
  exact hw.eligibleHandle x

/-- The record of the port is in the set that a recomputation forms. -/
def Chosen (s : State) (p : Port) : Prop := ∃ r, s.record p = some r ∧ r.handle ∈ s.formSet

theorem Chosen.pass (h : Chosen s p) (skip : List Port) : Chosen (s.recomputePass skip).1 p := by
  obtain ⟨r, hr, hm⟩ := h
  have e := (recomputePass_worked s skip).handles p
  rw [hr] at e
  cases ht : (s.recomputePass skip).1.record p with
  | none => simp [ht] at e
  | some r' =>
    refine ⟨r', ht, ?_⟩
    rw [formSet_pass]
    simp only [ht, Option.map_some, Option.some.injEq] at e
    rw [e]
    exact hm

theorem Chosen.spared (h : Chosen s p) (hc : s.path p = .closed) : Spared s.formed p := by
  obtain ⟨r, hr, hm⟩ := h
  refine .inr ⟨?_, hc⟩
  have hr' : s.formed.record p = some r := hr
  have hm' : r.handle ∈ s.formed.roster.intended := hm
  simp [intends, hr', hm']

/-- A recomputation leaves a CLOSED path of the set it forms as it was, but for the port's role. -/
theorem recompute_chosen (h : Chosen s p) (hc : s.path p = .closed) :
    (s.port p).Kept (s.recompute.port p) := by
  unfold recompute
  dsimp only
  have e := recomputePass_spared [] (h.spared hc)
  have ec : (s.recomputePass []).1.path p = .closed := (congrArg (fun x => x.front.path) e.1).trans hc
  split
  · exact e
  · exact e.trans (recomputePass_spared _ ((h.pass []).spared ec))

end State

end Sys2Proof.Machine
end

