-- ==== Sys2Proof/Laws/Retire.lean ====
section
/-! SUPPORT. The spec of a retirement: everything that retiring a port's record does, said once. -/

namespace Sys2Proof.Machine

open Sys2Proof

namespace State

variable (s : State) (p : Port)

/-! ## A field of a port through the small operations -/

theorem port_modPort_field {α : Type} (f : PortState → PortState) (g : PortState → α) (h : ∀ x, g (f x) = g x) (q : Port) :
    g ((s.modPort p f).port q) = g (s.port q) := by
  by_cases hq : q = p
  · subst hq; rw [port_modPort_self, h]
  · rw [port_modPort_ne _ _ _ hq]

theorem requestYield_field {α : Type} (r : YieldRequest) (g : PortState → α)
    (h : ∀ x y, g { x with link := { x.link with slot := { x.link.slot with yield := y } } } = g x) (q : Port) :
    g ((s.requestYield p r).port q) = g (s.port q) := by
  unfold requestYield
  split
  · exact port_modPort_field s p _ g (fun x => h x _) q
  · rfl

theorem tidyWatch_field {α : Type} (g : PortState → α)
    (h : ∀ x, g { x with watch := { x.watch with window := none } } = g x) (q : Port) :
    g ((s.tidyWatch p).port q) = g (s.port q) := by
  unfold tidyWatch
  split
  · rfl
  · exact port_modPort_field s p _ g h q

theorem meetRecall_field {α : Type} (g : PortState → α)
    (h : ∀ x y, g { x with link := { x.link with slot := { x.link.slot with yield := y } } } = g x)
    (h' : ∀ x r, g { x with contract := { x.contract with record := r } } = g x) (q : Port) :
    g ((s.meetRecall p).port q) = g (s.port q) := by
  unfold meetRecall
  split
  · rfl
  · split
    · rfl
    · split
      · rw [requestYield_field _ p _ g h]
        exact port_modPort_field s p _ g (fun x => h' x _) q
      · rfl

/-! ## Opening the port's own path -/

/-- The front-end, the monitor and the trim that leaving CLOSED leaves. -/
theorem openPath_closed (h : s.path p = .closed) :
    ((s.openPath p).port p).front = { (s.port p).front with path := .opened, closeOp := none } ∧
    ((s.openPath p).port p).monitor = (s.port p).monitor.stop := by
  unfold openPath
  simp only [h, reportPath_port]
  constructor
  · rw [meetRecall_field _ p PortState.front (fun _ _ => rfl) (fun _ _ => rfl),
      tidyWatch_field _ p PortState.front (fun _ => rfl)]
    simp
  · rw [meetRecall_field _ p PortState.monitor (fun _ _ => rfl) (fun _ _ => rfl),
      tidyWatch_field _ p PortState.monitor (fun _ => rfl)]
    simp

theorem openPath_closing (h : s.path p = .closing) :
    s.openPath p = s.modPort p (fun t => { t with front := { t.front with path := .opened, closeOp := none } }) := by
  simp only [openPath, h]; rfl

@[simp] theorem openPath_path : (s.openPath p).path p = .opened := by
  cases h : s.path p with
  | opened => simp only [openPath, h]
  | closing => simp [s.openPath_closing p h, path]
  | closed => simp [path, (s.openPath_closed p h).1]

theorem openPath_closeOp (h : s.path p ≠ .opened) : ((s.openPath p).port p).front.closeOp = none := by
  cases h' : s.path p with
  | opened => exact absurd h' h
  | closing => simp [s.openPath_closing p h']
  | closed => simp [(s.openPath_closed p h').1]

/-- The record's handle through an open. -/
theorem openPath_handle (r : Record) (h : s.record p = some r) : ∃ r', (s.openPath p).record p = some r' ∧ r'.lasting = r.lasting := by
  have e := (openPath_worked s p).records p
  rw [h] at e
  cases hr : (s.openPath p).record p with
  | none => simp [hr] at e
  | some r' => exact ⟨r', rfl, by simpa [hr] using e⟩

/-! ## The parts of a retirement -/

/-- The link states that R34 calls usable. -/
def usableState : LinkState → Bool
  | .quiet | .mute => false
  | .opening | .ready | .exchange | .resync => true

theorem linkUsable_eq : s.linkUsable p = usableState (s.linkState p) := rfl

theorem endExchange_usable (l : Link) : usableState l.endExchange.state = usableState l.state := by
  unfold Link.endExchange
  dsimp only
  split
  · rename_i h; rw [h]; rfl
  · rfl

theorem abandon_usable (l : Link) (h : Handle) (c : Cause) : usableState (l.abandon h c).state = usableState l.state := by
  unfold Link.abandon
  repeat' split
  · exact endExchange_usable l
  · rfl
  · rfl

/-- The link as steps 2 to 4 of R83 leave it, whatever YIELD waited. -/
theorem releaseLink_eq (r : Record) (c : Cause) (g : Bool) :
    s.releaseLink p r c g = s.modPort p (fun t => { t with link := t.link.retired (s.linkUsable p) r c g }) := by
  have hu : ((s.modLink p (fun l => l.abandon r.handle c)).modSlot p (fun q => q.withdraw r.handle)).linkUsable p =
      s.linkUsable p := by
    rw [linkUsable_eq, linkUsable_eq]
    simp only [linkState, modLink_eq, modSlot_eq, port_modPort_self]
    exact abandon_usable _ _ _
  unfold releaseLink requestRelease Link.retired
  dsimp only
  rw [hu]
  by_cases hl : s.linkUsable p = true <;>
  by_cases hc : r.state ≠ .bidding ∨ (s.port p).link.serves r.handle = true ∨ g = true
  · have hb : (r.state != .bidding || (s.port p).link.serves r.handle || g) = true := by simpa [or_assoc] using hc
    rw [if_pos hc, if_pos hl]
    simp only [modLink_eq, modSlot_eq, modPort_modPort]
    apply modPort_congr
    simp [hl, hb]
  · have hb : (r.state != .bidding || (s.port p).link.serves r.handle || g) = false := by simpa [not_or, and_assoc] using hc
    rw [if_neg hc]
    simp only [modLink_eq, modSlot_eq, modPort_modPort]
    apply modPort_congr
    simp [hl, hb]
  · rw [if_pos hc, if_neg hl]
    simp only [modLink_eq, modSlot_eq, modPort_modPort]
    apply modPort_congr
    simp [hl]
  · rw [if_neg hc]
    simp only [modLink_eq, modSlot_eq, modPort_modPort]
    apply modPort_congr
    simp [hl]

/-- Step 5 of R83 on a port whose path is OPEN: the port takes role NONE and is otherwise left alone, and its record's handle is off the
roster. -/
theorem rosterRemove_spec (r : Record) (hr : s.record p = some r) (ho : s.path p = .opened) :
    (s.rosterRemove p r.handle).lasting = s.lasting ∧ (s.rosterRemove p r.handle).lastHandle = s.lastHandle ∧
    (∀ q, ((s.rosterRemove p r.handle).port q).lasting = (s.port q).lasting) ∧
    (s.rosterRemove p r.handle).port p = { s.port p with role := .none } ∧
    r.handle ∉ (s.rosterRemove p r.handle).roster.list := by
  unfold rosterRemove
  dsimp only
  have hq : ∀ q, ((s.setRole p .none).port q).lasting = (s.port q).lasting := (setRole_worked s p .none).2.2.2
  split
  · generalize hu : (s.setRole p .none).setRoster ((s.setRole p .none).roster.list.filter (fun e => e ≠ r.handle)) = u
    have hlist : u.roster.list = s.roster.list.filter (fun e => e ≠ r.handle) := by
      subst hu; unfold setRoster; dsimp only; split <;> rfl
    have hport : ∀ q, u.port q = (s.setRole p .none).port q := by
      intro q; subst hu; unfold setRoster; dsimp only; split <;> rfl
    have hlast : u.lasting = s.lasting := by subst hu; unfold setRoster; dsimp only; split <;> rfl
    have hh : u.lastHandle = s.lastHandle := by subst hu; unfold setRoster; dsimp only; split <;> rfl
    have hself : u.port p = { s.port p with role := .none } := by rw [hport]; simp
    have hun : Unlisted u p := by
      refine ⟨?_, fun r' h' => ?_⟩
      · unfold path at ho ⊢; rw [hself]; exact ho
      · have e : u.record p = s.record p := by unfold record; rw [hself]
        rw [e, hr] at h'
        cases h'
        simp [hlist]
    have hw := recompute_worked u
    refine ⟨hw.1.trans hlast, hw.2.1.trans hh, fun q => (hw.2.2.2 q).trans (by rw [hport]; exact hq q), ?_, ?_⟩
    · rw [(recompute_unlisted hun).eq (by rw [hself]), hself]
    · rw [hw.2.2.1, hlist]; simp
  · rename_i hl
    exact ⟨rfl, rfl, hq, by simp, by simpa using hl⟩

/-- A link without its waiting YIELD. -/
def noYield (l : Link) : Link := { l with slot := { l.slot with yield := none } }

theorem retired_noYield {l l' : Link} (h : noYield l' = noYield l) (u : Bool) (r : Record) (c : Cause) (g : Bool) :
    noYield (l'.retired u r c g) = noYield (l.retired u r c g) := by
  obtain ⟨a, e, t, ⟨q1, q2, q3, q4, q5⟩, m, b, d, k, n, v⟩ := l
  obtain ⟨a', e', t', ⟨q1', q2', q3', q4', q5'⟩, m', b', d', k', n', v'⟩ := l'
  simp only [noYield, Link.mk.injEq, RequestSlot.mk.injEq] at h
  obtain ⟨rfl, rfl, rfl, ⟨rfl, -, rfl, rfl, rfl⟩, rfl, rfl, rfl, rfl, rfl, rfl⟩ := h
  unfold Link.retired Link.abandon Link.serves
  dsimp only
  cases e' with
  | none => dsimp only; split <;> rfl
  | some x =>
    dsimp only
    split <;> split <;> rfl

theorem retired_yield (l : Link) (u : Bool) (r : Record) (c : Cause) (g : Bool) :
    (l.retired u r c g).slot.yield.all (fun y => y.handle ≠ r.handle) = true := by
  unfold Link.retired
  dsimp only
  split <;>
  · simp only [RequestSlot.putRelease, RequestSlot.withdraw]
    cases (l.abandon r.handle c).slot.yield with
    | none => rfl
    | some y => by_cases h : y.handle = r.handle <;> simp [Option.filter, h]

/-- A port whose slot and flags take given values. -/
def withSlot (s : State) (p : Port) (k : ContractSlot) (fl : Word) : State := s.modPort p (fun t => { t with contract := k, flags := fl })

theorem withSlot_self (s : State) (p : Port) {k : ContractSlot} {fl : Word} (hk : k = (s.port p).contract)
    (hf : fl = (s.port p).flags) : s.withSlot p k fl = s := modPort_id s p (by subst hk hf; rfl)

@[simp] theorem withSlot_contract (s : State) (p : Port) (k : ContractSlot) (fl : Word) :
    ((s.withSlot p k fl).port p).contract = k := by simp [withSlot]

theorem withSlot_hold (s : State) (p : Port) (k : ContractSlot) (fl : Word) :
    (s.withSlot p k fl).modContract p (fun c => { c with hold := true }) = s.withSlot p { k with hold := true } fl := by
  simp only [withSlot, modContract_eq, modPort_modPort]

theorem countFailure_eq (s : State) (p : Port) :
    s.countFailure p = s.withSlot p
      { (s.port p).contract with
        attempts := min 3 ((s.port p).contract.attempts + 1), holdoff := some (s.ahead 1000)
        hold := (s.port p).contract.hold || min 3 ((s.port p).contract.attempts + 1) = 3 }
      ((s.port p).flags ||| (if 2 ≤ (s.port p).contract.attempts then oneBit PortFlag.bidExhausted.bit else 0)) := by
  unfold countFailure withSlot
  dsimp only
  have e : (min 3 ((s.port p).contract.attempts + 1) = 3) ↔ 2 ≤ (s.port p).contract.attempts := by omega
  by_cases h : 2 ≤ (s.port p).contract.attempts
  · rw [if_pos (e.mpr h)]
    simp only [modContract_eq, setFlag_eq, modPort_modPort]
    apply modPort_congr
    simp [h]
  · rw [if_neg (fun x => h (e.mp x))]
    simp only [modContract_eq]
    apply modPort_congr
    simp [h]

/-- What rebidDecision does to a slot. -/
theorem rebidDecision_withSlot (s : State) (p : Port) (k : ContractSlot) (fl : Word) (c : Cause) (failed later : Bool) :
    (s.withSlot p k fl).rebidDecision p failed c later =
      (s.withSlot p { k with hold := k.hold || (holdsPort k.rebidCauses c later && (decide (c = .hostRetire) || !(failed && k.attempts = 3))) } fl,
        (match c with
          | .hostRetire | .mode | .detached => false
          | .declined | .noReply | .settleFail | .lapsed | .supplyLost | .partnerFault =>
            !failed && !(decide (c = .declined) && later) && inCauses k.rebidCauses c)) := by
  obtain ⟨kr, kl, ka, kd, kh, kc⟩ := k
  cases c <;> unfold rebidDecision <;> dsimp only <;> (try simp only [withSlot_contract, withSlot_hold]) <;>
    cases failed <;> cases later <;> cases kh <;> simp [holdsPort] <;> (repeat' split) <;> (try simp_all)

/-- What countFailure and rebidDecision do to the port. -/
theorem decision_spec (s : State) (p : Port) (r : Record) (c : Cause) (later : Bool) (hl : later = true → failsBid r c = true)
    (k : ContractSlot) (hk : (s.port p).contract = { k with record := none, lastRetirement := some ⟨r.handle, c, s.tick⟩ })
    (fl : Word) (hf : (s.port p).flags = fl ||| oneBit PortFlag.retired.bit) :
    (if failsBid r c then s.countFailure p else s).rebidDecision p (failsBid r c) c later =
      (s.withSlot p (k.retired r c later s.tick (s.ahead 1000)) (fl ||| oneBit PortFlag.retired.bit |||
        (if failsBid r c && 2 ≤ k.attempts then oneBit PortFlag.bidExhausted.bit else 0)), asksAgain k.rebidCauses r c) := by
  cases hb : failsBid r c with
  | false =>
    have hlater : later = false := by cases later <;> simp_all
    subst hlater
    rw [if_neg (by simp), ← withSlot_self s p hk.symm hf.symm, rebidDecision_withSlot]
    cases c <;> simp [ContractSlot.retired, asksAgain, holdsPort, hb, withSlot]
  | true =>
    have hc : c = .declined ∨ c = .noReply ∨ c = .settleFail := by
      unfold failsBid at hb
      cases c <;> simp_all
    rw [if_pos rfl, countFailure_eq, rebidDecision_withSlot, hk, hf]
    obtain rfl | rfl | rfl := hc <;> cases later <;>
    · simp only [ContractSlot.retired, asksAgain, holdsPort, hb, Bool.not_true, Bool.false_and, Bool.true_and]
      refine Prod.ext ?_ rfl
      simp only [withSlot]
      apply modPort_congr
      by_cases h2 : 2 ≤ k.attempts <;> simp [h2]

/-- Everything that retiring a port's record does, but for the asking that may follow. -/
theorem retireCore_spec (r : Record) (c : Cause) (g later : Bool) (hr : s.record p = some r) (hl : later = true → failsBid r c = true) :
    s.RetiredAt (s.retireCore p c g later).1 p r c g later ∧
      (s.retireCore p c g later).2 = asksAgain (s.port p).contract.rebidCauses r c := by
  obtain ⟨r₁, hr₁, hrl⟩ := s.openPath_handle p r hr
  have hh : r₁.handle = r.handle := by
    have e := congrArg Record.handle hrl
    exact e
  have hw := openPath_worked s p
  have hwp := hw.2.2.2 p
  have hop := s.openPath_path p
  have hoc := s.openPath_closeOp p
  have hol : usableState ((s.openPath p).linkState p) = usableState (s.linkState p) := by rw [hw.linkState p]
  have hcore : s.retireCore p c g later =
      (if failsBid r c then
        (((((s.openPath p).releaseLink p r c g).rosterRemove p r.handle).emptySlot p r c).setFlag p .retired).countFailure p
       else (((((s.openPath p).releaseLink p r c g).rosterRemove p r.handle).emptySlot p r c).setFlag p .retired)).rebidDecision p
        (failsBid r c) c later := by
    unfold retireCore
    simp only [hr]
  generalize s.openPath p = o at *
  generalize hu : o.releaseLink p r c g = u at *
  rw [releaseLink_eq] at hu
  have hup : u.port p = { o.port p with link := (o.port p).link.retired (o.linkUsable p) r c g } := by subst hu; simp
  have huq : ∀ q, q ≠ p → u.port q = o.port q := by
    intro q hq; subst hu; simp [hq]
  have hul : u.lasting = o.lasting ∧ u.lastHandle = o.lastHandle := by subst hu; exact ⟨rfl, rfl⟩
  have hur : u.record p = some r₁ := by unfold record at hr₁ ⊢; rw [hup]; exact hr₁
  have huo : u.path p = .opened := by unfold path at hop ⊢; rw [hup]; exact hop
  have hrm := u.rosterRemove_spec p r₁ hur huo
  rw [hh] at hrm
  generalize u.rosterRemove p r.handle = v at *
  obtain ⟨hvl, hvh, hvq, hvp, hvr⟩ := hrm
  generalize hx : (v.emptySlot p r c).setFlag p .retired = x at *
  have hvt : v.time = s.time := by
    have e := congrArg State.time (hvl.trans (hul.1.trans hw.1))
    exact e
  have hxt : x.tick = s.tick := by subst hx; exact congrArg tickOf hvt
  have hxa : x.ahead 1000 = s.ahead 1000 := by unfold ahead; rw [hxt]
  have hxp : x.port p = { v.port p with
      contract := { (v.port p).contract with record := none, lastRetirement := some ⟨r.handle, c, s.tick⟩ }
      monitor := { (v.port p).monitor with burstArmed := false }
      flags := (v.port p).flags ||| oneBit PortFlag.retired.bit } := by
    subst hx
    have e : v.tick = s.tick := congrArg tickOf hvt
    simp [emptySlot, e]
  have hkv : { (v.port p).contract with record := none, lastRetirement := some (⟨r.handle, c, s.tick⟩ : Retirement) } =
      { (s.port p).contract with record := none, lastRetirement := some ⟨r.handle, c, s.tick⟩ } := by
    rw [hvp, hup]
    have e := congrArg (fun t : PortState =>
      { t.contract with record := none, lastRetirement := some (⟨r.handle, c, s.tick⟩ : Retirement) }) hwp
    exact e
  have hd := decision_spec x p r c later hl (s.port p).contract (by rw [hxp, hxt]; exact hkv) (s.port p).flags (by
    rw [hxp, hvp, hup]
    have e := congrArg PortState.flags hwp
    have e : (o.port p).flags = (s.port p).flags := e
    simp [e])
  rw [hcore, hd]
  have hfl : (s.port p).flags ||| oneBit PortFlag.retired.bit |||
    (if failsBid r c && 2 ≤ (s.port p).contract.attempts then oneBit PortFlag.bidExhausted.bit else 0) =
      (s.port p).flagsRetired r c := rfl
  rw [hfl]
  generalize hfl' : (s.port p).flagsRetired r c = fl at *
  rw [hxt, hxa]
  have hyp : ∀ k : ContractSlot, (x.withSlot p k fl).port p = { x.port p with contract := k, flags := fl } := by
    intro k; simp [withSlot]
  have hyq : ∀ (k : ContractSlot) q, q ≠ p → (x.withSlot p k fl).port q = v.port q := by
    intro k q hq; subst hx; simp [withSlot, hq, emptySlot]
  refine ⟨⟨⟨?_, ?_⟩, ?_, ?_, ?_, ?_, ?_, ?_, ?_, ?_⟩, rfl⟩
  · have e : x.lasting = v.lasting := by subst hx; rfl
    exact e.trans (hvl.trans (hul.1.trans hw.1))
  · intro q hq
    show ((x.withSlot p _ fl).port q).lasting = _
    rw [hyq _ q hq, hvq q, huq q hq, hw.2.2.2 q]
  · have e : x.lastHandle = v.lastHandle := by subst hx; rfl
    exact e.trans (hvh.trans (hul.2.trans hw.2.1))
  · show ((x.withSlot p _ fl).port p).lasting = _
    rw [hyp, hxp, hvp, hup]
    have hus : o.linkUsable p = s.linkUsable p := hol
    rw [hus]
    simp only [PortState.lasting, PortState.mk.injEq] at hwp ⊢
    obtain ⟨h1, h2, h3, h4, h5, h6, h7, h8, h9, h10, h11⟩ := hwp
    refine ⟨h1, ?_, h3, trivial, ?_, h6, h7, trivial, hfl'.symm, h10, h11⟩
    · exact retired_noYield (l := (s.port p).link) (l' := (o.port p).link) h2 (s.linkUsable p) r c g
    · simpa using h5
  · show ((x.withSlot p _ fl).port p).front.path = _
    rw [hyp, hxp, hvp, hup]
    exact hop
  · intro hn
    show ((x.withSlot p _ fl).port p).front.closeOp = _
    rw [hyp, hxp, hvp, hup]
    exact hoc hn
  · show ((x.withSlot p _ fl).port p).role = _
    rw [hyp, hxp, hvp]
  · have e : (x.withSlot p ((s.port p).contract.retired r c later s.tick (s.ahead 1000)) fl).roster = v.roster := by subst hx; rfl
    show _ ∉ (x.withSlot p _ fl).roster.list
    rw [e]
    exact hvr
  · show ((x.withSlot p _ fl).port p).monitor.burstArmed = _
    rw [hyp, hxp]
  · show ((x.withSlot p _ fl).port p).link.slot.yield.all _ = _
    rw [hyp, hxp, hvp, hup]
    exact retired_yield _ _ _ _ _

end State

end Sys2Proof.Machine
end

