-- ==== Sys2Proof/Laws/MovesContracts.lean ====
section
/-! SUPPORT. The operations of the contract table, of leases, recalls and enforcement as chains of moves. -/

namespace Sys2Proof.Machine

open Sys2Proof

namespace State

variable (s : State) (p : Port)

/-! ## Retirement -/

theorem countFailure_moves : Moves p s (s.countFailure p) :=
  (Moves.history s _ (by rfl)).trans (.ite ((Moves.history _ _ (by rfl)).trans (.flag _ _)) (.refl p _))

theorem rebidDecision_moves (failed : Bool) (cause : Cause) (later : Bool) :
    Moves p s (s.rebidDecision p failed cause later).1 := by
  unfold rebidDecision
  dsimp only
  repeat' split
  all_goals first | exact .refl p s | exact .history s (fun c => { c with hold := true }) rfl

theorem releaseLink_moves (r : Record) (cause : Cause) (granted : Bool) : Moves p s (s.releaseLink p r cause granted) :=
  ((Moves.link s _).trans (.slot _ _)).trans (.ite (requestRelease_moves _ p _) (.refl p _))

theorem emptySlot_moves (r : Record) (cause : Cause) (h : s.path p = .opened) : Moves p s (s.emptySlot p r cause) := by
  have e : s.emptySlot p r cause =
      ((s.setRecord p none).modContract p (fun c => { c with lastRetirement := some ⟨r.handle, cause, s.tick⟩ })).modMonitor p
        (fun m => { m with burstArmed := false }) := by
    simp only [emptySlot, setRecord_eq, modContract_eq, modMonitor_eq, modPort_modPort]
  rw [e]
  exact ((Moves.clear h).trans (.history _ (fun c => { c with lastRetirement := some ⟨r.handle, cause, s.tick⟩ }) rfl)).trans
    (.monitor _ _)

theorem retireCore_moves (cause : Cause) (granted later : Bool) : Moves p s (s.retireCore p cause granted later).1 := by
  unfold retireCore
  split
  · exact .refl p s
  · rename_i r h
    dsimp only
    refine ((((((openPath_moves s p p).trans (releaseLink_moves _ p r cause granted)).trans (rosterRemove_moves _ p r.handle)).trans
      (emptySlot_moves _ p r cause ?_)).trans (.flag _ _)).trans (.ite (countFailure_moves _ p) (.refl p _))).trans
      (rebidDecision_moves _ p _ _ _)
    obtain ⟨r₁, hr₁, hrl⟩ := s.openPath_handle p r h
    have hh : r₁.handle = r.handle := by
      have e := congrArg Record.handle hrl
      exact e
    have ho := s.openPath_path p
    generalize hu : (s.openPath p).releaseLink p r cause granted = u
    rw [releaseLink_eq] at hu
    have hup : u.port p =
        { (s.openPath p).port p with
          link := ((s.openPath p).port p).link.retired ((s.openPath p).linkUsable p) r cause granted } := by subst hu; simp
    have hur : u.record p = some r₁ := by unfold record at hr₁ ⊢; rw [hup]; exact hr₁
    have huo : u.path p = .opened := by unfold path at ho ⊢; rw [hup]; exact ho
    have hs := (u.rosterRemove_spec p r₁ hur huo).2.2.2.1
    rw [hh] at hs
    unfold path at huo ⊢
    rw [hs]
    exact huo

theorem record_none_of_retired (cause : Cause) (granted later : Bool) (h : later = true → ∀ r, s.record p = some r → failsBid r cause = true) :
    (s.retireCore p cause granted later).1.record p = none := by
  cases hr : s.record p with
  | none => unfold retireCore; simp only [hr]
  | some r =>
    have hs := (s.retireCore_spec p r cause granted later hr (fun e => h e r hr)).1.2.2.1
    have e := congrArg (fun t : PortState => t.contract.record) hs
    have e : ((s.retireCore p cause granted later).1.record p).map Record.lasting = none := e
    simpa using e

/-! ## Fresh bids -/

theorem localBid_moves (current : Nat) (h : s.record p = none) : Moves p s (s.localBid p current) := by
  unfold localBid
  dsimp only
  refine .trans ?_ (.monitor _ _)
  exact .create _ h rfl

theorem linkBid_moves (t : Terms) (h : s.record p = none) : Moves p s (s.linkBid p t) :=
  (Moves.create (s.newRecord t) h rfl).trans (.ite (retireCore_moves _ p _ _ _) (requestBid_moves _ p _))

theorem freshBid_moves (t : Terms) (h : s.record p = none) : Moves p s (s.freshBid p t) :=
  .ite (localBid_moves s p _ h) (linkBid_moves s p t h)

theorem asking_moves : Moves p s (s.asking p) := by
  unfold asking
  split
  · rename_i h
    split
    · refine freshBid_moves s p _ ?_
      simp only [bidDue, Bool.and_eq_true, Option.isNone_iff_eq_none] at h
      exact h.1.1.1.2
    · exact .refl p s
  · exact .refl p s

theorem retireWith_moves (cause : Cause) (granted later : Bool) : Moves p s (s.retireWith p cause granted later) := by
  unfold retireWith
  dsimp only
  split
  · exact (retireCore_moves s p cause granted later).trans (asking_moves _ p)
  · exact retireCore_moves s p cause granted later

theorem retire_moves (cause : Cause) : Moves p s (s.retire p cause) := retireWith_moves s p cause false false

/-! ## Amendments -/

/-- A change of the record that keeps its handle and keeps it IN_FORCE. -/
theorem modRecord_moves (f : Record → Record) (hh : ∀ r, (f r).handle = r.handle)
    (hs : ∀ r, r.state = .inForce → (f r).state = .inForce) : Moves p s (s.modRecord p f) := by
  cases h : s.record p with
  | none =>
    have h' : (s.port p).contract.record = none := h
    have e : s.modRecord p f = s := by
      rw [modRecord_eq]
      apply modPort_id
      generalize s.port p = x at h' ⊢
      obtain ⟨_, _, _, ⟨k, _, _, _, _, _⟩, _, _, _, _, _, _, _⟩ := x
      have hk : k = none := h'
      subst hk
      rfl
    rw [e]
    exact .refl p s
  | some r =>
    have h' : (s.port p).contract.record = some r := h
    have e : s.modRecord p f = s.setRecord p (some (f r)) := by
      rw [modRecord_eq, setRecord_eq]
      apply modPort_congr
      rw [h']
      rfl
    rw [e]
    exact .revise r (f r) h (hh r) (hs r)

theorem sendAmendment_moves (t : Terms) (origin : Origin) : Moves p s (s.sendAmendment p t origin) := by
  unfold sendAmendment
  split
  · exact .refl p s
  · rename_i r h
    exact (Moves.record h (by rfl) (by rfl)).trans (requestBid_moves _ p _)

theorem askAmendment_moves (cause : AmendCause) (t : Terms) : Moves p s (s.askAmendment p cause t) := by
  unfold askAmendment
  split
  · exact .refl p s
  · rename_i r h
    exact .ite (sendAmendment_moves s p t _) (Moves.record h (by cases cause <;> rfl) (by cases cause <;> rfl))

theorem sendOwed_moves : Moves p s (s.sendOwed p) := by
  unfold sendOwed
  repeat' split
  all_goals first | exact .refl p s | exact sendAmendment_moves s p _ _

theorem checkRecord_moves : Moves p s (s.checkRecord p) := by
  unfold checkRecord
  split
  · exact .refl p s
  · rename_i r h
    split
    · exact .refl p s
    · split
      · exact Moves.record h (by rfl) (by rfl)
      · dsimp only
        refine (Moves.record (r' := { r with stale := true }) h (by rfl) (by rfl)).trans ?_
        repeat' split
        all_goals first | exact .refl p _ | exact askAmendment_moves _ p _ _

theorem baseTierTest_moves : Moves p s (s.baseTierTest p) := by
  unfold baseTierTest
  repeat' split
  all_goals first | exact .refl p s | exact askAmendment_moves s p _ _

theorem acceptCatalogue_moves (l : List Tier) : Moves p s (s.acceptCatalogue p l) :=
  ((((Moves.catalogue s _).trans (checkRecord_moves _ p)).trans (baseTierTest_moves _ p)).trans (.flag _ _)).trans
    (asking_moves _ p)

theorem rejectCatalogue_moves (r : RejectReason) : Moves p s (s.rejectCatalogue p r) :=
  ((Moves.catalogue s _).trans (.flag _ _)).trans (asking_moves _ p)

theorem takeCatalogue_moves (l : List (BitVec 2 × RawEntry)) : Moves p s (s.takeCatalogue p l) := by
  unfold takeCatalogue
  dsimp only
  split
  · exact rejectCatalogue_moves s p _
  · exact acceptCatalogue_moves s p _

theorem refuseAmendment_moves : Moves p s (s.refuseAmendment p) := by
  unfold refuseAmendment
  refine .trans (.trans ?_ (.flag _ _)) (sendOwed_moves _ p)
  exact modRecord_moves s p _ (fun _ => rfl) (fun _ h => h)

theorem applyAmendment_moves (granted lease : Nat) : Moves p s (s.applyAmendment p granted lease) := by
  unfold applyAmendment
  split
  · exact .refl p s
  · rename_i r h
    split
    · exact .refl p s
    · rename_i a ha
      dsimp only
      refine (((((((Moves.revise r _ h (by rfl) (fun e => ?_)).trans (.slot _ _)).trans (.monitor _ _)).trans
        (.ite .publish (.refl p _))).trans (.flag _ _)).trans (rosterReplace_moves _ p)).trans
        (.ite (checkRecord_moves _ p) (.refl p _))).trans (sendOwed_moves _ p)
      simp [amendedRecord, e]

theorem testTransition_moves : Moves p s (s.testTransition p) := by
  unfold testTransition
  repeat' split
  all_goals first | exact .refl p s | exact applyAmendment_moves s p _ _

theorem grantAmendment_moves (r : Record) (a : Amendment) (tier : BitVec 3) (v c l : Nat) (h : s.record p = some r) :
    Moves p s (s.grantAmendment p r a tier v c l) :=
  .ite (.ite (applyAmendment_moves s p _ _) (Moves.record h (by rfl) (by rfl))) (refuseAmendment_moves s p)

/-! ## Renewals -/

theorem renewNoReply_moves : Moves p s (s.renewNoReply p) := by
  unfold renewNoReply
  split
  · exact .refl p s
  · rename_i r h
    split
    · refine .ite ?_ (sendOwed_moves s p)
      exact ((Moves.record h (by rfl) (by rfl)).trans (.ite (.flag _ _) (.refl p _))).trans (sendOwed_moves _ p)
    · exact sendOwed_moves s p

theorem askRenew_moves (r : Record) (n : Nat) (h : s.record p = some r) : Moves p s (s.askRenew p r n) :=
  (Moves.record (r' := { r with renewal := some { state := .inFlight, attempts := n } }) h rfl rfl).trans
    (.ite (renewNoReply_moves _ p) (requestRenew_moves _ p _))

theorem renewalTest_moves : Moves p s (s.renewalTest p) := by
  unfold renewalTest
  split
  · exact .refl p s
  · rename_i r h
    exact .ite (askRenew_moves s p r 1 h) (.refl p s)

theorem takeRenewed_moves (lease : Nat) : Moves p s (s.takeRenewed p lease) := by
  unfold takeRenewed
  split
  · exact .refl p s
  · rename_i r h
    refine .ite ?_ ?_
    · unfold refuseRenewal
      simp only [h]
      exact ((Moves.record h (by rfl) (by rfl)).trans (.ite (.flag _ _) (.refl p _))).trans (sendOwed_moves _ p)
    · unfold extendLease
      refine .trans (.trans (.trans ?_ (.monitor _ _)) (.flag _ _)) (sendOwed_moves _ p)
      exact modRecord_moves s p _ (fun _ => rfl) (fun _ h => h)

/-! ## Settling -/

theorem enterInForce_moves : Moves p s (s.enterInForce p) := by
  unfold enterInForce
  split
  · exact .refl p s
  · rename_i r h
    dsimp only
    refine .trans (.trans (.trans (.trans (.trans ?_ (rosterInsert_moves _ p)) (.ite (checkRecord_moves _ p) (.refl p _)))
      (baseTierTest_moves _ p)) (.flag _ _)) (renewalTest_moves _ p)
    exact (Moves.revise r { r with state := .inForce } h rfl (fun _ => rfl)).trans
      (.history _ (fun c => { c with attempts := 0, holdoff := none }) rfl)

theorem settlingTest_moves : Moves p s (s.settlingTest p) := by
  unfold settlingTest
  split
  · exact .refl p s
  · exact .ite (enterInForce_moves s p) (.refl p s)

theorem takeSettled_moves : Moves p s (s.takeSettled p) := by
  unfold takeSettled
  split
  · exact .refl p s
  · rename_i r h
    have ht : Moves p s (s.settleTransition p r) := by
      unfold settleTransition
      split
      · exact .refl p s
      · split
        · exact .refl p s
        · exact .ite (.refl p s) ((Moves.record h (by rfl) (by rfl)).trans (testTransition_moves _ p))
    split
    · exact .refl p s
    · exact .ite (.refl p s) ((Moves.record h (by rfl) (by rfl)).trans (settlingTest_moves _ p))
    · exact ht
    · exact ht

/-! ## Recalls -/

theorem yieldTest_moves : Moves p s (s.yieldTest p) := by
  unfold yieldTest
  repeat' split
  all_goals first | exact .refl p s | exact meetRecall_moves s p

theorem takeRecall_moves (ceiling deadline : Nat) (tag : Tag) : Moves p s (s.takeRecall p ceiling deadline tag) := by
  unfold takeRecall
  split
  · exact .refl p s
  · rename_i r h
    refine .ite (Moves.record h (by rfl) (by rfl)) (.ite ?_ ?_)
    · unfold setRecall
      refine .trans (.trans (.trans (.slot s (fun q => q.withdrawYield r.handle)) ?_) (.flag _ _)) (yieldTest_moves _ p)
      exact reviseRecord_moves _ p _ (fun _ => rfl) (fun _ => rfl)
    · unfold liftRecall
      split
      · exact .refl p s
      · refine .trans ?_ (.flag _ _)
        exact reviseRecord_moves s p _ (fun _ => rfl) (fun _ => rfl)

theorem applyInitialRecall_moves : Moves p s (s.applyInitialRecall p) := by
  unfold applyInitialRecall
  split
  · exact .refl p s
  · rename_i r h
    split
    · exact .refl p s
    · refine .ite ?_ (Moves.record h (by rfl) (by rfl))
      exact ((Moves.record h (by rfl) (by rfl)).trans (.flag _ _)).trans (yieldTest_moves _ p)

theorem recallOverdue_moves (r : Record) (c : Recall) (h : s.record p = some r) : Moves p s (s.recallOverdue p r c) :=
  ((Moves.record h (by rfl) (by rfl)).trans (bench_moves _ p)).trans (requestYield_moves _ p _)

/-! ## Enforcement -/

theorem restartRecovery_moves : Moves p s (s.restartRecovery p) := .monitor s _

theorem raiseTrim_moves (n : Nat) : Moves p s (s.raiseTrim p n) := reviseRecord_moves s p _ (fun _ => rfl) (fun _ => rfl)

theorem troubleTrim_moves (n : Nat) : Moves p s (s.troubleTrim p n) := by
  unfold troubleTrim
  split
  · exact .refl p s
  · exact ((Moves.monitor s _).trans (raiseTrim_moves _ p n)).trans (restartRecovery_moves _ p)

theorem strainTrim_moves : Moves p s (s.strainTrim p) := .ite (troubleTrim_moves s p 4) (.refl p s)

theorem overdrawSample_moves : Moves p s (s.overdrawSample p) := by
  unfold overdrawSample
  split
  · exact .refl p s
  · split
    · exact .monitor s _
    · exact .refl p s

theorem endOverdrawWindow_moves (w : OverdrawWindow) : Moves p s (s.endOverdrawWindow p w) := by
  unfold endOverdrawWindow
  refine (Moves.monitor s (fun m => { m with window := none })).trans ?_
  dsimp only
  split
  · exact .refl p _
  · split
    · exact .refl p _
    · split
      · exact ((raiseTrim_moves _ p 2).trans (.flag _ _)).trans (restartRecovery_moves _ p)
      · exact (Moves.flag _ _).trans (bench_moves _ p)

theorem recover_moves : Moves p s (s.recover p) := by
  unfold recover
  refine .trans ?_ (restartRecovery_moves _ p)
  exact reviseRecord_moves s p _ (fun _ => rfl) (fun _ => rfl)

theorem watchSample_moves : Moves p s (s.watchSample p) := .ite (.watch s _) (.refl p s)

theorem setPassEnable_moves (b : Bool) : Moves p s (s.setPassEnable b) := .pass b

theorem supplyLoss_moves (cause : Cause) : Moves p s (s.supplyLoss p cause) := by
  unfold supplyLoss
  split
  · exact .refl p s
  · exact ((((Moves.watch s _).trans (openPath_moves _ p p)).trans (retire_moves _ p cause)).trans (.flag _ _)).trans
      (.ite (.pass _) (.refl p _))

theorem judgeDroop_moves (w : WatchWindow) : Moves p s (s.judgeDroop p w) := .ite (troubleTrim_moves s p 1) (.refl p s)

theorem judgeRepeat_moves (w : WatchWindow) : Moves p s (s.judgeRepeat p w) :=
  .ite (.ite (.flag s _) ((Moves.watch s _).trans (tidyWatch_moves _ p))) (.refl p s)

theorem endWatchWindow_moves (w : WatchWindow) : Moves p s (s.endWatchWindow p w) :=
  ((Moves.watch s _).trans (judgeDroop_moves _ p w)).trans
    (.ite (supplyLoss_moves _ p _) ((judgeRepeat_moves _ p w).trans (.ite (.flag _ _) (.refl p _))))

theorem takeFault_moves : Moves p s (s.takeFault p) := .ite (supplyLoss_moves s p _) (retire_moves s p _)

end State

end Sys2Proof.Machine
end

