-- ==== Sys2Proof/Laws/MovesFrames.lean ====
section
/-! SUPPORT. Partner frames, their absence, the wire, completions and deadlines as chains of moves. -/

namespace Sys2Proof.Machine

open Sys2Proof

namespace State

variable (s : State) (p : Port)

/-! ## Outcomes of exchanges -/

theorem declineFresh_moves (later : Bool) : Moves p s (s.declineFresh p later) :=
  (Moves.flag s _).trans (retireWith_moves _ p _ _ _)

theorem acceptFresh_moves (r : Record) (current lease : Nat) (h : s.record p = some r) (hb : r.state = .bidding) :
    Moves p s (s.acceptFresh p r current lease) := by
  unfold acceptFresh
  dsimp only
  refine .trans (.trans ?_ (.monitor _ _)) (applyInitialRecall_moves _ p)
  exact .revise r _ h rfl (fun e => by rw [hb] at e; cases e)

theorem takeGrant_moves (tier : BitVec 3) (v c l : Nat) : Moves p s (s.takeGrant p tier v c l) := by
  unfold takeGrant
  split
  · exact .refl p s
  · rename_i r h
    split
    · exact retireWith_moves s p _ _ _
    · split
      · rename_i hb
        exact .ite (declineFresh_moves s p _) (.ite (declineFresh_moves s p _) (acceptFresh_moves s p r c l h hb))
      · split
        · exact grantAmendment_moves s p r _ tier v c l h
        · exact .refl p s

theorem takeDecline_moves (later : Bool) : Moves p s (s.takeDecline p later) := by
  unfold takeDecline
  split
  · exact .refl p s
  · exact .ite (retireWith_moves s p _ _ _) (.ite (declineFresh_moves s p _) (.ite (refuseAmendment_moves s p) (.refl p s)))

theorem bidNoReply_moves : Moves p s (s.bidNoReply p) := by
  unfold bidNoReply
  split
  · exact .refl p s
  · exact .ite (retireWith_moves s p _ _ _) (.ite (retire_moves s p _) (.ite (refuseAmendment_moves s p) (.refl p s)))

theorem exchangeNoReply_moves : Moves p s (s.exchangeNoReply p) := by
  unfold exchangeNoReply
  split
  · exact .refl p s
  · split
    · exact .link s _
    · exact (Moves.link s _).trans (bidNoReply_moves _ p)
    · exact (Moves.link s _).trans (renewNoReply_moves _ p)

theorem sendFailed_moves : Moves p s (s.sendFailed p) := by
  unfold sendFailed
  split
  · exact .refl p s
  · exact .ite (exchangeNoReply_moves s p) (.link s _)

theorem enterResync_moves : Moves p s (s.enterResync p) := (Moves.link s _).trans (sendFailed_moves _ p)

theorem answerWaiting_moves : Moves p s (s.answerWaiting p) :=
  ((Moves.slot s _).trans (.ite (renewNoReply_moves _ p) (.refl p _))).trans (.ite (bidNoReply_moves _ p) (.refl p _))

theorem enterMute_moves : Moves p s (s.enterMute p) :=
  (((((Moves.link s _).trans (exchangeNoReply_moves _ p)).trans (answerWaiting_moves _ p)).trans (.link _ _)).trans
    (.flag _ _)).trans (asking_moves _ p)

/-! ## Frames -/

theorem staleReply_moves (tag : Tag) (k : Option AbandonedKind) : Moves p s (s.staleReply p tag k) := by
  unfold staleReply
  repeat' split
  all_goals first | exact .link s _ | exact .refl p s

theorem onGrant_moves (tag : Tag) (tier : BitVec 3) (v c l : Nat) : Moves p s (s.onGrant p tag tier v c l) :=
  .ite ((Moves.link s _).trans (takeGrant_moves _ p tier v c l)) (staleReply_moves s p tag _)

theorem onDecline_moves (tag : Tag) (reason : BitVec 2) : Moves p s (s.onDecline p tag reason) :=
  .ite ((Moves.link s _).trans (takeDecline_moves _ p _)) (staleReply_moves s p tag _)

theorem onRenewed_moves (tag : Tag) (lease : Nat) : Moves p s (s.onRenewed p tag lease) :=
  .ite ((Moves.link s _).trans (takeRenewed_moves _ p lease)) (staleReply_moves s p tag _)

theorem completeAssembly_moves (tag : Tag) (l : List (BitVec 2 × RawEntry)) : Moves p s (s.completeAssembly p tag l) :=
  (Moves.ite (Moves.link s _) (.refl p s)).trans (takeCatalogue_moves _ p l)

theorem onTiersPart_moves (tag : Tag) (scale : BitVec 2) (total index : Nat) (last : Bool) (es : List RawEntry) :
    Moves p s (s.onTiersPart p tag scale total index last es) := by
  unfold onTiersPart
  split
  · exact .link s _
  · refine .trans (.link s _) (.ite ((Moves.link _ _).trans (.ite (completeAssembly_moves _ p tag _) (.refl p _))) (.link _ _))

theorem handleBody_moves (tag : Tag) (body : PartnerBody) : Moves p s (handleBody p tag body s) := by
  cases body
  · exact onTiersPart_moves ..
  · exact onGrant_moves ..
  · exact onDecline_moves ..
  · exact takeSettled_moves ..
  · exact onRenewed_moves ..
  · exact takeRecall_moves ..
  · exact takeFault_moves ..

theorem receive_moves (f : PartnerFrame) : Moves p s (s.receive p f) :=
  (Moves.link s _).trans (.ite ((Moves.ite (strainTrim_moves _ p) (.refl p _)).trans (handleBody_moves _ p f.tag f.body)) (.refl p _))

/-! ## The wire -/

theorem breakEnd_moves : Moves p s (s.breakEnd p) := by
  unfold breakEnd
  repeat' split
  all_goals first | exact .link s _ | exact .refl p s

theorem sendOpeningHello_moves : Moves p s (s.sendOpeningHello p) :=
  .ite ((Moves.link s _).trans (startExchangeFrame_moves _ p)) (.refl p s)

theorem idleFound_moves : Moves p s (s.idleFound p) := by
  unfold idleFound
  repeat' split
  all_goals first | exact .link s _ | exact .refl p s

theorem idleWaitExpiry_moves : Moves p s (s.idleWaitExpiry p) := by
  unfold idleWaitExpiry
  repeat' split
  all_goals first | exact enterMute_moves s p | exact .link s _ | exact .refl p s

/-! ## Deadlines -/

theorem failClose_moves (h : s.path p = .closing) : Moves p s (s.failClose p) := by
  unfold failClose
  dsimp only
  refine Moves.trans (Moves.trans (.drop p h) (.role _ p .none)) ?_
  split
  · exact .ite (bench_moves _ p) (recompute_moves _ p)
  · exact recompute_moves _ p

theorem nextAttempt_moves : Moves p s (s.nextAttempt p) := by
  unfold nextAttempt
  split
  · exact .refl p s
  · rename_i r h
    split
    · exact .refl p s
    · split
      · exact .ite (askRenew_moves s p r _ h) (.refl p s)
      · exact .refl p s
      · exact .refl p s

theorem endHoldoff_moves : Moves p s (s.endHoldoff p) := (Moves.history s _ (by rfl)).trans (asking_moves _ p)

theorem recallDeadline_moves : Moves p s (s.recallDeadline p) := by
  unfold recallDeadline
  split
  · exact .refl p s
  · rename_i r h
    split
    · exact .refl p s
    · exact .ite (recallOverdue_moves s p r _ h) (.refl p s)

end State

end Sys2Proof.Machine
end

