-- ==== Sys2Proof/Laws/Reach.lean ====
section
/-! SUPPORT. What a command can do to a state: chains of moves on any ports, changes of what the moves do not watch, and a claim written. -/

namespace Sys2Proof.Machine

open Sys2Proof

namespace State

/-- What a command other than a power-on reset can do. -/
inductive Reach : State → State → Prop
  | moves {p : Port} {s t : State} : Moves p s t → Reach s t
  | quiet {s t : State} : t.allocator = s.allocator → (∀ q, (t.port q).core = (s.port q).core) → Reach s t
  | claim {s : State} (k : Sink) (c : Claim) : (c.request ≠ 0 → c.floor ≤ c.request) →
      Reach s { s with allocator := { s.allocator with claims := s.allocator.claims.set k c } }.publish
  | trans {s t u : State} : Reach s t → Reach t u → Reach s u

namespace Reach

variable {s t u : State}

theorem refl (s : State) : Reach s s := .quiet rfl (fun _ => rfl)

theorem ite {c : Prop} [Decidable c] (h : Reach s t) (g : Reach s u) : Reach s (if c then t else u) := by
  split <;> assumption

/-- A change of the part outside its ports and its allocator. -/
theorem part (ha : t.allocator = s.allocator) (hp : t.ports = s.ports) : Reach s t :=
  .quiet ha (fun q => by simp only [port, hp])

theorem fold {α : Type} (f : State → α → State) (h : ∀ s a, Reach s (f s a)) (l : List α) (s : State) : Reach s (l.foldl f s) := by
  induction l generalizing s with
  | nil => exact refl s
  | cons a l ih => exact (h s a).trans (ih _)

end Reach

variable (s : State) (p : Port)

/-! ## Samples and completions -/

theorem front_moves (f : FrontEnd → FrontEnd)
    (h : ∀ x, (f x).path = x.path ∧ (f x).closeOp.isSome = x.closeOp.isSome ∧ (f x).mode = x.mode) : Moves p s (s.modFront p f) :=
  .port s _ (by simp [PortState.core, h])

theorem coldAuto_moves : Moves p s (s.coldAuto p) := by
  unfold coldAuto
  split
  · dsimp only
    refine .trans (.trans (.trans ?_ (.history _ (fun c => { c with hold := false }) rfl)) (enterOpening_moves _ p)) (recompute_moves _ p)
    exact .mode .auto (fun h => by cases h)
  · exact .refl p s

theorem coldTake_reach : Reach s (s.coldTake p) := by
  unfold coldTake
  split
  · dsimp only
    refine .trans (.part (t := { s with cold := .coldSupply, coldPort := some p }) rfl rfl) ?_
    refine .trans (.moves (coldAuto_moves _ p)) ?_
    split
    · rename_i h
      exact .moves (localBid_moves _ p _ (by simpa using h))
    · exact .refl _
  · exact .refl s

theorem attachPort_reach : Reach s (s.attachPort p) := by
  have h : Moves p s (((s.modFront p (fun f => { f with attach := .present, debounce := 0 })).setFlag p .attach).modCatalogue p
      (fun c => { c with base := true })) :=
    ((front_moves s p (fun f => { f with attach := .present, debounce := 0 }) (fun _ => ⟨rfl, rfl, rfl⟩)).trans (.flag _ .attach)).trans
      (.catalogue _ (fun c => { c with base := true }))
  exact (Reach.moves (h.trans (.ite (.refl p _) (enterOpening_moves _ p)))).trans (coldTake_reach _ p)

theorem attachIfDue_reach : Reach s (s.attachIfDue p) := .ite (attachPort_reach s p) (.refl s)

theorem detachPort_reach : Reach s (s.detachPort p) := by
  have h : Moves p s (((s.modFront p (fun f => { f with attach := .vacant, debounce := 0 })).enterQuiet p).retire p .detached) :=
    ((front_moves s p (fun f => { f with attach := .vacant, debounce := 0 }) (fun _ => ⟨rfl, rfl, rfl⟩)).trans
      (enterQuiet_moves _ p)).trans (retire_moves _ p .detached)
  have g := (((h.trans (.catalogue _ (fun _ => .reset))).trans
    (.history _ (fun c => { c with attempts := 0, holdoff := none }) rfl)).trans (.flag _ .detach)).trans
      (.trans (.watch _ (fun w => { w with repeatAt := none })) (tidyWatch_moves _ p))
  exact (Reach.moves g).trans (.ite (.part rfl rfl) (.refl _))

theorem detachIfDue_reach : Reach s (s.detachIfDue p) := .ite (detachPort_reach s p) (.refl s)

theorem completeClose_moves (h : s.path p = .closing) : Moves p s (s.completeClose p) :=
  ((Moves.closes h).trans (.role _ p _)).trans (recompute_moves _ p)

theorem closeIfDue_moves : Moves p s (s.closeIfDue p) := by
  unfold closeIfDue
  split
  · rename_i c hc
    split
    · rename_i h
      split
      · exact completeClose_moves s p h.1
      · refine .port s _ ?_
        simp [PortState.core, hc]
    · exact .refl p s
  · exact .refl p s

theorem overdrawEndIfDue_moves : Moves p s (s.overdrawEndIfDue p) := by
  unfold overdrawEndIfDue
  split
  · exact .ite (endOverdrawWindow_moves s p _) (.refl p s)
  · exact .refl p s

theorem watchEndIfDue_moves : Moves p s (s.watchEndIfDue p) := by
  unfold watchEndIfDue
  split
  · exact .ite (endWatchWindow_moves s p _) (.refl p s)
  · exact .refl p s

theorem settlePort_reach : Reach s (s.settlePort p) := by
  unfold settlePort
  refine .trans ?_ (attachIfDue_reach _ p)
  refine .trans ?_ (detachIfDue_reach _ p)
  refine .trans ?_ (.moves (closeIfDue_moves _ p))
  refine .trans ?_ (.moves (watchEndIfDue_moves _ p))
  exact .moves (overdrawEndIfDue_moves s p)

theorem clock_reach (n : Instant) (b : Bool) : Reach s { s with time := n, sampleTaken := b } := .part rfl rfl

theorem beginTick_reach : Reach s s.beginTick := by
  unfold beginTick
  refine .trans ?_ (clock_reach _ _ _)
  exact Reach.fold _ settlePort_reach Port.all s

theorem storeReading_moves (r : PerPort Reading) : Moves p s (storeReading r s p) := front_moves s p _ (fun _ => ⟨rfl, rfl, rfl⟩)

theorem debounceSample_moves : Moves p s (s.debounceSample p) := front_moves s p _ (fun _ => ⟨rfl, rfl, rfl⟩)

theorem closeSample_moves : Moves p s (s.closeSample p) := by
  unfold closeSample
  split
  · rename_i c r hc hr
    refine .port s _ ?_
    simp [PortState.core, hc]
  · exact .refl p s

theorem contractSample_moves : Moves p s (s.contractSample p) :=
  ((settlingTest_moves s p).trans (yieldTest_moves _ p)).trans (testTransition_moves _ p)

theorem takeSamples_reach (r : PerPort Reading) : Reach s (s.takeSamples r) := by
  unfold takeSamples
  refine .trans ?_ (clock_reach _ _ true)
  refine .trans ?_ (.fold _ (fun s q => .moves (contractSample_moves s q)) _ _)
  refine .trans ?_ (.fold _ (fun s q => .moves (watchSample_moves s q)) _ _)
  refine .trans ?_ (.fold _ (fun s q => .moves (overdrawSample_moves s q)) _ _)
  refine .trans ?_ (.fold _ (fun s q => .moves (closeSample_moves s q)) _ _)
  refine .trans ?_ (.fold _ (fun s q => .moves (debounceSample_moves s q)) _ _)
  exact .fold _ (fun s q => .moves (storeReading_moves s q r)) _ _

/-! ## The commands of the command port -/

theorem askAll_reach : Reach s s.askAll := .fold _ (fun s p => .moves (asking_moves s p)) _ s

theorem openLink_moves : Moves p s (s.openLink p) := .ite (enterOpening_moves s p) (.refl p s)

theorem reopenMute_moves : Moves p s (s.reopenMute p) :=
  .ite ((enterOpening_moves s p).trans (.ite (sendOwed_moves _ p) (.refl p _))) (.refl p s)

theorem adoptClose_moves : Moves p s (s.adoptClose p) :=
  .ite ((front_moves s p (fun f => { f with closeOp := f.closeOp.map (fun c => { c with requester := .roster }) })
    (fun x => ⟨rfl, by cases x.closeOp <;> rfl, rfl⟩)).trans (.role _ p .incoming)) (.refl p s)

theorem toSense_moves : Moves p s (s.toSense p) := by
  unfold toSense
  dsimp only
  refine .trans (.trans (.trans (.trans (.trans (retire_moves s p .mode) (openPath_moves _ p p)) ?_) (.role _ p _)) (enterQuiet_moves _ p))
    (recompute_moves _ p)
  exact .mode .sense (fun _ => openPath_path _ p)

theorem toAuto_moves : Moves p s (s.toAuto p) := by
  unfold toAuto
  dsimp only
  refine .trans (.trans (.history s (fun c => { c with hold := false }) rfl) ?_) (asking_moves _ p)
  split
  · exact .trans (.trans (.mode .auto (fun h => by cases h)) (openLink_moves _ p)) (recompute_moves _ p)
  · exact .trans (.trans (.mode .auto (fun h => by cases h)) (adoptClose_moves _ p)) (recompute_moves _ p)
  · exact reopenMute_moves _ p

theorem toDirect_moves : Moves p s (s.toDirect p) := by
  unfold toDirect
  split
  · exact .trans (.trans (.mode .direct (fun h => by cases h)) (openLink_moves _ p)) (recompute_moves _ p)
  · dsimp only
    exact .trans (.trans (.trans (.ite (openPath_moves s p p) (.refl p s)) (.mode .direct (fun h => by cases h))) (.role _ p _))
      (recompute_moves _ p)
  · exact reopenMute_moves _ p

theorem hostClose_moves : Moves p s (s.hostClose p) := by
  unfold hostClose
  split
  · split
    · rename_i t h
      exact (requestClose_moves s p p _ t h).trans (recompute_moves _ p)
    · exact .refl p s
  · exact .refl p s

theorem storeRequest_moves (r : PathRequest) : Moves p s (s.storeRequest p r) := front_moves s p _ (fun _ => ⟨rfl, rfl, rfl⟩)

theorem hostRetire_moves (r : Record) (h : s.record p = some r) : Moves p s (s.hostRetire p r) :=
  .ite (.refl p s) (.ite (Moves.record h (by rfl) (by rfl)) (retire_moves s p _))

theorem unbench_moves : Moves p s (s.unbench p) :=
  modRecord_moves s p _ (fun r => by split <;> rfl) (fun r h => by simp [h])

theorem writeRank_moves (n : Nat) : Moves p s (s.writeRank p n) := by
  unfold writeRank
  dsimp only
  refine .trans (.port s (fun t => { t with rank := n }) rfl) ?_
  split
  · exact .ite ((unbench_moves _ p).trans (rosterReplace_moves _ p)) (.refl p _)
  · exact .refl p _

theorem writePolicy_reach (n : Parameter) (w : Word) : Reach s (s.writePolicy p n w) := by
  have hp : ∀ P : Policy, Reach s { s with policy := P } := fun P => .part rfl rfl
  cases n with
  | vinLow => exact .ite (hp _) ((hp _).trans ((Reach.moves (recompute_moves _ p)).trans (askAll_reach _)))
  | vinHigh => exact .ite (hp _) ((hp _).trans ((Reach.moves (recompute_moves _ p)).trans (askAll_reach _)))
  | currentMax => exact .ite (hp _) ((hp _).trans (askAll_reach _))
  | leaseWant => exact hp _
  | renewLead => exact .ite ((hp _).trans (.fold _ (fun s q => .moves (renewalTest_moves s q)) _ _)) (hp _)
  | settleTime => exact hp _
  | overdrawMargin => exact hp _
  | overdrawWindow => exact hp _
  | derate => exact .ite (hp _) ((hp _).trans (.moves (p := p) .publish))
  | combine => exact .ite (hp _) ((hp _).trans (.moves (recompute_moves _ p)))
  | dropout => exact hp _
  | rebidCauses => exact .moves (Moves.history s (fun c => { c with rebidCauses := w &&& causeBits }) rfl)
  | rank => exact .moves (writeRank_moves s p _)

theorem watchOff_moves : Moves p s (s.watchOff p) := (Moves.watch s _).trans (tidyWatch_moves _ p)

theorem lockTest_reach : Reach s s.lockTest := .ite (.part rfl rfl) (.refl s)

theorem softResetPort_moves : Moves p s (s.softResetPort p) := (Moves.port s _ (by rfl)).trans (tidyWatch_moves _ p)

theorem clearGroup_reach (g : Nat) (m : Word) : Reach s (s.clearGroup g m) := by
  unfold clearGroup
  split
  · rename_i q _
    exact .moves (Moves.port (p := q) s (fun t => { t with flags := t.flags &&& ~~~m }) rfl)
  · exact .part rfl rfl

theorem fillRecord_moves : Moves p s (s.fillRecord p) :=
  .port s (fun t => { t with frozenRecord := some (t.frozenRecord.getD (s.frozenRecordOf p)) }) rfl

theorem fillStatus_moves : Moves p s (s.fillStatus p) :=
  .port s (fun t => { t with frozenStatus := some (t.frozenStatus.getD (s.frozenStatusOf p)) }) rfl

theorem freezePort_moves (a b : Byte) : Moves p s (freezePort a b s p) :=
  .ite ((Moves.ite (fillRecord_moves s p) (.refl p s)).trans (.ite (fillStatus_moves _ p) (.refl p _))) (.refl p s)

theorem takeFrozen_moves : Moves p s (s.takeFrozen p).1 := by
  unfold takeFrozen
  repeat' split
  · exact .port s (fun t => { t with frozenStatus := none }) rfl
  · exact .port s (fun t => { t with frozenRecord := none }) rfl
  · exact .refl p s

theorem coldTakeover_reach : Reach s s.coldTakeover := .ite (.refl s) (.part rfl rfl)

/-! ## Every command -/

theorem response_reach (t : State) (r : Option Response) (h : Reach s t) : Reach s { t with response := r } :=
  h.trans (Reach.part (s := t) (t := { t with response := r }) rfl rfl)

theorem respond_reach (a : Answer) (h : Reach s a.1) : Reach s (respond a) := response_reach s a.1 (some a.2) h

theorem done_reach (t : State) (h : Reach s t) : Reach s (Answer.done t).1 := h

theorem freeze_reach (a b : Byte) : Reach s (s.freeze a b).1 := by
  unfold freeze
  split
  · exact .refl s
  · exact .fold _ (fun s q => .moves (freezePort_moves s q a b)) _ s

theorem setMode_reach (a b : Byte) : Reach s (s.setMode a b).1 := by
  unfold setMode
  split
  · rename_i p _ _
    split
    · exact done_reach s s (.refl s)
    · exact done_reach s _ (.moves (toSense_moves s p))
  · rename_i p _ _
    exact done_reach s _ (.moves (toAuto_moves s p))
  · rename_i p _ _
    exact done_reach s _ (.moves (toDirect_moves s p))
  · exact .refl s

theorem setPath_reach (a b : Byte) : Reach s (s.setPath a b).1 := by
  unfold setPath
  split
  · rename_i p r _ _
    split
    · exact done_reach s _ (.moves (storeRequest_moves s p r))
    · split
      · exact done_reach s _ (.moves ((storeRequest_moves s p .opened).trans (openRequest_moves _ p)))
      · split
        · exact .refl s
        · split
          · exact .refl s
          · exact done_reach s _ (.moves ((storeRequest_moves s p .closed).trans (hostClose_moves _ p)))
  · exact .refl s

theorem bid_reach (a b : Byte) (v c l : Word) : Reach s (s.bid a b v c l).1 := by
  unfold bid
  split
  · exact .refl s
  · rename_i p _
    split
    · exact .refl s
    · split
      · exact .refl s
      · rename_i h
        have hn : s.record p = none := by
          simp only [not_or, Bool.not_eq_true, Option.isSome_eq_false_iff, Option.isNone_iff_eq_none] at h
          exact h.2
        split
        · exact .refl s
        · split
          · exact .refl s
          · dsimp only
            refine .moves ((Moves.ite (.history s (fun c => { c with hold := false }) rfl) (.refl p s)).trans (freshBid_moves _ p _ ?_))
            split
            · simpa [record] using hn
            · exact hn

theorem amend_reach (a b : Byte) (v c l : Word) : Reach s (s.amend a b v c l).1 := by
  unfold amend
  repeat' split
  all_goals first
    | exact .refl s
    | exact .moves (sendAmendment_moves s _ _ _)

theorem retireCommand_reach (a : Byte) : Reach s (s.retireCommand a).1 := by
  unfold retireCommand
  split
  · exact .refl s
  · split
    · exact .refl s
    · rename_i r h
      exact .moves (hostRetire_moves s _ r h)

theorem rankCommand_reach (a b : Byte) : Reach s (s.rankCommand a b).1 := by
  unfold rankCommand
  repeat' split
  all_goals first
    | exact .refl s
    | exact .moves (writeRank_moves s _ _)

theorem setClaim_reach (a : Byte) (r f : Word) (q : Byte) : Reach s (s.setClaim a r f q).1 := by
  unfold setClaim
  split
  · exact .refl s
  · split
    · exact .refl s
    · split
      · exact .refl s
      · rename_i h
        refine .claim _ _ (fun hr => ?_)
        simp only [not_and, not_lt] at h
        exact h (fun e => hr (by rw [e]; rfl))

theorem setPass_reach (a : Byte) : Reach s (s.setPass a).1 := by
  unfold setPass
  split
  · exact .refl s
  · exact .moves (p := .p0) (.pass _)

theorem setPolicy_reach (a b : Byte) (w : Word) : Reach s (s.setPolicy a b w).1 := by
  unfold setPolicy
  repeat' split
  all_goals first
    | exact .refl s
    | exact writePolicy_reach s _ _ _

theorem setTrim_reach (a b c : Byte) : Reach s (s.setTrim a b c).1 := by
  unfold setTrim
  split
  · rename_i p m _ _
    split
    · exact .refl s
    · cases m with
      | auto => exact .moves ((Moves.monitor s _).trans (.ite (restartRecovery_moves _ p) (.refl p _)))
      | manual =>
        refine .moves (p := p) ?_
        show Moves p s (s.trimManual p c.toNat)
        unfold trimManual
        refine .trans (.monitor s (fun m => { m with trimMode := .manual, recovery := none, raiseBase := none })) ?_
        exact reviseRecord_moves _ p _ (fun _ => rfl) (fun _ => rfl)
  · exact .refl s

theorem setWatch_reach (a b : Byte) : Reach s (s.setWatch a b).1 := by
  unfold setWatch
  split
  · exact .refl s
  · split
    · rename_i e r _ _
      refine .trans ?_ (lockTest_reach _)
      refine .trans (.part (t := { s with watchEnable := e, alertRoute := r }) rfl rfl) ?_
      exact .ite (.refl _) (.fold _ (fun s q => .moves (watchOff_moves s q)) _ _)
    · exact .refl s

theorem forceLoss_reach (a b : Byte) : Reach s (s.forceLoss a b).1 := by
  unfold forceLoss
  split
  · exact .moves ((Moves.watch s _).trans (tidyWatch_moves _ _))
  · exact .refl s

theorem setAttention_reach (a : Byte) : Reach s (s.setAttention a).1 := by
  unfold setAttention
  split
  · exact .refl s
  · exact (Reach.part (s := s) (t := { s with enables := a.setWidth 5 }) rfl rfl).trans (lockTest_reach _)

theorem softReset_reach : Reach s s.softReset := by
  unfold softReset
  refine .trans ?_ (askAll_reach _)
  refine .trans (.part (t := { s with deviceFlags := 0, enables := 0 }) rfl rfl) ?_
  exact .fold _ (fun s q => .moves (softResetPort_moves s q)) _ _

theorem runCommand_reach (c : HostCommand) : Reach s (s.runCommand c).1 := by
  cases c
  case queryRecord p =>
    show Reach s (s.queryRecord p).1
    unfold queryRecord
    repeat' split
    all_goals exact .refl s
  case queryTiers p =>
    show Reach s (s.queryTiers p).1
    unfold queryTiers
    split
    all_goals exact .refl s
  case queryStatus p =>
    show Reach s (s.queryStatus p).1
    unfold queryStatus
    repeat' split
    all_goals exact .refl s
  case freeze => exact freeze_reach s _ _
  case readFrozen p =>
    show Reach s (s.readFrozen p).1
    unfold readFrozen
    split
    · exact .moves (takeFrozen_moves s _)
    · exact .refl s
  case setMode => exact setMode_reach s _ _
  case setPath => exact setPath_reach s _ _
  case bid => exact bid_reach s _ _ _ _ _
  case amend => exact amend_reach s _ _ _ _ _
  case retire => exact retireCommand_reach s _
  case rank => exact rankCommand_reach s _ _
  case setClaim => exact setClaim_reach s _ _ _ _
  case setPass => exact setPass_reach s _
  case setPolicy => exact setPolicy_reach s _ _ _
  case setTrim => exact setTrim_reach s _ _ _
  case setWatch => exact setWatch_reach s _ _
  case forceLoss => exact forceLoss_reach s _ _
  case setAttention => exact setAttention_reach s _
  case readFlags => exact .refl s
  case clearFlags g m =>
    show Reach s (s.clearFlags g m).1
    unfold clearFlags
    split
    · exact .refl s
    · exact clearGroup_reach s _ _
  case resetPart => exact done_reach s _ (softReset_reach s)

theorem closeDeadline_reach : Reach s (if s.closeOverdue p then s.failClose p else s) := by
  split
  · rename_i h
    simp only [closeOverdue, Bool.and_eq_true, decide_eq_true_eq] at h
    exact .moves (failClose_moves s p h.1)
  · exact .refl s

theorem startPulseCollision_moves : Moves p s (s.startPulseCollision p) := .link s _

theorem endReception_moves : Moves p s (s.endReception p) := .link s _

theorem takeCommand_reach (c : HostCommand) : Reach s (s.takeCommand c) := by
  unfold takeCommand
  refine Reach.ite (.refl s) ?_
  dsimp only
  generalize hu : (if c.endsCold = true then s.coldTakeover else s) = u
  have h : Reach s u := by
    rw [← hu]
    exact Reach.ite (coldTakeover_reach s) (.refl s)
  exact respond_reach s _ (h.trans (runCommand_reach u c))

theorem takeWrite_reach (bytes : List Byte) : Reach s (s.takeWrite bytes) := by
  unfold takeWrite
  split
  · exact .refl s
  · exact response_reach s s _ (.refl s)
  · exact response_reach s _ _ (.ite (coldTakeover_reach s) (.refl s))
  · exact takeCommand_reach s _

theorem takeRead_reach (n : Nat) : Reach s (s.takeRead n) := .part rfl rfl

theorem meterSample_reach (r : PerPort Reading) : Reach s ((if s.sampleTaken then s.beginTick else s).takeSamples r) := by
  generalize hu : (if s.sampleTaken = true then s.beginTick else s) = u
  have h : Reach s u := by
    rw [← hu]
    exact Reach.ite (beginTick_reach s) (.refl s)
  exact h.trans (takeSamples_reach u r)

/-- A command whose answer is known. -/
theorem reach_of_next {a t : State} {c : Instr} (ha : Reach s a) (e : exec c s = .next a) (h : exec c s = .next t) : Reach s t := by
  rw [e] at h
  exact Host.Outcome.next.inj h ▸ ha

/-- What every command but a power-on reset does is within reach. -/
theorem exec_reach (c : Instr) (t : State) (hc : c ≠ .powerOnReset) (h : exec c s = .next t) : Reach s t := by
  cases c
  case powerOnReset => exact absurd rfl hc
  case strapSampling a b d =>
    simp only [exec, execStrapSampling] at h
    split at h
    · exact Host.Outcome.next.inj h ▸ .refl s
    · exact Host.Outcome.next.inj h ▸ .part rfl rfl
  case meterSample r =>
    simp only [exec, execMeterSample] at h
    split at h
    · exact Host.Outcome.next.inj h ▸ .refl s
    · exact Host.Outcome.next.inj h ▸ meterSample_reach s r
  case attach p => exact reach_of_next s (attachIfDue_reach s p) rfl h
  case detach p => exact reach_of_next s (detachIfDue_reach s p) rfl h
  case pathCloseComplete p => exact reach_of_next s (.moves (closeIfDue_moves s p)) rfl h
  case closeDeadline p => exact reach_of_next s (closeDeadline_reach s p) rfl h
  case settleDeadline p => exact reach_of_next s (.ite (.moves (retire_moves s p .settleFail)) (.refl s)) rfl h
  case transitionDeadline p => exact reach_of_next s (.ite (.moves (retire_moves s p .settleFail)) (.refl s)) rfl h
  case leaseExpiry p => exact reach_of_next s (.ite (.moves (retire_moves s p .lapsed)) (.refl s)) rfl h
  case renewalPoint p => exact reach_of_next s (.moves (renewalTest_moves s p)) rfl h
  case nextAttempt p => exact reach_of_next s (.moves (nextAttempt_moves s p)) rfl h
  case holdoffDeadline p => exact reach_of_next s (.ite (.moves (endHoldoff_moves s p)) (.refl s)) rfl h
  case recallDeadline p => exact reach_of_next s (.moves (recallDeadline_moves s p)) rfl h
  case overdrawWindowEnd p => exact reach_of_next s (.moves (overdrawEndIfDue_moves s p)) rfl h
  case recoveryDeadline p => exact reach_of_next s (.ite (.moves (recover_moves s p)) (.refl s)) rfl h
  case watchWindowEnd p => exact reach_of_next s (.moves (watchEndIfDue_moves s p)) rfl h
  case frameSendStart p => exact reach_of_next s (.ite (.moves (startWaiting_moves s p)) (.refl s)) rfl h
  case sendAgain p => exact reach_of_next s (.ite (.moves (startExchangeFrame_moves s p)) (.refl s)) rfl h
  case frameSendEnd p => exact reach_of_next s (.moves (endOwnFrame_moves s p)) rfl h
  case startPulseCollision p => exact reach_of_next s (.ite (.moves (startPulseCollision_moves s p)) (.refl s)) rfl h
  case inFrameCollision p => exact reach_of_next s (.ite (.moves (enterResync_moves s p)) (.refl s)) rfl h
  case linkDisturbance p => exact reach_of_next s (.ite (.moves (enterResync_moves s p)) (.refl s)) rfl h
  case breakEnd p => exact reach_of_next s (.moves (breakEnd_moves s p)) rfl h
  case idleFound p => exact reach_of_next s (.moves (idleFound_moves s p)) rfl h
  case idleWaitExpiry p => exact reach_of_next s (.moves (idleWaitExpiry_moves s p)) rfl h
  case replyDeadline p => exact reach_of_next s (.ite (.moves (sendFailed_moves s p)) (.refl s)) rfl h
  case openingDeadline p => exact reach_of_next s (.ite (.moves (enterMute_moves s p)) (.refl s)) rfl h
  case assemblyDeadline p => exact reach_of_next s (.ite (.moves (Moves.link s (fun l => { l with assembly := none }))) (.refl s)) rfl h
  case partnerFrameDiscard p f =>
    simp only [exec, execPartnerFrameDiscard] at h
    split at h
    · exact Host.Outcome.next.inj h ▸ .moves (endReception_moves s p)
    · exact Host.Outcome.next.inj h ▸ .moves (receive_moves s p _)
  case writeTaken a b => exact reach_of_next s (.ite (takeWrite_reach s b) (.refl s)) rfl h
  case responseRead a n => exact reach_of_next s (.ite (takeRead_reach s n) (.refl s)) rfl h
  case openingHelloSend p => exact reach_of_next s (.moves (sendOpeningHello_moves s p)) rfl h
  all_goals
    first
      | exact reach_of_next s (takeCommand_reach s _) rfl h
      | exact reach_of_next s (.moves (receive_moves s _ _)) rfl h

end State

end Sys2Proof.Machine
end

