-- ==== Sys2Proof/Laws/SwitchOver.lean ====
section
/-! SUPPORT. What a recomputation of the roster leaves of every path, role and of the switch-over (R118, R122 to R125): SwitchedOver holds of it
on a state whose paths are backed, whose handles are distinct and whose roster is exact. -/

namespace Sys2Proof.Machine

open Sys2Proof

/-- A port whose role becomes NONE. -/
def Placing.idle (v : Placing) : Placing := { v with role := .none }

/-- A port whose path the roster opens. -/
def Placing.opens (v : Placing) : Placing :=
  if v.path = .opened then v.idle else { path := .opened, closeOp := none, role := .none }

/-- Where a close that is taken puts a port, its deadline given. -/
def Placing.asked (v : Placing) (deadline : Tick) : Placing :=
  if v.path = .opened then
    { path := .closing, closeOp := some { settle := 0, deadline := deadline, requester := .roster, due := false }, role := .incoming }
  else { v with role := .incoming }

/-- The port's path counts against the two-path limit. -/
def Placing.used (v : Placing) : Bool := v.path != .opened

/-- The port counts in the roster's count as an AUTO port (R121). -/
def Placing.counted (v : Placing) : Bool := v.path = .closed || v.role = .incoming

namespace State

variable {s t u : State} {p q : Port}

/-! ## Counting ports -/

theorem mem_all (p : Port) : p ∈ Port.all := by cases p <;> decide

theorem all_nodup : Port.all.Nodup := by decide

theorem countP_all (f : Port → Bool) :
    Port.all.countP f = (f .p0).toNat + (f .p1).toNat + (f .p2).toNat + (f .p3).toNat := by
  simp only [Port.all, List.countP_cons, List.countP_nil]
  cases f .p0 <;> cases f .p1 <;> cases f .p2 <;> cases f .p3 <;> rfl

/-- Two sums of counts compare when they compare port by port. -/
theorem countP_le_countP {f g f' g' : Port → Bool} (h : ∀ q, (f q).toNat + (g q).toNat ≤ (f' q).toNat + (g' q).toNat) :
    Port.all.countP f + Port.all.countP g ≤ Port.all.countP f' + Port.all.countP g' := by
  have h0 := h .p0
  have h1 := h .p1
  have h2 := h .p2
  have h3 := h .p3
  simp only [countP_all]
  omega

theorem countP_eq_countP {f g f' g' : Port → Bool} (h : ∀ q, (f q).toNat + (g q).toNat = (f' q).toNat + (g' q).toNat) :
    Port.all.countP f + Port.all.countP g = Port.all.countP f' + Port.all.countP g' :=
  Nat.le_antisymm (countP_le_countP (fun q => (h q).le)) (countP_le_countP (fun q => (h q).ge))

/-- The length of a list of distinct ports is the count of its members. -/
theorem length_eq_countP {l : List Port} (h : l.Nodup) : l.length = Port.all.countP (fun q => decide (q ∈ l)) := by
  rw [List.countP_eq_length_filter]
  refine List.Perm.length_eq ((List.perm_ext_iff_of_nodup h (all_nodup.filter _)).mpr (fun q => ?_))
  simp [mem_all]

/-! ## Turns: the roster's work that leaves the roster and the SWITCHED flag -/

/-- The roster's work before its switch-over ends. -/
def Turned (s t : State) : Prop :=
  Worked s t ∧ t.roster = s.roster ∧ t.deviceFlags.getLsbD DeviceFlag.switched.bit = s.deviceFlags.getLsbD DeviceFlag.switched.bit

namespace Turned

theorem refl (s : State) : Turned s s := ⟨.refl s, rfl, rfl⟩

theorem trans (h : Turned s t) (g : Turned t u) : Turned s u :=
  ⟨h.1.trans g.1, g.2.1.trans h.2.1, g.2.2.trans h.2.2⟩

theorem intends (h : Turned s t) (q : Port) : t.intends q = s.intends q := by
  have e := h.1.handles q
  unfold State.intends
  rw [h.2.1]
  cases ht : t.record q <;> cases hs : s.record q <;> simp_all

theorem intendedPorts (h : Turned s t) : t.intendedPorts = s.intendedPorts := by
  unfold State.intendedPorts
  rw [h.2.1]
  congr 1
  funext x
  exact h.1.portOfHandle x

theorem ahead (h : Turned s t) (n : Nat) : t.ahead n = s.ahead n := by
  have e := congrArg State.time h.1.1
  have e' : t.time = s.time := e
  unfold State.ahead State.tick
  rw [e']

theorem inForce (h : Turned s t) {r : Record} (hr : s.record q = some r) (hf : r.state = .inForce) :
    ∃ r', t.record q = some r' ∧ r'.state = .inForce := by
  have e := h.1.field q Record.state (fun _ => rfl)
  rw [hr] at e
  cases ht : t.record q with
  | none => simp [ht] at e
  | some r' => exact ⟨r', rfl, by simpa [ht, hf] using e⟩

end Turned

/-! ## What each operation of the roster does to the placing of ports -/

theorem placing_eq {v : Placing} : s.placing q = v ↔ s.path q = v.path ∧ (s.port q).front.closeOp = v.closeOp ∧ s.role q = v.role := by
  cases v
  simp [placing]

theorem placing_congr (h : t.port q = s.port q) : t.placing q = s.placing q := by
  unfold placing path role
  rw [h]

theorem setRole_turned (s : State) (p : Port) (r : Role) : Turned s (s.setRole p r) := ⟨setRole_worked s p r, rfl, rfl⟩

theorem setRole_placing (s : State) (p : Port) (r : Role) (q : Port) :
    (s.setRole p r).placing q = if q = p then { s.placing p with role := r } else s.placing q := by
  split
  · rename_i h
    subst h
    unfold placing path role
    rw [setRole_eq, port_modPort_self]
  · rename_i h
    exact placing_congr (by rw [setRole_eq, port_modPort_ne _ _ _ h])

theorem publish_switched (s : State) :
    s.publish.deviceFlags.getLsbD DeviceFlag.switched.bit = s.deviceFlags.getLsbD DeviceFlag.switched.bit := by
  simp only [publish]
  split
  · simp [setDeviceFlag, oneBit, DeviceFlag.bit]
  · rfl

theorem openPath_turned (s : State) (p : Port) : Turned s (s.openPath p) := by
  refine ⟨openPath_worked s p, openPath_roster s p, ?_⟩
  unfold openPath
  split
  · rfl
  · rfl
  · unfold reportPath
    dsimp only
    rw [publish_switched]
    have h1 : ∀ (s : State), (s.tidyWatch p).deviceFlags = s.deviceFlags := by intro s; unfold tidyWatch; split <;> rfl
    have h2 : ∀ (s : State), (s.meetRecall p).deviceFlags = s.deviceFlags := by
      intro s
      unfold meetRecall requestYield
      (repeat' split) <;> first | rfl | (dsimp only; split <;> rfl)
    dsimp only
    rw [h2, h1]
    rfl

theorem openForRoster_turned (s : State) (p : Port) : Turned s (s.openForRoster p) :=
  (openPath_turned s p).trans (setRole_turned _ p _)

theorem openForRoster_placing (s : State) (p q : Port) :
    (s.openForRoster p).placing q = if q = p then (s.placing p).opens else s.placing q := by
  unfold openForRoster
  rw [setRole_placing]
  split
  · rename_i h
    subst h
    by_cases ho : s.path q = .opened
    · have e : s.openPath q = s := by unfold openPath; rw [ho]
      have e' : (s.placing q).path = .opened := ho
      rw [e, Placing.opens, if_pos e']
      rfl
    · have e' : (s.placing q).path ≠ .opened := ho
      rw [Placing.opens, if_neg e']
      rw [Placing.mk.injEq]
      exact ⟨openPath_path s q, openPath_closeOp s q ho, rfl⟩
  · rename_i h
    exact placing_congr (openPath_others s p h)

/-- A fold of turns that each place their own port places every port of the list once. -/
theorem fold_placing {f : State → Port → State} {h : Port → Placing → Placing} {s₀ : State} (hT : ∀ s p, Turned s (f s p))
    (hf : ∀ s p, Turned s₀ s → ∀ q, (f s p).placing q = if q = p then h p (s.placing p) else s.placing q) {l : List Port}
    (hl : l.Nodup) {s : State} (hs : Turned s₀ s) :
    Turned s₀ (l.foldl f s) ∧ ∀ q, (l.foldl f s).placing q = if q ∈ l then h q (s.placing q) else s.placing q := by
  induction l generalizing s with
  | nil => exact ⟨hs, fun q => by simp⟩
  | cons p l ih =>
    obtain ⟨hp, hl⟩ := List.nodup_cons.mp hl
    obtain ⟨ht, hq⟩ := ih hl (hs.trans (hT s p))
    refine ⟨ht, fun q => ?_⟩
    rw [List.foldl_cons, hq q, hf s p hs q]
    by_cases e : q = p
    · subst e
      simp [hp]
    · simp [e]

/-- Where the first part of R122 puts a port. -/
def dropped (s : State) (p : Port) (v : Placing) : Placing :=
  if s.mode p = .auto && !s.intends p then
    match v.path with
    | .closing => v.opens
    | .closed => if s.eligibleSupply p then v else v.opens
    | .opened => v.idle
  else v

theorem dropUnwanted_turned (s : State) (p : Port) : Turned s (s.dropUnwanted p) := by
  unfold dropUnwanted
  repeat' split
  all_goals first | exact .refl s | exact openForRoster_turned s p | exact setRole_turned s p _

theorem dropUnwanted_placing {s₀ : State} (h : Turned s₀ s) (p q : Port) :
    (s.dropUnwanted p).placing q = if q = p then s₀.dropped p (s.placing p) else s.placing q := by
  have e : s₀.dropped p (s.placing p) = s.dropped p (s.placing p) := by
    unfold dropped
    rw [h.intends, h.1.mode, h.1.eligibleSupply]
  rw [e]
  have hp : (s.placing p).path = s.path p := rfl
  have same : s.placing q = if q = p then s.placing p else s.placing q := by
    split
    · rename_i h; rw [h]
    · rfl
  unfold dropUnwanted dropped
  rw [hp]
  split
  · cases s.path p with
    | closing => exact openForRoster_placing s p q
    | closed =>
      dsimp only
      split
      · exact same
      · exact openForRoster_placing s p q
    | opened => exact setRole_placing s p _ q
  · exact same

/-- Where the second part of R122 puts a port. -/
def keptWanted (s : State) (p : Port) (v : Placing) : Placing :=
  if s.intends p && v.path = .closed then v.idle else v

theorem keepWanted_turned (s : State) (p : Port) : Turned s (s.keepWanted p) := by
  unfold keepWanted
  split
  · exact setRole_turned s p _
  · exact .refl s

theorem keepWanted_placing {s₀ : State} (h : Turned s₀ s) (p q : Port) :
    (s.keepWanted p).placing q = if q = p then s₀.keptWanted p (s.placing p) else s.placing q := by
  have hp : (s.placing p).path = s.path p := rfl
  unfold keepWanted keptWanted
  rw [h.intends, hp]
  split
  · exact setRole_placing s p _ q
  · split
    · rename_i h; rw [h]
    · rfl

/-! ## Asking closes -/

/-- A close that the front-end takes. -/
theorem askClose_taken {r : Record} (l : List Port) (hr : s.record p = some r) (hf : r.state = .inForce) (hm : s.mode p = .auto)
    (hroom : s.path p = .opened → s.pathCount < 2) :
    ∃ t, askClose [] (s, l) p = (t, l) ∧ Turned s t ∧
      ∀ q, t.placing q = if q = p then (s.placing p).asked (s.ahead 500) else s.placing q := by
  have hp : (s.placing p).path = s.path p := rfl
  by_cases ho : s.path p = .opened
  · have ha : s.admitsClose p = true := by simp [admitsClose, hr, hf, hm, hroom ho]
    refine ⟨_, by
      unfold askClose requestClose
      simp only [List.contains_nil, Bool.false_eq_true, if_false, ho, ha, if_true]
      rfl, ?_, fun q => ?_⟩
    · exact ⟨(Worked.port s p _ rfl).trans (setRole_worked _ p _), rfl, rfl⟩
    · rw [setRole_placing]
      split
      · rename_i h
        subst h
        rw [Placing.asked, if_pos (hp.trans ho)]
        rw [Placing.mk.injEq]
        refine ⟨?_, ?_, rfl⟩
        · show ((s.modFront q _).port q).front.path = _
          rw [modFront_eq, port_modPort_self]
        · show ((s.modFront q _).port q).front.closeOp = _
          rw [modFront_eq, port_modPort_self]
      · rename_i h
        exact placing_congr (by rw [modFront_eq, port_modPort_ne _ _ _ h])
  · have e : askClose [] (s, l) p = (s.setRole p .incoming, l) := by
      unfold askClose requestClose
      cases hc : s.path p with
      | opened => exact absurd hc ho
      | closing => simp
      | closed => simp
    refine ⟨_, e, setRole_turned s p _, fun q => ?_⟩
    rw [setRole_placing, Placing.asked, if_neg (fun h => ho (hp.symm.trans h))]

theorem pathCount_eq (s : State) : s.pathCount = Port.all.countP (fun q => (s.placing q).used) := rfl

theorem rosterCount_eq (s : State) :
    s.rosterCount = Port.all.countP (fun q => s.mode q = .auto && (s.placing q).counted) +
      Port.all.countP (fun q => s.mode q = .direct && (s.placing q).used) := rfl

/-- The closes of a list of ports are all taken when the two-path limit has room for those that are OPEN. -/
theorem asks_taken {s₀ : State} {g : State × List Port → Port → State × List Port} {l : List Port} (hl : l.Nodup)
    (hr : ∀ p ∈ l, ∃ r, s₀.record p = some r ∧ r.state = .inForce) (hm : ∀ p ∈ l, s₀.mode p = .auto) {s : State}
    (hs : Turned s₀ s) (hc : ∀ p ∈ l, (s.placing p).counted = false)
    (hroom : Port.all.countP (fun q => (s.placing q).used) +
      Port.all.countP (fun q => decide (q ∈ l) && decide ((s.placing q).path = .opened)) ≤ 2)
    (hg : g = askClose [] ∨ (g = askIfRoom [] ∧ s.rosterCount + Port.all.countP (fun q => decide (q ∈ l)) ≤ 2)) :
    (l.foldl g (s, [])).2 = [] ∧ Turned s₀ (l.foldl g (s, [])).1 ∧
      ∀ q, (l.foldl g (s, [])).1.placing q = if q ∈ l then (s.placing q).asked (s₀.ahead 500) else s.placing q := by
  induction l generalizing s with
  | nil => exact ⟨rfl, hs, fun q => by simp⟩
  | cons p l ih =>
    obtain ⟨hp, hl⟩ := List.nodup_cons.mp hl
    obtain ⟨r₀, hr₀, hf₀⟩ := hr p (.head _)
    obtain ⟨r, hrp, hf⟩ := hs.inForce hr₀ hf₀
    have hmp : s.mode p = .auto := by rw [hs.1.mode]; exact hm p (.head _)
    have hpath : s.path p = .opened → s.pathCount < 2 := by
      intro ho
      have h1 : 0 < Port.all.countP (fun q => decide (q ∈ p :: l) && decide ((s.placing q).path = .opened)) := by
        refine List.countP_pos_iff.mpr ⟨p, mem_all p, ?_⟩
        have ho' : (s.placing p).path = .opened := ho
        simp [ho']
      rw [pathCount_eq]
      omega
    obtain ⟨t, ht, hst, htq⟩ := askClose_taken [] hrp hf hmp hpath
    have hgt : g (s, []) p = (t, []) := by
      obtain e | ⟨e, hcount⟩ := hg
      · rw [e]; exact ht
      · have h1 : 0 < Port.all.countP (fun q => decide (q ∈ p :: l)) := List.countP_pos_iff.mpr ⟨p, mem_all p, by simp⟩
        have h2 : s.rosterCount < 2 := by omega
        rw [e]
        unfold askIfRoom
        rw [if_pos h2]
        exact ht
    have htp : ∀ q ∈ l, t.placing q = s.placing q := by
      intro q hq
      rw [htq q, if_neg (fun e : q = p => hp (e ▸ hq))]
    have hroom' : Port.all.countP (fun q => (t.placing q).used) +
        Port.all.countP (fun q => decide (q ∈ l) && decide ((t.placing q).path = .opened)) ≤ 2 := by
      refine le_trans (countP_le_countP (fun q => ?_)) hroom
      rw [htq q]
      by_cases e : q = p
      · subst e
        simp only [if_true, hp, decide_false, Bool.false_and, List.mem_cons_self, decide_true, Bool.true_and, Placing.used,
          Placing.asked]
        cases (s.placing q).path <;> simp [Bool.toNat_le]
      · simp [e]
    have hg' : g = askClose [] ∨ (g = askIfRoom [] ∧ t.rosterCount + Port.all.countP (fun q => decide (q ∈ l)) ≤ 2) := by
      refine hg.imp_right (fun e => ⟨e.1, le_trans ?_ e.2⟩)
      have hcp := hc p (.head _)
      have h1 : Port.all.countP (fun q => decide (t.mode q = .auto) && (t.placing q).counted) +
          Port.all.countP (fun q => decide (q ∈ l)) ≤
          Port.all.countP (fun q => decide (s.mode q = .auto) && (s.placing q).counted) +
          Port.all.countP (fun q => decide (q ∈ p :: l)) := by
        refine countP_le_countP (fun q => ?_)
        rw [htq q, hst.1.mode]
        by_cases e : q = p
        · subst e
          refine le_trans (Nat.add_le_add (Bool.toNat_le _) (le_refl _)) ?_
          simp [hp]
        · simp [e]
      have h2 : Port.all.countP (fun q => decide (t.mode q = .direct) && (t.placing q).used) =
          Port.all.countP (fun q => decide (s.mode q = .direct) && (s.placing q).used) := by
        refine List.countP_congr (fun q _ => ?_)
        rw [htq q, hst.1.mode]
        by_cases e : q = p
        · subst e
          simp [hmp]
        · simp [e]
      rw [rosterCount_eq, rosterCount_eq, h2]
      omega
    obtain ⟨h1, h2, h3⟩ := ih hl (fun q h => hr q (.tail _ h)) (fun q h => hm q (.tail _ h)) (hs.trans hst)
      (fun q h => by rw [htp q h]; exact hc q (.tail _ h)) hroom' hg'
    rw [List.foldl_cons, hgt]
    refine ⟨h1, h2, fun q => ?_⟩
    rw [h3 q, htq q]
    by_cases e : q = p
    · subst e
      simp [hp, hs.ahead]
    · simp [e]

/-! ## The supplying set -/

/-- A state as a recomputation finds it: paths backed, handles distinct, the roster exact. -/
structure Orderly (s : State) : Prop where
  backed   : s.PathsBacked
  distinct : s.HandlesDistinct
  exact    : s.RosterExact

theorem eligibleSupply_eq (s : State) (p : Port) : s.eligibleSupply p = s.maySupply p := by
  unfold eligibleSupply maySupply inInputWindow
  cases s.record p with
  | none => simp
  | some r =>
    simp only [Option.any_some]
    cases (r.state != RecordState.benched) <;> cases decide (s.mode p = Mode.auto) <;> rfl

theorem formSet_eq (s : State) : s.formSet = s.supplyingSet := by
  have e : s.eligibleHandle = fun h => (s.portOfHandle h).any s.maySupply := by
    funext h
    unfold eligibleHandle
    cases s.portOfHandle h with
    | none => rfl
    | some p => exact eligibleSupply_eq s p
  unfold formSet supplyingSet allowed
  rw [e]
  cases s.policy.combine <;> rfl

theorem formed_intends (s : State) (p : Port) : s.formed.intends p = s.wanted p := by
  have e : s.formed.roster.intended = s.supplyingSet := formSet_eq s
  have e' : s.formed.record p = s.record p := rfl
  unfold intends wanted
  rw [e, e']
  cases s.record p <;> rfl

namespace Orderly

theorem portOfHandle (h : s.Orderly) {r : Record} (hr : s.record p = some r) : s.portOfHandle r.handle = some p := by
  have hs : (s.portOfHandle r.handle).isSome = true := by
    unfold State.portOfHandle
    rw [List.find?_isSome]
    exact ⟨p, mem_all p, by simp [hr]⟩
  obtain ⟨q, hq⟩ := Option.isSome_iff_exists.mp hs
  obtain ⟨r', hr', e⟩ := portOfHandle_record hq
  by_cases hpq : p = q
  · rw [hpq]; exact hq
  · exact absurd e.symm (h.distinct.2 p q r r' hpq hr hr')

/-- What holds of a port whose record is in the supplying set. -/
theorem wanted_spec (h : s.Orderly) (hw : s.wanted p = true) :
    ∃ r, s.record p = some r ∧ r.state = .inForce ∧ s.mode p = .auto ∧ s.maySupply p = true ∧ r.handle ∈ s.supplyingSet := by
  cases hr : s.record p with
  | none => simp [wanted, hr] at hw
  | some r =>
    have hm : r.handle ∈ s.supplyingSet := by simpa [wanted, hr] using hw
    have hf := List.mem_filter.mp (List.mem_of_mem_take hm)
    have hsup : s.maySupply p = true := by simpa [h.portOfHandle hr] using hf.2
    obtain ⟨q, r', hr', hl, e⟩ := (h.exact.2 r.handle).mp hf.1
    have hpq : p = q := by
      by_contra hne
      exact h.distinct.2 p q r r' hne hr hr' e.symm
    subst hpq
    have : r' = r := by simpa [hr] using hr'.symm
    subst this
    have ha := hsup
    simp only [maySupply, hr, Bool.and_eq_true, decide_eq_true_eq, Option.any_some, bne_iff_ne, ne_eq] at ha
    refine ⟨r', rfl, ?_, ha.1, hsup, hm⟩
    have hb := ha.2.1.1
    unfold Record.live at hl
    cases hst : r'.state <;> simp_all

theorem mem_intendedPorts (h : s.Orderly) : p ∈ s.formed.intendedPorts ↔ s.wanted p = true := by
  rw [← formed_intends]
  refine ⟨intends_of_mem, fun hi => ?_⟩
  rw [formed_intends] at hi
  obtain ⟨r, hr, -, -, -, hm⟩ := h.wanted_spec hi
  rw [intendedPorts, List.mem_filterMap]
  refine ⟨r.handle, ?_, ?_⟩
  · show r.handle ∈ s.formSet
    rw [formSet_eq]
    exact hm
  · exact h.portOfHandle hr

theorem intendedPorts_nodup (h : s.Orderly) : s.formed.intendedPorts.Nodup := by
  have hn : s.formSet.Nodup := (h.exact.1.filter _).sublist (List.take_sublist _ _)
  refine List.Nodup.filterMap (fun x y q hx hy => ?_) hn
  obtain ⟨r, hr, e⟩ := portOfHandle_record hx
  obtain ⟨r', hr', e'⟩ := portOfHandle_record hy
  have : r = r' := by simpa [hr] using hr'
  rw [← e, ← e', this]

/-- The ports of the set, with those that DIRECT holds, are within what COMBINE allows (R117). -/
theorem wanted_count (h : s.Orderly) (hw : s.wanted p = true) :
    Port.all.countP (fun q => s.wanted q) + s.directHeld ≤ if s.policy.combine = .pair then 2 else 1 := by
  have e : (fun q => s.wanted q) = fun q => decide (q ∈ s.formed.intendedPorts) := by
    funext q
    have := h.mem_intendedPorts (p := q)
    by_cases hq : s.wanted q = true
    · simp [hq, this.mpr hq]
    · have hn : q ∉ s.formed.intendedPorts := fun x => hq (this.mp x)
      simp [hq, hn]
  have h1 : s.formed.intendedPorts.length ≤ s.supplyingSet.length := by
    rw [← formSet_eq]
    exact List.length_filterMap_le _ _
  have h2 : s.supplyingSet.length ≤ (if s.policy.combine = .pair then 2 else 1) - s.directHeld := List.length_take_le _ _
  have h3 : 0 < s.formed.intendedPorts.length := List.length_pos_of_mem (h.mem_intendedPorts.mpr hw)
  rw [e, ← length_eq_countP h.intendedPorts_nodup]
  omega

end Orderly

/-! ## The steps before a close is asked -/

/-- Where R122 puts a port before any close is asked. -/
def midway (s : State) (p : Port) : Placing :=
  if s.mode p ≠ .auto then s.placing p
  else if s.wanted p then (if s.path p = .closed then (s.placing p).idle else s.placing p)
  else if s.outgoes p then s.placing p
  else { path := .opened, closeOp := none, role := .none }

/-- The state after the steps of R122. -/
def sorted (s : State) : State := Port.all.foldl keepWanted (Port.all.foldl dropUnwanted s.formed)

theorem placing_formed (s : State) (q : Port) : s.formed.placing q = s.placing q := rfl

theorem outgoes_spec (h : s.outgoes p = true) : s.mode p = .auto ∧ s.wanted p = false ∧ s.path p = .closed ∧ s.maySupply p = true := by
  simp only [outgoes, Bool.and_eq_true, Bool.not_eq_true', decide_eq_true_eq] at h
  have hm := h.1.1
  simp only [maySupply, Bool.and_eq_true, decide_eq_true_eq] at hm
  exact ⟨hm.1, h.1.2, h.2, h.1.1⟩

theorem closeOp_opened (h : s.PathsBacked) (ho : s.path p = .opened) : (s.port p).front.closeOp = none := by
  cases hc : (s.port p).front.closeOp with
  | none => rfl
  | some c =>
    have := (h p).2.mp (by rw [hc]; rfl)
    rw [ho] at this
    cases this

/-- The placing after the first part of R122. -/
theorem dropped_eq (h : s.PathsBacked) (q : Port) :
    s.formed.dropped q (s.placing q) =
      if s.mode q ≠ .auto ∨ s.wanted q = true ∨ s.outgoes q = true then s.placing q
      else { path := .opened, closeOp := none, role := .none } := by
  have hp : (s.placing q).path = s.path q := rfl
  have hm : s.formed.mode q = s.mode q := rfl
  have he : s.formed.eligibleSupply q = s.maySupply q := eligibleSupply_eq s q
  unfold dropped
  rw [formed_intends, hm, he]
  by_cases ha : s.mode q = .auto
  · by_cases hw : s.wanted q = true
    · simp [hw]
    · have hw' : s.wanted q = false := by simpa using hw
      simp only [ha, hw', decide_true, Bool.not_false, Bool.and_self, if_true, hp, ne_eq, not_true_eq_false, false_or, Bool.false_eq_true]
      cases hq : s.path q with
      | opened =>
        have ho : s.outgoes q = false := by simp [outgoes, hq]
        simp only [ho, Bool.false_eq_true, if_false]
        unfold Placing.idle
        rw [Placing.mk.injEq]
        exact ⟨hp.trans hq, closeOp_opened h hq, rfl⟩
      | closing =>
        have ho : s.outgoes q = false := by simp [outgoes, hq]
        simp [ho, Placing.opens, hp, hq]
      | closed =>
        have ho : s.outgoes q = s.maySupply q := by simp [outgoes, hq, hw']
        rw [ho]
        by_cases hs : s.maySupply q = true
        · simp [hs]
        · simp [hs, Placing.opens, hp, hq]
  · simp [ha]

theorem sorted_spec (h : s.Orderly) :
    Turned s.formed s.sorted ∧ (∀ q, s.sorted.placing q = s.midway q) ∧
      Port.all.filter (Port.all.foldl dropUnwanted s.formed).outgoing = Port.all.filter s.outgoes := by
  obtain ⟨hT, hD⟩ := fold_placing dropUnwanted_turned (fun s p h q => dropUnwanted_placing h p q) all_nodup (Turned.refl s.formed)
  obtain ⟨hK, hP⟩ := fold_placing keepWanted_turned (fun s p h q => keepWanted_placing h p q) all_nodup hT
  have hd : ∀ q, (Port.all.foldl dropUnwanted s.formed).placing q = s.formed.dropped q (s.placing q) := by
    intro q
    rw [hD q, if_pos (mem_all q)]
    rfl
  refine ⟨hK, fun q => ?_, ?_⟩
  · have e : s.sorted.placing q = s.formed.keptWanted q (s.formed.dropped q (s.placing q)) := by
      unfold sorted
      rw [hP q, if_pos (mem_all q), hd q]
    rw [e, dropped_eq h.backed]
    unfold keptWanted midway
    rw [formed_intends]
    have hp : (s.placing q).path = s.path q := rfl
    by_cases hw : s.wanted q = true
    · obtain ⟨-, -, -, ha, -, -⟩ := h.wanted_spec hw
      simp [hw, ha, hp]
    · by_cases ha : s.mode q = .auto
      · by_cases ho : s.outgoes q = true
        · simp [hw, ha, ho]
        · simp [hw, ha, ho]
      · simp [hw, ha]
  · refine List.filter_congr (fun q _ => ?_)
    have e : (Port.all.foldl dropUnwanted s.formed).path q =
        ((Port.all.foldl dropUnwanted s.formed).placing q).path := rfl
    have hm : s.formed.mode q = s.mode q := rfl
    unfold outgoing
    rw [e, hd q, dropped_eq h.backed, hT.intends, hT.1.mode, hm, formed_intends]
    have hp : (s.placing q).path = s.path q := rfl
    by_cases ho : s.outgoes q = true
    · obtain ⟨ha, hw, hc, -⟩ := outgoes_spec ho
      simp [ho, ha, hw, hc, hp]
    · by_cases ha : s.mode q = .auto
      · by_cases hw : s.wanted q = true
        · simp [ho, hw]
        · simp [ho, hw, ha]
      · simp [ho, ha]

/-! ## The closes that are asked -/

/-- The ports whose close a recomputation asks. -/
def asks (s : State) : List Port := s.formed.intendedPorts.filter s.sorted.pendingClose

theorem mem_asks (h : s.Orderly) : p ∈ s.asks ↔ s.wanted p = true ∧ s.path p ≠ .closed ∧ s.role p ≠ .incoming := by
  have hP := h |> sorted_spec |>.2.1 p
  unfold asks
  rw [List.mem_filter, h.mem_intendedPorts]
  refine and_congr_right (fun hw => ?_)
  obtain ⟨-, -, -, ha, -, -⟩ := h.wanted_spec hw
  have e1 : s.sorted.path p = (s.sorted.placing p).path := rfl
  have e2 : s.sorted.role p = (s.sorted.placing p).role := rfl
  unfold pendingClose
  rw [e1, e2, hP]
  unfold midway
  by_cases hc : s.path p = .closed
  · simp [ha, hw, hc, Placing.idle, placing]
  · simp [ha, hw, hc, placing]

theorem asks_nodup (h : s.Orderly) : s.asks.Nodup := h.intendedPorts_nodup.filter _

/-- What a port outside the set, and one that DIRECT holds, counts. -/
theorem midway_used (h : s.Orderly) (q : Port) :
    ((s.midway q).used).toNat + (decide (q ∈ s.asks) && decide ((s.midway q).path = .opened)).toNat ≤
      (s.wanted q || s.outgoes q).toNat + (decide (s.mode q = .direct) && (s.placing q).used).toNat := by
  have hp : (s.placing q).path = s.path q := rfl
  have hm := mem_asks (p := q) h
  by_cases ha : s.mode q = .auto
  · by_cases hw : s.wanted q = true
    · have e : (s.midway q).path = s.path q := by
        unfold midway
        by_cases hc : s.path q = .closed <;> simp [ha, hw, hc, Placing.idle, hp]
      rw [hw, Placing.used, e]
      refine le_trans (b := 1) ?_ (by simp)
      cases s.path q <;> simp [Bool.toNat_le]
    · have hn : q ∉ s.asks := fun x => hw (hm.mp x).1
      by_cases ho : s.outgoes q = true
      · refine le_trans (b := 1) ?_ (by simp [ho])
        simp [hn, Bool.toNat_le]
      · simp [midway, ha, hw, ho, hn, Placing.used]
  · have hw : s.wanted q = false := by
      by_contra hc
      obtain ⟨-, -, -, hx, -, -⟩ := h.wanted_spec (by simpa using hc)
      exact ha hx
    have hn : q ∉ s.asks := fun x => by simpa [hw] using (hm.mp x).1
    have e : s.midway q = s.placing q := by simp [midway, ha]
    rw [e]
    cases hmd : s.mode q with
    | auto => exact absurd hmd ha
    | direct => simp [hn]
    | sense =>
      have ho : s.path q = .opened := by
        by_contra hc
        exact ((h.backed q).1 hc).2 hmd
      simp [hn, Placing.used, hp, ho]

theorem directHeld_eq (s : State) :
    s.directHeld = Port.all.countP (fun q => decide (s.mode q = .direct) && (s.placing q).used) := rfl

/-- The DIRECT held count as the steps of R122 leave it. -/
theorem midway_direct (s : State) :
    Port.all.countP (fun q => decide (s.mode q = .direct) && (s.midway q).used) = s.directHeld := by
  rw [directHeld_eq]
  refine List.countP_congr (fun q _ => ?_)
  by_cases hd : s.mode q = .direct
  · simp [midway, hd]
  · simp [hd]

theorem midway_counted (h : s.Orderly) (q : Port) :
    (decide (s.mode q = .auto) && (s.midway q).counted).toNat + (decide (q ∈ s.asks)).toNat = (s.wanted q || s.outgoes q).toNat := by
  have hp : (s.placing q).path = s.path q := rfl
  have hr : (s.placing q).role = s.role q := rfl
  have hm := mem_asks (p := q) h
  by_cases ha : s.mode q = .auto
  · by_cases hw : s.wanted q = true
    · by_cases hc : s.path q = .closed
      · have hn : q ∉ s.asks := fun x => (hm.mp x).2.1 hc
        simp [midway, ha, hw, hc, hn, Placing.counted, Placing.idle, hp]
      · by_cases hi : s.role q = .incoming
        · have hn : q ∉ s.asks := fun x => (hm.mp x).2.2 hi
          simp [midway, ha, hw, hc, hn, Placing.counted, hr, hi]
        · have hy : q ∈ s.asks := hm.mpr ⟨hw, hc, hi⟩
          simp [midway, ha, hw, hc, hy, Placing.counted, hr, hp, hi]
    · have hn : q ∉ s.asks := fun x => hw (hm.mp x).1
      by_cases ho : s.outgoes q = true
      · obtain ⟨-, -, hc, -⟩ := outgoes_spec ho
        simp [midway, ha, hw, ho, hn, Placing.counted, hp, hc]
      · simp [midway, ha, hw, ho, hn, Placing.counted]
  · have hw : s.wanted q = false := by
      by_contra hc
      obtain ⟨-, -, -, hx, -, -⟩ := h.wanted_spec (by simpa using hc)
      exact ha hx
    have ho : s.outgoes q = false := by
      by_contra hc
      exact ha (outgoes_spec (by simpa using hc)).1
    have hn : q ∉ s.asks := fun x => by simpa [hw] using (hm.mp x).1
    simp [ha, hw, ho, hn]

/-- The roster's count with the pending ports (R123). -/
theorem sorted_count (h : s.Orderly) :
    s.sorted.rosterCount + s.asks.length = Port.all.countP (fun q => s.wanted q || s.outgoes q) + s.directHeld := by
  obtain ⟨hT, hP, -⟩ := sorted_spec h
  have hm : ∀ q, s.sorted.mode q = s.mode q := fun q => hT.1.mode q
  have e := countP_eq_countP (f' := fun q => s.wanted q || s.outgoes q) (g' := fun _ => false) (midway_counted h)
  have ez : Port.all.countP (fun _ => false) = 0 := rfl
  rw [rosterCount_eq, length_eq_countP (asks_nodup h)]
  simp only [hm, hP, midway_direct]
  rw [ez] at e
  omega

/-! ## The whole recomputation -/

theorem incomes_false (h : s.incomes = false) (hw : s.wanted p = true) : s.path p = .closed := by
  have e := List.any_eq_false.mp h p (mem_all p)
  simpa [hw] using e

theorem incomes_true (h : s.incomes = true) : ∃ q, s.wanted q = true ∧ s.path q ≠ .closed := by
  obtain ⟨q, -, hq⟩ := List.any_eq_true.mp h
  exact ⟨q, by simpa using hq⟩

/-- The paths of the set before any close is asked are CLOSED when nothing comes in. -/
theorem sorted_closed (h : s.Orderly) :
    s.sorted.intendedPorts.all (fun p => s.sorted.path p = .closed) = !s.incomes := by
  obtain ⟨hT, hP, -⟩ := sorted_spec h
  have hp : ∀ q, s.wanted q = true → s.sorted.path q = s.path q := by
    intro q hw
    obtain ⟨-, -, -, ha, -, -⟩ := h.wanted_spec hw
    have e : s.sorted.path q = (s.sorted.placing q).path := rfl
    rw [e, hP]
    unfold midway
    by_cases hc : s.path q = .closed <;> simp [ha, hw, hc, Placing.idle, placing]
  rw [hT.intendedPorts]
  cases hi : s.incomes with
  | false =>
    refine List.all_eq_true.mpr (fun q hq => ?_)
    have hw := h.mem_intendedPorts.mp hq
    simp [hp q hw, incomes_false hi hw]
  | true =>
    obtain ⟨q, hw, hc⟩ := incomes_true hi
    refine List.all_eq_false.mpr ⟨q, h.mem_intendedPorts.mpr hw, ?_⟩
    simp [hp q hw, hc]

theorem makesFirst_iff (h : s.Orderly) :
    (s.sorted.policy.combine = .single ∧ s.sorted.rosterCount + s.asks.length ≤ 2) ↔ s.makesFirst = true := by
  have hT := (sorted_spec h).1
  have hp : s.sorted.policy = s.policy := hT.1.policy
  rw [sorted_count h, hp]
  simp [makesFirst]

/-- The steps of a recomputation by their three cases (R122 to R124). -/
theorem switchSteps_eq (h : s.Orderly) :
    s.formed.switchSteps [] =
      if s.incomes = false then ((Port.all.filter s.outgoes).foldl openForRoster s.sorted, [])
      else if s.makesFirst = true then s.sorted.makeBeforeBreak [] s.asks (Port.all.filter s.outgoes)
      else s.sorted.breakBeforeMake [] s.asks (Port.all.filter s.outgoes) := by
  obtain ⟨hT, -, hO⟩ := sorted_spec h
  have hA : s.sorted.intendedPorts.filter s.sorted.pendingClose = s.asks := by rw [hT.intendedPorts]; rfl
  have hS : s.formed.switchSteps [] =
      if s.sorted.intendedPorts.all (fun p => s.sorted.path p = .closed) = true then
        ((Port.all.filter (Port.all.foldl dropUnwanted s.formed).outgoing).foldl openForRoster s.sorted, [])
      else if s.sorted.policy.combine = .single ∧
          s.sorted.rosterCount + (s.sorted.intendedPorts.filter s.sorted.pendingClose).length ≤ 2 then
        s.sorted.makeBeforeBreak [] (s.sorted.intendedPorts.filter s.sorted.pendingClose)
          (Port.all.filter (Port.all.foldl dropUnwanted s.formed).outgoing)
      else s.sorted.breakBeforeMake [] (s.sorted.intendedPorts.filter s.sorted.pendingClose)
        (Port.all.filter (Port.all.foldl dropUnwanted s.formed).outgoing) := rfl
  rw [hS, hO, hA, sorted_closed h]
  simp only [makesFirst_iff h, Bool.not_eq_true']

/-- Where a port that is not outgoing ends once its close has been asked. -/
theorem asked_placing (h : s.Orderly) (ho : s.outgoes q = false) :
    (if q ∈ s.asks then (s.midway q).asked (s.ahead 500) else s.midway q) = s.placingAfter q := by
  by_cases ha : s.mode q = .auto
  · by_cases hw : s.wanted q = true
    · by_cases hy : q ∈ s.asks
      · obtain ⟨-, hc, hi⟩ := (mem_asks h).mp hy
        rw [if_pos hy]
        cases hp : s.path q with
        | closed => exact absurd hp hc
        | closing => simp [midway, placingAfter, ha, hw, hp, Placing.asked, placing]
        | opened => simp [midway, placingAfter, ha, hw, hp, Placing.asked, placing, hi]
      · have hn : s.path q ≠ .closed → s.role q = .incoming := by
          intro hc
          by_contra hi
          exact hy ((mem_asks h).mpr ⟨hw, hc, hi⟩)
        rw [if_neg hy]
        cases hp : s.path q with
        | closed => simp [midway, placingAfter, ha, hw, hp, Placing.idle]
        | closing =>
          have hi := hn (by rw [hp]; decide)
          simp [midway, placingAfter, ha, hw, hp, placing, hi]
        | opened =>
          have hi := hn (by rw [hp]; decide)
          simp [midway, placingAfter, ha, hw, hp, hi]
    · have hn : q ∉ s.asks := fun x => hw ((mem_asks h).mp x).1
      simp [hn, midway, placingAfter, ha, hw, ho]
  · have hn : q ∉ s.asks := by
      intro x
      obtain ⟨-, -, -, hm, -⟩ := h.wanted_spec ((mem_asks h).mp x).1
      exact ha hm
    simp [hn, midway, ha, placingAfter]

theorem outgoing_opens (ho : s.outgoes q = true) :
    (s.midway q).opens = { path := .opened, closeOp := none, role := .none } := by
  obtain ⟨ha, hw, hc, -⟩ := outgoes_spec ho
  simp [midway, ha, hw, ho, Placing.opens, placing, hc]

/-- An outgoing port that is not held. -/
theorem outgoing_placing (ho : s.outgoes q = true) (hx : (s.incomes && s.makesFirst) = false) :
    s.placingAfter q = { path := .opened, closeOp := none, role := .none } := by
  obtain ⟨ha, hw, -, -⟩ := outgoes_spec ho
  simp only [placingAfter, ha, hw, ho, ne_eq, not_true_eq_false, if_false, Bool.false_eq_true, Bool.true_and, hx]

theorem asks_inForce (h : s.Orderly) : ∀ p ∈ s.asks, ∃ r, s.formed.record p = some r ∧ r.state = .inForce := by
  intro p hp
  obtain ⟨r, hr, hf, -⟩ := h.wanted_spec ((mem_asks h).mp hp).1
  exact ⟨r, hr, hf⟩

theorem asks_auto (h : s.Orderly) : ∀ p ∈ s.asks, s.formed.mode p = .auto := by
  intro p hp
  obtain ⟨-, -, -, ha, -⟩ := h.wanted_spec ((mem_asks h).mp hp).1
  exact ha

/-- A port whose close is asked is not outgoing, and not yet counted. -/
theorem asks_spec (h : s.Orderly) (hp : p ∈ s.asks) : s.outgoes p = false ∧ (s.midway p).counted = false := by
  obtain ⟨hw, hc, hi⟩ := (mem_asks h).mp hp
  obtain ⟨-, -, -, ha, -⟩ := h.wanted_spec hw
  refine ⟨by simp [outgoes, hw], ?_⟩
  simp [midway, ha, hw, hc, Placing.counted, placing, hi]

theorem mem_outgoing : q ∈ Port.all.filter s.outgoes ↔ s.outgoes q = true := by simp [mem_all]

theorem outgoing_nodup (s : State) : (Port.all.filter s.outgoes).Nodup := all_nodup.filter _

/-- Nothing comes in: the outgoing paths open (R122). -/
theorem noIncoming_spec (h : s.Orderly) (hi : s.incomes = false) :
    Turned s.formed ((Port.all.filter s.outgoes).foldl openForRoster s.sorted) ∧
      ∀ q, ((Port.all.filter s.outgoes).foldl openForRoster s.sorted).placing q = s.placingAfter q := by
  obtain ⟨hT, hP, -⟩ := sorted_spec h
  obtain ⟨hF, hq⟩ := fold_placing (h := fun _ v => v.opens) openForRoster_turned (fun s p _ q => openForRoster_placing s p q)
    (outgoing_nodup s) hT
  refine ⟨hF, fun q => ?_⟩
  rw [hq q, hP]
  by_cases ho : s.outgoes q = true
  · rw [if_pos (mem_outgoing.mpr ho), outgoing_opens ho, outgoing_placing ho (by simp [hi])]
  · have ho' : s.outgoes q = false := by simpa using ho
    have hn : q ∉ s.asks := by
      intro x
      obtain ⟨hw, hc, -⟩ := (mem_asks h).mp x
      exact hc (incomes_false hi hw)
    rw [if_neg (fun x => ho (mem_outgoing.mp x)), ← asked_placing h ho', if_neg hn]

/-- Make before break (R123). -/
theorem makeBeforeBreak_spec (h : s.Orderly) (hi : s.incomes = true) (hf : s.makesFirst = true) :
    (s.sorted.makeBeforeBreak [] s.asks (Port.all.filter s.outgoes)).2 = [] ∧
      Turned s.formed (s.sorted.makeBeforeBreak [] s.asks (Port.all.filter s.outgoes)).1 ∧
      ∀ q, (s.sorted.makeBeforeBreak [] s.asks (Port.all.filter s.outgoes)).1.placing q = s.placingAfter q := by
  obtain ⟨hT, hP, -⟩ := sorted_spec h
  have hle : Port.all.countP (fun p => s.wanted p || s.outgoes p) + s.directHeld ≤ 2 := by
    simp only [makesFirst, Bool.and_eq_true, decide_eq_true_eq] at hf
    exact hf.2
  have hroom : Port.all.countP (fun q => (s.sorted.placing q).used) +
      Port.all.countP (fun q => decide (q ∈ s.asks) && decide ((s.sorted.placing q).path = .opened)) ≤ 2 := by
    simp only [hP]
    exact le_trans (countP_le_countP (midway_used h)) hle
  obtain ⟨h1, h2, h3⟩ := asks_taken (asks_nodup h) (asks_inForce h) (asks_auto h) hT
    (fun p hp => by rw [hP]; exact (asks_spec h hp).2) hroom (.inl rfl)
  obtain ⟨hF, hq⟩ := fold_placing (f := fun s p => s.setRole p .held) (h := fun _ v => { v with role := .held })
    (fun s p => setRole_turned s p _) (fun s p _ q => setRole_placing s p _ q) (outgoing_nodup s) h2
  refine ⟨h1, hF, fun q => ?_⟩
  have e : (s.sorted.makeBeforeBreak [] s.asks (Port.all.filter s.outgoes)).1.placing q = _ := hq q
  rw [e, h3 q, hP]
  by_cases ho : s.outgoes q = true
  · obtain ⟨ha, hw, -, -⟩ := outgoes_spec ho
    have hn : q ∉ s.asks := fun x => by simpa [ho] using (asks_spec h x).1
    rw [if_pos (mem_outgoing.mpr ho), if_neg hn]
    simp [midway, placingAfter, ha, hw, ho, hi, hf]
  · have ho' : s.outgoes q = false := by simpa using ho
    rw [if_neg (fun x => ho (mem_outgoing.mp x))]
    exact asked_placing h ho'

/-- A port after the steps of R122 and the opening of the outgoing paths. -/
def broken (s : State) (p : Port) : Placing := if s.outgoes p then { path := .opened, closeOp := none, role := .none } else s.midway p

theorem broken_used (h : s.Orderly) (q : Port) :
    ((s.broken q).used).toNat + (decide (q ∈ s.asks) && decide ((s.broken q).path = .opened)).toNat ≤
      (s.wanted q).toNat + (decide (s.mode q = .direct) && (s.placing q).used).toNat := by
  by_cases ho : s.outgoes q = true
  · have hn : q ∉ s.asks := fun x => by simpa [ho] using (asks_spec h x).1
    simp [broken, ho, hn, Placing.used]
  · have e := midway_used h q
    simpa [broken, ho] using e

theorem broken_counted (h : s.Orderly) (q : Port) :
    (decide (s.mode q = .auto) && (s.broken q).counted).toNat + (decide (q ∈ s.asks)).toNat = (s.wanted q).toNat + false.toNat := by
  by_cases ho : s.outgoes q = true
  · have hn : q ∉ s.asks := fun x => by simpa [ho] using (asks_spec h x).1
    obtain ⟨-, hw, -, -⟩ := outgoes_spec ho
    simp [broken, ho, hn, hw, Placing.counted]
  · have e := midway_counted h q
    simpa [broken, ho] using e

/-- Break before make (R124): there is always room. -/
theorem breakBeforeMake_spec (h : s.Orderly) (hi : s.incomes = true) (hf : s.makesFirst = false) :
    (s.sorted.breakBeforeMake [] s.asks (Port.all.filter s.outgoes)).2 = [] ∧
      Turned s.formed (s.sorted.breakBeforeMake [] s.asks (Port.all.filter s.outgoes)).1 ∧
      ∀ q, (s.sorted.breakBeforeMake [] s.asks (Port.all.filter s.outgoes)).1.placing q = s.placingAfter q := by
  obtain ⟨hT, hP, -⟩ := sorted_spec h
  obtain ⟨hF, hq⟩ := fold_placing (h := fun _ v => v.opens) openForRoster_turned (fun s p _ q => openForRoster_placing s p q)
    (outgoing_nodup s) hT
  have hB : ∀ q, ((Port.all.filter s.outgoes).foldl openForRoster s.sorted).placing q = s.broken q := by
    intro q
    rw [hq q, hP]
    unfold broken
    by_cases ho : s.outgoes q = true
    · rw [if_pos (mem_outgoing.mpr ho), outgoing_opens ho, if_pos ho]
    · rw [if_neg (fun x => ho (mem_outgoing.mp x)), if_neg ho]
  obtain ⟨p, hw, -⟩ := incomes_true hi
  have hle : Port.all.countP (fun q => s.wanted q) + s.directHeld ≤ 2 := by
    have := h.wanted_count hw
    split at this <;> omega
  have hroom : Port.all.countP (fun q => (((Port.all.filter s.outgoes).foldl openForRoster s.sorted).placing q).used) +
      Port.all.countP (fun q => decide (q ∈ s.asks) &&
        decide ((((Port.all.filter s.outgoes).foldl openForRoster s.sorted).placing q).path = .opened)) ≤ 2 := by
    simp only [hB]
    exact le_trans (countP_le_countP (broken_used h)) hle
  have hcount : ((Port.all.filter s.outgoes).foldl openForRoster s.sorted).rosterCount +
      Port.all.countP (fun q => decide (q ∈ s.asks)) ≤ 2 := by
    have hm : ∀ q, ((Port.all.filter s.outgoes).foldl openForRoster s.sorted).mode q = s.mode q := fun q => hF.1.mode q
    have hd : Port.all.countP (fun q => decide (s.mode q = .direct) && (s.broken q).used) = s.directHeld := by
      rw [← midway_direct]
      refine List.countP_congr (fun q _ => ?_)
      by_cases ho : s.outgoes q = true
      · simp [(outgoes_spec ho).1]
      · simp [broken, ho]
    have e := countP_eq_countP (f' := fun q => s.wanted q) (g' := fun _ => false) (broken_counted h)
    have ez : Port.all.countP (fun _ => false) = 0 := rfl
    rw [rosterCount_eq]
    simp only [hm, hB, hd]
    rw [ez] at e
    omega
  obtain ⟨h1, h2, h3⟩ := asks_taken (asks_nodup h) (asks_inForce h) (asks_auto h) hF
    (fun p hp => by
      rw [hB]
      have hs := asks_spec h hp
      simp [broken, hs.1, hs.2]) hroom (.inr ⟨rfl, hcount⟩)
  refine ⟨h1, h2, fun q => ?_⟩
  have e : (s.sorted.breakBeforeMake [] s.asks (Port.all.filter s.outgoes)).1.placing q = _ := h3 q
  rw [e, hB]
  by_cases ho : s.outgoes q = true
  · have hn : q ∉ s.asks := fun x => by simpa [ho] using (asks_spec h x).1
    rw [if_neg hn, outgoing_placing ho (by simp [hf])]
    simp [broken, ho]
  · have ho' : s.outgoes q = false := by simpa using ho
    simp only [broken, ho', Bool.false_eq_true, if_false]
    exact asked_placing h ho'

/-- What the steps of a recomputation leave of every port (R122 to R124): no close is refused, and every port is placed. -/
theorem switchSteps_spec (h : s.Orderly) :
    (s.formed.switchSteps []).2 = [] ∧ Turned s.formed (s.formed.switchSteps []).1 ∧
      ∀ q, (s.formed.switchSteps []).1.placing q = s.placingAfter q := by
  rw [switchSteps_eq h]
  cases hi : s.incomes with
  | false => exact ⟨rfl, noIncoming_spec h hi⟩
  | true =>
    cases hf : s.makesFirst with
    | true => exact makeBeforeBreak_spec h hi hf
    | false => exact breakBeforeMake_spec h hi hf

/-- The paths are in line as R125 has it, on the set just formed. -/
theorem formed_inLine (h : s.Orderly) : s.formed.inLine = s.linedUp := by
  have hm : ∀ q, s.formed.mode q = s.mode q := fun _ => rfl
  have hp : ∀ q, s.formed.path q = s.path q := fun _ => rfl
  have hr : ∀ q, s.formed.role q = s.role q := fun _ => rfl
  rw [Bool.eq_iff_iff]
  simp only [inLine, linedUp, Bool.and_eq_true, List.all_eq_true, hm, hp, hr, formed_intends, decide_eq_true_eq]
  constructor
  · rintro ⟨h1, h2⟩ q hq
    by_cases hw : s.wanted q = true
    · rw [if_pos hw]
      simpa using h1 q (h.mem_intendedPorts.mpr hw)
    · rw [if_neg hw]
      have := h2 q hq
      simpa [hw, Bool.or_assoc] using this
  · intro h1
    refine ⟨fun q hq => ?_, fun q hq => ?_⟩
    · have := h1 q (mem_all q)
      rw [if_pos (h.mem_intendedPorts.mp hq)] at this
      simpa using this
    · have := h1 q hq
      by_cases hw : s.wanted q = true
      · simp [hw]
      · rw [if_neg hw] at this
        simpa [hw, Bool.or_assoc] using this

/-- A port of the set is CLOSED after the steps exactly if it was before. -/
theorem placingAfter_wanted (h : s.Orderly) (hw : s.wanted q = true) : (s.placingAfter q).path = .closed ↔ s.path q = .closed := by
  obtain ⟨-, -, -, ha, -, -⟩ := h.wanted_spec hw
  cases hc : s.path q with
  | closed => simp [placingAfter, ha, hw, hc, placing]
  | closing => simp [placingAfter, ha, hw, hc, placing]
  | opened => by_cases hi : s.role q = .incoming <;> simp [placingAfter, ha, hw, hc, hi, placing]

section After

variable (h : s.Orderly) (hT : Turned s.formed t) (hP : ∀ q, t.placing q = s.placingAfter q)

include h hT hP

theorem after_switching : t.intendedPorts.any (fun p => t.path p != .closed) = s.incomes := by
  have hp : ∀ q, s.wanted q = true → (t.path q = .closed ↔ s.path q = .closed) := by
    intro q hw
    have e : t.path q = (t.placing q).path := rfl
    rw [e, hP q]
    exact placingAfter_wanted h hw
  rw [hT.intendedPorts, Bool.eq_iff_iff, List.any_eq_true]
  constructor
  · rintro ⟨q, hq, hc⟩
    have hw := h.mem_intendedPorts.mp hq
    refine List.any_eq_true.mpr ⟨q, mem_all q, ?_⟩
    have := mt (hp q hw).mpr (by simpa using hc)
    simp [hw, this]
  · intro hi
    obtain ⟨q, hw, hc⟩ := incomes_true hi
    exact ⟨q, h.mem_intendedPorts.mpr hw, by simpa using mt (hp q hw).mp hc⟩

theorem after_inLine : t.inLine = !s.incomes := by
  have hs := after_switching h hT hP
  have e1 : t.intendedPorts.all (fun p => t.path p = .closed) = !t.intendedPorts.any (fun p => t.path p != .closed) := by
    rw [List.not_any_eq_all_not]
    congr 1
    funext p
    cases t.path p <;> rfl
  unfold inLine
  rw [e1, hs]
  cases hi : s.incomes with
  | true => simp
  | false =>
    simp only [Bool.not_false, Bool.true_and]
    refine List.all_eq_true.mpr (fun q _ => ?_)
    have hm : t.mode q = s.mode q := hT.1.mode q
    have hn : t.intends q = s.wanted q := by rw [hT.intends, formed_intends]
    have hpa : t.path q = (t.placing q).path := rfl
    have hro : t.role q = (t.placing q).role := rfl
    rw [hm, hn, hpa, hro, hP q]
    by_cases ha : s.mode q = .auto
    · by_cases hw : s.wanted q = true
      · simp [hw]
      · simp [placingAfter, ha, hw, hi]
    · simp [ha]

end After

/-- What a recomputation leaves of the supplying set, of every path and role, and of the switch-over (R118, R122 to R125). -/
theorem recompute_switchedOver (hb : s.PathsBacked) (hd : s.HandlesDistinct) (hx : s.RosterExact) : s.SwitchedOver s.recompute := by
  have h : s.Orderly := ⟨hb, hd, hx⟩
  obtain ⟨hl, hT, hP⟩ := switchSteps_spec h
  have hre : s.recompute = (s.formed.switchSteps []).1.endSteps (s.roster.switchOver || !s.linedUp) := by
    have e : (s.recomputePass []).2.isEmpty = true := by
      rw [recomputePass_eq]
      simp [hl]
    unfold recompute
    dsimp only
    rw [if_pos e, recomputePass_eq, formed_inLine h]
  have hsw := after_switching h hT hP
  have hln := after_inLine h hT hP
  have hro : (s.formed.switchSteps []).1.roster = { s.roster with intended := s.supplyingSet } := by
    rw [hT.2.1, ← formSet_eq]
    rfl
  have hfl := hT.2.2
  have hfl' : s.formed.deviceFlags = s.deviceFlags := rfl
  rw [hre]
  generalize (s.formed.switchSteps []).1 = t at hsw hln hro hfl hP hT
  generalize hbeg : (s.roster.switchOver || !s.linedUp) = begun
  have hport : ∀ q, (t.endSteps begun).placing q = t.placing q := fun q => placing_congr (endSteps_port t begun q)
  unfold SwitchedOver
  dsimp only
  rw [hbeg]
  refine ⟨?_, fun q => (hport q).trans (hP q), ?_⟩
  · unfold endSteps
    dsimp only
    rw [hln, hsw, hro]
    cases begun <;> cases s.incomes <;> rfl
  · rw [← hfl', ← hfl]
    unfold endSteps
    dsimp only
    rw [hln]
    cases begun <;> cases s.incomes <;> simp [setDeviceFlag, oneBit, DeviceFlag.bit]

end State

end Sys2Proof.Machine
end

