-- ==== Sys2Proof/WellFormed.lean ====
section
/-! DEFINITION. Which commands are well formed: the operands that the event or frame can really carry. A host may write any byte,
so every host command is well formed; a refused value is part of its meaning. -/

namespace Sys2Proof

open Sys2Proof.Machine

/-- The command can happen as it stands: a decoded frame passes the field checks of R23, a discarded frame fails a check of
R23, and QUERY STATUS on a port does not name the device (section 11.2). -/
def Instr.wellFormed : Instr → Bool
  | .partnerFrameDiscard _ f => (readFrame f).isNone
  | .tiersPart _ _ _ scale total index last entries => bodyFieldsOk (.tiers scale total index last entries)
  | .grant _ _ _ tier voltage current lease => bodyFieldsOk (.grant tier voltage current lease)
  | .decline _ _ _ reason => bodyFieldsOk (.decline reason)
  | .recall _ _ _ ceiling deadline => bodyFieldsOk (.recall ceiling deadline)
  | .fault _ _ _ code => bodyFieldsOk (.fault code)
  | .queryPortStatus target => target != 4
  | .powerOnReset .. | .strapSampling .. | .meterSample .. | .attach .. | .detach .. | .pathCloseComplete ..
  | .closeDeadline .. | .settleDeadline .. | .transitionDeadline .. | .leaseExpiry .. | .renewalPoint ..
  | .nextAttempt .. | .holdoffDeadline .. | .recallDeadline .. | .overdrawWindowEnd .. | .recoveryDeadline ..
  | .watchWindowEnd .. | .frameSendStart .. | .sendAgain .. | .frameSendEnd .. | .startPulseCollision ..
  | .inFrameCollision .. | .linkDisturbance .. | .breakEnd .. | .idleFound .. | .idleWaitExpiry .. | .replyDeadline ..
  | .openingDeadline .. | .assemblyDeadline .. | .settled .. | .renewed .. | .writeTaken .. | .responseRead ..
  | .queryRecord .. | .queryTiers .. | .queryDeviceStatus .. | .freeze .. | .readFrozen .. | .setModeSense ..
  | .setModeAuto .. | .setModeDirect .. | .setPathOpen .. | .setPathClosed .. | .bid .. | .amend .. | .retire ..
  | .rank .. | .setClaim .. | .setPass .. | .policyVinLow .. | .policyVinHigh .. | .policyPortCurrentMax ..
  | .policyLeaseWant .. | .policyRenewLead .. | .policySettleTime .. | .policyOverdrawMargin ..
  | .policyOverdrawWindow .. | .policyDerate .. | .policyCombine .. | .policyDropout .. | .policyRebidCauses ..
  | .policyRank .. | .setTrimAuto .. | .setTrimManual .. | .setWatch .. | .forceLoss .. | .setAttention ..
  | .readFlags .. | .clearFlags .. | .resetPart .. | .openingHelloSend .. => true

end Sys2Proof
end

