-- ==== Sys2Proof/Tests/Slice0.lean ====
section
/-! SUPPORT. Tests of the model by evaluation: ill-formed commands refused, frames written out bit by bit from R22 and R23, one step of
each kind of command with numbers the manual gives, and for every statement that has hypotheses a state and operands that meet them. -/

set_option maxRecDepth 8000

namespace Sys2Proof.Tests

open Sys2Proof Sys2Proof.Machine

/-! ## Small states -/

/-- The state that a command leaves. -/
def after (c : Instr) (s : State) : State :=
  match exec c s with
  | .next t => t
  | _ => s

/-- A 20 V contract at 3.25 A in force. -/
def contract : Record :=
  { State.reset.baseRecord 325 with
    handle := 1, state := .inForce, tier := 1, low := 1000, high := 1000, voltage := 1000, granted := 325, rank := some 2
    settleDeadline := none }

/-- A fresh bid on the tier of that contract. -/
def bidding : Record := State.reset.biddingRecord ⟨1, .fixed, 1000, 1000, 1000, 325, some 120⟩

/-- A pending amendment to 9 V. -/
def amendment : Amendment :=
  { tier := 2, low := 450, high := 450, voltage := 450, requested := 300, lease := some 120, origin := .host, bidTick := 0, transition := none }

/-- The two tiers a partner offers: 20 V at 3.25 A and 9 V at 3 A. -/
def offers : List Tier := [⟨1, .fixed, 1000, 1000, 325, some 120, none⟩, ⟨2, .fixed, 450, 450, 300, some 120, none⟩]

/-- P0 PRESENT in AUTO on a READY link with a catalogue, its part then changed. -/
def ready (f : PortState → PortState) : State :=
  State.reset.modPort .p0 (fun u => f
    { u with
      front := { u.front with mode := .auto, attach := .present, voltage := 1000 }
      link := { u.link with state := .ready }
      catalogue := { u.catalogue with base := true, held := true, offered := offers, arrival := some 0 } })

/-- The same with a record on P0, on the roster when it is live. -/
def holding (k : Record) (f : PortState → PortState) : State :=
  { ready (fun u => f { u with contract := { u.contract with record := some k } }) with
    roster := { Roster.reset with list := if k.live then [k.handle] else [] } }

/-- The path of P0 CLOSED over its record. -/
def closed (u : PortState) : PortState := { u with front := { u.front with path := .closed } }

/-- The mode of P0 is DIRECT. -/
def direct (u : PortState) : PortState := { u with front := { u.front with mode := .direct } }

/-- An exchange in flight on P0 whose reply deadline is the present tick. -/
def exchanging (b : ExchangeBody) (retries : Nat) (u : PortState) : PortState :=
  { u with link := { u.link with state := .exchange, exchange := some ⟨b, 1, retries, some 0⟩ } }

/-- A BID exchange of the record's handle. -/
def bidOf (replace : Bool) : ExchangeBody := .bid ⟨1, replace, 1, none, 325, 120⟩

/-- A meter reading of P0 beside idle ports. -/
def sampleOf (voltage : Nat) (current : Int) : PerPort Reading := ⟨⟨voltage, current⟩, ⟨0, 0⟩, ⟨0, 0⟩, ⟨0, 0⟩⟩

/-! ## Ill-formed commands (R23, section 11.2) -/

def overlong : List RawEntry := List.replicate 5 ⟨1, false, 250, 250, 100, 120, none⟩

theorem test_wellFormed_discardedFramePasses : (Instr.partnerFrameDiscard .p0 ⟨0xB000, [], some 0xD6⟩).wellFormed = false := by decide
theorem test_wellFormed_tiersOverFourteenWords : (Instr.tiersPart .p0 false 1 0 5 0 true overlong).wellFormed = false := by decide
theorem test_wellFormed_grantVoltage : (Instr.grant .p0 false 1 1 2001 325 120).wellFormed = false := by decide
theorem test_wellFormed_grantCurrent : (Instr.grant .p0 false 1 1 2000 1001 120).wellFormed = false := by decide
theorem test_wellFormed_declineReason : (Instr.decline .p0 false 1 0).wellFormed = false := by decide
theorem test_wellFormed_recallCeiling : (Instr.recall .p0 false 1 1001 50).wellFormed = false := by decide
theorem test_wellFormed_faultCode : (Instr.fault .p0 false 1 0).wellFormed = false := by decide
theorem test_wellFormed_portStatusOfDevice : (Instr.queryPortStatus 4).wellFormed = false := by decide
theorem test_wellFormed_boundaries :
    (Instr.grant .p0 false 1 1 2000 1000 120).wellFormed && (Instr.recall .p0 false 1 1000 50).wellFormed &&
      (Instr.queryPortStatus 3).wellFormed && (Instr.partnerFrameDiscard .p0 ⟨0xB000, [], some 0xD7⟩).wellFormed = true := by decide

/-! ## Frames written out from R22 and R23 (their checks computed apart from the model) -/

theorem test_read_grant :
    readFrame ⟨0b1001_0100_00_0_00001, [0b0000000000000_001, 0b00000_01111101000, 0b000000_0101000101, 120], some 0x46⟩ =
      some ⟨false, 1, .grant 1 1000 325 120⟩ := by decide
theorem test_read_decline : readFrame ⟨0b1010_0001_00_0_00010, [0b00000000000000_11], some 0x0C⟩ = some ⟨false, 2, .decline 3⟩ := by decide
theorem test_read_settled : readFrame ⟨0b1011_0000_00_0_00000, [], some 0xD6⟩ = some ⟨false, 0, .settled⟩ := by decide
theorem test_read_renewed_strained :
    readFrame ⟨0b1100_0001_00_1_00011, [120], some 0x1B⟩ = some ⟨true, 3, .renewed 120⟩ := by decide
theorem test_read_recall :
    readFrame ⟨0b1101_0010_00_0_11111, [0b000000_0001100100, 50], some 0x3D⟩ = some ⟨false, 31, .recall 100 50⟩ := by decide
theorem test_read_fault : readFrame ⟨0b1110_0001_00_0_00000, [0b00000000000000_10], some 0xCD⟩ = some ⟨false, 0, .fault 2⟩ := by decide
theorem test_read_tiers :
    readFrame ⟨0b1000_0101_01_0_00011, [0b0000000000_1_00_001, 0b010_1_1_00001111101, 0b00001_00111110100, 0b111000_0010010110,
        0b000101_0000110010], some 0xD8⟩ =
      some ⟨false, 3, .tiers 1 1 0 true [⟨2, true, 125, 500, 150, 120, some (5, 50)⟩]⟩ := by decide
theorem test_read_badCheck : readFrame ⟨0b1011_0000_00_0_00000, [], some 0xD7⟩ = none := by decide
theorem test_read_partKind : readFrame (OutFrame.encode (.exchange .hello 1)) = none := by decide
theorem test_send_bid :
    (OutFrame.encode (.exchange (.bid ⟨1, true, 3, some 600, 200, 120⟩) 4)).payload = [0b1000000000000_011, 600, 200, 120] := by decide
theorem test_send_release : (OutFrame.encode (.release ⟨some 1, 0, .lapsed⟩)).header = 0b0101_0001_00_0_00000 := by decide
theorem test_declaredEnd : declaredEnd 0x9401 = 880 := by decide
theorem test_normalise_scaled :
    normalise 1 ⟨2, true, 125, 500, 150, 120, some (5, 50)⟩ = ⟨2, .span, 250, 1000, 300, some 120, some ⟨100, 50⟩⟩ := by decide

/-! ## One step of each kind -/

theorem test_target_address : (after (.strapSampling true false false) State.powerOn).targetAddress = some 0x3A := by decide
theorem test_cold_wait : (after (.strapSampling false false true) State.powerOn).cold = .coldWait := by decide
theorem test_sample_limits :
    ((after (.meterSample (sampleOf 2500 1200)) State.reset).port .p0).front.voltage = 2000 ∧
      ((after (.meterSample (sampleOf 2500 (-3))) State.reset).port .p0).front.current = 0 := by decide
theorem test_debounce_threshold :
    ((after (.meterSample (sampleOf 175 0)) State.reset).port .p0).front.debounce = 1 ∧
      ((after (.meterSample (sampleOf 174 0)) State.reset).port .p0).front.debounce = 0 := by decide
theorem test_attach_opens :
    (after (.attach .p0) (State.reset.modPort .p0 (fun u => { u with front := { u.front with mode := .auto, debounce := 50 } }))).linkState .p0 =
      .opening := by decide
theorem test_detach_retires :
    ((after (.detach .p0) (holding contract (fun u => { u with front := { u.front with debounce := 50 } }))).port .p0).contract.lastRetirement =
      some ⟨1, .detached, 0⟩ := by decide
theorem test_close_publishes :
    let s := holding contract (fun u => direct { u with front := { u.front with path := .closing, closeOp := some ⟨20, 500, .host, true⟩ } })
    (after (.pathCloseComplete .p0) s).path .p0 = .closed ∧ (after (.pathCloseComplete .p0) s).allocator.pool = 617 := by decide
theorem test_close_deadline_benches :
    ((after (.closeDeadline .p0) (holding contract (fun u =>
      direct { u with front := { u.front with path := .closing, closeOp := some ⟨3, 0, .host, false⟩ } }))).record .p0).map Record.state =
      some .benched := by decide
theorem test_settle_deadline :
    ((after (.settleDeadline .p0) (holding { contract with state := .settling, settleDeadline := some 0 } id)).port .p0).contract.holdoff =
      some 1000 := by decide
theorem test_lease_expiry :
    ((after (.leaseExpiry .p0) (holding { contract with lease := some ⟨120, some 0⟩ } direct)).port .p0).contract.lastRetirement =
      some ⟨1, .lapsed, 0⟩ := by decide
theorem test_renewal_point :
    ((after (.renewalPoint .p0) (holding { contract with lease := some ⟨120, some 30000⟩ } id)).port .p0).link.slot.renew = some ⟨1, 120⟩ ∧
      ((after (.renewalPoint .p0) (holding { contract with lease := some ⟨120, some 30001⟩ } id)).port .p0).link.slot.renew = none := by
  decide
theorem test_holdoff_bids :
    ((after (.holdoffDeadline .p0) (ready (fun u => { u with contract := { u.contract with holdoff := some 0 } }))).record .p0).map Record.voltage =
      some 1000 := by decide
theorem test_recall_deadline :
    ((after (.recallDeadline .p0) (holding { contract with recallPart := some ⟨100, 0, .owed, 9, 0⟩ } closed)).port .p0).link.slot.yield =
      some ⟨1, 9, .opened⟩ := by decide
theorem test_overdraw_raises :
    ((after (.overdrawWindowEnd .p0) (holding contract (fun u =>
      closed { u with monitor := { u.monitor with window := some ⟨4, true, false, none, true⟩ } }))).record .p0).map Record.trim = some 2 := by
  decide
theorem test_recovery_lowers :
    ((after (.recoveryDeadline .p0) (holding { contract with trim := 2 } (fun u =>
      closed { u with monitor := { u.monitor with recovery := some 0 } }))).record .p0).map Record.trim = some 1 := by decide
theorem test_watch_loss :
    ((after (.watchWindowEnd .p0) { holding contract (fun u =>
      closed { u with watch := { u.watch with window := some ⟨8, true, 0, false⟩ } }) with watchEnable := true }).port .p0).contract.lastRetirement =
      some ⟨1, .supplyLost, 0⟩ := by decide
theorem test_frame_order :
    ((after (.frameSendStart .p0) (ready (fun u => { u with link := { u.link with slot :=
      { u.link.slot with renew := some ⟨1, 120⟩, hello := true } } }))).port .p0).link.exchange.map Exchange.body = some (.renew ⟨1, 120⟩) := by
  decide
theorem test_reply_window :
    ((after (.frameSendEnd .p0) (ready (fun u => { u with link := { u.link with
      state := .exchange, exchange := some ⟨.hello, 1, 2, none⟩, sending := some (.exchange .hello 1) } }))).port .p0).link.exchange.map
      Exchange.deadline = some (some 25) := by decide
theorem test_mute_after_three_breaks :
    (after (.idleWaitExpiry .p0) (ready (fun u => { u with link := { u.link with
      state := .resync, resync := some ⟨3, .idleWait, 0, .ready⟩ } }))).linkState .p0 = .mute := by decide
theorem test_opening_deadline :
    (after (.openingDeadline .p0) (ready (fun u => { u with link := { u.link with state := .opening, openingDeadline := some 0 } }))).linkState
      .p0 = .mute := by decide
theorem test_tiers_accepted :
    ((after (.tiersPart .p0 false 5 0 1 0 true [⟨3, false, 600, 600, 200, 120, none⟩]) (ready id)).port .p0).catalogue.offered =
      [⟨3, .fixed, 600, 600, 200, some 120, none⟩] := by decide
theorem test_grant_settles :
    ((after (.grant .p0 false 1 1 1000 400 700) (holding bidding (exchanging (bidOf false) 2))).record .p0).map
      (fun k => (k.state, k.granted, k.lease)) = some (.settling, 325, some ⟨600, none⟩) := by decide
theorem test_decline_retires :
    ((after (.decline .p0 false 1 1) (holding bidding (exchanging (bidOf false) 2))).port .p0).contract.attempts = 1 := by decide
theorem test_settled_enters :
    ((after (.settled .p0 false 0) (holding { contract with state := .settling, lease := some ⟨120, none⟩ } id)).record .p0).map
      (fun k => (k.state, k.lease)) = some (.inForce, some ⟨120, some 120000⟩) := by decide
theorem test_renewed :
    ((after (.renewed .p0 false 1 60) (holding { contract with lease := some ⟨120, some 9⟩ }
      (exchanging (.renew ⟨1, 120⟩) 2))).record .p0).map Record.lease = some (some ⟨60, some 60000⟩) := by decide
theorem test_renewed_without_lease :
    let k := { contract with tier := 0, lease := none }
    let t := after (.renewed .p0 false 1 60) (holding k (exchanging (.renew ⟨1, 120⟩) 2))
    (t.record .p0).map Record.lease = some none ∧ (t.port .p0).monitor.burstArmed = true ∧ t.flag .p0 .renewed = true := by decide
theorem test_owed_within_tier0 :
    let k := { contract with tier := 0, low := 237, high := 275, voltage := 250, granted := 300, lease := none, stale := true, owed := true,
                             owedStale := true, amendment := some amendment }
    let s := holding k (fun u => exchanging (bidOf true) 2 { u with catalogue := { u.catalogue with offered := [] } })
    ((after (.decline .p0 false 1 1) s).record .p0).map (fun r => r.amendment.map (fun a => (a.requested, a.lease))) =
      some (some (90, none)) := by decide
/-- A catalogue that fails the check of a record on tier 0 sends an amendment for the stale tier and owes one for tier 0 (R53, R73), which goes out
when the first is refused (R74). -/
theorem test_base_tier_test_owes :
    let k := { contract with tier := 0, low := 237, high := 275, voltage := 250, granted := 300, lease := none }
    let part : Instr := .tiersPart .p0 false 5 0 1 0 true [⟨3, false, 600, 600, 200, 120, none⟩]
    (((after part (holding k id)).record .p0).map (fun r => (r.amendment.map Amendment.tier, r.owed, r.owedStale, r.owedBase)) =
      some (some 3, true, false, true)) ∧
      (let r := { k with stale := true, owed := true, owedBase := true, amendment := some amendment }
       ((after (.decline .p0 false 1 1) (holding r (exchanging (bidOf true) 2))).record .p0).map
        (fun r => (r.amendment.map Amendment.tier, r.owed)) = some (some 1, false)) := by decide
/-- An amendment owed for a stale tier is not sent once a host amendment to tier 0 has replaced that tier (R53, R73). -/
theorem test_owed_cause_gone :
    let a := { amendment with tier := 0, low := 237, high := 275, voltage := 250, requested := 90, lease := none }
    let k := { contract with tier := 3, low := 250, high := 250, voltage := 250, stale := true, owed := true, owedStale := true,
                             amendment := some a }
    let t (k : Record) := after (.grant .p0 false 1 0 250 90 0) (holding k (exchanging (bidOf true) 2))
    (((t k).record .p0).map (fun r => (r.tier, r.stale, r.amendment.isNone)) = some (0, false, true)) ∧
      ((t { k with owedBase := true }).record .p0).map (fun r => (r.tier, r.amendment.map Amendment.tier)) = some (0, some 1) := by
  decide

/-- P0 and P1 in AUTO over records in force, P1 first on the roster; the path of P0 CLOSED. -/
def pairing (f g : PortState → PortState) : State :=
  let s := (holding contract (fun u => f (closed u))).modPort .p1 (fun u => g
    { u with
      front := { u.front with mode := .auto, attach := .present, voltage := 1000 }
      contract := { u.contract with record := some { contract with handle := 2 } } })
  { s with roster := { Roster.reset with list := [2, 1] }, allocator := { Allocator.reset with closedSet := ⟨true, false, false, false⟩ } }

/-- P0 HELD and P1 INCOMING with its settle count reached. -/
def switching : State :=
  let s := pairing (fun u => { u with role := .held }) (fun u =>
    { u with role := .incoming, front := { u.front with path := .closing, closeOp := some ⟨20, 500, .roster, true⟩ } })
  { s with roster := { s.roster with switchOver := true, switching := true } }

theorem test_make_before_break :
    let t := after (.policyVinLow 0 226) (pairing id id)
    t.placing .p0 = ⟨.closed, none, .held⟩ ∧ t.placing .p1 = ⟨.closing, some ⟨0, 500, .roster, false⟩, .incoming⟩ ∧
      t.roster = ⟨[2, 1], [2], true, true⟩ := by decide
theorem test_break_before_make :
    let t := after (.policyCombine 0 1) ((pairing (fun u => { u with front := { u.front with path := .opened } }) id))
    t.path .p0 = .closing ∧ t.path .p1 = .closing := by decide
theorem test_switched :
    let t := after (.pathCloseComplete .p1) switching
    t.placing .p0 = ⟨.opened, none, .none⟩ ∧ t.placing .p1 = ⟨.closed, none, .none⟩ ∧ t.roster = ⟨[2, 1], [2], false, false⟩ ∧
      t.deviceFlags.getLsbD DeviceFlag.switched.bit = true := by decide
theorem test_resync_ends_last_hello :
    let s := ready (fun u => { u with link := { u.link with state := .opening, exchange := some ⟨.hello, 1, 0, none⟩, tagCounter := 2 } })
    let t := (after (.linkDisturbance .p0) s)
    (t.port .p0).link.exchange = none ∧ (t.port .p0).link.tagCounter = 2 ∧
      ((after (.openingHelloSend .p0) (after (.idleFound .p0) (t.modPort .p0 (fun u =>
        { u with link := { u.link with resync := some ⟨1, .idleWait, 10, .opening⟩ } })))).port .p0).link.exchange =
        some ⟨.hello, 2, 2, none⟩ := by decide
theorem test_recall_owed :
    ((after (.recall .p0 false 9 100 50) (holding contract (fun u =>
      closed { u with front := { u.front with current := 101 } }))).record .p0).map Record.recallPart =
      some (some ⟨100, 50, .owed, 9, 0⟩) := by decide
theorem test_fault_retires :
    ((after (.fault .p0 false 0 1) (holding contract id)).port .p0).contract.lastRetirement = some ⟨1, .partnerFault, 0⟩ := by decide
theorem test_write_policy :
    (after (.writeTaken 0x38 [0x22, 9, 0, 0, 0]) State.reset).policy.derate = 0 ∧
      (after (.writeTaken 0x39 [0x22, 9, 0, 0, 0]) State.reset).policy.derate = 5 := by decide
theorem test_unknown_command : (after (.writeTaken 0x38 [0x06]) State.reset).response = some ⟨.unknown, .empty⟩ := by decide
theorem test_wrong_form_ends_cold :
    let s := { State.reset with cold := .coldWait }
    after (.writeTaken 0x38 [0x14]) s = { State.reset with deviceFlags := oneBit DeviceFlag.coldDone.bit }.answered .refusedRange .empty ∧
      after (.writeTaken 0x38 [0x01]) s = s.answered .refusedRange .empty := by decide
theorem test_read_done : (after (.responseRead 0x38 3) (after (.setPass 1) State.reset)).lastRead = [0x00, 0, 0] := by decide
theorem test_read_empty : (after (.responseRead 0x38 2) State.reset).lastRead = [0x0F, 0] := by decide
theorem test_path_limit :
    (after (.setPathClosed 0) ((holding contract direct).modPort .p1 closed |>.modPort .p2 closed)).response = some ⟨.refusedLimit, .empty⟩ := by
  decide
theorem test_bid_handle : (after (.bid 0 1 0 100 120) (ready id)).response = some ⟨.done, .handle 1⟩ := by decide
theorem test_bid_range : (after (.bid 0 1 0 326 120) (ready id)).response = some ⟨.refusedRange, .empty⟩ := by decide
theorem test_amend_busy :
    (after (.amend 0 2 0 100 120) (holding { contract with amendment := some amendment } id)).response = some ⟨.refusedBusy, .empty⟩ := by decide
theorem test_retire_marks :
    ((after (.retire 0) (holding bidding (exchanging (bidOf false) 2))).record .p0).map Record.withdraw = some true := by decide
theorem test_claim_floor_over_request : (after (.setClaim 0 100 101 0) State.reset).response = some ⟨.refusedRange, .empty⟩ := by decide
theorem test_lock : (after (.setAttention 1) { State.reset with watchEnable := true, alertRoute := true }).lock = true := by decide
theorem test_lock_not_by_device : (after (.setAttention 16) { State.reset with watchEnable := true, alertRoute := true }).lock = false := by decide
theorem test_locked_dropout : (after (.policyDropout 0 70) { State.reset with lock := true }).response = some ⟨.refusedLocked, .empty⟩ := by decide
theorem test_freeze_map : (after (.freeze 1 3) State.reset).response = some ⟨.done, .heldMap ⟨0x0F, 0, 0, 0⟩⟩ := by decide
theorem test_soft_reset_keeps_contract : (after .resetPart (holding contract closed)).record .p0 = some contract := by decide

/-! ## What the statements assume is met: one theorem for each statement with hypotheses, with each of its clauses -/

/-- A port p whose record is none but on P0. -/
theorem holding_record (k : Record) (f : PortState → PortState) (h : ∀ u, (f u).contract = u.contract) {p : Port} {r : Record}
    (e : (holding k f).record p = some r) : p = .p0 ∧ r = k := by
  cases p
  · have : (holding k f).record .p0 = some k := by
      show ((f _).contract).record = some k
      rw [h]
    rw [this] at e
    exact ⟨rfl, (Option.some.inj e).symm⟩
  all_goals exact absurd (show (none : Option Record) = some r from e) (by simp)

theorem witness_StepTakesFrontCommand :
    (∃ (s : State) (c : Instr) (rest : List Instr), s.pending = c :: rest) ∧
    (∃ s : State, s.pending = [] ∧ s.straps = none) ∧ (∃ s : State, s.pending = [] ∧ s.straps.isSome = true ∧ s.sampleTaken = false) ∧
    ∃ s : State, s.pending = [] ∧ s.straps.isSome = true ∧ s.sampleTaken = true :=
  ⟨⟨State.reset.withPending [.readFlags], _, _, rfl⟩, ⟨State.powerOn, rfl, rfl⟩, ⟨State.reset, rfl, rfl, rfl⟩,
    ⟨{ State.reset with sampleTaken := true }, rfl, rfl, rfl⟩⟩

theorem witness_PowerOnResetAndStraps : (∃ s : State, s.straps = none) ∧ ∃ s : State, s.straps.isSome = true :=
  ⟨⟨State.powerOn, rfl⟩, ⟨State.reset, rfl⟩⟩

/-- A closed path on a DIRECT port over a record in force, a command waiting. -/
def running : State :=
  { holding contract (fun u => direct (closed u)) with
    pending := [.readFlags]
    allocator := { Allocator.reset with closedSet := ⟨true, false, false, false⟩ } }

theorem running_record {p : Port} {r : Record} (e : running.record p = some r) : p = .p0 ∧ r = contract :=
  holding_record contract (fun u => direct (closed u)) (fun _ => rfl) e

theorem witness_PathInvariantsKept :
    ∃ s t : State, s.TwoPaths ∧ s.PathsBacked ∧ s.ClosedSetRight ∧ s.path .p0 = .closed ∧ step s = .next t := by
  refine ⟨running, after .readFlags (running.withPending []), by unfold State.TwoPaths; decide, ?_, ?_, rfl, rfl⟩
  · intro p
    cases p
    · exact ⟨fun _ => ⟨⟨contract, rfl, rfl⟩, by decide⟩, by decide⟩
    all_goals exact ⟨fun h => absurd rfl h, by decide⟩
  · intro p; cases p <;> decide

theorem witness_AllocatorLawKept : ∃ s t : State, s.allocator.Lawful ∧ step s = .next t := by
  refine ⟨running, after .readFlags (running.withPending []), ⟨?_, by decide, ?_, by decide⟩, rfl⟩
  all_goals intro k; cases k <;> decide

/-- For HandlesAndRosterKept and RosterKeptOrdered. -/
theorem witness_HandlesAndRosterKept :
    ∃ s t : State, s.HandlesDistinct ∧ s.AmendmentsLive ∧ s.RosterExact ∧ s.RosterOrdered ∧ s.roster.list = [1] ∧ step s = .next t := by
  refine ⟨running, after .readFlags (running.withPending []), ⟨?_, ?_⟩, ?_, ⟨by decide, ?_⟩, ?_, rfl, rfl⟩
  · intro p r h
    obtain ⟨-, rfl⟩ := running_record h
    decide
  · intro p q r r' hpq h h'
    exact absurd ((running_record h).1.trans (running_record h').1.symm) hpq
  · intro p r h
    obtain ⟨-, rfl⟩ := running_record h
    decide
  · intro h
    constructor
    · intro m
      exact ⟨.p0, contract, rfl, rfl, (List.mem_singleton.mp m).symm⟩
    · rintro ⟨p, r, e, -, rfl⟩
      obtain ⟨-, rfl⟩ := running_record e
      decide
  · show List.Pairwise _ [1]
    simp

theorem witness_LockedWatchKept :
    ∃ s t : State, s.LockedWatch ∧ s.lock = true ∧ s.pending.head? ≠ some .powerOnReset ∧ step s = .next t :=
  ⟨{ running with lock := true, watchEnable := true, alertRoute := true }, _, fun _ => ⟨rfl, rfl⟩, rfl, by decide, rfl⟩

theorem witness_PartnerFramesReadBack :
    [PartnerBody.tiers 3 4 0 true (overlong.take 4), .grant 7 2000 1000 65535, .decline 3, .settled, .renewed 0, .recall 1000 0, .fault 1].all
      bodyFieldsOk = true := by decide

theorem witness_WrittenCommandIsItsRow :
    hostCommandOf (.setPass 1) = some (.setPass 1) ∧ State.reset.targetAddress = some 0x38 ∧ State.reset.Listening ∧ 2 < (3 : Byte).toNat ∧
    1 < (2 : Byte).toNat ∧ 13 < (14 : Byte).toNat := by decide

theorem witness_CatalogueValidity :
    rejectEntries [] offers = none ∧ (2000 : Nat) < 2001 ∧ rejectEntries [] [⟨1, .fixed, 2001, 2001, 1, some 1, none⟩] = some .overRange ∧
    rejectEntries [] [⟨1, .fixed, 2000, 2000, 1000, some 600, none⟩] = none := by decide

theorem witness_AutomaticChoice :
    ((ready id).autoChoice .p0).map Terms.tier = some 1 ∧ State.reset.autoChoice .p0 = none := by decide

theorem witness_AllocationStages :
    ∃ (a : Allocator) (pool : Nat), (∀ k, (a.claims.get k).priority ≤ 3) ∧
      (∀ k, (a.claims.get k).request ≠ 0 → (a.claims.get k).floor ≤ (a.claims.get k).request) ∧ a.enabled .system = true ∧
      a.floors ≤ pool ∧
      (let g := (a.divide pool); g.system + g.charge + g.pass < pool) := by
  refine ⟨{ Allocator.reset with claims := ⟨⟨100, 100, 0⟩, ⟨50, 0, 3⟩, ⟨1, 1, 2⟩⟩ }, 151, ?_, ?_, by decide, by decide, by decide⟩
  all_goals intro k; cases k <;> decide

theorem witness_AllocationStages_short :
    ∃ a : Allocator, a.enabled .system = true ∧ a.enabled .charge = true ∧
      (a.claims.get .system).priority < (a.claims.get .charge).priority ∧ ((a.divide 99).get .system) < (a.claims.get .system).floor :=
  ⟨Allocator.reset, by decide⟩

/-- Claims of equal priority: CHARGE is raised above its floor once SYSTEM holds its request. -/
theorem witness_AllocationStages_raised :
    let a := { Allocator.reset with claims := ⟨⟨100, 50, 1⟩, ⟨0, 10, 1⟩, ⟨0, 0, 2⟩⟩ }
    (a.claims.get .system).priority = (a.claims.get .charge).priority ∧ (a.claims.get .charge).floor < (a.divide 120).get .charge ∧
      (a.divide 120).get .system = (a.claims.get .system).request ∧ (a.divide 99).get .charge = (a.claims.get .charge).floor := by decide

theorem witness_SampleStored :
    (∃ s : State, s.straps.isSome = true ∧ s.sampleTaken = true) ∧ ∃ s : State, s.straps.isSome = true ∧ s.sampleTaken = false :=
  ⟨⟨{ State.reset with sampleTaken := true }, rfl, rfl⟩, ⟨State.reset, rfl, rfl⟩⟩

theorem witness_SampleAtRest :
    ∃ s : State, s.straps.isSome = true ∧ s.sampleTaken = false ∧ s.path .p0 = .closed ∧ ∀ p k, s.record p = some k → k.AtRest := by
  refine ⟨running, rfl, rfl, rfl, fun p k h => ?_⟩
  obtain ⟨-, rfl⟩ := running_record h
  decide

theorem witness_SampleMovesContract :
    (∃ k : Record, (holding k id).record .p0 = some k ∧ k.state = .settling ∧ k.settledHeard = true ∧ k.amendment = none ∧
      windowTest 950 k.low k.high = true) ∧
    (∃ (k : Record) (c : Recall), (holding k closed).record .p0 = some k ∧ k.recallPart = some c ∧ c.yield = .owed ∧ k.inTransition = false ∧
      (holding k closed).path .p0 = .closed ∧ min 1000 (100 : Int).toNat ≤ c.ceiling) ∧
    ∃ (k : Record) (a : Amendment) (x : Transition), (holding k id).record .p0 = some k ∧ k.live = true ∧ k.amendment = some a ∧
      a.transition = some x ∧ x.settledHeard = true ∧ windowTest 450 a.low a.high = true :=
  ⟨⟨{ contract with state := .settling, settledHeard := true }, by decide⟩,
    ⟨{ contract with recallPart := some ⟨100, 50, .owed, 9, 0⟩ }, ⟨100, 50, .owed, 9, 0⟩, by decide⟩,
    ⟨{ contract with amendment := some { amendment with transition := some ⟨300, 120, 500, true⟩ } },
      { amendment with transition := some ⟨300, 120, 500, true⟩ }, ⟨300, 120, 500, true⟩, by decide⟩⟩

/-- P0 VACANT in AUTO with 50 contradicting samples. -/
def arriving (cold : ColdState) : State :=
  { State.reset.modPort .p0 (fun u => { u with front := { u.front with mode := .auto, debounce := 50 } }) with cold := cold }

theorem witness_AttachCompletes :
    ((arriving .idle).port .p0).front.attach = .vacant ∧ 50 ≤ ((arriving .idle).port .p0).front.debounce ∧
    (arriving .coldWait).cold = .coldWait ∧ (arriving .coldWait).record .p0 = none := by decide

theorem witness_DetachCompletes :
    ∃ s : State, s.PathsBacked ∧ (s.port .p0).front.attach = .present ∧ 50 ≤ (s.port .p0).front.debounce ∧ (s.record .p0).isSome = true ∧
      s.cold = .coldSupply ∧ s.coldPort = some .p0 := by
  refine ⟨{ holding contract (fun u => { u with front := { u.front with debounce := 50, path := .closed } }) with
    cold := .coldSupply, coldPort := some .p0 }, ?_, rfl, by decide, rfl, rfl, rfl⟩
  intro p
  cases p
  · exact ⟨fun _ => ⟨⟨contract, rfl, rfl⟩, by decide⟩, by decide⟩
  all_goals exact ⟨fun h => absurd rfl h, by decide⟩

/-- A close operation that the host began, on P0 in DIRECT. -/
def closingAt (due : Bool) (u : PortState) : PortState :=
  direct { u with front := { u.front with path := .closing, closeOp := some ⟨20, 0, .host, due⟩ } }

/-- A state of one record, its handle not 0, obeys the invariants of handles and roster. -/
theorem holding_lawful (k : Record) (f : PortState → PortState) (hf : ∀ u, (f u).contract = u.contract) (hk : k.handle ≠ 0) :
    (holding k f).HandlesDistinct ∧ (holding k f).RosterExact := by
  have e0 : (holding k f).record .p0 = some k := by
    show ((f _).contract).record = some k
    rw [hf]
  have el : (holding k f).roster.list = if k.live then [k.handle] else [] := rfl
  refine ⟨⟨?_, ?_⟩, ?_, ?_⟩
  · intro p r h
    obtain ⟨-, rfl⟩ := holding_record k f hf h
    exact hk
  · intro p q r r' hpq h h'
    exact absurd ((holding_record k f hf h).1.trans (holding_record k f hf h').1.symm) hpq
  · rw [el]
    split <;> simp
  · intro h
    rw [el]
    constructor
    · intro m
      by_cases hl : k.live = true
      · rw [if_pos hl] at m
        exact ⟨.p0, k, e0, hl, (List.mem_singleton.mp m).symm⟩
      · rw [if_neg hl] at m
        cases m
    · rintro ⟨p, r, e, hl, rfl⟩
      obtain ⟨-, rfl⟩ := holding_record k f hf e
      rw [if_pos hl]
      exact List.mem_singleton.mpr rfl

/-- A close on P0 over the contract obeys the invariants that the switch-over clauses of CloseCompletes and CloseDeadlineFails assume. -/
theorem witness_Close_invariants (due : Bool) :
    (holding contract (closingAt due)).PathsBacked ∧ (holding contract (closingAt due)).HandlesDistinct ∧
      (holding contract (closingAt due)).RosterExact := by
  refine ⟨fun p => ?_, holding_lawful contract (closingAt due) (fun _ => rfl) (by decide)⟩
  cases p
  · exact ⟨fun _ => ⟨⟨contract, rfl, rfl⟩, by decide +revert⟩, by decide +revert⟩
  all_goals exact ⟨fun h => absurd rfl h, by decide +revert⟩

theorem witness_CloseCompletes :
    (∃ s : State, s.path .p0 = .closing ∧ (s.port .p0).front.closeOp = some ⟨20, 0, .host, true⟩ ∧ s.record .p0 = some contract ∧
      contract.state = .inForce ∧ s.mode .p0 = .direct) ∧
    ∃ s : State, s.path .p0 = .closing ∧ (s.port .p0).front.closeOp = some ⟨20, 0, .host, true⟩ ∧ s.record .p0 = none :=
  ⟨⟨holding contract (closingAt true), by decide⟩, ⟨ready (closingAt true), by decide⟩⟩

theorem witness_CloseDeadlineFails :
    (∃ s : State, s.path .p0 = .closing ∧ (s.port .p0).front.closeOp = some ⟨20, 0, .host, false⟩ ∧ reached s.tick 0 = true ∧
      s.record .p0 = some contract ∧ contract.state = .inForce) ∧
    ∃ s : State, s.path .p0 = .closing ∧ (s.port .p0).front.closeOp = some ⟨20, 0, .host, false⟩ ∧ reached s.tick 0 = true ∧
      s.record .p0 = none :=
  ⟨⟨holding contract (closingAt false), by decide⟩, ⟨ready (closingAt false), by decide⟩⟩

theorem witness_SetPath :
    State.reset.Listening ∧ portOf 4 = none ∧ portOf 0 = some .p0 ∧ portOf 3 = some .p3 ∧ State.reset.mode .p3 ≠ .direct ∧
    (holding contract direct).mode .p0 = .direct ∧ (holding contract direct).path .p0 = .opened ∧ (holding contract direct).pathCount < 2 ∧
    (holding contract direct).policy.vinLow ≤ contract.voltage ∧ contract.voltage ≤ (holding contract direct).policy.vinHigh ∧
    (ready direct).mode .p0 = .direct ∧ (ready direct).record .p0 = none ∧ running.mode .p0 = .direct ∧ running.path .p0 = .closed ∧
    2 ≤ (((holding contract direct).modPort .p1 closed).modPort .p2 closed).pathCount ∧
    (((holding contract direct).modPort .p1 closed).modPort .p2 closed).path .p0 = .opened := by decide

/-- For SetModeSense, SetModeAuto and SetModeDirect. -/
theorem witness_SetMode :
    State.reset.Listening ∧ portOf 4 = none ∧ portOf 3 = some .p3 ∧ State.reset.mode .p3 = .sense ∧ State.reset.path .p3 = .opened ∧
    (State.reset.port .p3).front.attach = .vacant ∧ (ready id).mode .p0 = .auto ∧ (ready id).path .p0 = .opened ∧
    (ready closed).path .p0 = .closed ∧ (ready (fun u => { u with front := { u.front with path := .closing } })).path .p0 = .closing ∧
    (ready direct).mode .p0 = .direct ∧ (ready (fun u => { u with link := { u.link with state := .mute } })).linkState .p0 = .mute ∧
    (let k := { contract with owed := true, owedStale := true, stale := true }
     let s := holding k (fun u => { u with link := { u.link with state := .mute } })
     s.mode .p0 = .auto ∧ s.record .p0 = some k ∧ s.linkState .p0 = .mute ∧ k.causeHolds = true) ∧
    (ready id).record .p0 = none ∧ ((ready id).port .p0).front.attach = .present ∧ ((ready id).port .p0).contract.holdoff = none ∧
    ((ready id).port .p0).catalogue.held = true := by decide

/-- In a state whose paths are all open the premise of the statements on paths holds. -/
theorem witness_SetMode_pathsBacked : (holding contract direct).PathsBacked ∧ (holding contract direct).mode .p0 ≠ .sense := by
  refine ⟨fun p => ?_, by decide⟩
  cases p <;> exact ⟨fun h => absurd rfl h, by decide⟩

/-- A READY link with requests waiting. -/
def waiting (q : RequestSlot) : State := ready (fun u => { u with link := { u.link with slot := q } })

theorem witness_FrameStartsInSlotOrder :
    let l := ((waiting ⟨some ⟨some 1, 0, .lapsed⟩, none, none, none, true⟩).port .p0).link
    (l.state = .ready ∧ l.exchange = none ∧ l.sending = none ∧ l.receiving = false ∧ l.slot.release = some ⟨some 1, 0, .lapsed⟩) ∧
    ((waiting ⟨none, some ⟨1, 9, .met⟩, none, none, true⟩).port .p0).link.slot.yield = some ⟨1, 9, .met⟩ ∧
    ((waiting ⟨none, none, some ⟨1, 120⟩, none, true⟩).port .p0).link.slot.renew = some ⟨1, 120⟩ ∧
    ((waiting ⟨none, none, none, some ⟨1, false, 1, none, 0, 1⟩, true⟩).port .p0).link.slot.bid = some ⟨1, false, 1, none, 0, 1⟩ ∧
    ((waiting ⟨none, none, none, none, true⟩).port .p0).link.slot.hello = true := by decide

/-- A link whose HELLO awaits send, or is being sent. -/
def helloing (state : LinkState) (sent : Bool) : State :=
  ready (fun u => { u with link := { u.link with
    state := state, exchange := some ⟨.hello, 1, 2, none⟩, sending := if sent then some (.exchange .hello 1) else none } })

theorem witness_ExchangeFrameSent :
    (let l := ((helloing .opening false).port .p0).link
     l.sending = none ∧ l.receiving = false ∧ l.exchange = some ⟨.hello, 1, 2, none⟩ ∧ l.state = .opening) ∧
    (let l := ((ready (fun u => { u with link := { u.link with state := .opening } })).port .p0).link
     l.sending = none ∧ l.receiving = false ∧ l.exchange = none ∧ l.state = .opening) ∧
    ((helloing .exchange false).port .p0).link.state = .exchange ∧
    ((helloing .exchange true).port .p0).link.sending = some (.exchange .hello 1) ∧
    ((ready (fun u => { u with link := { u.link with sending := some (.yield ⟨1, 9, .met⟩ 5) } })).port .p0).link.sending =
      some (.yield ⟨1, 9, .met⟩ 5) := by decide

theorem witness_CollisionsAndDisturbance :
    ((helloing .exchange true).port .p0).link.sending.isSome = true ∧
    ((ready (exchanging (bidOf false) 1)).port .p0).link.exchange = some ⟨bidOf false, 1, 1, some 0⟩ ∧
    ((ready (exchanging (bidOf false) 0)).port .p0).link.exchange = some ⟨bidOf false, 1, 0, some 0⟩ ∧
    ((ready (exchanging .hello 0)).port .p0).link.exchange = some ⟨.hello, 1, 0, some 0⟩ ∧
    ((ready id).port .p0).link.exchange = none ∧ ((ready id).port .p0).link.state = .ready ∧
    ((ready (exchanging (bidOf false) 0)).port .p0).link.state = .exchange ∧ ((helloing .opening false).port .p0).link.state = .opening := by
  decide

/-- A link in RESYNC. -/
def resyncing (breaks : Nat) (phase : ResyncPhase) : State :=
  ready (fun u => { u with link := { u.link with state := .resync, resync := some ⟨breaks, phase, 0, .ready⟩ } })

theorem witness_ResyncPhases :
    ((resyncing 0 .breaking).port .p0).link.resync = some ⟨0, .breaking, 0, .ready⟩ ∧ reached (resyncing 0 .breaking).tick 0 = true ∧
    ((resyncing 2 .idleWait).port .p0).link.resync = some ⟨2, .idleWait, 0, .ready⟩ ∧ (2 : Nat) < 3 := by decide

/-- A contract in force on a link whose opening deadline is reached. -/
def expiring (k : Record) : State :=
  holding k (fun u => { u with link := { u.link with state := .opening, openingDeadline := some 0, slot := { u.link.slot with
    bid := some ⟨k.handle, false, 1, none, 325, 120⟩ } } })

theorem witness_LinkBecomesMute :
    (let l := ((expiring contract).port .p0).link
     l.opening = true ∧ (expiring contract).due l.openingDeadline = true) ∧ (expiring contract).record .p0 = some contract ∧
    contract.live = true ∧ contract.withdraw = false ∧ (expiring bidding).record .p0 = some bidding ∧ bidding.state = .bidding ∧
    bidding.withdraw = false ∧ ((expiring bidding).port .p0).link.slot.bid.isSome = true ∧
    (resyncing 3 .idleWait).record .p0 = none ∧ (resyncing 3 .idleWait).mode .p0 = .auto ∧
    ((resyncing 3 .idleWait).port .p0).front.attach = .present ∧ ((resyncing 3 .idleWait).port .p0).contract.holdoff = none ∧
    ((resyncing 3 .idleWait).port .p0).link.resync = some ⟨3, .idleWait, 0, .ready⟩ ∧ reached (resyncing 3 .idleWait).tick 0 = true := by decide

/-- A record whose exchange has met its reply deadline with no retry left. -/
def unanswered (k : Record) (b : ExchangeBody) : State := holding k (exchanging b 0)

theorem witness_ReplyDeadlineReached :
    ((ready (exchanging .hello 1)).port .p0).link.exchange = some ⟨.hello, 1, 1, some 0⟩ ∧ reached (ready (exchanging .hello 1)).tick 0 = true ∧
    ((ready (exchanging .hello 0)).port .p0).link.exchange = some ⟨.hello, 1, 0, some 0⟩ ∧
    (unanswered bidding (bidOf false)).record .p0 = some bidding ∧ bidding.withdraw = false ∧ bidding.state = .bidding ∧
    (unanswered { bidding with withdraw := true } (bidOf false)).record .p0 = some { bidding with withdraw := true } ∧
    (ready (exchanging (bidOf false) 0)).record .p0 = none ∧
    (unanswered { contract with amendment := some amendment } (bidOf true)).record .p0 = some { contract with amendment := some amendment } ∧
    amendment.transition = none ∧ contract.state ≠ .bidding ∧
    (let k := { contract with owed := true, owedStale := true, stale := true, amendment := some amendment }
     (unanswered k (bidOf true)).record .p0 = some k ∧ k.causeHolds = true) ∧
    (unanswered { contract with renewal := some ⟨.inFlight, 1⟩ } (.renew ⟨1, 120⟩)).record .p0 =
      some { contract with renewal := some ⟨.inFlight, 1⟩ } ∧
    (unanswered contract (.renew ⟨1, 120⟩)).record .p0 = some contract ∧ contract.renewing = false := by decide

/-- A link with an assembly of one entry. -/
def assembling : State :=
  ready (fun u => { u with link := { u.link with assembly := some ⟨5, 1, [(0, ⟨1, false, 250, 250, 100, 120, none⟩)], 0⟩ } })

theorem witness_TiersAssembly :
    assembling.hears .p0 = true ∧ bodyFieldsOk (.tiers 0 2 1 true (overlong.take 4)) = true ∧
    bodyFieldsOk (.tiers 0 2 1 true overlong) = false ∧
    (assembling.port .p0).link.assembly.map Assembly.next = some 1 ∧ reached assembling.tick 0 = true := by decide

theorem witness_CatalogueTaken :
    assembling.hears .p0 = true ∧ bodyFieldsOk (.tiers 0 2 1 true (overlong.take 1)) = true ∧
    (assembling.port .p0).link.assembly.map (fun a => (a.tag, a.next, a.entries.length)) = some (5, 1, 1) ∧
    rejectEntries [] [normalise 0 ⟨1, false, 250, 250, 100, 120, none⟩] = none ∧
    rejectEntries [] [normalise 0 ⟨0, false, 250, 250, 100, 120, none⟩] = some .badId ∧ (assembling.record .p0 = none) ∧
    (holding contract id).record .p0 = some contract ∧ (holding contract id).mode .p0 = .auto ∧ contract.amendment = none ∧
    (let t := after (.tiersPart .p0 false 5 0 1 0 true [⟨3, false, 600, 600, 200, 120, none⟩]) (holding contract id)
     ((t.autoChoice .p0).map Terms.tier = some 3) ∧ (t.record .p0).map Record.stale = some true) ∧
    (let k := { contract with tier := 0, low := 237, high := 275, voltage := 250, granted := 90 }
     (holding k id).record .p0 = some k ∧ k.tier = 0 ∧ k.live = true ∧ (holding k id).backed .p0 k = true ∧
      (holding { k with granted := 300 } id).backed .p0 { k with granted := 300 } = false) ∧
    ((ready (exchanging .hello 2)).port .p0).link.exchange = some ⟨.hello, 1, 2, some 0⟩ := by decide

theorem witness_FramesAndStrain :
    readFrame ⟨0xB000, [], none⟩ = none ∧ readFrame ⟨0xB000, [], some 0xD6⟩ = some ⟨false, 0, .settled⟩ ∧ State.reset.hears .p0 = false ∧
    (ready id).hears .p0 = true ∧ bodyFieldsOk (.decline 0) = false ∧ (ready id).path .p0 ≠ .closed ∧
    (holding contract closed).hears .p0 = true ∧ (holding contract closed).path .p0 = .closed ∧
    ((holding contract closed).port .p0).monitor.trimMode = .auto ∧ (holding contract closed).record .p0 = some contract := by decide

/-- A link that remembers an abandoned exchange of tag 4. -/
def remembering (kind : AbandonedKind) : State :=
  ready (fun u => { u with link := { u.link with memory := some ⟨4, kind, .noReply⟩ } })

theorem witness_StaleReplies :
    (remembering .bid).hears .p0 = true ∧ ((remembering .bid).port .p0).link.exchange = none ∧
    ((remembering .bid).port .p0).link.memory = some ⟨4, .bid, .noReply⟩ ∧
    ((remembering .renew).port .p0).link.memory = some ⟨4, .renew, .noReply⟩ ∧ bodyFieldsOk (.grant 7 2000 1000 0) = true ∧
    ((ready id).port .p0).link.memory = none ∧ (3 : BitVec 2) ≠ 0 := by decide

theorem witness_FreshBidAnswered :
    let s := holding bidding (exchanging (bidOf false) 2)
    s.hears .p0 = true ∧ (s.port .p0).link.exchange = some ⟨bidOf false, 1, 2, some 0⟩ ∧ (bidOf false).isBid = true ∧
    s.record .p0 = some bidding ∧ bidding.state = .bidding ∧ bidding.withdraw = false ∧ bodyFieldsOk (.grant 1 1000 325 120) = true ∧
    (1000 : BitVec 11).toNat = bidding.voltage ∧ (999 : BitVec 11).toNat ≠ bidding.voltage ∧ (1 : BitVec 3) = bidding.tier ∧
    (holding { bidding with withdraw := true } (exchanging (bidOf false) 2)).record .p0 = some { bidding with withdraw := true } ∧
    (holding { bidding with initialRecall := some ⟨324, 50, 9⟩ } (exchanging (bidOf false) 2)).record .p0 =
      some { bidding with initialRecall := some ⟨324, 50, 9⟩ } ∧
    (324 : Nat) < min 325 bidding.requested ∧ s.path .p0 ≠ .closed := by decide

/-- A contract whose amendment is in flight. -/
def amending (k : Record) : State := holding { k with amendment := some amendment } (exchanging (bidOf true) 2)

theorem witness_AmendmentAnswered :
    (amending contract).hears .p0 = true ∧ ((amending contract).port .p0).link.exchange = some ⟨bidOf true, 1, 2, some 0⟩ ∧
    (amending contract).record .p0 = some { contract with amendment := some amendment } ∧ contract.live = true ∧ amendment.transition = none ∧
    contract.withdraw = false ∧ amendment.voltage ≠ contract.voltage ∧
    bodyFieldsOk (.grant 2 450 300 1) = true ∧ (450 : BitVec 11).toNat = amendment.voltage ∧ (2 : BitVec 3) = amendment.tier ∧
    (amending { contract with withdraw := true }).record .p0 = some { contract with withdraw := true, amendment := some amendment } ∧
    (amending { contract with voltage := 450 }).record .p0 = some { contract with voltage := 450, amendment := some amendment } ∧
    (let k := { contract with owed := true, owedStale := true, stale := true }
     (amending k).record .p0 = some { k with amendment := some amendment } ∧ (amending k).mode .p0 = .auto ∧ k.renewing = false ∧
      k.causeHolds = true ∧ ((amending k).autoChoice .p0).isSome = true) := by decide

theorem witness_SettledHeard :
    (ready id).hears .p0 = true ∧ (ready id).record .p0 = none ∧ (holding bidding id).record .p0 = some bidding ∧ bidding.state = .bidding ∧
    (holding contract id).record .p0 = some contract ∧ contract.live = true ∧ contract.inTransition = false ∧
    (holding { contract with state := .settling } id).record .p0 = some { contract with state := .settling } ∧ contract.tier ≠ 0 ∧
    contract.settledHeard = false ∧ ((holding { contract with state := .settling } id).port .p0).front.voltage = 1000 ∧
    windowTest 950 1000 1000 = true ∧ windowTest 949 1000 1000 = false ∧
    (holding { contract with amendment := some { amendment with transition := some ⟨300, 120, 500, false⟩ } } id).record .p0 =
      some { contract with amendment := some { amendment with transition := some ⟨300, 120, 500, false⟩ } } ∧
    windowTest 1000 450 450 = false ∧ windowTest 450 450 450 = true := by decide

theorem witness_RenewedTaken :
    let k := { contract with lease := some ⟨120, some 9⟩, renewal := some ⟨.inFlight, 1⟩ }
    let s := holding k (exchanging (.renew ⟨1, 120⟩) 2)
    s.hears .p0 = true ∧ (s.port .p0).link.exchange = some ⟨.renew ⟨1, 120⟩, 1, 2, some 0⟩ ∧ s.record .p0 = some k ∧
    (1 : Word) ≠ 0 ∧
    (let k' := { k with owed := true, owedBase := true, tier := 0, lease := none }
     (holding k' (exchanging (.renew ⟨1, 120⟩) 2)).record .p0 = some k' ∧ k'.causeHolds = true) := by decide

theorem witness_RecallTaken :
    (ready id).hears .p0 = true ∧ (ready id).record .p0 = none ∧ (1000 : BitVec 10).toNat ≤ 1000 ∧ (holding bidding id).record .p0 = some bidding ∧
    (holding contract closed).hears .p0 = true ∧ (holding contract closed).record .p0 = some contract ∧ contract.state ≠ .bidding ∧
    (324 : BitVec 10).toNat < contract.granted ∧ contract.granted ≤ (325 : BitVec 10).toNat ∧ contract.recallPart = none ∧
    (let k := { contract with recallPart := some ⟨100, 0, .owed, 9, 0⟩ }
     (holding k closed).record .p0 = some k ∧ k.recallPart.isSome = true ∧ reached (holding k closed).tick 0 = true ∧ k.state = .inForce) ∧
    (let k := { contract with state := .settling, recallPart := some ⟨100, 0, .owed, 9, 0⟩ }
     (holding k id).record .p0 = some k ∧ k.state ≠ .inForce) := by decide

/-- A watched contract whose window of eight samples has ended below the threshold. -/
def collapsing (f : PortState → PortState) : State :=
  { holding contract (fun u => f { u with watch := { u.watch with window := some ⟨8, true, 0, false⟩ } }) with watchEnable := true }

theorem witness_SupplyLossTaken :
    (collapsing closed).record .p0 = some contract ∧ (collapsing closed).path .p0 = .closed ∧ (collapsing closed).watchEnable = true ∧
    (collapsing closed).hears .p0 = true ∧ ((collapsing closed).port .p0).watch.window = some ⟨8, true, 0, false⟩ ∧
    (1 : BitVec 2) ≠ 0 ∧ (holding contract closed).watchEnable = false ∧ (holding contract closed).record .p0 = some contract ∧
    (collapsing id).path .p0 ≠ .closed ∧ (ready id).hears .p0 = true ∧ (ready id).record .p0 = none ∧
    ((collapsing closed).modPort .p1 closed).path .p1 = .closed := by decide

theorem witness_DeadlinesRetire :
    (let k := { contract with state := .settling, settleDeadline := some 0 }
     (holding k id).record .p0 = some k ∧ (holding k id).due k.settleDeadline = true) ∧
    (let k := { contract with amendment := some { amendment with transition := some ⟨300, 120, 0, false⟩ } }
     (holding k id).record .p0 = some k ∧ reached (holding k id).tick 0 = true) ∧
    (let k := { contract with lease := some ⟨120, some 0⟩ }
     (holding k id).record .p0 = some k ∧ k.live = true ∧ (holding k id).due (some 0) = true) := by decide

theorem witness_RenewalAsked :
    (let k := { contract with lease := some ⟨120, some 30000⟩ }
     let s := holding k id
     s.record .p0 = some k ∧ k.live = true ∧ k.renewal = none ∧ k.withdraw = false ∧
      ((30000 : Tick) - s.tick).toInt ≤ (120 * 10 * s.policy.renewLead : Nat) ∧ s.linkState .p0 ≠ .mute) ∧
    (let k := { contract with renewal := some ⟨.retryWait 0, 1⟩ }
     let s := holding k (fun u => { u with link := { u.link with state := .mute } })
     s.record .p0 = some k ∧ reached s.tick 0 = true ∧ s.linkState .p0 = .mute) := by decide

/-- A free AUTO port whose holdoff deadline is reached. -/
def waitingOut (f : PortState → PortState) : State := ready (fun u => f { u with contract := { u.contract with holdoff := some 0 } })

theorem witness_HoldoffEndsWithAsking :
    let mute (u : PortState) : PortState := { u with link := { u.link with state := .mute } }
    let noOffer (u : PortState) : PortState := { u with catalogue := { u.catalogue with offered := [] } }
    let bids (s : State) : Prop := s.due (s.port .p0).contract.holdoff = true ∧ s.mode .p0 = .auto ∧ (s.port .p0).front.attach = .present ∧
      s.record .p0 = none ∧ (s.port .p0).contract.hold = false ∧ (s.port .p0).catalogue.held = true
    bids (waitingOut id) ∧ ((waitingOut id).autoChoice .p0).map Terms.tier = some 1 ∧
    bids (waitingOut noOffer) ∧ ((waitingOut noOffer).autoChoice .p0).map Terms.tier = some 0 ∧
    bids (waitingOut mute) ∧ (waitingOut mute).linkState .p0 = .mute ∧ ((waitingOut mute).port .p0).catalogue.base = true ∧
    (waitingOut mute).policy.vinLow ≤ 275 ∧ 237 ≤ (waitingOut mute).policy.vinHigh ∧
    ({ waitingOut noOffer with policy := { Policy.reset with vinLow := 276 } }.autoChoice .p0 = none) ∧
    (waitingOut direct).due ((waitingOut direct).port .p0).contract.holdoff = true ∧ (waitingOut direct).mode .p0 ≠ .auto := by
  refine ⟨by decide, by decide, by decide, by decide, by decide, by decide, by decide, by decide, by decide, by decide, by decide, by decide⟩

theorem witness_OverdrawAndRecovery :
    let s (spent : Bool) (k : Record) := holding k (fun u => closed { u with monitor := { u.monitor with
      window := some ⟨4, spent, false, none, true⟩, recovery := some 0 } })
    (s false contract).record .p0 = some contract ∧ ((s false contract).port .p0).monitor.window = some ⟨4, false, false, none, true⟩ ∧
    ((s true contract).port .p0).monitor.window = some ⟨4, true, false, none, true⟩ ∧ contract.trim < 15 ∧
    (s true { contract with trim := 14 }).record .p0 = some { contract with trim := 14 } ∧
    (s true { contract with trim := 15 }).record .p0 = some { contract with trim := 15 } ∧ contract.state = .inForce ∧
    (s true contract).path .p0 = .closed ∧ ((s true contract).port .p0).monitor.trimMode = .auto ∧
    (s true contract).due ((s true contract).port .p0).monitor.recovery = true := by decide

theorem witness_WatchWindowJudged :
    let s (f : PortState → PortState) (droop : Nat) := holding contract (fun u => f { u with watch := { u.watch with
      window := some ⟨8, false, droop, false⟩ } })
    ((s id 0).port .p0).watch.window = some ⟨8, false, 0, false⟩ ∧ (s id 0).path .p0 ≠ .closed ∧ (s closed 2).path .p0 = .closed ∧
    ((s closed 2).port .p0).watch.repeatAt = none ∧ (s closed 3).watchEnable = false ∧
    ((s closed 3).port .p0).watch.window = some ⟨8, false, 3, false⟩ ∧ (s closed 3).record .p0 = some contract ∧
    ((s closed 3).port .p0).monitor.trimMode = .auto := by decide

theorem witness_NothingDueNothingDone :
    let u := State.reset.port .p0
    u.front.debounce < 50 ∧ u.front.path ≠ .closing ∧ State.reset.due u.contract.holdoff = false ∧
    u.monitor.window.all (fun w => !w.due) = true ∧ u.watch.window.all (fun w => w.count < 8) = true ∧ u.link.state ≠ .ready ∧
    u.link.exchange.all (fun e => e.deadline.isSome) = true ∧ u.link.sending = none ∧ u.link.state = .quiet ∧ u.link.opening = false ∧
    u.link.resync.all (fun r => r.phase = .breaking) = true ∧ State.reset.due (u.link.assembly.map Assembly.deadline) = false ∧
    State.reset.record .p0 = none := by decide

/-- What stands and is not yet due: a transition, a lease before its renewal point, a HELLO that awaits send in RESYNC, a BID in OPENING. -/
theorem witness_NothingDueNothingDone_standing :
    (let k := { contract with lease := some ⟨120, some 30001⟩
                              amendment := some { amendment with transition := some ⟨300, 120, 500, false⟩ } }
     let s := holding k id
     s.record .p0 = some k ∧ reached s.tick 500 = false ∧ k.live = true ∧ k.renewal = none ∧ k.withdraw = false ∧
      (120 * 10 * s.policy.renewLead : Nat) < ((30001 : Tick) - s.tick).toInt) ∧
    (let l := ((helloing .resync false).port .p0).link
     l.state ≠ .exchange ∧ l.state ≠ .opening ∧ l.exchange = some ⟨.hello, 1, 2, none⟩) ∧
    (let l := ((ready (fun u => { u with link := { u.link with state := .opening, exchange := some ⟨bidOf false, 1, 2, none⟩ } })).port .p0).link
     l.state = .opening ∧ l.exchange.any (fun e => e.deadline.isSome || !e.body.isHello) = true) := by decide

theorem witness_BidTaken :
    (ready id).Listening ∧ portOf 4 = none ∧ (7 : Byte).toNat = 7 ∧ ¬(7 < (7 : Byte).toNat) ∧ ¬(1000 < (1000 : Word).toNat) ∧
    ¬((600 : Word) = 0 ∨ 600 < (600 : Word).toNat) ∧ 600 < (601 : Word).toNat ∧ 1000 < (1001 : Word).toNat ∧ portOf 0 = some .p0 ∧
    State.reset.mode .p0 = .sense ∧ ((holding contract id).record .p0).isSome = true ∧ (ready id).mode .p0 ≠ .sense ∧
    (ready id).record .p0 = none ∧ ((ready id).port .p0).catalogue.find 7 = none ∧
    ((ready id).port .p0).catalogue.find 1 = some ⟨1, .fixed, 1000, 1000, 325, some 120, none⟩ ∧ (325 : Word).toNat ≤ 325 ∧
    ((ready id).port .p0).catalogue.base = true ∧ (ready id).linkState .p0 = .ready ∧
    (ready (exchanging .hello 2)).linkState .p0 ≠ .ready ∧ State.reset.nextHandle = 1 ∧
    { State.reset with lastHandle := 255 }.nextHandle = 1 ∧ { holding contract id with lastHandle := 255 }.nextHandle = 2 := by decide

theorem witness_AmendTaken :
    (holding contract id).Listening ∧ portOf 4 = none ∧ portOf 0 = some .p0 ∧ (holding bidding id).record .p0 = some bidding ∧
    bidding.live = false ∧ (holding contract id).record .p0 = some contract ∧ contract.live = true ∧ contract.amendment = none ∧
    contract.renewing = false ∧ contract.withdraw = false ∧ ((holding contract id).port .p0).catalogue.find 3 = none ∧
    ((holding contract id).port .p0).catalogue.find 2 = some ⟨2, .fixed, 450, 450, 300, some 120, none⟩ ∧
    (holding contract id).linkState .p0 = .ready ∧
    (holding contract (fun u => { u with link := { u.link with state := .mute } })).linkState .p0 = .mute ∧
    (holding { contract with withdraw := true } id).record .p0 = some { contract with withdraw := true } := by decide

theorem witness_RetireTaken :
    State.reset.Listening ∧ portOf 4 = none ∧ portOf 0 = some .p0 ∧ State.reset.record .p0 = none ∧
    (holding { contract with withdraw := true } id).record .p0 = some { contract with withdraw := true } ∧
    (holding bidding (exchanging (bidOf false) 2)).record .p0 = some bidding ∧ bidding.withdraw = false ∧
    ((holding bidding (exchanging (bidOf false) 2)).port .p0).link.exchange = some ⟨bidOf false, 1, 2, some 0⟩ ∧
    (holding contract id).record .p0 = some contract ∧ ((holding contract id).port .p0).link.exchange = none := by decide

theorem witness_RankTaken :
    (holding contract id).Listening ∧ portOf 4 = none ∧ portOf 0 = some .p0 ∧ (3 : Nat) < 256 ∧ (65535 : Nat) < 65536 ∧
    (holding contract id).record .p0 = some contract ∧ contract.live = true ∧ State.reset.record .p0 = none := by decide

theorem witness_ClaimsAndPublication :
    State.reset.Listening ∧ 2 < (3 : Byte).toNat ∧ sinkOf 2 = some .pass ∧ ¬(4000 < (4000 : Word).toNat) ∧ 4000 < (4001 : Word).toNat ∧
    ¬(3 < (3 : Byte).toNat) ∧ State.reset.allocator.passEnable = false ∧ (1 : Byte).toNat ≤ 1 ∧ 1 < (2 : Byte).toNat ∧
    State.reset.policy.derate = (5 : Word).toNat ∧ (15 : Word).toNat ≤ 15 ∧ 15 < (16 : Word).toNat := by decide

theorem witness_PolicyStored : State.reset.Listening ∧ portOf 4 = none ∧ portOf 3 = some .p3 ∧ { State.reset with lock := true }.Listening := by
  decide

theorem witness_PolicyActsAtOnce :
    let s := holding { contract with lease := some ⟨120, some 60000⟩ } id
    s.Listening ∧ s.policy.vinLow = 225 ∧ s.policy.vinHigh = 1400 ∧ s.policy.currentMax = 500 ∧ s.policy.renewLead = 25 ∧
    s.policy.combine = .single ∧ s.policy.renewLead < (50 : Word).toNat ∧
    (let u := (pairing id id).modPort .p2 closed
     u.path .p1 = .opened ∧ 2 ≤ u.pathCount ∧ State.reset.path .p0 = .opened ∧ State.reset.mode .p0 = .sense ∧
      (let w := u.modPort .p2 (fun v => { v with front := { v.front with mode := .auto } })
       w.path .p1 = .opened ∧ 2 ≤ w.rosterCount)) ∧
    ((60000 : Tick) - s.tick).toInt ≤ (120 * 10 * 50 : Nat) ∧ s.record .p0 = some { contract with lease := some ⟨120, some 60000⟩ } := by
  decide

/-- The invariants that the switch-over clause of PolicyActsAtOnce assumes. -/
theorem witness_PolicyActsAtOnce_invariants :
    (holding contract id).PathsBacked ∧ (holding contract id).HandlesDistinct ∧ (holding contract id).RosterExact := by
  refine ⟨fun p => ?_, holding_lawful contract id (fun _ => rfl) (by decide)⟩
  cases p <;> exact ⟨fun h => absurd rfl h, by decide⟩

/-- A free AUTO port that may bid, for PolicyActsAtOnce. -/
theorem witness_PolicyActsAtOnce_asking :
    (ready id).Listening ∧ (ready id).MayBid .p0 ∧ ¬ State.reset.MayBid .p0 ∧ State.reset.record .p0 = none := by
  refine ⟨by decide, ⟨rfl, rfl, rfl, rfl, rfl, .inl rfl⟩, fun h => absurd h.1 (by decide), rfl⟩

theorem witness_TrimTaken :
    (holding contract id).Listening ∧ portOf 4 = none ∧ portOf 0 = some .p0 ∧ (15 : Byte).toNat ≤ 15 ∧ 15 < (16 : Byte).toNat ∧
    State.reset.record .p0 = none ∧ (holding contract id).record .p0 = some contract := by decide

theorem witness_WatchAndLock :
    State.reset.Listening ∧ State.reset.lock = false ∧ ({ State.reset with lock := true }).Listening ∧ 1 < (2 : Byte).toNat ∧
    (1 : Byte).toNat ≤ 1 ∧ (31 : Byte).toNat < 32 ∧ 32 ≤ (32 : Byte).toNat ∧ portOf 4 = none ∧ portOf 3 = some .p3 := by decide

theorem witness_QueriesAnswer :
    State.reset.straps.isSome = true ∧ portOf 4 = none ∧ portOf 255 = none ∧ portOf 3 = some .p3 ∧ State.reset.record .p3 = none ∧
    (holding contract id).record .p0 = some contract := by decide

theorem witness_FreezeAndReadFrozen :
    let copy : FrozenRecord := ⟨none, 0⟩
    let s := ready (fun u => { u with frozenRecord := some copy })
    State.reset.straps.isSome = true ∧ (15 : Byte).toNat < 16 ∧ 16 ≤ (16 : Byte).toNat ∧ (3 : Byte).toNat < 4 ∧ 4 ≤ (4 : Byte).toNat ∧
    portOf 4 = none ∧ portOf 0 = some .p0 ∧ (State.reset.port .p0).frozenStatus = none ∧ (State.reset.port .p0).frozenRecord = none ∧
    (s.port .p0).frozenStatus = none ∧ (s.port .p0).frozenRecord = some copy ∧
    ((after (.freeze 1 2) State.reset).port .p0).frozenStatus.isSome = true := by decide

theorem witness_ClearFlagsAndSoftReset :
    State.reset.Listening ∧ 4 < (5 : Byte).toNat ∧ (4 : Byte) = 4 ∧ portOf 3 = some .p3 ∧ (holding contract id).record .p0 = some contract ∧
    (ready id).Listening ∧ (ready id).mode .p0 = .auto ∧ (ready id).record .p0 = none ∧ ((ready id).port .p0).catalogue.held = true := by
  decide

theorem witness_CommandTransport :
    State.powerOn.straps = none ∧ hostCommandOf (.setPass 1) = some (.setPass 1) ∧ State.reset.targetAddress ≠ some 0x39 ∧
    State.reset.targetAddress = some 0x38 ∧ (20 : Byte).toNat ∉ [1, 2, 3, 4, 5, 49] ∧ (6 : Byte).toNat ∉ [1, 2, 3, 4, 5, 16, 17, 18, 19, 20, 21, 32, 33, 34, 35, 36, 37, 48, 49, 50, 63] ∧
    State.reset.cold = .idle ∧ { State.reset with cold := .coldWait }.straps.isSome = true ∧ { State.reset with cold := .coldWait }.cold ≠ .idle := by
  decide

end Sys2Proof.Tests
end

section
/-! PROOF. The catalogue's rules (chapter 3): the validation of a catalogue entry by entry (R45) and the automatic choice (R49 to R51). -/

namespace Sys2Proof.Machine

open Sys2Proof

/-! ## Validation -/

theorem burstOver_eq_any (t : Tier) : burstOver t = t.burst.any (fun b => 1000 < b.current) := by
  unfold burstOver
  cases t.burst <;> rfl

theorem badLease_eq_any (t : Tier) : badLease t = t.leaseMax.any (fun n => n = 0 || 600 < n) := by
  unfold badLease
  cases t.leaseMax <;> rfl

/-- The table of R45 for one entry, in its order. -/
theorem rejectEntry_eq_table (earlier : List (BitVec 3)) (t : Tier) :
    rejectEntry earlier t =
      if t.id = 0 then some .badId
      else if t.id ∈ earlier then some .duplicateId
      else if t.high < t.low then some .badWindow
      else if t.kind = .fixed ∧ t.low ≠ t.high then some .fixedSpread
      else if 2000 < t.low ∨ 2000 < t.high ∨ 1000 < t.ceiling ∨ t.burst.any (fun b => 1000 < b.current) = true then some .overRange
      else if t.leaseMax.any (fun n => n = 0 || 600 < n) = true then some .badLease
      else none := by
  simp only [rejectEntry, List.contains_iff_mem, burstOver_eq_any, badLease_eq_any, gt_iff_lt]

/-- The entries before one count only by the set of their ids. -/
theorem rejectEntry_congr {earlier other : List (BitVec 3)} (h : ∀ i, i ∈ earlier ↔ i ∈ other) (t : Tier) :
    rejectEntry earlier t = rejectEntry other t := by
  simp only [rejectEntry_eq_table, h]

@[simp] theorem rejectEntries_nil (earlier : List (BitVec 3)) : rejectEntries earlier [] = none := rfl

/-- The first entry's reason, else the first reason among the entries after it. -/
@[simp] theorem rejectEntries_cons (earlier : List (BitVec 3)) (t : Tier) (rest : List Tier) :
    rejectEntries earlier (t :: rest) = (rejectEntry earlier t).or (rejectEntries (t.id :: earlier) rest) := by
  rw [rejectEntries]
  cases rejectEntry earlier t <;> rfl

/-- Valid entries leave nothing behind but their ids. -/
theorem rejectEntries_append {earlier : List (BitVec 3)} {before : List Tier} (h : rejectEntries earlier before = none)
    (rest : List Tier) :
    rejectEntries earlier (before ++ rest) = rejectEntries ((before.map Tier.id).reverse ++ earlier) rest := by
  induction before generalizing earlier with
  | nil => rfl
  | cons t before ih =>
    obtain ⟨hvalid, hbefore⟩ := Option.or_eq_none_iff.mp ((rejectEntries_cons earlier t before).symm.trans h)
    simp [hvalid, ih hbefore]

/-- After valid entries the next one is tested against their ids, and the rest only if it is valid too. -/
theorem rejectEntries_append_cons {before : List Tier} (h : rejectEntries [] before = none) (t : Tier) (rest : List Tier) :
    rejectEntries [] (before ++ t :: rest) =
      (rejectEntry (before.map Tier.id) t).or (rejectEntries (t.id :: (before.map Tier.id).reverse) rest) := by
  rw [rejectEntries_append h, rejectEntries_cons, List.append_nil, rejectEntry_congr (fun _ => List.mem_reverse)]

/-- Settles O12: the entries before the first invalid one are passed over, and that entry is tested by the table. -/
theorem catalogueValidity : Obligations.CatalogueValidity := by
  refine ⟨rejectEntries_nil [], fun before e rest hbefore => ?_⟩
  simp only [← rejectEntry_eq_table, rejectEntries_append_cons hbefore]
  constructor
  · intro x hx
    rw [hx, Option.some_or]
  · intro hnone
    rw [hnone, rejectEntries_nil, Option.or_none]

/-! ## The automatic choice -/

namespace State

variable (s : State)

theorem eligible_iff (t : Tier) :
    s.eligible t = true ↔ t.low ≤ s.policy.vinHigh ∧ s.policy.vinLow ≤ t.high ∧ 10 ≤ t.ceiling := by
  simp [eligible, and_assoc]

theorem usableVoltage_eq (t : Tier) :
    s.usableVoltage t = if t.kind = .fixed then (if t.id = 0 then 250 else t.low) else min t.high s.policy.vinHigh := by
  unfold usableVoltage
  cases t.kind <;> rfl

/-- R50's order: a tier that a choice may keep against another, the two equal in all three respects included. -/
def KeptOver (a b : Tier) : Prop :=
  s.offeredPower b < s.offeredPower a ∨
    (s.offeredPower b = s.offeredPower a ∧
      (s.usableVoltage a < s.usableVoltage b ∨ (s.usableVoltage a = s.usableVoltage b ∧ a.id.toNat ≤ b.id.toNat)))

theorem KeptOver.refl (a : Tier) : s.KeptOver a a := .inr ⟨rfl, .inr ⟨rfl, le_rfl⟩⟩

variable {s}

theorem KeptOver.trans {a b c : Tier} (hab : s.KeptOver a b) (hbc : s.KeptOver b c) : s.KeptOver a c := by
  unfold KeptOver at *
  omega

theorem KeptOver.total (a b : Tier) : s.KeptOver a b ∨ s.KeptOver b a := by
  unfold KeptOver
  omega

/-- The model's strict comparison is the converse of the order. -/
theorem chosenOver_iff {a b : Tier} : s.chosenOver a b = true ↔ ¬ s.KeptOver b a := by
  unfold chosenOver KeptOver
  split_ifs <;> rw [decide_eq_true_iff] <;> omega

/-- What stays of a choice and a tier is one of the two, and may be kept over both. -/
theorem betterTier_some (b t : Tier) :
    ∃ m ∈ [b, t], s.betterTier (some b) t = some m ∧ s.KeptOver m b ∧ s.KeptOver m t := by
  by_cases hkept : s.KeptOver b t
  · have hstay : ¬ s.chosenOver t b = true := fun h => chosenOver_iff.mp h hkept
    exact ⟨b, by simp, if_neg hstay, .refl s b, hkept⟩
  · have hchosen : s.chosenOver t b = true := chosenOver_iff.mpr hkept
    have hother : s.KeptOver t b := (KeptOver.total b t).resolve_left hkept
    exact ⟨t, by simp, if_pos hchosen, hother, .refl s t⟩

/-- From a choice on, the fold ends with one of the tiers, and it may be kept over every one of them. -/
theorem foldl_betterTier_some (ts : List Tier) (b : Tier) :
    ∃ m ∈ b :: ts, ts.foldl s.betterTier (some b) = some m ∧ ∀ o ∈ b :: ts, s.KeptOver m o := by
  induction ts generalizing b with
  | nil => exact ⟨b, by simp, rfl, by simpa using KeptOver.refl s b⟩
  | cons t ts ih =>
    obtain ⟨c, hc, hbetter, hcb, hct⟩ := betterTier_some (s := s) b t
    obtain ⟨m, hm, hfold, hbest⟩ := ih c
    have hmc : s.KeptOver m c := hbest c (by simp)
    refine ⟨m, ?_, by rw [List.foldl_cons, hbetter, hfold], ?_⟩
    · simp only [List.mem_cons, List.not_mem_nil, or_false] at hc hm ⊢
      rcases hm with rfl | hm
      · exact or_assoc.mp (.inl hc)
      · exact .inr (.inr hm)
    · simp only [List.forall_mem_cons]
      exact ⟨hmc.trans hcb, hmc.trans hct, fun o ho => hbest o (List.mem_cons_of_mem c ho)⟩

theorem foldl_betterTier_eq_none_iff {ts : List Tier} : ts.foldl s.betterTier none = none ↔ ts = [] := by
  cases ts with
  | nil => simp
  | cons b ts =>
    obtain ⟨m, -, hfold, -⟩ := foldl_betterTier_some (s := s) ts b
    simp [List.foldl_cons, betterTier, hfold]

theorem foldl_betterTier_eq_some {ts : List Tier} {m : Tier} (h : ts.foldl s.betterTier none = some m) :
    m ∈ ts ∧ ∀ o ∈ ts, s.KeptOver m o := by
  cases ts with
  | nil => cases h
  | cons b ts =>
    obtain ⟨m', hmem, hfold, hbest⟩ := foldl_betterTier_some (s := s) ts b
    obtain rfl : m' = m := Option.some.inj (hfold.symm.trans h)
    exact ⟨hmem, hbest⟩

theorem autoChoice_eq_none_iff (p : Port) :
    s.autoChoice p = none ↔ ∀ t ∈ (s.port p).catalogue.tiers, ¬ s.eligible t = true := by
  rw [autoChoice, Option.map_eq_none_iff, foldl_betterTier_eq_none_iff, List.filter_eq_nil_iff]

theorem autoChoice_eq_some {p : Port} {b : Terms} (h : s.autoChoice p = some b) :
    ∃ t ∈ (s.port p).catalogue.tiers, s.eligible t = true ∧
      b = { tier := t.id, kind := t.kind, low := t.low, high := t.high, voltage := s.usableVoltage t, current := s.usableCurrent t
            lease := if t.id = 0 then none else some (s.leaseWanted t) } ∧
      ∀ o ∈ (s.port p).catalogue.tiers, s.eligible o = true → s.KeptOver t o := by
  obtain ⟨t, hfold, hterms⟩ := Option.map_eq_some_iff.mp h
  obtain ⟨hmem, hbest⟩ := foldl_betterTier_eq_some hfold
  obtain ⟨htier, helig⟩ := List.mem_filter.mp hmem
  exact ⟨t, htier, helig, hterms.symm, fun o ho he => hbest o (List.mem_filter.mpr ⟨ho, he⟩)⟩

end State

/-- Settles O13: the fold over the eligible tiers keeps the best so far by R50's order, which is reflexive, total and transitive. -/
theorem automaticChoice : Obligations.AutomaticChoice := by
  intro s p
  simp only [← State.eligible_iff, ← State.usableVoltage_eq]
  exact ⟨State.autoChoice_eq_none_iff p, fun _ h => State.autoChoice_eq_some h⟩

end Sys2Proof.Machine
end

section
/-! PROOF. The taking of a host command while no cold state stands (R172, R175), the allocator's commands (R133, R134, R137) and a publication
(R136, R141 to R143). -/

namespace Sys2Proof.Machine

open Sys2Proof

/-! ## The numbers a host writes -/

theorem sinkOf_eq_none_iff (b : Byte) : sinkOf b = none ↔ 2 < b.toNat := by
  unfold sinkOf
  split
  case h_4 h0 h1 h2 =>
    have hover : b.toNat ≠ 0 ∧ b.toNat ≠ 1 ∧ b.toNat ≠ 2 := ⟨h0, h1, h2⟩
    simp only [true_iff]
    omega
  all_goals simp [*]

theorem onOff_eq_none {b : Byte} (h : 1 < b.toNat) : onOff b = none := by
  unfold onOff
  split
  · omega
  · omega
  · rfl

theorem onOff_eq_some {b : Byte} (h : b.toNat ≤ 1) : onOff b = some (decide (b = 1)) := by
  obtain rfl | rfl : b = 0 ∨ b = 1 := by bv_omega
  · rfl
  · rfl

@[simp] theorem parameterOf_code (n : Parameter) : parameterOf n.code = some n := by cases n <;> rfl

namespace Allocator

variable (a : Allocator)

@[simp] theorem enabled_system : a.enabled .system = true := rfl
@[simp] theorem enabled_charge : a.enabled .charge = true := rfl
@[simp] theorem enabled_pass : a.enabled .pass = a.passEnable := rfl

/-- The sum of R141: the floor of PASS counts while the enable is on. -/
theorem floors_eq :
    a.floors = (a.claims.get .system).floor + (a.claims.get .charge).floor + (if a.passEnable then (a.claims.get .pass).floor else 0) := by
  cases h : a.passEnable <;> simp [floors, sinkOrder, List.filter_cons, h, add_assoc]

end Allocator

namespace State

variable (s : State)

/-! ## The taking of a command -/

@[simp] theorem respond_done : respond (.done s) = s.answered .done .empty := rfl
@[simp] theorem respond_refuse (c : Status) : respond (.refuse s c) = s.answered c .empty := rfl

theorem coldTakeover_of_idle {s : State} (h : s.cold = .idle) : s.coldTakeover = s := if_pos h

/-- With the straps sampled and no cold state to end, a command only acts and answers. -/
theorem takeCommand_of_listening {s : State} (h : s.Listening) (c : HostCommand) : s.takeCommand c = respond (s.runCommand c) := by
  obtain ⟨hstraps, hcold⟩ := h
  have hawake : ¬ s.straps.isNone = true := by simpa [Option.isSome_iff_ne_none] using hstraps
  simp only [takeCommand, if_neg hawake, coldTakeover_of_idle hcold, ite_self]

theorem exec_setClaim {s : State} (h : s.Listening) (sink : Byte) (request floor : Word) (priority : Byte) :
    exec (.setClaim sink request floor priority) s = .next (respond (s.setClaim sink request floor priority)) :=
  congrArg Host.Outcome.next (takeCommand_of_listening h (.setClaim sink request floor priority))

theorem exec_setPass {s : State} (h : s.Listening) (v : Byte) : exec (.setPass v) s = .next (respond (s.setPass v)) :=
  congrArg Host.Outcome.next (takeCommand_of_listening h (.setPass v))

theorem exec_policyDerate {s : State} (h : s.Listening) (b : Byte) (v : Word) :
    exec (.policyDerate b v) s = .next (respond (s.setPolicy Parameter.derate.code b v)) :=
  congrArg Host.Outcome.next (takeCommand_of_listening h (.setPolicy Parameter.derate.code b v))

/-! ## SET CLAIM -/

theorem setClaim_of_no_sink {sink : Byte} (h : sinkOf sink = none) (request floor : Word) (priority : Byte) :
    s.setClaim sink request floor priority = .refuse s .refusedRange := by
  simp only [setClaim, h]

/-- The two rows of the table of R133 for a sink that there is refuse alike. -/
theorem setClaim_of_sink {sink : Byte} {k : Sink} (h : sinkOf sink = some k) (request floor : Word) (priority : Byte) :
    s.setClaim sink request floor priority =
      if 4000 < request.toNat ∨ 4000 < floor.toNat ∨ 3 < priority.toNat ∨ (request ≠ 0 ∧ request.toNat < floor.toNat) then
        .refuse s .refusedRange
      else
        .done { s with
          allocator := { s.allocator with
            claims := s.allocator.claims.set k { request := request.toNat, floor := floor.toNat, priority := priority.toNat } } }.publish := by
  simp only [setClaim, h, ← ite_or, or_assoc]

/-! ## SET PASS -/

theorem setPassEnable_same {s : State} {on : Bool} (h : s.allocator.passEnable = on) : s.setPassEnable on = s := if_pos h

theorem setPassEnable_changed {s : State} {on : Bool} (h : s.allocator.passEnable ≠ on) :
    s.setPassEnable on = { s with allocator := { s.allocator with passEnable := on } }.publish := if_neg h

theorem setPass_refused {v : Byte} (h : 1 < v.toNat) : s.setPass v = .refuse s .refusedRange := by
  simp only [setPass, onOff_eq_none h]

theorem setPass_taken {v : Byte} (h : v.toNat ≤ 1) : s.setPass v = .done (s.setPassEnable (decide (v = 1))) := by
  simp only [setPass, onOff_eq_some h]

/-! ## SET POLICY -/

/-- The checks of R179 for a parameter of the part that the lock leaves alone: the port byte is not read, and the range and the input window decide. -/
theorem setPolicy_of_part {n : Parameter} (hpart : n.perPort = false) (hlock : n ≠ .dropout) (b : Byte) (v : Word) :
    s.setPolicy n.code b v =
      if inRange n v.toNat = true ∧ s.windowKept n v.toNat = true then .done (s.writePolicy .p0 n v) else .refuse s .refusedRange := by
  have hport : portOf (if n.perPort then b else 0) = some .p0 := by rw [hpart]; rfl
  simp only [setPolicy, parameterOf_code, hport, hlock, false_and, if_false]
  cases inRange n v.toNat <;> cases s.windowKept n v.toNat <;> rfl

theorem setPolicy_derate (b : Byte) (v : Word) :
    s.setPolicy Parameter.derate.code b v =
      if v.toNat ≤ 15 then .done (s.writePolicy .p0 .derate v) else .refuse s .refusedRange := by
  simp [setPolicy_of_part s (n := .derate) rfl nofun, inRange, windowKept]

theorem writePolicy_derate_same {s : State} {v : Word} (h : s.policy.derate = v.toNat) (p : Port) : s.writePolicy p .derate v = s := by
  simp only [writePolicy, ← h, if_true]

theorem writePolicy_derate_changed {s : State} {v : Word} (h : s.policy.derate ≠ v.toNat) (p : Port) :
    s.writePolicy p .derate v = { s with policy := { s.policy with derate := v.toNat } }.publish := if_neg (Ne.symm h)

/-! ## A publication -/

theorem contribution_eq (p : Port) :
    s.contribution p =
      if s.allocator.closedSet.get p then ((s.record p).map (fun k => k.voltage * k.effectiveCeiling / 500)).getD 0 else 0 := by
  unfold contribution
  cases s.record p <;> rfl

theorem computePool_eq :
    s.computePool =
      min 4000 ((s.contribution .p0 + s.contribution .p1 + s.contribution .p2 + s.contribution .p3) * (100 - s.policy.derate) / 100) := by
  simp [computePool, Port.all, add_assoc]

/-- The whole effect of a publication: the SHORT flag on entry, and the published values. -/
theorem publish_eq :
    s.publish =
      { s with
        deviceFlags :=
          if s.computePool < s.allocator.floors ∧ s.allocator.short = false then s.deviceFlags ||| oneBit DeviceFlag.short.bit
          else s.deviceFlags
        allocator := { s.allocator with
          pool := s.computePool, short := decide (s.computePool < s.allocator.floors), allocations := s.allocator.divide s.computePool
          publishedAt := s.tick
          limits :=
            ⟨limitOf (s.allocator.divide s.computePool).system, limitOf (s.allocator.divide s.computePool).charge,
              limitOf (s.allocator.divide s.computePool).pass⟩ } } := by
  by_cases hentered : s.computePool < s.allocator.floors ∧ s.allocator.short = false
  · simp only [publish, hentered, decide_true, Bool.not_false, Bool.and_self, if_true, and_self]
    rfl
  · have hquiet : ¬ (decide (s.computePool < s.allocator.floors) && !s.allocator.short) = true := by simpa using hentered
    simp only [publish, if_neg hentered, if_neg hquiet]

end State

/-- Settles O52: each command answers as its checks say and publishes on a change, and a publication is its equation (R142) with the pool and
the floors written out. -/
theorem claimsAndPublication : Obligations.ClaimsAndPublication := by
  refine ⟨fun s sink request floor priority hs => ?claim, fun s v hs => ?pass, fun s b v hs => ?derate, fun s => ?publication⟩
  case claim =>
    rw [State.exec_setClaim hs]
    refine ⟨fun hrefused => ?_, fun k hk htaken => ?_⟩
    · cases hk : sinkOf sink with
      | none => rw [State.setClaim_of_no_sink s hk, State.respond_refuse]
      | some k =>
        have hsink : ¬ 2 < sink.toNat := by simp [← sinkOf_eq_none_iff, hk]
        rw [State.setClaim_of_sink s hk, if_pos (hrefused.resolve_left hsink), State.respond_refuse]
    · rw [State.setClaim_of_sink s hk, if_neg (fun h => htaken (.inr h)), State.respond_done]
  case pass =>
    rw [State.exec_setPass hs]
    refine ⟨fun hover => ?_, fun hrange => ⟨fun hsame => ?_, fun hchange => ?_⟩⟩
    · rw [State.setPass_refused s hover, State.respond_refuse]
    · rw [State.setPass_taken s hrange, State.setPassEnable_same hsame, State.respond_done]
    · rw [State.setPass_taken s hrange, State.setPassEnable_changed hchange, State.respond_done]
  case derate =>
    rw [State.exec_policyDerate hs, State.setPolicy_derate]
    refine ⟨fun hover => ?_, fun hrange => ⟨fun hsame => ?_, fun hchange => ?_⟩⟩
    · rw [if_neg (Nat.not_le.mpr hover), State.respond_refuse]
    · rw [if_pos hrange, State.writePolicy_derate_same hsame, State.respond_done]
    · rw [if_pos hrange, State.writePolicy_derate_changed hchange, State.respond_done]
  case publication =>
    simp only [← State.contribution_eq, ← State.computePool_eq, ← Allocator.floors_eq]
    exact State.publish_eq s

end Sys2Proof.Machine
end

section
/-! PROOF. The flags that CLEAR FLAGS clears (R184), and a soft reset with the askings that follow it (R58 to R61, R167, R186). -/

namespace Sys2Proof.Machine

open Sys2Proof

/-! ## What one port keeps -/

/-- A port as a soft reset leaves it, before the asking (R167, R186). -/
def PortState.softReset (u : PortState) : PortState :=
  { u with
    flags := 0, frozenRecord := none, frozenStatus := none
    contract := { u.contract with hold := false, attempts := 0, holdoff := none }
    watch := { window := if u.front.path = .closed then u.watch.window else none, forced := false, repeatAt := none } }

/-- A port with the only values that an asking on it may change. -/
def PortState.asked (u : PortState) (r : Option Record) (armed : Bool) (b : Option BidRequest) : PortState :=
  { u with
    contract := { u.contract with record := r }
    monitor := { u.monitor with burstArmed := armed }
    link := { u.link with slot := { u.link.slot with bid := b } } }

theorem PortState.asked_self (u : PortState) : u.asked u.contract.record u.monitor.burstArmed u.link.slot.bid = u := rfl

namespace State

variable {s t : State} {p : Port}

/-! ## CLEAR FLAGS -/

theorem exec_clearFlags (h : s.Listening) (g : Byte) (m : Word) : exec (.clearFlags g m) s = .next (respond (s.clearFlags g m)) :=
  congrArg Host.Outcome.next (takeCommand_of_listening h (.clearFlags g m))

theorem portOf_le {g : Byte} (h : portOf g = some p) : g.toNat ≤ 4 := by
  unfold portOf Port.ofNat? at h
  split at h
  case h_5 => cases h
  all_goals omega

theorem clearFlags_over {g : Byte} (h : 4 < g.toNat) (m : Word) : s.clearFlags g m = .refuse s .refusedRange := if_pos h

theorem clearFlags_device (m : Word) : s.clearFlags 4 m = .done { s with deviceFlags := s.deviceFlags &&& ~~~m } := rfl

theorem clearFlags_port {g : Byte} (h : portOf g = some p) (m : Word) :
    s.clearFlags g m = .done (s.modPort p (fun u => { u with flags := u.flags &&& ~~~m })) := by
  have hport : Port.ofNat? g.toNat = some p := h
  simp only [clearFlags, if_neg (Nat.not_lt.mpr (portOf_le h)), clearGroup, hport]

/-! ## Work that stays on each port in turn -/

/-- The part around its ports: all but the ports and the last handle issued. -/
def around (s : State) : State := { s with ports := .all .reset, lastHandle := 0 }

theorem eq_of_around (h : t.around = s.around) : t = { s with ports := t.ports, lastHandle := t.lastHandle } :=
  congrArg (fun x => { x with ports := t.ports, lastHandle := t.lastHandle }) h

theorem part_of_around (h : t.around = s.around) :
    t.deviceFlags = s.deviceFlags ∧ t.enables = s.enables ∧ t.roster = s.roster ∧ t.allocator = s.allocator ∧ t.policy = s.policy ∧
      t.time = s.time ∧ t.watchEnable = s.watchEnable ∧ t.alertRoute = s.alertRoute ∧ t.lock = s.lock ∧ t.straps = s.straps ∧
      t.cold = s.cold := by
  rw [eq_of_around h]
  exact ⟨rfl, rfl, rfl, rfl, rfl, rfl, rfl, rfl, rfl, rfl, rfl⟩

/-- The work for a port touches neither another port nor the part around the ports. -/
structure StaysOnPort (f : State → Port → State) : Prop where
  around : ∀ s p, (f s p).around = s.around
  others : ∀ s {p q}, q ≠ p → (f s p).port q = s.port q

namespace StaysOnPort

variable {f : State → Port → State}

theorem of_modPort (h : ∀ s p, ∃ n g, f s p = { s with lastHandle := n }.modPort p g) : StaysOnPort f where
  around s p := by
    obtain ⟨n, g, hturn⟩ := h s p
    rw [hturn]
    rfl
  others s p q hne := by
    obtain ⟨n, g, hturn⟩ := h s p
    rw [hturn, port_modPort_ne _ _ _ hne]
    rfl

theorem foldl_around (h : StaysOnPort f) (l : List Port) (s : State) : (l.foldl f s).around = s.around := by
  induction l generalizing s with
  | nil => rfl
  | cons q l ih => exact (ih (f s q)).trans (h.around s q)

theorem foldl_port_not_mem (h : StaysOnPort f) {l : List Port} (hp : p ∉ l) (s : State) : (l.foldl f s).port p = s.port p := by
  induction l generalizing s with
  | nil => rfl
  | cons q l ih =>
    rw [List.mem_cons, not_or] at hp
    exact (ih hp.2 (f s q)).trans (h.others s hp.1)

/-- A port ends as its own turn leaves it, and that turn finds the port and the part around the ports untouched. -/
theorem foldl_port_mem (h : StaysOnPort f) {l : List Port} (hl : l.Nodup) (hp : p ∈ l) (s : State) :
    ∃ u : State, u.around = s.around ∧ u.port p = s.port p ∧ (l.foldl f s).port p = (f u p).port p := by
  induction l generalizing s with
  | nil => cases hp
  | cons q l ih =>
    obtain ⟨hq, hl⟩ := List.nodup_cons.mp hl
    by_cases hpq : p = q
    · subst hpq
      exact ⟨s, rfl, rfl, h.foldl_port_not_mem hq (f s p)⟩
    · obtain ⟨u, haround, hport, hturn⟩ := ih hl ((List.mem_cons.mp hp).resolve_left hpq) (f s q)
      exact ⟨u, haround.trans (h.around s q), hport.trans (h.others s hpq), hturn⟩

end StaysOnPort

/-! ## The clearing of a port -/

/-- Where neither a forced test nor a repeat stands, a watch window runs on a CLOSED path alone (R158). -/
theorem tidyWatch_of_quiet (hforced : (s.port p).watch.forced = false) (hrepeat : (s.port p).watch.repeatAt = none) :
    s.tidyWatch p = s.modPort p (fun u =>
      { u with watch := { u.watch with window := if u.front.path = .closed then u.watch.window else none } }) := by
  by_cases hclosed : (s.port p).front.path = .closed
  · have hruns : s.watchRuns p = true := by simp [watchRuns, path, hclosed]
    rw [tidyWatch, if_pos hruns, modPort_id s p (by rw [if_pos hclosed])]
  · have hrests : ¬ s.watchRuns p = true := by simp [watchRuns, path, hclosed, hforced, hrepeat]
    rw [tidyWatch, if_neg hrests]
    exact modPort_congr s p (by rw [if_neg hclosed])

theorem softResetPort_eq (s : State) (p : Port) : s.softResetPort p = s.modPort p PortState.softReset := by
  rw [softResetPort, tidyWatch_of_quiet (by rw [port_modPort_self]) (by rw [port_modPort_self]), modPort_modPort]
  rfl

theorem softResetPort_stays : StaysOnPort softResetPort := .of_modPort (fun s p => ⟨s.lastHandle, _, softResetPort_eq s p⟩)

/-! ## The asking on a port -/

theorem localBid_asked (s : State) (p : Port) (current : Nat) :
    ∃ n r a b, s.localBid p current = { s with lastHandle := n }.modPort p (fun u => u.asked r a b) :=
  ⟨_, _, _, (s.port p).link.slot.bid, (localBid_eq s p current).trans (modPort_congr _ p rfl)⟩

theorem linkBid_asked (b : Terms) (h : s.linkState p ≠ .mute) :
    ∃ n r a q, s.linkBid p b = { s with lastHandle := n }.modPort p (fun u => u.asked r a q) := by
  rw [linkBid_eq s p b h]
  cases s.linkUsable p with
  | true => exact ⟨_, _, (s.port p).monitor.burstArmed, _, modPort_congr _ p rfl⟩
  | false => exact ⟨_, _, (s.port p).monitor.burstArmed, (s.port p).link.slot.bid, modPort_congr _ p rfl⟩

/-- On a MUTE link the bid of an asking is local (R58). -/
theorem askingTerms_linked {b : Terms} (h : s.askingTerms p = some b) (htier : b.tier ≠ 0) : s.linkState p ≠ .mute := by
  intro hmute
  rw [askingTerms_mute s p hmute] at h
  split at h
  · exact htier (Option.some.inj h ▸ rfl)
  · cases h

/-- An asking changes nothing but its port's record, burst mark and waiting BID, and the last handle issued (R58 to R61). -/
theorem asking_asked (s : State) (p : Port) :
    ∃ n r a b, s.asking p = { s with lastHandle := n }.modPort p (fun u => u.asked r a b) := by
  have hidle : ∃ n r a b, s = { s with lastHandle := n }.modPort p (fun u => u.asked r a b) :=
    ⟨s.lastHandle, _, _, _, (modPort_id s p (PortState.asked_self (s.port p))).symm⟩
  by_cases hbid : s.MayBid p
  · rw [asking_bids s p hbid]
    cases hterms : s.askingTerms p with
    | none => exact hidle
    | some b =>
      by_cases htier : b.tier = 0
      · simpa only [freshBid, if_pos htier] using localBid_asked s p b.current
      · simpa only [freshBid, if_neg htier] using linkBid_asked b (askingTerms_linked hterms htier)
  · rw [asking_idle s p hbid]
    exact hidle

theorem asking_port_self (s : State) (p : Port) : ∃ r a b, (s.asking p).port p = (s.port p).asked r a b := by
  obtain ⟨n, r, a, b, h⟩ := asking_asked s p
  exact ⟨r, a, b, by rw [h, port_modPort_self]; rfl⟩

theorem asking_stays : StaysOnPort asking := .of_modPort (fun s p => by
  obtain ⟨n, r, a, b, h⟩ := asking_asked s p
  exact ⟨n, _, h⟩)

/-- What an asking has left standing is read off the port, the policy and the time alone. -/
theorem BidStands.congr {h : Handle} (hstands : s.BidStands p h) (hport : t.port p = s.port p) (hpolicy : t.policy = s.policy)
    (htime : t.time = s.time) : t.BidStands p h := by
  have hrecord : t.record p = s.record p := congrArg (fun u => u.contract.record) hport
  have hlink : t.linkState p = s.linkState p := congrArg (fun u => u.link.state) hport
  have husable : t.linkUsable p = s.linkUsable p := by rw [linkUsable, linkUsable, hlink]
  have hchoice : t.autoChoice p = s.autoChoice p := autoChoice_congr p hpolicy (by rw [hport])
  simp only [BidStands, bidFrame, baseRecord, biddingRecord, tick, ahead, hport, hpolicy, htime, hrecord, hlink, husable, hchoice]
    at hstands ⊢
  exact hstands

/-! ## ATTN# and ALERT# -/

theorem attn_of_disabled (h : s.enables = 0) : s.attn = false := by simp [attn, groupEnable, deviceEnable, h]

theorem alert_of_cleared (h : ∀ p, (s.port p).flags = 0) : s.alert = false := by simp [alert, flag, h]

/-! ## RESET PART -/

theorem exec_resetPart (h : s.Listening) : exec .resetPart s = .next (s.softReset.answered .done .empty) :=
  congrArg Host.Outcome.next (takeCommand_of_listening h .resetPart)

/-- Around the ports a soft reset changes the flags and the enables alone. -/
theorem softReset_around (s : State) : s.softReset.around = { s with deviceFlags := 0, enables := 0 }.around :=
  (asking_stays.foldl_around _ _).trans (softResetPort_stays.foldl_around _ _)

/-- A soft reset ends on each port with an asking on the cleared port (R186). -/
theorem softReset_port (s : State) (p : Port) :
    ∃ u : State, u.around = { s with deviceFlags := 0, enables := 0 }.around ∧ u.port p = (s.port p).softReset ∧
      s.softReset.port p = (u.asking p).port p := by
  obtain ⟨v, -, hport, hcleared⟩ :=
    softResetPort_stays.foldl_port_mem all_nodup (mem_all p) { s with deviceFlags := 0, enables := 0 }
  obtain ⟨u, haround, hfound, hasked⟩ :=
    asking_stays.foldl_port_mem all_nodup (mem_all p) (Port.all.foldl softResetPort { s with deviceFlags := 0, enables := 0 })
  refine ⟨u, haround.trans (softResetPort_stays.foldl_around _ _), ?_, hasked⟩
  rw [hfound, hcleared, softResetPort_eq, port_modPort_self, hport]
  rfl

/-- The conditions of R58 for the asking that ends a soft reset: the hold and the holdoff are gone by then (R186). -/
def AsksAfterReset (s : State) (p : Port) : Prop :=
  s.record p = none ∧ s.mode p = .auto ∧ (s.port p).front.attach = .present ∧
    ((s.port p).catalogue.held = true ∨ s.linkState p = .mute)

theorem mayBid_of_cleared (h : t.port p = (s.port p).softReset) : t.MayBid p ↔ s.AsksAfterReset p := by
  simp only [MayBid, AsksAfterReset, mode, record, linkState, h, PortState.softReset, true_and]
  tauto

theorem softReset_port_asked (s : State) (p : Port) : ∃ r a b, s.softReset.port p = (s.port p).softReset.asked r a b := by
  obtain ⟨u, -, hcleared, hasked⟩ := softReset_port s p
  obtain ⟨r, a, b, hself⟩ := asking_port_self u p
  exact ⟨r, a, b, by rw [hasked, hself, hcleared]⟩

theorem softReset_flags (s : State) (p : Port) : (s.softReset.port p).flags = 0 := by
  obtain ⟨r, a, b, h⟩ := softReset_port_asked s p
  rw [h]
  rfl

/-- A port whose asking finds its conditions unmet is only cleared. -/
theorem softReset_port_idle (h : ¬ s.AsksAfterReset p) : s.softReset.port p = (s.port p).softReset := by
  obtain ⟨u, -, hcleared, hasked⟩ := softReset_port s p
  rw [hasked, asking_idle u p (fun hbid => h ((mayBid_of_cleared hcleared).mp hbid)), hcleared]

theorem softReset_port_stands (h : s.AsksAfterReset p) : ∃ n, s.softReset.BidStands p n := by
  obtain ⟨u, haround, hcleared, hasked⟩ := softReset_port s p
  have hstands := asking_stands u p ((mayBid_of_cleared hcleared).mpr h)
  have hsame : s.softReset.around = (u.asking p).around := (softReset_around s).trans ((asking_stays.around u p).trans haround).symm
  obtain ⟨-, -, -, -, hpolicy, htime, -⟩ := part_of_around hsame
  exact ⟨_, hstands.congr hasked hpolicy htime⟩

end State

/-- Settles O59: CLEAR FLAGS is the update of its one group, and a soft reset is the clearing of each port with an asking on it, which
changes nothing but a record, a burst mark, a waiting BID and the last handle issued. -/
theorem clearFlagsAndSoftReset : Obligations.ClearFlagsAndSoftReset := by
  intro s hs
  refine ⟨fun g m => ?clear, s.softReset, State.exec_resetPart hs, ?reset⟩
  case clear =>
    rw [State.exec_clearFlags hs]
    refine ⟨fun hover => ?_, fun hdevice => ?_, fun p hport => ?_⟩
    · rw [State.clearFlags_over hover, State.respond_refuse]
    · rw [hdevice, State.clearFlags_device, State.respond_done]
    · rw [State.clearFlags_port hport, State.respond_done]
  case reset =>
    obtain ⟨hdevice, henables, hroster, hallocator, hpolicy, htime, hwatch, hroute, hlock, hstraps, hcold⟩ :=
      State.part_of_around (State.softReset_around s)
    refine ⟨hdevice, henables, State.attn_of_disabled henables, State.alert_of_cleared (State.softReset_flags s), hroster, hallocator,
      hpolicy, htime, hwatch, hroute, hlock, hstraps, hcold, fun p => ?_⟩
    obtain ⟨r, a, b, hport⟩ := State.softReset_port_asked s p
    refine ⟨?_, ?_, ?_, ?_, ?_, ?_, ?_, ?_, ?_, ?_, ?role, ?_, ?_, fun k hk => ?held,
      fun hfree => ⟨fun hasks => ?asks, fun hno => ?idle⟩⟩
    case role => exact (congrArg PortState.role hport :)
    case held =>
      have hcleared := State.softReset_port_idle (fun h : s.AsksAfterReset p => Option.some_ne_none k (hk.symm.trans h.1))
      rw [State.record, hcleared]
      exact ⟨hk, rfl, rfl⟩
    case asks => exact State.softReset_port_stands ⟨hfree, hasks⟩
    case idle =>
      have hcleared := State.softReset_port_idle (fun h : s.AsksAfterReset p => hno h.2)
      rw [State.record, hcleared]
      exact hfree
    all_goals
      rw [hport]
      rfl

end Sys2Proof.Machine
end

section
/-! PROOF. The two stages of an allocation (R138, R139): what each gives, in which order, and what is left of the pool. -/

namespace Sys2Proof.PerSink

variable {α : Type}

@[simp] theorem get_set_self (v : PerSink α) (k : Sink) (x : α) : (v.set k x).get k = x := by cases k <;> rfl

theorem get_set_ne (v : PerSink α) {k j : Sink} (x : α) (h : j ≠ k) : (v.set k x).get j = v.get j := by
  cases k <;> cases j <;> simp_all [set, get]

/-- The sum over the three sinks. -/
def total (v : PerSink Nat) : Nat := v.system + v.charge + v.pass

theorem total_set (v : PerSink Nat) (k : Sink) (n : Nat) : (v.set k (v.get k + n)).total = v.total + n := by
  cases k <;> simp only [total, set, get] <;> omega

end Sys2Proof.PerSink

namespace Sys2Proof.Machine

open Sys2Proof

/-! ## The order of the claims -/

namespace Allocator

variable (a : Allocator)

/-- A claim comes before another: by priority, and then in the order SYSTEM, CHARGE, PASS (R138). -/
def Before (k j : Sink) : Prop :=
  (a.claims.get k).priority < (a.claims.get j).priority ∨
    ((a.claims.get k).priority = (a.claims.get j).priority ∧ ((k = .system ∧ j ≠ .system) ∨ (k = .charge ∧ j = .pass)))

theorem sinkOrder_pairwise : sinkOrder.Pairwise (fun k j => (k = .system ∧ j ≠ .system) ∨ (k = .charge ∧ j = .pass)) := by decide

theorem mem_sinkOrder (k : Sink) : k ∈ sinkOrder := by cases k <;> decide

theorem order_pairwise : a.order.Pairwise a.Before := by
  refine List.pairwise_flatMap.mpr ⟨fun n _ => ?_, ?_⟩
  · refine (sinkOrder_pairwise.filter _).imp_of_mem (fun hk hj h => .inr ⟨?_, h⟩)
    simp only [List.mem_filter, Bool.and_eq_true, beq_iff_eq] at hk hj
    omega
  · have hlevels : [0, 1, 2, 3].Pairwise (fun m n : Nat => m < n) := by decide
    refine hlevels.imp (fun hlt k hk j hj => .inl ?_)
    simp only [List.mem_filter, Bool.and_eq_true, beq_iff_eq] at hk hj
    omega

theorem Before.ne {k j : Sink} (h : a.Before k j) : k ≠ j := by
  rintro rfl
  cases k <;> simp [Before] at h

theorem Before.asymm {k j : Sink} (h : a.Before k j) : ¬ a.Before j k := by
  cases k <;> cases j <;> simp [Before] at h ⊢ <;> omega

theorem mem_order {k : Sink} (hp : (a.claims.get k).priority ≤ 3) : k ∈ a.order ↔ a.enabled k = true := by
  simp only [order, List.mem_flatMap, List.mem_filter, mem_sinkOrder, true_and, Bool.and_eq_true, beq_iff_eq]
  refine ⟨fun ⟨_, _, h, _⟩ => h, fun h => ⟨_, ?_, h, rfl⟩⟩
  simp only [List.mem_cons, List.not_mem_nil, or_false]
  omega

/-- What holds of every two claims in their order in the list holds of every two claims that are one before the other. -/
theorem of_pairwise_order {R : Sink → Sink → Prop} (h : a.order.Pairwise R) {k j : Sink} (hk : k ∈ a.order) (hj : j ∈ a.order)
    (hb : a.Before k j) : R k j := by
  have hboth : a.order.Pairwise (fun x y => (a.Before x y → R x y) ∧ (a.Before y x → R y x)) :=
    (h.and a.order_pairwise).imp (fun hx => ⟨fun _ => hx.1, fun hy => absurd hx.2 (Before.asymm a hy)⟩)
  have hsymm : Std.Symm (fun x y => (a.Before x y → R x y) ∧ (a.Before y x → R y x)) := ⟨fun _ _ hx => hx.symm⟩
  exact (hboth.forall hk hj (Before.ne a hb)).1 hb

end Allocator

/-! ## Giving -/

namespace Division

variable (a : Allocator) {d : Division} {k j : Sink} {l : List Sink}

theorem give_self (d : Division) (k : Sink) (n : Nat) : (d.give k n).given.get k = d.given.get k + n := PerSink.get_set_self _ _ _

theorem give_ne (d : Division) (n : Nat) (h : j ≠ k) : (d.give k n).given.get j = d.given.get j := PerSink.get_set_ne _ _ h

/-- A stage's turn for one claim: it gives the claim some of the remainder. -/
def Gives (f : Division → Sink → Division) : Prop := ∀ d k, ∃ n ≤ d.remainder, f d k = d.give k n

theorem floorStage_gives : Gives (floorStage a) := fun _ _ => ⟨_, Nat.min_le_right _ _, rfl⟩

theorem raiseStage_gives : Gives (raiseStage a) := fun d k => by
  unfold raiseStage
  split
  · exact ⟨_, le_rfl, rfl⟩
  · exact ⟨_, Nat.min_le_left _ _, rfl⟩

section Stage

variable {f : Division → Sink → Division} (h : Gives f)

include h

theorem Gives.total (l : List Sink) (d : Division) :
    (l.foldl f d).given.total + (l.foldl f d).remainder = d.given.total + d.remainder := by
  induction l generalizing d with
  | nil => rfl
  | cons k l ih =>
    obtain ⟨n, hn, hturn⟩ := h d k
    rw [List.foldl_cons, ih, hturn]
    simp only [give, PerSink.total_set]
    omega

theorem Gives.remainder_le (l : List Sink) (d : Division) : (l.foldl f d).remainder ≤ d.remainder := by
  induction l generalizing d with
  | nil => exact le_rfl
  | cons k l ih =>
    obtain ⟨n, hn, hturn⟩ := h d k
    exact (ih (f d k)).trans (by simp only [hturn, give]; omega)

theorem Gives.turn_ne (d : Division) (hne : j ≠ k) : (f d k).given.get j = d.given.get j := by
  obtain ⟨n, hn, hturn⟩ := h d k
  rw [hturn, give_ne d n hne]

theorem Gives.others (hj : j ∉ l) (d : Division) : (l.foldl f d).given.get j = d.given.get j := by
  induction l generalizing d with
  | nil => rfl
  | cons k l ih =>
    rw [List.mem_cons, not_or] at hj
    rw [List.foldl_cons, ih hj.2, h.turn_ne d hj.1]

theorem Gives.le (l : List Sink) (d : Division) (j : Sink) : d.given.get j ≤ (l.foldl f d).given.get j := by
  induction l generalizing d with
  | nil => exact le_rfl
  | cons k l ih =>
    refine le_trans ?_ (ih (f d k))
    obtain ⟨n, hn, hturn⟩ := h d k
    rw [hturn]
    by_cases hjk : j = k
    · subst hjk
      rw [give_self]
      omega
    · rw [give_ne d n hjk]

theorem Gives.nothing (l : List Sink) {d : Division} (hd : d.remainder = 0) (j : Sink) :
    (l.foldl f d).given.get j = d.given.get j := by
  induction l generalizing d with
  | nil => rfl
  | cons k l ih =>
    obtain ⟨n, hn, hturn⟩ := h d k
    have hzero : n = 0 := by omega
    subst hzero
    rw [List.foldl_cons, hturn, ih (by simp [give, hd])]
    by_cases hjk : j = k
    · subst hjk
      rw [give_self, Nat.add_zero]
    · rw [give_ne d 0 hjk]

end Stage

/-! ## Stage A -/

/-- A claim that stage A leaves short of its floor has taken all that was left, and every later claim gets nothing (R138). -/
theorem floorStage_spec (hl : l.Nodup) (hd : ∀ k ∈ l, d.given.get k = 0) :
    (∀ k ∈ l, (l.foldl (floorStage a) d).given.get k ≤ (a.claims.get k).floor ∧
      ((l.foldl (floorStage a) d).given.get k < (a.claims.get k).floor → (l.foldl (floorStage a) d).remainder = 0)) ∧
    l.Pairwise (fun k j => (l.foldl (floorStage a) d).given.get k < (a.claims.get k).floor →
      (l.foldl (floorStage a) d).given.get j = 0) := by
  induction l generalizing d with
  | nil => simp
  | cons k l ih =>
    obtain ⟨hk, hl⟩ := List.nodup_cons.mp hl
    have hrest : ∀ j ∈ l, (floorStage a d k).given.get j = 0 := fun j hj => by
      rw [(floorStage_gives a).turn_ne d (ne_of_mem_of_not_mem hj hk), hd j (List.mem_cons_of_mem k hj)]
    obtain ⟨hgiven, hpairs⟩ := ih hl hrest
    have hfirst : (l.foldl (floorStage a) (floorStage a d k)).given.get k = min (a.claims.get k).floor d.remainder := by
      rw [(floorStage_gives a).others hk, floorStage, give_self, hd k List.mem_cons_self, Nat.zero_add]
    have hshort : min (a.claims.get k).floor d.remainder < (a.claims.get k).floor → (floorStage a d k).remainder = 0 := fun hlt => by
      simp only [floorStage, give]
      omega
    simp only [List.foldl_cons, List.mem_cons, forall_eq_or_imp, List.pairwise_cons, hfirst]
    refine ⟨⟨⟨Nat.min_le_left _ _, fun hlt => ?_⟩, hgiven⟩, fun j hj hlt => ?_, hpairs⟩
    · exact Nat.le_zero.mp (((floorStage_gives a).remainder_le l _).trans (hshort hlt).le)
    · rw [(floorStage_gives a).nothing l (hshort hlt), hrest j hj]

/-! ## Stage B -/

/-- A claim that stage B leaves below its request has taken all that was left, and no later claim is raised (R139). -/
theorem raiseStage_spec (hl : l.Nodup)
    (hd : ∀ k ∈ l, (a.claims.get k).request ≠ 0 → d.given.get k ≤ (a.claims.get k).request) :
    (∀ k ∈ l, ((a.claims.get k).request ≠ 0 →
        (l.foldl (raiseStage a) d).given.get k ≤ (a.claims.get k).request) ∧
      (((a.claims.get k).request ≠ 0 ∧ (l.foldl (raiseStage a) d).given.get k = (a.claims.get k).request) ∨
        (l.foldl (raiseStage a) d).remainder = 0)) ∧
    l.Pairwise (fun k j => d.given.get j < (l.foldl (raiseStage a) d).given.get j →
      (a.claims.get k).request ≠ 0 ∧ (l.foldl (raiseStage a) d).given.get k = (a.claims.get k).request) := by
  induction l generalizing d with
  | nil => simp
  | cons k l ih =>
    obtain ⟨hk, hl⟩ := List.nodup_cons.mp hl
    have hrest : ∀ j ∈ l, (raiseStage a d k).given.get j = d.given.get j := fun j hj =>
      (raiseStage_gives a).turn_ne d (ne_of_mem_of_not_mem hj hk)
    obtain ⟨hgiven, hpairs⟩ := ih hl (fun j hj hreq => by rw [hrest j hj]; exact hd j (List.mem_cons_of_mem k hj) hreq)
    have hfirst : (l.foldl (raiseStage a) (raiseStage a d k)).given.get k = (raiseStage a d k).given.get k :=
      (raiseStage_gives a).others hk _
    have hown := hd k List.mem_cons_self
    have hcase : ((a.claims.get k).request ≠ 0 → (raiseStage a d k).given.get k ≤ (a.claims.get k).request) ∧
        (((a.claims.get k).request ≠ 0 ∧ (raiseStage a d k).given.get k = (a.claims.get k).request) ∨
          (raiseStage a d k).remainder = 0) := by
      by_cases hreq : (a.claims.get k).request = 0
      · simp [raiseStage, hreq, give]
      · have hle := hown hreq
        have hturn : raiseStage a d k = d.give k (min d.remainder ((a.claims.get k).request - d.given.get k)) := if_neg hreq
        rw [hturn, give_self]
        simp only [give]
        omega
    simp only [List.foldl_cons, List.mem_cons, forall_eq_or_imp, List.pairwise_cons, hfirst]
    refine ⟨⟨⟨hcase.1, hcase.2.imp_right (fun hz => ?_)⟩, hgiven⟩, fun j hj hlt => ?_, ?_⟩
    · exact Nat.le_zero.mp (((raiseStage_gives a).remainder_le l _).trans hz.le)
    · refine hcase.2.resolve_right (fun hz => ?_)
      rw [(raiseStage_gives a).nothing l hz, hrest j hj] at hlt
      exact lt_irrefl _ hlt
    · exact hpairs.imp_of_mem (fun _ hj h hlt => h (by rwa [hrest _ hj]))

end Division

/-! ## The whole allocation -/

namespace Allocator

variable (a : Allocator) (pool : Nat)

/-- What stage A leaves. -/
def afterFloors : Division := a.order.foldl (Division.floorStage a) { given := ⟨0, 0, 0⟩, remainder := pool }

/-- What stage B leaves. -/
def afterRaises : Division := a.order.foldl (Division.raiseStage a) (a.afterFloors pool)

theorem divide_eq : a.divide pool = (a.afterRaises pool).given := rfl

theorem order_nodup : a.order.Nodup := a.order_pairwise.imp (Before.ne a)

theorem floors_spec :
    (∀ k ∈ a.order, (a.afterFloors pool).given.get k ≤ (a.claims.get k).floor ∧
      ((a.afterFloors pool).given.get k < (a.claims.get k).floor → (a.afterFloors pool).remainder = 0)) ∧
    a.order.Pairwise (fun k j => (a.afterFloors pool).given.get k < (a.claims.get k).floor → (a.afterFloors pool).given.get j = 0) :=
  Division.floorStage_spec a a.order_nodup (fun k _ => by cases k <;> rfl)

variable (hr : ∀ k, (a.claims.get k).request ≠ 0 → (a.claims.get k).floor ≤ (a.claims.get k).request)

include hr in
theorem raises_spec :
    (∀ k ∈ a.order, ((a.claims.get k).request ≠ 0 → (a.divide pool).get k ≤ (a.claims.get k).request) ∧
      (((a.claims.get k).request ≠ 0 ∧ (a.divide pool).get k = (a.claims.get k).request) ∨ (a.afterRaises pool).remainder = 0)) ∧
    a.order.Pairwise (fun k j => (a.afterFloors pool).given.get j < (a.divide pool).get j →
      (a.claims.get k).request ≠ 0 ∧ (a.divide pool).get k = (a.claims.get k).request) :=
  Division.raiseStage_spec a a.order_nodup (fun k hk hreq => ((a.floors_spec pool).1 k hk).1.trans (hr k hreq))

theorem divide_total : (a.divide pool).total + (a.afterRaises pool).remainder = pool := by
  have hraise := (Division.raiseStage_gives a).total a.order (a.afterFloors pool)
  have hfloor := (Division.floorStage_gives a).total a.order { given := ⟨0, 0, 0⟩, remainder := pool }
  simp only [PerSink.total] at hfloor
  exact hraise.trans (hfloor.trans (by simp))

theorem afterFloors_le (k : Sink) : (a.afterFloors pool).given.get k ≤ (a.divide pool).get k :=
  (Division.raiseStage_gives a).le a.order _ k

theorem divide_unordered {k : Sink} (h : k ∉ a.order) : (a.divide pool).get k = 0 := by
  have hraise := (Division.raiseStage_gives a).others h (a.afterFloors pool)
  have hfloor := (Division.floorStage_gives a).others h { given := ⟨0, 0, 0⟩, remainder := pool }
  refine hraise.trans (hfloor.trans ?_)
  cases k <;> rfl

theorem mem_order_enabled {k : Sink} (h : k ∈ a.order) : a.enabled k = true := by
  simp only [order, List.mem_flatMap, List.mem_filter, Bool.and_eq_true] at h
  obtain ⟨_, _, _, henabled, _⟩ := h
  exact henabled

theorem divide_disabled (h : a.passEnable = false) : (a.divide pool).pass = 0 :=
  a.divide_unordered pool (k := .pass) (fun hk => by simpa [h] using a.mem_order_enabled hk)

include hr in
theorem divide_le_request (k : Sink) (hreq : (a.claims.get k).request ≠ 0) : (a.divide pool).get k ≤ (a.claims.get k).request := by
  by_cases hk : k ∈ a.order
  · exact ((a.raises_spec pool hr).1 k hk).1 hreq
  · rw [a.divide_unordered pool hk]
    exact Nat.zero_le _

/-- A claim short of its floor after stage A has left nothing to stage B. -/
theorem divide_of_short {k : Sink} (hk : k ∈ a.order) (h : (a.divide pool).get k < (a.claims.get k).floor) (j : Sink) :
    (a.divide pool).get j = (a.afterFloors pool).given.get j :=
  (Division.raiseStage_gives a).nothing a.order (((a.floors_spec pool).1 k hk).2 ((a.afterFloors_le pool k).trans_lt h)) j

/-- A claim that stage A leaves short has taken the last of the pool, so the floors add up to more than it. -/
theorem pool_lt_floors (hp : ∀ k, (a.claims.get k).priority ≤ 3) {k : Sink} (hk : a.enabled k = true)
    (h : (a.divide pool).get k < (a.claims.get k).floor) : pool < a.floors := by
  have hshort := a.divide_of_short pool ((a.mem_order (hp k)).mpr hk) h
  have hle (j : Sink) (hj : a.enabled j = true) : (a.divide pool).get j ≤ (a.claims.get j).floor := by
    rw [hshort j]
    exact ((a.floors_spec pool).1 j ((a.mem_order (hp j)).mpr hj)).1
  have hstage := ((a.floors_spec pool).1 k ((a.mem_order (hp k)).mpr hk)).2 ((a.afterFloors_le pool k).trans_lt h)
  have hspent := (Division.raiseStage_gives a).remainder_le a.order (a.afterFloors pool)
  have htotal := a.divide_total pool
  have hremainder : (a.afterRaises pool).remainder = 0 := Nat.le_zero.mp (hspent.trans hstage.le)
  have hsystem := hle .system rfl
  have hcharge := hle .charge rfl
  have hpass : (a.divide pool).get .pass ≤ if a.passEnable then (a.claims.get .pass).floor else 0 := by
    split
    · exact hle .pass ‹_›
    · exact (a.divide_disabled pool (Bool.eq_false_iff.mpr ‹_›)).le
  rw [a.floors_eq]
  simp only [PerSink.total, PerSink.get] at *
  cases k with
  | system => simp only at h; omega
  | charge => simp only at h; omega
  | pass =>
    simp only [a.enabled_pass] at hk
    simp only [hk, if_true] at hpass h ⊢
    omega

end Allocator

/-- Settles O14: both stages go through the one order of the claims, and each clause is read off what a stage leaves. -/
theorem allocationStages : Obligations.AllocationStages := by
  intro a pool hp hr
  have htotal := a.divide_total pool
  have hin (k : Sink) (hk : a.enabled k = true) : k ∈ a.order := (a.mem_order (hp k)).mpr hk
  refine ⟨?_, a.divide_disabled pool, a.divide_le_request pool hr, fun k hk hfloors => ?_, fun hlt k hk => ?_,
    fun k j hk hj hb => ⟨fun hshort => ?_, fun hraised => ?_⟩⟩
  · simp only [PerSink.total] at htotal
    omega
  · exact Nat.not_lt.mp (fun h => absurd (a.pool_lt_floors pool hp hk h) (Nat.not_lt.mpr hfloors))
  · refine (((a.raises_spec pool hr).1 k (hin k hk)).2).resolve_right (fun hzero => ?_)
    simp only [PerSink.total] at htotal
    omega
  · rw [a.divide_of_short pool (hin k hk) hshort j]
    exact a.of_pairwise_order (a.floors_spec pool).2 (hin k hk) (hin j hj) hb ((a.afterFloors_le pool k).trans_lt hshort)
  · exact a.of_pairwise_order (a.raises_spec pool hr).2 (hin k hk) (hin j hj) hb
      ((((a.floors_spec pool).1 j (hin j hj)).1).trans_lt hraised)

end Sys2Proof.Machine
end

section
/-! PROOF. What a step can be, and the frame of a chain of moves: everything that lasts, of the part and of the other ports. -/

namespace Sys2Proof.Machine

open Sys2Proof

namespace State

variable {s t : State} {p q : Port}

/-! ## One step -/

theorem step_of_front {c : Instr} {rest : List Instr} (h : s.pending = c :: rest) : step s = exec c (s.withPending rest) := by
  simp only [step, h]

theorem step_of_empty (h : s.pending = []) : step s = .next s.idle := by simp only [step, h]

/-- A step is the passing of time on an empty queue, or the front command over the queue's rest. -/
theorem step_next (h : step s = .next t) :
    (s.pending = [] ∧ t = s.idle) ∨ ∃ c rest, s.pending = c :: rest ∧ exec c (s.withPending rest) = .next t := by
  cases hp : s.pending with
  | nil =>
    rw [step_of_empty hp] at h
    exact .inl ⟨rfl, (Host.Outcome.next.inj h).symm⟩
  | cons c rest =>
    rw [step_of_front hp] at h
    exact .inr ⟨c, rest, rfl, h⟩

theorem idle_reach (s : State) : Reach s s.idle := .ite (beginTick_reach s) (.refl s)

theorem withPending_reach (s : State) (l : List Instr) : Reach s (s.withPending l) := .part rfl rfl

theorem exec_powerOnReset (s : State) : exec .powerOnReset s = .next { State.powerOn with pending := s.pending } := rfl

/-- A step is a power-on reset, or within reach. -/
theorem step_reach (h : step s = .next t) : t = { State.powerOn with pending := t.pending } ∨ Reach s t := by
  obtain ⟨-, rfl⟩ | ⟨c, rest, -, hc⟩ := step_next h
  · exact .inr (idle_reach s)
  · by_cases hreset : c = .powerOnReset
    · subst hreset
      rw [exec_powerOnReset] at hc
      exact .inl (Host.Outcome.next.inj hc ▸ rfl)
    · exact .inr ((withPending_reach s rest).trans (exec_reach _ c t hreset hc))

/-! ## The frame of a chain of moves -/

theorem FrameAt.refl (s : State) (p : Port) : s.FrameAt s p := ⟨rfl, fun _ _ => rfl⟩

theorem FrameAt.trans {u : State} (h : s.FrameAt t p) (g : t.FrameAt u p) : s.FrameAt u p :=
  ⟨g.1.trans h.1, fun q hq => (g.2 q hq).trans (h.2 q hq)⟩

theorem FrameAt.modPort (s : State) (p : Port) (f : PortState → PortState) : s.FrameAt (s.modPort p f) p :=
  ⟨rfl, fun q hq => by rw [port_modPort_ne _ _ _ hq]⟩

theorem Worked.frameAt (h : Worked s t) (p : Port) : s.FrameAt t p := ⟨h.1, fun q _ => h.2.2.2 q⟩

theorem closePath_lasting (s : State) (p : Port) : (s.closePath p).lasting = s.lasting := by
  rw [closePath, reportPath_lasting]
  rfl

theorem closePath_others (s : State) (p : Port) (h : q ≠ p) : (s.closePath p).port q = s.port q := by
  simp [closePath, h]

/-- A chain of moves on a port leaves all that lasts of the part and of the other ports. -/
theorem Moves.frameAt (h : Moves p s t) : s.FrameAt t p := by
  induction h with
  | still h => exact ⟨h.1, h.2.2.2⟩
  | @ask s q c _ _ => exact (Worked.port s q _ rfl).frameAt p
  | @drop s q _ => exact (Worked.port s q _ rfl).frameAt p
  | @opens s q _ => exact (openPath_worked s q).frameAt p
  | closes _ => exact ⟨closePath_lasting _ p, fun q hq => by rw [closePath_others _ p hq]⟩
  | publish => exact ⟨publish_lasting _, fun q _ => by rw [publish_port]⟩
  | pass b => exact ⟨setPassEnable_lasting _ b, fun q _ => by rw [setPassEnable_port]⟩
  | @create s r _ _ => exact ⟨rfl, fun q hq => by simp [createRecord, hq]; rfl⟩
  | revise => exact .modPort _ p _
  | benches r _ => exact (FrameAt.modPort _ p _).trans ((openPath_worked _ p).frameAt p)
  | clear => exact .modPort _ p _
  | mode => exact .modPort _ p _
  | trans _ _ ih jh => exact ih.trans jh

/-! ## Fields that last -/

section Frame

variable (h : s.FrameAt t p)

include h

theorem FrameAt.policy : t.policy = s.policy := by simpa [lasting] using congrArg State.policy h.1
theorem FrameAt.time : t.time = s.time := by simpa [lasting] using congrArg State.time h.1
theorem FrameAt.lock : t.lock = s.lock := by simpa [lasting] using congrArg State.lock h.1
theorem FrameAt.watchEnable : t.watchEnable = s.watchEnable := by simpa [lasting] using congrArg State.watchEnable h.1
theorem FrameAt.alertRoute : t.alertRoute = s.alertRoute := by simpa [lasting] using congrArg State.alertRoute h.1
theorem FrameAt.straps : t.straps = s.straps := by simpa [lasting] using congrArg State.straps h.1
theorem FrameAt.cold : t.cold = s.cold := by simpa [lasting] using congrArg State.cold h.1
theorem FrameAt.coldPort : t.coldPort = s.coldPort := by simpa [lasting] using congrArg State.coldPort h.1
theorem FrameAt.response : t.response = s.response := by simpa [lasting] using congrArg State.response h.1
theorem FrameAt.pending : t.pending = s.pending := by simpa [lasting] using congrArg State.pending h.1
theorem FrameAt.sampleTaken : t.sampleTaken = s.sampleTaken := by simpa [lasting] using congrArg State.sampleTaken h.1
theorem FrameAt.enables : t.enables = s.enables := by simpa [lasting] using congrArg State.enables h.1
theorem FrameAt.lastRead : t.lastRead = s.lastRead := by simpa [lasting] using congrArg State.lastRead h.1
theorem FrameAt.claims : t.allocator.claims = s.allocator.claims := by
  simpa [lasting] using congrArg (fun x => x.allocator.claims) h.1
theorem FrameAt.tick : t.tick = s.tick := by rw [State.tick, State.tick, h.time]
theorem FrameAt.ahead (n : Nat) : t.ahead n = s.ahead n := by rw [State.ahead, State.ahead, h.tick]

end Frame

end State

end Sys2Proof.Machine
end

section
/-! PROOF. The paths stay lawful through every step: at most two closed or closing (R12), each over a record IN_FORCE on an AUTO or DIRECT
port (R11), the closed-path set right (R135). -/

namespace Sys2Proof.Machine

open Sys2Proof

/-- What R11 and R13 to R16 ask of one port: a path closed or closing has a record IN_FORCE and a mode AUTO or DIRECT, and a close operation
stands exactly while the path is CLOSING. -/
def PortState.Backed (u : PortState) : Prop :=
  (u.front.path ≠ .opened → (∃ r, u.contract.record = some r ∧ r.state = .inForce) ∧ u.front.mode ≠ .sense) ∧
    (u.front.closeOp.isSome ↔ u.front.path = .closing)

theorem PortState.Backed.of_core {a b : PortState} (h : b.core = a.core) (ha : a.Backed) : b.Backed := by
  simp only [core, Prod.mk.injEq] at h
  obtain ⟨hpath, hclose, hmode, hrecord⟩ := h
  simp only [Backed, hpath, hclose, hmode] at ha ⊢
  refine ⟨fun ho => ⟨?_, (ha.1 ho).2⟩, ha.2⟩
  obtain ⟨⟨r, hr, hf⟩, -⟩ := ha.1 ho
  rw [hr, Option.map_some, Option.map_eq_some_iff] at hrecord
  obtain ⟨r', hr', heq⟩ := hrecord
  simp only [Prod.mk.injEq] at heq
  exact ⟨r', hr', heq.2.trans hf⟩

namespace State

variable {s t : State} {p q : Port}

/-- The three invariants of the paths together (R11, R12, R135). -/
structure PathsLawful (s : State) : Prop where
  two    : s.TwoPaths
  backed : ∀ p, (s.port p).Backed
  right  : s.ClosedSetRight

theorem pathsLawful_iff : s.PathsLawful ↔ s.TwoPaths ∧ s.PathsBacked ∧ s.ClosedSetRight :=
  ⟨fun h => ⟨h.two, h.backed, h.right⟩, fun h => ⟨h.1, h.2.1, h.2.2⟩⟩

theorem path_of_core (h : (t.port q).core = (s.port q).core) : t.path q = s.path q := congrArg Prod.fst h

theorem pathCount_le (h : ∀ q, t.path q ≠ .opened → s.path q ≠ .opened) : t.pathCount ≤ s.pathCount :=
  List.countP_mono_left (fun q _ => by simpa using h q)

/-- A change on one port keeps the invariants when the port is backed afterwards, its place in the closed-path set is right, and a path
that leaves OPEN finds room. -/
theorem PathsLawful.change (h : s.PathsLawful) (hothers : ∀ q, q ≠ p → (t.port q).core = (s.port q).core)
    (hset : ∀ q, q ≠ p → t.allocator.closedSet.get q = s.allocator.closedSet.get q) (hbacked : (t.port p).Backed)
    (hright : t.allocator.closedSet.get p = true ↔ t.path p = .closed)
    (hroom : t.path p = .opened ∨ s.path p ≠ .opened ∨ s.pathCount < 2) : t.PathsLawful where
  two := by
    have htwo := h.two
    unfold TwoPaths at htwo ⊢
    have hcount : t.pathCount ≤ s.pathCount + 1 := by
      have hle := countP_le_countP (f := fun q => t.path q != .opened) (g := fun _ => false) (f' := fun q => s.path q != .opened)
        (g' := fun q => decide (q = p)) (fun q => by
          by_cases hq : q = p
          · simpa [hq] using (Bool.toNat_le (t.path p != .opened)).trans (Nat.le_add_left 1 _)
          · simp [hq, path_of_core (hothers q hq)])
      have hone : Port.all.countP (fun q => decide (q = p)) = 1 := by cases p <;> decide
      simpa [pathCount, hone] using hle
    have hmono (hp : t.path p ≠ .opened → s.path p ≠ .opened) : t.pathCount ≤ s.pathCount := pathCount_le (fun q hq => by
      by_cases hqp : q = p
      · exact hqp ▸ hp (hqp ▸ hq)
      · rwa [← path_of_core (hothers q hqp)])
    obtain ho | ho | hfew := hroom
    · exact (hmono (fun hne => absurd ho hne)).trans htwo
    · exact (hmono (fun _ => ho)).trans htwo
    · omega
  backed q := by
    by_cases hq : q = p
    · exact hq ▸ hbacked
    · exact (h.backed q).of_core (hothers q hq)
  right q := by
    by_cases hq : q = p
    · exact hq ▸ hright
    · rw [hset q hq, path_of_core (hothers q hq)]
      exact h.right q

/-- A change of one port alone. -/
theorem PathsLawful.modPort (h : s.PathsLawful) {f : PortState → PortState} (hbacked : (f (s.port p)).Backed)
    (hright : s.path p = .closed ↔ (f (s.port p)).front.path = .closed)
    (hroom : (f (s.port p)).front.path = .opened ∨ s.path p ≠ .opened ∨ s.pathCount < 2) : (s.modPort p f).PathsLawful :=
  h.change (p := p) (fun q hq => by rw [port_modPort_ne _ _ _ hq]) (fun _ _ => rfl) (by rwa [port_modPort_self])
    (by rw [modPort_allocator, h.right p, hright]; simp [path]) (by simpa [path] using hroom)

theorem PathsLawful.of_cores (h : s.PathsLawful) (hcores : ∀ q, (t.port q).core = (s.port q).core)
    (hset : t.allocator.closedSet = s.allocator.closedSet) : t.PathsLawful where
  two := (pathCount_le (fun q => by rw [path_of_core (hcores q)]; exact id)).trans h.two
  backed q := (h.backed q).of_core (hcores q)
  right q := by rw [hset, path_of_core (hcores q)]; exact h.right q

/-! ## What publishing leaves of the allocator -/

@[simp] theorem publish_closedSet (s : State) : s.publish.allocator.closedSet = s.allocator.closedSet := by rw [publish_eq]
@[simp] theorem publish_claims (s : State) : s.publish.allocator.claims = s.allocator.claims := by rw [publish_eq]
@[simp] theorem publish_passEnable (s : State) : s.publish.allocator.passEnable = s.allocator.passEnable := by rw [publish_eq]
@[simp] theorem publish_publishedAt (s : State) : s.publish.allocator.publishedAt = s.tick := by rw [publish_eq]

@[simp] theorem reportPath_closedSet (s : State) (p : Port) (b : Bool) :
    (s.reportPath p b).allocator.closedSet = s.allocator.closedSet.set p b := by rw [reportPath, publish_closedSet]

@[simp] theorem reportPath_publishedAt (s : State) (p : Port) (b : Bool) : (s.reportPath p b).allocator.publishedAt = s.tick := by
  rw [reportPath, publish_publishedAt]; rfl

theorem setPassEnable_closedSet (s : State) (b : Bool) : (s.setPassEnable b).allocator.closedSet = s.allocator.closedSet := by
  by_cases h : s.allocator.passEnable = b
  · rw [setPassEnable_same h]
  · rw [setPassEnable_changed h, publish_closedSet]

theorem tidyWatch_allocator (s : State) (p : Port) : (s.tidyWatch p).allocator = s.allocator := by unfold tidyWatch; split <;> rfl

theorem requestYield_allocator (s : State) (p : Port) (r : YieldRequest) : (s.requestYield p r).allocator = s.allocator := by
  unfold requestYield; split <;> rfl

theorem meetRecall_allocator (s : State) (p : Port) : (s.meetRecall p).allocator = s.allocator := by
  unfold meetRecall
  split
  · rfl
  · split
    · rfl
    · split
      · exact requestYield_allocator _ _ _
      · rfl

/-- The state that an open of a CLOSED path reports to the allocator (R16). -/
theorem openPath_reports (h : s.path p = .closed) :
    ∃ u : State, s.openPath p = u.reportPath p false ∧ u.allocator = s.allocator ∧ u.time = s.time := by
  refine ⟨((((s.modFront p (fun f => { f with path := .opened, closeOp := none })).modMonitor p Monitor.stop).tidyWatch p).meetRecall p),
    by simp only [openPath, h], ?_, ?_⟩
  · rw [meetRecall_allocator, tidyWatch_allocator]; rfl
  · have hm := meetRecall_worked (((s.modFront p (fun f => { f with path := .opened, closeOp := none })).modMonitor p Monitor.stop).tidyWatch p) p
    have ht := tidyWatch_worked ((s.modFront p (fun f => { f with path := .opened, closeOp := none })).modMonitor p Monitor.stop) p
    exact (hm.frameAt p).time.trans (ht.frameAt p).time

theorem openPath_closedSet (h : s.path p = .closed) : (s.openPath p).allocator.closedSet = s.allocator.closedSet.set p false := by
  obtain ⟨u, hopen, hallocator, -⟩ := openPath_reports h
  rw [hopen, reportPath_closedSet, hallocator]

theorem openPath_publishedAt (h : s.path p = .closed) : (s.openPath p).allocator.publishedAt = s.tick := by
  obtain ⟨u, hopen, -, htime⟩ := openPath_reports h
  rw [hopen, reportPath_publishedAt, tick, tick, htime]

/-! ## Every move -/

theorem PathsLawful.openPath_of (h : s.PathsLawful) (hc : s.path p = .closed) : (s.openPath p).PathsLawful := by
  refine h.change (p := p) (fun q hq => by rw [openPath_others s p hq]) (fun q hq => ?_) ?_ ?_ (.inl (openPath_path s p))
  · rw [openPath_closedSet hc, PerPort.get_set_ne _ _ hq]
  · exact ⟨fun ho => absurd (openPath_path s p) ho,
      by simp [openPath_closeOp s p (by simp [hc]), show ((s.openPath p).port p).front.path = _ from openPath_path s p]⟩
  · simp [openPath_closedSet hc]

/-- A path that becomes OPEN with its close operation ended asks nothing of the port. -/
theorem backed_of_opened {u : PortState} (hp : u.front.path = .opened) (hc : u.front.closeOp = none) : u.Backed :=
  ⟨fun ho => absurd hp ho, by simp [hp, hc]⟩

theorem PathsLawful.benches (h : s.PathsLawful) (r : Record) :
    ((s.setRecord p (some { r with state := .benched })).openPath p).PathsLawful := by
  have hother {q : Port} (hq : q ≠ p) :
      ((s.setRecord p (some { r with state := .benched })).openPath p).port q = s.port q := by
    rw [openPath_others _ p hq, setRecord_eq, port_modPort_ne _ _ _ hq]
  have hpath : (s.setRecord p (some { r with state := .benched })).path p = s.path p := by simp [path]
  have hopen := openPath_path (s.setRecord p (some { r with state := .benched })) p
  have hset : ((s.setRecord p (some { r with state := .benched })).openPath p).allocator.closedSet =
      if s.path p = .closed then s.allocator.closedSet.set p false else s.allocator.closedSet := by
    cases hp : s.path p with
    | closed => rw [openPath_closedSet (hpath.trans hp)]; simp
    | closing => rw [openPath_closing _ p (hpath.trans hp)]; simp
    | opened => simp only [openPath, hpath, hp]; simp
  refine h.change (p := p) (fun q hq => by rw [hother hq]) (fun q hq => ?_) (backed_of_opened hopen ?_) ?_ (.inl hopen)
  · rw [hset]
    split
    · rw [PerPort.get_set_ne _ _ hq]
    · rfl
  · by_cases hp : s.path p = .opened
    · have hnone : (s.port p).front.closeOp = none := by simpa [path, hp] using (h.backed p).2.not.mpr (by simp [show (s.port p).front.path = .opened from hp])
      simp only [openPath, hpath, hp]
      simpa using hnone
    · exact openPath_closeOp _ p (by rwa [hpath])
  · rw [hset, hopen]
    by_cases hp : s.path p = .closed
    · simp [hp]
    · simpa [hp] using (h.right p).not.mpr hp

theorem PathsLawful.moves (h : s.PathsLawful) (hm : Moves p s t) : t.PathsLawful := by
  induction hm with
  | still hs => exact h.of_cores hs.2.2.1 (by rw [hs.2.1])
  | @ask s q c hadmits hopen =>
    simp only [beginClose, modFront_eq]
    simp only [admitsClose, Bool.and_eq_true, bne_iff_ne, decide_eq_true_eq] at hadmits
    obtain ⟨⟨hforce, hmode⟩, hroom⟩ := hadmits
    refine h.modPort ⟨fun _ => ⟨?_, hmode⟩, by simp⟩ (by simp [hopen]) (.inr (.inr hroom))
    cases hr : s.record q with
    | none => simp [hr] at hforce
    | some r => exact ⟨r, hr, by simpa [hr] using hforce⟩
  | @drop s q hc =>
    simp only [dropClose, modFront_eq]
    exact h.modPort (backed_of_opened rfl rfl) (by simp [hc]) (.inl rfl)
  | opens q hc => exact h.openPath_of hc
  | @closes s hc =>
    obtain ⟨hforce, hmode⟩ := (h.backed p).1 (by simp [show (s.port p).front.path = .closing from hc])
    have hport : ((s.closePath p).port p).front = { (s.port p).front with path := .closed, closeOp := none } ∧
        ((s.closePath p).port p).contract = (s.port p).contract := by simp [closePath]
    refine h.change (p := p) (fun q hq => by rw [closePath_others s p hq]) (fun q hq => ?_) ⟨fun _ => ?_, ?_⟩ ?_ (.inr (.inl (by simp [hc])))
    · simp [closePath, hq]
    · rw [hport.1, hport.2]
      exact ⟨hforce, hmode⟩
    · simp [hport.1]
    · simp [closePath, path]
  | publish => exact h.of_cores (fun q => by rw [publish_port]) (publish_closedSet _)
  | pass b => exact h.of_cores (fun q => by rw [setPassEnable_port]) (setPassEnable_closedSet _ b)
  | @create s r hnone _ =>
    have hopen : s.path p = .opened := by
      by_contra hne
      obtain ⟨⟨r', hr', -⟩, -⟩ := (h.backed p).1 hne
      exact absurd (hnone.symm.trans hr') (by simp)
    have hs : { s with lastHandle := r.handle }.PathsLawful := h.of_cores (fun _ => rfl) rfl
    simp only [createRecord, setRecord_eq]
    exact hs.modPort ⟨fun hne => absurd hopen hne, (h.backed p).2⟩ Iff.rfl (.inl hopen)
  | @revise s r r' hr hhandle hstate =>
    simp only [setRecord_eq]
    refine h.modPort ⟨fun hne => ?_, (h.backed p).2⟩ Iff.rfl ?_
    · obtain ⟨⟨k, hk, hf⟩, hmode⟩ := (h.backed p).1 hne
      have hsame : r = k := Option.some.inj (hr.symm.trans hk)
      exact ⟨⟨r', rfl, hstate (hsame ▸ hf)⟩, hmode⟩
    · exact (em (s.path p = .opened)).imp_right .inl
  | benches r _ => exact h.benches r
  | @clear s hopen =>
    simp only [setRecord_eq]
    exact h.modPort ⟨fun hne => absurd hopen hne, (h.backed p).2⟩ Iff.rfl (.inl hopen)
  | @mode s m hsense =>
    simp only [modFront_eq]
    refine h.modPort ⟨fun hne => ⟨((h.backed p).1 hne).1, fun hm => hne (hsense hm)⟩, (h.backed p).2⟩ Iff.rfl ?_
    exact (em (s.path p = .opened)).imp_right .inl
  | trans _ _ ih jh => exact jh (ih h)

theorem PathsLawful.reach (h : s.PathsLawful) (hr : Reach s t) : t.PathsLawful := by
  induction hr with
  | moves hm => exact h.moves hm
  | quiet ha hc => exact h.of_cores hc (by rw [ha])
  | claim k c _ => exact h.of_cores (fun q => by rw [publish_port]; rfl) (by rw [publish_closedSet])
  | trans _ _ ih jh => exact jh (ih h)

theorem PathsLawful.powerOn : State.powerOn.PathsLawful where
  two := (by decide : State.powerOn.pathCount ≤ 2)
  backed p := by cases p <;> exact backed_of_opened rfl rfl
  right p := by cases p <;> decide

end State

/-- Settles O5: a step is a power-on reset or a chain of moves, and every move keeps the three invariants. -/
theorem pathInvariantsKept : Obligations.PathInvariantsKept := by
  intro s t htwo hbacked hright hstep
  refine State.pathsLawful_iff.mp ?_
  obtain hreset | hreach := State.step_reach hstep
  · rw [hreset]
    exact State.PathsLawful.powerOn.of_cores (fun _ => rfl) rfl
  · exact (State.pathsLawful_iff.mpr ⟨htwo, hbacked, hright⟩).reach hreach

/-! ## The allocator's law -/

namespace Allocator

/-- The claims are ones that SET CLAIM takes (R133). -/
def ClaimsFit (a : Allocator) : Prop := ∀ k, (a.claims.get k).request ≠ 0 → (a.claims.get k).floor ≤ (a.claims.get k).request

theorem reset_lawful : Allocator.reset.Lawful :=
  ⟨fun k => by cases k <;> decide, by decide, fun k => by cases k <;> decide, fun _ => rfl⟩

end Allocator

namespace State

variable {s t : State} {p q : Port}

/-- A publication on claims that SET CLAIM takes obeys the law of R139, whatever was published before. -/
theorem publish_lawful (h : s.allocator.ClaimsFit) : s.publish.allocator.Lawful := by
  have htotal := s.allocator.divide_total s.computePool
  simp only [PerSink.total] at htotal
  rw [publish_eq]
  exact ⟨h, by simp only; omega, s.allocator.divide_le_request _ h, s.allocator.divide_disabled _⟩

theorem claimsFit_of_eq (h : s.allocator.ClaimsFit) (hc : t.allocator.claims = s.allocator.claims) : t.allocator.ClaimsFit := by
  rw [Allocator.ClaimsFit, hc]
  exact h

theorem lawful_moves (h : s.allocator.Lawful) (hm : Moves p s t) : t.allocator.Lawful := by
  induction hm with
  | still hs => rwa [hs.2.1]
  | @opens s q hc =>
    obtain ⟨u, hopen, hallocator, -⟩ := openPath_reports hc
    rw [hopen]
    exact publish_lawful (by simpa [Allocator.ClaimsFit, hallocator] using h.1)
  | closes _ => exact publish_lawful h.1
  | publish => exact publish_lawful h.1
  | @pass s b =>
    by_cases hb : s.allocator.passEnable = b
    · rwa [setPassEnable_same hb]
    · rw [setPassEnable_changed hb]
      exact publish_lawful h.1
  | @benches s r _ =>
    cases hp : (s.setRecord p (some { r with state := .benched })).path p with
    | opened =>
      simp only [openPath, hp]
      exact h
    | closing =>
      simp only [openPath, hp]
      exact h
    | closed =>
      obtain ⟨u, hopen, hallocator, -⟩ := openPath_reports hp
      rw [hopen]
      exact publish_lawful (by simpa [Allocator.ClaimsFit, hallocator] using h.1)
  | ask | drop | create | revise | clear | mode => exact h
  | trans _ _ ih jh => exact jh (ih h)

theorem lawful_reach (h : s.allocator.Lawful) (hr : Reach s t) : t.allocator.Lawful := by
  induction hr with
  | moves hm => exact lawful_moves h hm
  | quiet ha _ => rwa [ha]
  | @claim s k c hc =>
    refine publish_lawful (fun j hj => ?_)
    by_cases hjk : j = k
    · subst hjk
      simp only [PerSink.get_set_self] at hj ⊢
      exact hc hj
    · simp only [PerSink.get_set_ne _ _ hjk] at hj ⊢
      exact h.1 j hj
  | trans _ _ ih jh => exact jh (ih h)

end State

/-- Settles O6: every change of the claims, of the enable and of the pool is published, and a publication divides lawfully. -/
theorem allocatorLawKept : Obligations.AllocatorLawKept := by
  intro s t h hstep
  obtain hreset | hreach := State.step_reach hstep
  · rw [hreset]
    exact Allocator.reset_lawful
  · exact State.lawful_reach h hreach

end Sys2Proof.Machine
end

section
/-! PROOF. What every step keeps of the roster, the handles and the lock: the kinds of change that a step is a chain of, and the invariants of
R56, R72, R112, R113 and R165 through each kind. -/

namespace Sys2Proof.Machine

open Sys2Proof

/-- What the roster's list depends on of a record: its handle, its state, its granted power, and that an amendment is pending. -/
def Record.entry (r : Record) : Handle × RecordState × Nat × Bool := (r.handle, r.state, r.grantedPower, r.amendment.isSome)

/-- What the roster's list depends on of a port. -/
def PortState.entry (u : PortState) : Nat × Option (Handle × RecordState × Nat × Bool) := (u.rank, u.contract.record.map Record.entry)

/-- Two records that the roster's list does not tell apart. -/
theorem Record.entry_eq_iff {r r' : Record} :
    r'.entry = r.entry ↔ r'.handle = r.handle ∧ r'.state = r.state ∧ r'.grantedPower = r.grantedPower ∧
      r'.amendment.isSome = r.amendment.isSome := by
  simp [entry]

theorem PortState.entry_of_lasting {u v : PortState} (h : u.lasting = v.lasting) : u.entry = v.entry := by
  have hentry (x : PortState) : x.lasting.entry = x.entry := by
    simp only [entry, lasting, Option.map_map]
    rfl
  rw [← hentry u, h, hentry]

theorem Record.live_iff (r : Record) : r.live = true ↔ r.state = .inForce ∨ r.state = .benched := by
  unfold live
  cases r.state <;> simp

theorem Record.live_congr {r r' : Record} (h : r'.state = r.state) : r'.live = r.live := by rw [live, live, h]

/-- The order of R113 as one comparison after another. -/
theorem PlaceKey.ahead_iff (a b : PlaceKey) :
    a.ahead b = true ↔ a.benched.toNat < b.benched.toNat ∨
      (a.benched.toNat = b.benched.toNat ∧ (a.rank < b.rank ∨ (a.rank = b.rank ∧ (b.power < a.power ∨ (a.power = b.power ∧ a.port < b.port))))) := by
  unfold PlaceKey.ahead
  by_cases hb : a.benched = b.benched
  · simp only [hb, ne_eq, not_true_eq_false, if_false, lt_irrefl, false_or, true_and]
    split_ifs <;> simp only [decide_eq_true_eq] <;> omega
  · cases ha : a.benched <;> cases hc : b.benched <;> simp_all

theorem PlaceKey.ahead_trans {a b c : PlaceKey} (hab : a.ahead b = true) (hbc : b.ahead c = true) : a.ahead c = true := by
  rw [PlaceKey.ahead_iff] at *
  omega

theorem PlaceKey.ahead_total {a b : PlaceKey} (h : a.port ≠ b.port) : a.ahead b = true ∨ b.ahead a = true := by
  rw [PlaceKey.ahead_iff, PlaceKey.ahead_iff]
  omega

theorem index_injective {p q : Port} (h : p.index = q.index) : p = q := by
  cases p <;> cases q <;> simp_all [Port.index]

namespace State

variable {s t u : State} {p q : Port} {r k : Record}

/-- The queue, and what the lock of R165 holds still. -/
def guarded (s : State) : List Instr × Bool × Bool × Bool × Nat := (s.pending, s.lock, s.watchEnable, s.alertRoute, s.policy.dropout)

theorem FrameAt.guarded (h : s.FrameAt t p) : t.guarded = s.guarded := by
  simp only [State.guarded, h.pending, h.lock, h.watchEnable, h.alertRoute, h.policy]

/-! ## Kinds of change -/

/-- A change that the roster's list, the handles and the lock do not see. -/
structure Stays (s t : State) : Prop where
  entries : ∀ q, (t.port q).entry = (s.port q).entry
  list    : t.roster.list = s.roster.list
  guard   : t.guarded = s.guarded

/-- A change of one port that leaves the entries of the others, and the lock. -/
structure AtPort (p : Port) (s t : State) : Prop where
  others : ∀ q, q ≠ p → (t.port q).entry = (s.port q).entry
  guard  : t.guarded = s.guarded

/-- A port's record is placed, or re-placed, on the roster: it has changed, and its handle stands where its key now puts it (R113). -/
structure Placed (p : Port) (r k : Record) (s t : State) : Prop extends AtPort p s t where
  before : s.record p = some r
  after  : t.record p = some k
  handle : k.handle = r.handle
  list   : t.roster.list = t.insertHandle (t.keyOf p k) k.handle (s.roster.list.filter (fun h => h ≠ k.handle))

/-- The changes that a step is a chain of, as the roster's list, the handles, the amendments and the lock see it. -/
inductive Keeps : State → State → Prop
  | still {s t : State} : Stays s t → Keeps s t
  /-- Only over a lock that is not set does a command write what the lock holds (R165). -/
  | unlocked {s t : State} : (∀ q, (t.port q).entry = (s.port q).entry) → t.roster.list = s.roster.list → t.pending = s.pending → s.lock = false →
      t.LockedWatch → Keeps s t
  | creates {s t : State} (p : Port) (k : Record) : AtPort p s t → t.roster.list = s.roster.list → s.record p = none →
      t.record p = some k → k.handle = s.nextHandle → k.live = false → k.amendment = none → Keeps s t
  /-- A record that stays live keeps its place, and its port its rank. -/
  | revises {s t : State} (p : Port) (r k : Record) : AtPort p s t → t.roster.list = s.roster.list → s.record p = some r →
      t.record p = some k → k.handle = r.handle → k.live = r.live →
      (r.live = true → t.keyOf p k = s.keyOf p r) → (k.amendment.isSome = true → r.amendment.isSome = true ∨ k.live = true) → Keeps s t
  /-- The rank of a port without a record. -/
  | ranks {s t : State} (p : Port) : AtPort p s t → t.roster.list = s.roster.list → s.record p = none → t.record p = none → Keeps s t
  | places {s t : State} (p : Port) (r k : Record) : Placed p r k s t → k.live = true → Keeps s t
  | removes {s t : State} (p : Port) (r : Record) : AtPort p s t → s.record p = some r → t.record p = none →
      t.roster.list = s.roster.list.filter (fun h => h ≠ r.handle) → Keeps s t
  | trans {s t u : State} : Keeps s t → Keeps t u → Keeps s u

/-! ## Reading entries -/

theorem entry_record (h : (t.port q).entry = (s.port q).entry) : (t.record q).map Record.entry = (s.record q).map Record.entry :=
  congrArg Prod.snd h

theorem entry_rank (h : (t.port q).entry = (s.port q).entry) : (t.port q).rank = (s.port q).rank := congrArg Prod.fst h

/-- The record that an unchanged entry was made of. -/
theorem entry_some (h : (t.port q).entry = (s.port q).entry) (hk : t.record q = some k) :
    ∃ r, s.record q = some r ∧ k.entry = r.entry := by
  have hmap := entry_record h
  rw [hk, Option.map_some] at hmap
  obtain ⟨r, hr, heq⟩ := Option.map_eq_some_iff.mp hmap.symm
  exact ⟨r, hr, heq.symm⟩

theorem keyOf_of_entry (h : (t.port q).entry = (s.port q).entry) (hk : k.entry = r.entry) : t.keyOf q k = s.keyOf q r := by
  obtain ⟨-, hstate, hpower, -⟩ := Record.entry_eq_iff.mp hk
  simp only [keyOf, entry_rank h, hstate, hpower]

theorem Worked.stays (h : Worked s t) : Stays s t where
  entries q := PortState.entry_of_lasting (h.2.2.2 q)
  list := h.2.2.1
  guard := (h.frameAt .p0).guarded

namespace Stays

theorem refl (s : State) : Stays s s := ⟨fun _ => rfl, rfl, rfl⟩

theorem trans (h : Stays s t) (g : Stays t u) : Stays s u :=
  ⟨fun q => (g.entries q).trans (h.entries q), g.list.trans h.list, g.guard.trans h.guard⟩

theorem ite {c : Prop} [Decidable c] (h : Stays s t) (g : Stays s u) : Stays s (if c then t else u) := by
  split
  · exact h
  · exact g

theorem port (s : State) (p : Port) (f : PortState → PortState) (h : (f (s.port p)).entry = (s.port p).entry) : Stays s (s.modPort p f) :=
  ⟨fun q => by
    by_cases hq : q = p
    · rw [hq, port_modPort_self, h]
    · rw [port_modPort_ne _ _ _ hq], rfl, rfl⟩

end Stays

namespace Keeps

theorem refl (s : State) : Keeps s s := .still (.refl s)

theorem ite {c : Prop} [Decidable c] (h : Keeps s t) (g : Keeps s u) : Keeps s (if c then t else u) := by
  split
  · exact h
  · exact g

theorem worked (h : Worked s t) : Keeps s t := .still h.stays

theorem port (s : State) (p : Port) (f : PortState → PortState) (h : (f (s.port p)).entry = (s.port p).entry) : Keeps s (s.modPort p f) :=
  .still (.port s p f h)

theorem link (s : State) (p : Port) (f : Link → Link) : Keeps s (s.modLink p f) := port s p _ rfl
theorem slot (s : State) (p : Port) (f : RequestSlot → RequestSlot) : Keeps s (s.modSlot p f) := link s p _
theorem front (s : State) (p : Port) (f : FrontEnd → FrontEnd) : Keeps s (s.modFront p f) := port s p _ rfl
theorem catalogue (s : State) (p : Port) (f : Catalogue → Catalogue) : Keeps s (s.modCatalogue p f) := port s p _ rfl
theorem monitor (s : State) (p : Port) (f : Monitor → Monitor) : Keeps s (s.modMonitor p f) := port s p _ rfl
theorem watch (s : State) (p : Port) (f : PortWatch → PortWatch) : Keeps s (s.modWatch p f) := port s p _ rfl
theorem flag (s : State) (p : Port) (f : PortFlag) : Keeps s (s.setFlag p f) := port s p _ rfl
theorem role (s : State) (p : Port) (r : Role) : Keeps s (s.setRole p r) := port s p _ rfl

theorem history (s : State) (p : Port) (f : ContractSlot → ContractSlot)
    (h : (f (s.port p).contract).record = (s.port p).contract.record) : Keeps s (s.modContract p f) :=
  port s p _ (by simp only [PortState.entry, h])

/-- A change around the ports that the lock does not see. -/
theorem part (hp : t.ports = s.ports) (hr : t.roster.list = s.roster.list) (hg : t.guarded = s.guarded) : Keeps s t :=
  .still ⟨fun q => by rw [State.port, State.port, hp], hr, hg⟩

/-- A record in place of another of the same entry. -/
theorem record (h : s.record p = some r) (hk : k.entry = r.entry) : Keeps s (s.setRecord p (some k)) := by
  have hr : (s.port p).contract.record = some r := h
  rw [setRecord_eq]
  exact port s p _ (by simp only [PortState.entry, hr, Option.map_some, hk])

theorem modRecord (s : State) (p : Port) (f : Record → Record) (h : ∀ r, (f r).entry = r.entry) : Keeps s (s.modRecord p f) := by
  rw [modRecord_eq]
  exact port s p _ (by simp only [PortState.entry, Option.map_map, Function.comp_def, h])

theorem fold {α : Type} (f : State → α → State) (h : ∀ s a, Keeps s (f s a)) (l : List α) (s : State) : Keeps s (l.foldl f s) := by
  induction l generalizing s with
  | nil => exact .refl s
  | cons a l ih => exact (h s a).trans (ih (f s a))

end Keeps

theorem AtPort.modPort (s : State) (p : Port) (f : PortState → PortState) : AtPort p s (s.modPort p f) :=
  ⟨fun q hq => by rw [port_modPort_ne _ _ _ hq], rfl⟩

theorem AtPort.trans (h : AtPort p s t) (g : AtPort p t u) : AtPort p s u :=
  ⟨fun q hq => (g.others q hq).trans (h.others q hq), g.guard.trans h.guard⟩

theorem Stays.atPort (h : Stays s t) (p : Port) : AtPort p s t := ⟨fun q _ => h.entries q, h.guard⟩

theorem FrameAt.atPort (h : s.FrameAt t p) : AtPort p s t := ⟨fun q hq => PortState.entry_of_lasting (h.2 q hq), h.guarded⟩

/-! ## Handles -/

theorem portOfHandle_of_distinct (h : s.HandlesDistinct) (hr : s.record p = some r) : s.portOfHandle r.handle = some p := by
  cases hfound : s.portOfHandle r.handle with
  | none =>
    rw [portOfHandle, List.find?_eq_none] at hfound
    exact absurd (hfound p (mem_all p)) (by simp [hr])
  | some q =>
    obtain ⟨k, hk, heq⟩ := portOfHandle_record hfound
    by_contra hne
    exact h.2 q p k r (fun e => hne (congrArg some e)) hk hr heq

theorem placeKey_of_distinct (h : s.HandlesDistinct) (hr : s.record p = some r) : s.placeKey r.handle = some (s.keyOf p r) := by
  simp only [placeKey, portOfHandle_of_distinct h hr, hr, Option.map_some]

/-- The n-th number after a handle, from 255 to 1. -/
def afterHandle (h : Handle) (n : Nat) : Handle := BitVec.ofNat 8 ((h.toNat + 254 + n) % 255 + 1)

theorem succHandle_eq (h : Handle) : succHandle h = afterHandle h 1 := by
  unfold succHandle afterHandle
  split
  · subst h
    rfl
  · bv_omega

theorem succHandle_afterHandle (h : Handle) (n : Nat) : succHandle (afterHandle h n) = afterHandle h (n + 1) := by
  unfold succHandle afterHandle
  split
  · bv_omega
  · bv_omega

theorem afterHandle_ne_zero (h : Handle) (n : Nat) : afterHandle h n ≠ 0 := by
  unfold afterHandle
  bv_omega

theorem afterHandle_inj (h : Handle) {m n : Nat} (hm : m < 255) (hn : n < 255) (he : afterHandle h m = afterHandle h n) : m = n := by
  unfold afterHandle at he
  bv_omega

/-- A record holds the handle. -/
def Used (s : State) (h : Handle) : Prop := ∃ p k, s.record p = some k ∧ k.handle = h

theorem portOfHandle_isSome_iff (s : State) (h : Handle) : (s.portOfHandle h).isSome = true ↔ s.Used h := by
  constructor
  · intro hsome
    obtain ⟨p, hp⟩ := Option.isSome_iff_exists.mp hsome
    obtain ⟨k, hk, heq⟩ := portOfHandle_record hp
    exact ⟨p, k, hk, heq⟩
  · rintro ⟨p, k, hk, rfl⟩
    rw [portOfHandle, List.find?_isSome]
    exact ⟨p, mem_all p, by simp [hk]⟩

/-- The search looks at one number after the other, and stops at the first that no record holds, or at its end. -/
theorem findHandle_spec (s : State) (h : Handle) (n i : Nat) :
    ∃ m ≤ n, s.findHandle n (afterHandle h i) = afterHandle h (i + m) ∧ (∀ j < m, s.Used (afterHandle h (i + j))) ∧
      (m < n → ¬ s.Used (afterHandle h (i + m))) := by
  induction n generalizing i with
  | zero => exact ⟨0, le_rfl, rfl, by simp, by simp⟩
  | succ n ih =>
    unfold findHandle
    by_cases hused : s.Used (afterHandle h i)
    · obtain ⟨m, hm, hfound, hbefore, hfree⟩ := ih (i + 1)
      rw [if_pos ((portOfHandle_isSome_iff s _).mpr hused), succHandle_afterHandle, hfound]
      refine ⟨m + 1, by omega, by rw [Nat.add_right_comm, Nat.add_assoc], fun j hj => ?_, fun hlt => ?_⟩
      · cases j with
        | zero => exact hused
        | succ j =>
          have hearlier := hbefore j (by omega)
          rwa [Nat.add_right_comm, Nat.add_assoc] at hearlier
      · have hstop := hfree (by omega)
        rwa [Nat.add_right_comm, Nat.add_assoc] at hstop
    · rw [if_neg (fun hsome => hused ((portOfHandle_isSome_iff s _).mp hsome))]
      exact ⟨0, Nat.zero_le _, rfl, by simp, fun _ => hused⟩

/-- Four records cannot hold five numbers. -/
theorem exists_unused (s : State) (h : Handle) : ∃ j < 5, ¬ s.Used (afterHandle h (1 + j)) := by
  by_contra hall
  push Not at hall
  let port (j : Nat) : Port := (s.portOfHandle (afterHandle h (1 + j))).getD .p0
  have hport (j : Nat) (hj : j < 5) : s.portOfHandle (afterHandle h (1 + j)) = some (port j) :=
    (Option.some_get ((portOfHandle_isSome_iff s _).mpr (hall j hj))).symm.trans (congrArg some (Option.get_eq_getD _))
  have hnodup : ((List.range 5).map port).Nodup := by
    refine (List.nodup_map_iff_inj_on List.nodup_range).mpr (fun i hi j hj he => ?_)
    rw [List.mem_range] at hi hj
    obtain ⟨r, hr, hri⟩ := portOfHandle_record (hport i hi)
    obtain ⟨r', hr', hrj⟩ := portOfHandle_record (hport j hj)
    rw [he] at hr
    rw [Option.some.inj (hr.symm.trans hr')] at hri
    have := afterHandle_inj h (by omega) (by omega) (hri.symm.trans hrj)
    omega
  have hle := (hnodup.subperm (fun p _ => mem_all p)).length_le
  simp [Port.all] at hle

/-- The next handle is the first number after the last one issued that no record holds (R56). -/
theorem nextHandle_spec (s : State) :
    ∃ n, 1 ≤ n ∧ n ≤ 5 ∧ s.nextHandle = afterHandle s.lastHandle n ∧ ¬ s.Used (afterHandle s.lastHandle n) ∧
      ∀ m, 1 ≤ m → m < n → s.Used (afterHandle s.lastHandle m) := by
  obtain ⟨m, hm, hfound, hbefore, hfree⟩ := findHandle_spec s s.lastHandle 4 1
  refine ⟨1 + m, by omega, by omega, by rw [nextHandle, succHandle_eq, hfound], ?_, fun i hi hlt => ?_⟩
  · by_cases hlast : m < 4
    · exact hfree hlast
    · obtain ⟨j, hj, hunused⟩ := exists_unused s s.lastHandle
      have hend : j = m := by
        by_contra hne
        exact hunused (hbefore j (by omega))
      exact hend ▸ hunused
  · have hused := hbefore (i - 1) (by omega)
    rwa [Nat.add_sub_cancel' hi] at hused

theorem nextHandle_unused (s : State) : ¬ s.Used s.nextHandle := by
  obtain ⟨n, -, -, hnext, hunused, -⟩ := nextHandle_spec s
  rwa [hnext]

theorem nextHandle_ne_zero (s : State) : s.nextHandle ≠ 0 := by
  obtain ⟨n, -, -, hnext, -, -⟩ := nextHandle_spec s
  rw [hnext]
  exact afterHandle_ne_zero _ _

/-- Handles stay distinct when the one changed record has a handle of its own (R56). -/
theorem HandlesDistinct.change (h : s.HandlesDistinct) (hp : AtPort p s t)
    (hown : ∀ k, t.record p = some k → k.handle ≠ 0 ∧ ∀ q r, q ≠ p → s.record q = some r → r.handle ≠ k.handle) : t.HandlesDistinct := by
  have hother {q : Port} {k : Record} (hq : q ≠ p) (hk : t.record q = some k) : ∃ r, s.record q = some r ∧ r.handle = k.handle := by
    obtain ⟨r, hr, heq⟩ := entry_some (hp.others q hq) hk
    exact ⟨r, hr, (Record.entry_eq_iff.mp heq).1.symm⟩
  refine ⟨fun q k hk => ?_, fun q q' k k' hne hk hk' => ?_⟩
  · by_cases hq : q = p
    · exact (hown k (hq ▸ hk)).1
    · obtain ⟨r, hr, heq⟩ := hother hq hk
      exact heq ▸ h.1 q r hr
  · by_cases hq : q = p
    · have hq' : q' ≠ p := fun e => hne (hq.trans e.symm)
      obtain ⟨r', hr', heq'⟩ := hother hq' hk'
      exact fun he => (hown k (hq ▸ hk)).2 q' r' hq' hr' (heq'.trans he.symm)
    · obtain ⟨r, hr, heq⟩ := hother hq hk
      by_cases hq' : q' = p
      · exact fun he => (hown k' (hq' ▸ hk')).2 q r hq hr (heq.trans he)
      · obtain ⟨r', hr', heq'⟩ := hother hq' hk'
        rw [← heq, ← heq']
        exact h.2 q q' r r' hne hr hr'

/-- A record that keeps its handle keeps it apart from the others. -/
theorem HandlesDistinct.revise (h : s.HandlesDistinct) (hp : AtPort p s t) (hr : s.record p = some r) (hk : t.record p = some k)
    (hh : k.handle = r.handle) : t.HandlesDistinct :=
  h.change hp (fun k' hk' => by
    obtain rfl : k = k' := Option.some.inj (hk.symm.trans hk')
    rw [hh]
    exact ⟨h.1 p r hr, fun q r' hq hr' => h.2 q p r' r hq hr' hr⟩)

/-! ## Who is listed -/

/-- The port's record is live under the handle: it belongs on the roster (R112). -/
def Enrolled (s : State) (q : Port) (h : Handle) : Prop := ∃ r, s.record q = some r ∧ r.live = true ∧ r.handle = h

theorem enrolled_congr (h : (t.port q).entry = (s.port q).entry) (x : Handle) : t.Enrolled q x ↔ s.Enrolled q x := by
  have half {s t : State} (h : (t.port q).entry = (s.port q).entry) : t.Enrolled q x → s.Enrolled q x := by
    rintro ⟨k, hk, hlive, hx⟩
    obtain ⟨r, hr, heq⟩ := entry_some h hk
    obtain ⟨hhandle, hstate, -⟩ := Record.entry_eq_iff.mp heq
    exact ⟨r, hr, (Record.live_congr hstate) ▸ hlive, hhandle ▸ hx⟩
  exact ⟨half h, half h.symm⟩

theorem rosterExact_iff : s.RosterExact ↔ s.roster.list.Nodup ∧ ∀ h, h ∈ s.roster.list ↔ ∃ p, s.Enrolled p h := Iff.rfl

/-- Who is listed beside a port's record: those of the other ports. -/
theorem mem_others (hd : s.HandlesDistinct) (hx : s.RosterExact) (hr : s.record p = some r) (h : Handle) :
    h ∈ s.roster.list.filter (fun h => h ≠ r.handle) ↔ ∃ q, q ≠ p ∧ s.Enrolled q h := by
  simp only [List.mem_filter, (rosterExact_iff.mp hx).2, decide_eq_true_eq]
  constructor
  · rintro ⟨⟨q, k, hk, hlive, rfl⟩, hne⟩
    refine ⟨q, fun e => hne ?_, k, hk, hlive, rfl⟩
    subst e
    rw [Option.some.inj (hk.symm.trans hr)]
  · rintro ⟨q, hq, k, hk, hlive, rfl⟩
    exact ⟨⟨q, k, hk, hlive, rfl⟩, hd.2 q p k r hq hk hr⟩

theorem exists_enrolled_iff (hp : AtPort p s t) (h : Handle) :
    (∃ q, t.Enrolled q h) ↔ t.Enrolled p h ∨ ∃ q, q ≠ p ∧ s.Enrolled q h := by
  constructor
  · rintro ⟨q, hq⟩
    by_cases e : q = p
    · exact .inl (e ▸ hq)
    · exact .inr ⟨q, e, (enrolled_congr (hp.others q e) h).mp hq⟩
  · rintro (h' | ⟨q, hq, h'⟩)
    · exact ⟨p, h'⟩
    · exact ⟨q, (enrolled_congr (hp.others q hq) h).mpr h'⟩

/-- An unchanged list stays exact when the changed port is listed as before. -/
theorem RosterExact.same (hx : s.RosterExact) (hp : AtPort p s t) (hl : t.roster.list = s.roster.list)
    (he : ∀ h, t.Enrolled p h ↔ s.Enrolled p h) : t.RosterExact := by
  refine rosterExact_iff.mpr ⟨hl ▸ hx.1, fun h => ?_⟩
  rw [hl, (rosterExact_iff.mp hx).2, exists_enrolled_iff hp, exists_enrolled_iff (p := p) ⟨fun _ _ => rfl, rfl⟩, he]

theorem enrolled_of_record (hr : s.record p = some r) (h : Handle) : s.Enrolled p h ↔ r.live = true ∧ r.handle = h := by
  constructor
  · rintro ⟨k, hk, hlive, hh⟩
    obtain rfl : r = k := Option.some.inj (hr.symm.trans hk)
    exact ⟨hlive, hh⟩
  · exact fun hk => ⟨r, hr, hk⟩

theorem not_enrolled_of_none (hr : s.record p = none) (h : Handle) : ¬ s.Enrolled p h := by
  rintro ⟨k, hk, -⟩
  exact Option.some_ne_none k (hk.symm.trans hr)

theorem insertHandle_perm (s : State) (k : PlaceKey) (h : Handle) (l : List Handle) : (s.insertHandle k h l).Perm (h :: l) := by
  induction l with
  | nil => exact .refl _
  | cons e l ih =>
    unfold insertHandle
    split
    · exact .refl _
    · exact (ih.cons e).trans (.swap h e l)

theorem Placed.exact (h : Placed p r k s t) (hd : s.HandlesDistinct) (hx : s.RosterExact) (hlive : k.live = true) : t.RosterExact := by
  have hperm := h.list ▸ insertHandle_perm t (t.keyOf p k) k.handle (s.roster.list.filter (fun h => h ≠ k.handle))
  rw [h.handle] at hperm
  refine rosterExact_iff.mpr ⟨hperm.nodup_iff.mpr (List.nodup_cons.mpr ⟨by simp, hx.1.filter _⟩), fun x => ?_⟩
  rw [hperm.mem_iff, List.mem_cons, mem_others hd hx h.before, exists_enrolled_iff h.toAtPort, enrolled_of_record h.after, h.handle]
  simp [hlive, eq_comm]

/-! ## The order of the list -/

/-- One handle stands ahead of another by the keys of their records (R113). -/
def Leads (s : State) (g h : Handle) : Prop :=
  ∀ p q r k, s.record p = some r → s.record q = some k → r.handle = g → k.handle = h → (s.keyOf p r).ahead (s.keyOf q k) = true

theorem rosterOrdered_iff : s.RosterOrdered ↔ s.roster.list.Pairwise s.Leads := Iff.rfl

/-- A list that only loses entries stays ordered, where every handle left on it keeps its key. -/
theorem ordered_of_sublist (ho : s.RosterOrdered) (hl : t.roster.list.Sublist s.roster.list)
    (hkeys : ∀ q k, t.record q = some k → k.handle ∈ t.roster.list → ∃ r, s.record q = some r ∧ r.handle = k.handle ∧ t.keyOf q k = s.keyOf q r) :
    t.RosterOrdered := by
  refine rosterOrdered_iff.mpr ((List.Pairwise.sublist hl ho).imp_of_mem (fun {g h} hg hh hlead p q r k hr hk hrg hkh => ?_))
  subst hrg hkh
  obtain ⟨r', hr', hrh, hrkey⟩ := hkeys p r hr hg
  obtain ⟨k', hk', hkh, hkkey⟩ := hkeys q k hk hh
  rw [hrkey, hkkey]
  exact hlead p q r' k' hr' hk' hrh hkh

/-- Insertion ahead of the first entry that stands behind keeps a list in an order that the key decides. -/
theorem insertHandle_pairwise {R : Handle → Handle → Prop} {key : PlaceKey} {h : Handle} {l : List Handle} (hl : l.Pairwise R)
    (hbehind : ∀ e ∈ l, s.standsBehind key e = true → R h e) (hahead : ∀ e ∈ l, ¬ s.standsBehind key e = true → R e h)
    (htrans : ∀ e ∈ l, ∀ f ∈ l, s.standsBehind key e = true → R e f → R h f) : (s.insertHandle key h l).Pairwise R := by
  induction l with
  | nil => exact List.pairwise_singleton R h
  | cons e l ih =>
    obtain ⟨he, hl'⟩ := List.pairwise_cons.mp hl
    unfold insertHandle
    split
    · rename_i hb
      refine List.pairwise_cons.mpr ⟨fun f hf => ?_, hl⟩
      obtain rfl | hf := List.mem_cons.mp hf
      · exact hbehind f List.mem_cons_self hb
      · exact htrans e List.mem_cons_self f (List.mem_cons_of_mem e hf) hb (he f hf)
    · rename_i hb
      refine List.pairwise_cons.mpr ⟨fun f hf => ?_, ih hl' (fun f hf => hbehind f (List.mem_cons_of_mem e hf))
        (fun f hf => hahead f (List.mem_cons_of_mem e hf))
        (fun f hf g hg => htrans f (List.mem_cons_of_mem e hf) g (List.mem_cons_of_mem e hg))⟩
      obtain rfl | hf := List.mem_cons.mp ((insertHandle_perm s key h l).mem_iff.mp hf)
      · exact hahead e List.mem_cons_self hb
      · exact he f hf

theorem Placed.distinct (h : Placed p r k s t) (hd : s.HandlesDistinct) : t.HandlesDistinct :=
  hd.revise h.toAtPort h.before h.after h.handle

/-- Placing a record by its key keeps the list in order, whatever the record's state. -/
theorem Placed.ordered (h : Placed p r k s t) (hd : s.HandlesDistinct) (hx : s.RosterExact) (ho : s.RosterOrdered) : t.RosterOrdered := by
  have hd' := h.distinct hd
  have hother {e : Handle} (he : e ∈ s.roster.list.filter (fun h => h ≠ k.handle)) :
      ∃ q c c', q ≠ p ∧ s.record q = some c' ∧ c'.handle = e ∧ t.record q = some c ∧ c.handle = e ∧ t.keyOf q c = s.keyOf q c' := by
    rw [h.handle, mem_others hd hx h.before] at he
    obtain ⟨q, hq, c', hc', -, heq⟩ := he
    obtain ⟨c, hc, hentry⟩ := entry_some (h.others q hq).symm hc'
    exact ⟨q, c, c', hq, hc', heq, hc, (Record.entry_eq_iff.mp hentry).1 ▸ heq, keyOf_of_entry (h.others q hq) hentry.symm⟩
  have hunique {a b : Port} {x y : Record} (hx : t.record a = some x) (hy : t.record b = some y) (he : x.handle = y.handle) :
      a = b ∧ x = y := by
    have hab : a = b := by
      by_contra hne
      exact hd'.2 a b x y hne hx hy he
    subst hab
    exact ⟨rfl, Option.some.inj (hx.symm.trans hy)⟩
  have hkey {e : Handle} (he : e ∈ s.roster.list.filter (fun h => h ≠ k.handle)) :
      ∃ q c, t.record q = some c ∧ c.handle = e ∧ (t.standsBehind (t.keyOf p k) e = (t.keyOf p k).ahead (t.keyOf q c)) ∧
        ((t.keyOf p k).ahead (t.keyOf q c) = true ∨ (t.keyOf q c).ahead (t.keyOf p k) = true) := by
    obtain ⟨q, c, c', hq, -, -, hc, heq, -⟩ := hother he
    refine ⟨q, c, hc, heq, ?_, PlaceKey.ahead_total (fun hport => hq (index_injective hport.symm))⟩
    rw [standsBehind, ← heq, placeKey_of_distinct hd' hc]
  have hleads_front {e : Handle} {q : Port} {c : Record} (hc : t.record q = some c) (he : c.handle = e) :
      t.Leads k.handle e ↔ (t.keyOf p k).ahead (t.keyOf q c) = true := by
    constructor
    · exact fun hl => hl p q k c h.after hc rfl he
    · intro hl a b x y hax hby hx hy
      obtain ⟨rfl, rfl⟩ := hunique hax h.after hx
      obtain ⟨rfl, rfl⟩ := hunique hby hc (hy.trans he.symm)
      exact hl
  have hleads_back {e : Handle} {q : Port} {c : Record} (hc : t.record q = some c) (he : c.handle = e) :
      t.Leads e k.handle ↔ (t.keyOf q c).ahead (t.keyOf p k) = true := by
    constructor
    · exact fun hl => hl q p c k hc h.after he rfl
    · intro hl a b x y hax hby hx hy
      obtain ⟨rfl, rfl⟩ := hunique hax hc (hx.trans he.symm)
      obtain ⟨rfl, rfl⟩ := hunique hby h.after hy
      exact hl
  rw [rosterOrdered_iff, h.list]
  refine insertHandle_pairwise ?_ (fun e he hb => ?_) (fun e he hb => ?_) (fun e he f hf hb hlead => ?_)
  · refine (List.Pairwise.filter _ ho).imp_of_mem (fun {g e} hg he hlead => ?_)
    obtain ⟨q, c, c', -, hc', heq', hc, heq, hsame⟩ := hother hg
    obtain ⟨q', d, d', -, hd'', hdeq', hdd, hdeq, hdsame⟩ := hother he
    intro a b x y hax hby hx hy
    obtain ⟨rfl, rfl⟩ := hunique hax hc (hx.trans heq.symm)
    obtain ⟨rfl, rfl⟩ := hunique hby hdd (hy.trans hdeq.symm)
    rw [hsame, hdsame]
    exact hlead _ _ c' d' hc' hd'' heq' hdeq'
  · obtain ⟨q, c, hc, heq, hstands, -⟩ := hkey he
    exact (hleads_front hc heq).mpr (hstands ▸ hb)
  · obtain ⟨q, c, hc, heq, hstands, htotal⟩ := hkey he
    exact (hleads_back hc heq).mpr (htotal.resolve_left (hstands ▸ hb))
  · obtain ⟨q, c, hc, heq, hstands, -⟩ := hkey he
    obtain ⟨q', d, hd', hdeq, -, -⟩ := hkey hf
    exact (hleads_front hd' hdeq).mpr (PlaceKey.ahead_trans (hstands ▸ hb) (hlead q q' c d hc hd' heq hdeq))

end State

end Sys2Proof.Machine
end

section
/-! PROOF. The invariants of the roster, the handles and the lock through every kind of change. -/

namespace Sys2Proof.Machine

open Sys2Proof

namespace State

variable {s t u : State} {p q : Port} {r k : Record}

/-- A pending amendment of a port's record stands on a live record (R72). -/
def AmendsLive (s : State) (q : Port) : Prop := ∀ r, s.record q = some r → r.amendment.isSome = true → r.live = true

theorem amendsLive_congr (h : (t.port q).entry = (s.port q).entry) (hs : s.AmendsLive q) : t.AmendsLive q := by
  intro k hk ha
  obtain ⟨r, hr, heq⟩ := entry_some h hk
  obtain ⟨-, hstate, -, hamend⟩ := Record.entry_eq_iff.mp heq
  rw [Record.live_congr hstate]
  exact hs r hr (hamend ▸ ha)

theorem AmendmentsLive.change (h : s.AmendmentsLive) (hp : AtPort p s t) (hown : t.AmendsLive p) : t.AmendmentsLive := by
  intro q
  by_cases hq : q = p
  · exact hq ▸ hown
  · exact amendsLive_congr (hp.others q hq) (h q)

/-- A list that loses nothing, or one handle, stays ordered where the records on it keep their keys. -/
theorem AtPort.ordered (hp : AtPort p s t) (ho : s.RosterOrdered) (hl : t.roster.list.Sublist s.roster.list)
    (hown : ∀ k, t.record p = some k → k.handle ∈ t.roster.list → ∃ r, s.record p = some r ∧ r.handle = k.handle ∧ t.keyOf p k = s.keyOf p r) :
    t.RosterOrdered :=
  ordered_of_sublist ho hl (fun q k hk hmem => by
    by_cases hq : q = p
    · subst hq
      exact hown k hk hmem
    · obtain ⟨r, hr, heq⟩ := entry_some (hp.others q hq) hk
      exact ⟨r, hr, (Record.entry_eq_iff.mp heq).1.symm, keyOf_of_entry (hp.others q hq) heq⟩)

/-- What the roster's invariants ask of a state, and what they keep through a change: the handles distinct, the list exact, and with them the
amendments live and the list ordered (R56, R72, R112, R113). -/
structure Registers (s t : State) : Prop where
  distinct : t.HandlesDistinct
  exact    : t.RosterExact
  live     : s.AmendmentsLive → t.AmendmentsLive
  ordered  : s.RosterOrdered → t.RosterOrdered

theorem Registers.of_entries (hd : s.HandlesDistinct) (hx : s.RosterExact) (he : ∀ q, (t.port q).entry = (s.port q).entry)
    (hl : t.roster.list = s.roster.list) : Registers s t := by
  refine ⟨⟨fun q k hk => ?_, fun q q' k k' hne hk hk' => ?_⟩, ?_, fun ha q => amendsLive_congr (he q) (ha q), fun ho => ?_⟩
  · obtain ⟨r, hr, heq⟩ := entry_some (he q) hk
    exact (Record.entry_eq_iff.mp heq).1 ▸ hd.1 q r hr
  · obtain ⟨r, hr, heq⟩ := entry_some (he q) hk
    obtain ⟨r', hr', heq'⟩ := entry_some (he q') hk'
    rw [(Record.entry_eq_iff.mp heq).1, (Record.entry_eq_iff.mp heq').1]
    exact hd.2 q q' r r' hne hr hr'
  · refine rosterExact_iff.mpr ⟨hl ▸ hx.1, fun h => ?_⟩
    rw [hl, (rosterExact_iff.mp hx).2]
    exact exists_congr (fun q => (enrolled_congr (he q) h).symm)
  · refine ordered_of_sublist ho (hl ▸ List.Sublist.refl _) (fun q k hk _ => ?_)
    obtain ⟨r, hr, heq⟩ := entry_some (he q) hk
    exact ⟨r, hr, (Record.entry_eq_iff.mp heq).1.symm, keyOf_of_entry (he q) heq⟩

theorem Placed.registers (h : Placed p r k s t) (hlive : k.live = true) (hd : s.HandlesDistinct) (hx : s.RosterExact) : Registers s t where
  distinct := h.distinct hd
  exact := h.exact hd hx hlive
  live ha := ha.change h.toAtPort (fun k' hk' _ => by rwa [Option.some.inj (hk'.symm.trans h.after)])
  ordered := h.ordered hd hx

/-- Every kind of change keeps the invariants of the roster. -/
theorem Keeps.registers (h : Keeps s t) (hd : s.HandlesDistinct) (hx : s.RosterExact) : Registers s t := by
  induction h with
  | still h => exact .of_entries hd hx h.entries h.list
  | unlocked he hl _ _ _ => exact .of_entries hd hx he hl
  | @creates s t p k hp hl hs ht hh hlive ha =>
    have hunused (q : Port) (r : Record) (hr : s.record q = some r) : r.handle ≠ k.handle :=
      fun e => nextHandle_unused s ⟨q, r, hr, e.trans hh⟩
    have hown {k' : Record} (hk' : t.record p = some k') : k' = k := Option.some.inj (hk'.symm.trans ht)
    refine ⟨hd.change hp (fun k' hk' => ?_), hx.same hp hl (fun h => ?_), fun hl' => hl'.change hp (fun k' hk' hk'' => ?_),
      fun ho => hp.ordered ho (hl ▸ List.Sublist.refl _) (fun k' hk' hmem => ?_)⟩
    · rw [hown hk']
      exact ⟨hh ▸ nextHandle_ne_zero s, fun q r _ hr => hunused q r hr⟩
    · rw [enrolled_of_record ht]
      simp [hlive, not_enrolled_of_none hs]
    · rw [hown hk', ha] at hk''
      cases hk''
    · rw [hown hk', hl, (rosterExact_iff.mp hx).2] at hmem
      obtain ⟨q, r, hr, -, he⟩ := hmem
      exact absurd he (hunused q r hr)
  | @revises s t p r k hp hl hs ht hh hlive hkey ha =>
    have hown {k' : Record} (hk' : t.record p = some k') : k' = k := Option.some.inj (hk'.symm.trans ht)
    refine ⟨hd.revise hp hs ht hh, hx.same hp hl (fun h => ?_), fun hl' => hl'.change hp (fun k' hk' hk'' => ?_),
      fun ho => hp.ordered ho (hl ▸ List.Sublist.refl _) (fun k' hk' hmem => ?_)⟩
    · rw [enrolled_of_record ht, enrolled_of_record hs, hlive, hh]
    · rw [hown hk'] at hk'' ⊢
      exact (ha hk'').elim (fun hr => hlive ▸ hl' p r hs hr) id
    · rw [hown hk'] at hmem ⊢
      rw [hl, hh, (rosterExact_iff.mp hx).2] at hmem
      obtain ⟨q, r', hr', hrl, he⟩ := hmem
      have hq : q = p := by
        by_contra hne
        exact hd.2 q p r' r hne hr' hs he
      subst hq
      exact ⟨r, hs, hh.symm, hkey (Option.some.inj (hs.symm.trans hr') ▸ hrl)⟩
  | @ranks s t p hp hl hs ht =>
    refine ⟨hd.change hp (fun k hk => ?_), hx.same hp hl (fun h => ?_), fun hl' => hl'.change hp (fun k hk => ?_),
      fun ho => hp.ordered ho (hl ▸ List.Sublist.refl _) (fun k hk => ?_)⟩
    · simp [ht] at hk
    · simp [not_enrolled_of_none hs, not_enrolled_of_none ht]
    · simp [ht] at hk
    · simp [ht] at hk
  | places p r k h hlive => exact h.registers hlive hd hx
  | @removes s t p r hp hs ht hl =>
    refine ⟨hd.change hp (fun k hk => ?_), ?_, fun hl' => hl'.change hp (fun k hk => ?_),
      fun ho => hp.ordered ho (hl ▸ List.filter_sublist) (fun k hk => ?_)⟩
    · simp [ht] at hk
    · refine rosterExact_iff.mpr ⟨hl ▸ hx.1.filter _, fun h => ?_⟩
      rw [hl, mem_others hd hx hs, exists_enrolled_iff hp]
      simp [not_enrolled_of_none ht]
    · simp [ht] at hk
    · simp [ht] at hk
  | trans _ _ ih jh =>
    have hfirst := ih hd hx
    have hsecond := jh hfirst.distinct hfirst.exact
    exact ⟨hsecond.distinct, hsecond.exact, hsecond.live ∘ hfirst.live, hsecond.ordered ∘ hfirst.ordered⟩

/-! ## The lock -/

theorem lockedWatch_of_guarded (h : t.guarded = s.guarded) (hs : s.LockedWatch) : t.LockedWatch := by
  simp only [guarded, Prod.mk.injEq] at h
  obtain ⟨-, hlock, hwatch, hroute, -⟩ := h
  unfold LockedWatch at hs ⊢
  rwa [hlock, hwatch, hroute]

theorem lock_of_guarded (h : t.guarded = s.guarded) : t.lock = s.lock := congrArg (fun g => g.2.1) h

theorem Keeps.locked (h : Keeps s t) : (s.LockedWatch → t.LockedWatch) ∧ (s.lock = true → t.guarded = s.guarded) := by
  have same {s t : State} (hg : t.guarded = s.guarded) : (s.LockedWatch → t.LockedWatch) ∧ (s.lock = true → t.guarded = s.guarded) :=
    ⟨lockedWatch_of_guarded hg, fun _ => hg⟩
  induction h with
  | still h => exact same h.guard
  | unlocked _ _ _ hopen hlocked => exact ⟨fun _ => hlocked, fun hset => by simp [hopen] at hset⟩
  | creates p k hp => exact same hp.guard
  | revises p r k hp => exact same hp.guard
  | ranks p hp => exact same hp.guard
  | places p r k h => exact same h.guard
  | removes p r hp => exact same hp.guard
  | trans _ _ ih jh =>
    refine ⟨jh.1 ∘ ih.1, fun hset => ?_⟩
    have hfirst := ih.2 hset
    exact (jh.2 ((lock_of_guarded hfirst).trans hset)).trans hfirst

/-! ## A grant over a record that is not live -/

/-- What a command does: a chain of changes; or, where an amendment is granted to a record that is not live, which R72 excludes, the placing
of that record with the recomputation after it. -/
def Does (s t : State) : Prop :=
  Keeps s t ∨ ∃ (p : Port) (r k : Record) (u v : State), Keeps s u ∧ Placed p r k u v ∧ r.live = false ∧ r.amendment.isSome = true ∧ Stays v t

theorem Keeps.does (h : Keeps s t) : Does s t := .inl h

theorem Keeps.trans_does (h : Keeps s t) (g : Does t u) : Does s u := by
  obtain g | ⟨p, r, k, v, w, hkeep, hplaced, hlive, ha, hstay⟩ := g
  · exact .inl (h.trans g)
  · exact .inr ⟨p, r, k, v, w, h.trans hkeep, hplaced, hlive, ha, hstay⟩

theorem Does.registers (h : Does s t) (hd : s.HandlesDistinct) (hx : s.RosterExact) (ha : s.AmendmentsLive) :
    t.HandlesDistinct ∧ t.AmendmentsLive ∧ t.RosterExact := by
  obtain h | ⟨p, r, k, u, v, hkeep, hplaced, hlive, hamend, -⟩ := h
  · have hr := h.registers hd hx
    exact ⟨hr.distinct, hr.live ha, hr.exact⟩
  · have hlive' := (hkeep.registers hd hx).live ha p r hplaced.before hamend
    simp [hlive] at hlive'

theorem Does.ordered (h : Does s t) (hd : s.HandlesDistinct) (hx : s.RosterExact) (ho : s.RosterOrdered) : t.RosterOrdered := by
  obtain h | ⟨p, r, k, u, v, hkeep, hplaced, -, -, hstay⟩ := h
  · exact (h.registers hd hx).ordered ho
  · have hu := hkeep.registers hd hx
    refine ordered_of_sublist (hplaced.ordered hu.distinct hu.exact (hu.ordered ho)) (hstay.list ▸ List.Sublist.refl _) (fun q k hk _ => ?_)
    obtain ⟨r', hr', heq⟩ := entry_some (hstay.entries q) hk
    exact ⟨r', hr', (Record.entry_eq_iff.mp heq).1.symm, keyOf_of_entry (hstay.entries q) heq⟩

theorem Does.locked (h : Does s t) : (s.LockedWatch → t.LockedWatch) ∧ (s.lock = true → t.guarded = s.guarded) := by
  obtain h | ⟨p, r, k, u, v, hkeep, hplaced, -, -, hstay⟩ := h
  · exact h.locked
  · have hguard := hstay.guard.trans hplaced.guard
    refine ⟨fun hl => lockedWatch_of_guarded hguard (hkeep.locked.1 hl), fun hset => hguard.trans (hkeep.locked.2 hset)⟩

/-! ## The queue -/

theorem pending_of_guarded (h : t.guarded = s.guarded) : t.pending = s.pending := congrArg Prod.fst h

theorem Keeps.pending (h : Keeps s t) : t.pending = s.pending := by
  induction h with
  | still h => exact pending_of_guarded h.guard
  | unlocked _ _ hq _ _ => exact hq
  | creates p k hp => exact pending_of_guarded hp.guard
  | revises p r k hp => exact pending_of_guarded hp.guard
  | ranks p hp => exact pending_of_guarded hp.guard
  | places p r k h => exact pending_of_guarded h.guard
  | removes p r hp => exact pending_of_guarded hp.guard
  | trans _ _ ih jh => exact jh.trans ih

theorem Does.pending (h : Does s t) : t.pending = s.pending := by
  obtain h | ⟨p, r, k, u, v, hkeep, hplaced, -, -, hstay⟩ := h
  · exact h.pending
  · exact (pending_of_guarded (hstay.guard.trans hplaced.guard)).trans hkeep.pending

end State

end Sys2Proof.Machine
end

section
/-! PROOF. Every operation as a chain of the kinds of change that the roster's list, the handles, the amendments and the lock see. -/

namespace Sys2Proof.Machine

open Sys2Proof

namespace State

variable {s t u : State} {p : Port} {r k : Record}

/-! ## Records -/

/-- A record in place of another: its handle stays, while it is live its place, and only a live one begins an amendment. -/
theorem Keeps.revise (hr : s.record p = some r) (hh : k.handle = r.handle) (hlive : k.live = r.live)
    (hkey : r.live = true → k.state = r.state ∧ k.grantedPower = r.grantedPower)
    (ha : k.amendment.isSome = true → r.amendment.isSome = true ∨ k.live = true) : Keeps s (s.setRecord p (some k)) := by
  rw [setRecord_eq]
  refine .revises p r k (AtPort.modPort s p _) rfl hr (by rw [State.record, port_modPort_self]) hh hlive (fun hl => ?_) ha
  obtain ⟨hstate, hpower⟩ := hkey hl
  simp only [keyOf, port_modPort_self, hstate, hpower]

theorem reviseRecord_keeps (s : State) (p : Port) (f : Record → Record) (h : ∀ r, (f r).entry = r.entry) : Keeps s (s.reviseRecord p f) := by
  unfold reviseRecord
  split
  · exact .refl s
  · rename_i r hr
    exact (Keeps.record hr (h r)).trans (.ite (.worked (.publish _)) (.refl _))

/-! ## Places -/

theorem insertHandle_congr (h : t.ports = s.ports) (key : PlaceKey) (x : Handle) (l : List Handle) :
    t.insertHandle key x l = s.insertHandle key x l := by
  have hbehind (e : Handle) : t.standsBehind key e = s.standsBehind key e := by
    have hport (q : Port) : t.port q = s.port q := by rw [port, h, port]
    have hrecord (q : Port) : t.record q = s.record q := by rw [record, hport, record]
    have hkey (q : Port) : t.keyOf q = s.keyOf q := by
      funext r
      rw [keyOf, hport, keyOf]
    simp only [standsBehind, placeKey, portOfHandle, hrecord, hkey]
  induction l with
  | nil => rfl
  | cons e l ih => simp only [insertHandle, ih, hbehind]

theorem setRoster_ports (s : State) (l : List Handle) : (s.setRoster l).ports = s.ports := by
  unfold setRoster
  dsimp only
  split
  · rfl
  · rfl

theorem setRoster_list (s : State) (l : List Handle) : (s.setRoster l).roster.list = l := by
  unfold setRoster
  dsimp only
  split
  · rfl
  · rfl

theorem setRoster_guarded (s : State) (l : List Handle) : (s.setRoster l).guarded = s.guarded := by
  unfold setRoster
  dsimp only
  split
  · rfl
  · rfl

/-- The port's record changes and is placed. -/
theorem place_placed (hp : AtPort p s u) (hl : u.roster.list = s.roster.list) (hr : s.record p = some r) (hk : u.record p = some k)
    (hh : k.handle = r.handle) : Placed p r { k with rank := some (u.port p).rank } s (u.place p) := by
  let k' : Record := { k with rank := some (u.port p).rank }
  let v : State := u.setRecord p (some k')
  have hv : u.place p = v.setRoster (v.insertHandle (v.keyOf p k) k.handle (v.roster.list.filter (fun h => h ≠ k.handle))) := by
    simp only [place, hk]
    rfl
  have hports : (u.place p).ports = v.ports := by rw [hv, setRoster_ports]
  have hport (q : Port) : (u.place p).port q = v.port q := by rw [port, hports, port]
  have hself : v.record p = some k' := by
    simp only [v, setRecord_eq, record, port_modPort_self]
  refine ⟨⟨fun q hq => ?_, ?_⟩, hr, ?_, hh, ?_⟩
  · rw [hport, ← hp.others q hq]
    simp only [v, setRecord_eq, port_modPort_ne _ _ _ hq]
  · rw [hv, setRoster_guarded]
    exact hp.guard
  · rw [record, hport]
    exact hself
  · have hkey : (u.place p).keyOf p k' = v.keyOf p k := by
      simp only [keyOf, hport]
      rfl
    rw [hkey, insertHandle_congr hports, ← hl, hv, setRoster_list]
    rfl

/-- A record takes the place of another, nothing else of the port's entry changes, and it is placed. -/
theorem place_after (hr : s.record p = some r) (hh : k.handle = r.handle) (hstay : Stays (s.setRecord p (some k)) u) :
    ∃ k', k'.state = k.state ∧ Placed p r k' s (u.place p) := by
  rw [setRecord_eq] at hstay
  have hset : (s.modPort p (fun t => { t with contract := { t.contract with record := some k } })).record p = some k := by
    rw [record, port_modPort_self]
  obtain ⟨k', hk', heq⟩ := entry_some (hstay.entries p).symm hset
  obtain ⟨hhandle, hstate, -⟩ := Record.entry_eq_iff.mp heq
  have hplaced := place_placed ((AtPort.modPort s p _).trans (hstay.atPort p)) hstay.list hr hk' (hhandle.symm.trans hh)
  exact ⟨{ k' with rank := some (u.port p).rank }, hstate.symm, hplaced⟩

theorem place_keeps (hr : s.record p = some r) (hh : k.handle = r.handle) (hlive : k.live = true)
    (hstay : Stays (s.setRecord p (some k)) u) : Keeps s (u.place p) := by
  obtain ⟨k', hstate, hplaced⟩ := place_after hr hh hstay
  exact .places p r k' hplaced (Record.live_congr hstate ▸ hlive)

variable (s : State) (p : Port)

theorem recompute_keeps : Keeps s s.recompute := .worked (recompute_worked s)

theorem openPath_keeps : Keeps s (s.openPath p) := .worked (openPath_worked s p)

theorem bench_keeps : Keeps s (s.bench p) := by
  unfold bench
  split
  · exact .refl s
  · rename_i r hr
    have hplace := place_keeps (k := { r with state := .benched }) hr rfl rfl
      ((openPath_worked _ p).stays.trans (setRole_worked _ p .none).stays)
    exact .ite ((hplace.trans (.flag _ p .benched)).trans (recompute_keeps _)) (.refl s)

/-! ## Retirement -/

/-- The handle leaves the list, whether it stood there or not. -/
theorem rosterRemove_entries (h : Handle) :
    (∀ q, ((s.rosterRemove p h).port q).entry = (s.port q).entry) ∧ (s.rosterRemove p h).guarded = s.guarded ∧
      (s.rosterRemove p h).roster.list = s.roster.list.filter (fun e => e ≠ h) := by
  have hrole := (setRole_worked s p .none).stays
  unfold rosterRemove
  generalize s.setRole p .none = a at hrole
  rw [← hrole.list]
  dsimp only
  split
  · have hwork := (recompute_worked (a.setRoster (a.roster.list.filter (fun e => e ≠ h)))).stays
    have hport (q : Port) : (a.setRoster (a.roster.list.filter (fun e => e ≠ h))).port q = a.port q := by rw [port, setRoster_ports, port]
    exact ⟨fun q => (hwork.entries q).trans (hport q ▸ hrole.entries q), hwork.guard.trans ((setRoster_guarded _ _).trans hrole.guard),
      hwork.list.trans (setRoster_list _ _)⟩
  · rename_i habsent
    refine ⟨hrole.entries, hrole.guard, (List.filter_eq_self.mpr (fun e he => ?_)).symm⟩
    rw [decide_eq_true_eq]
    rintro rfl
    exact habsent (List.contains_iff_mem.mpr he)

theorem emptySlot_atPort (r : Record) (cause : Cause) : AtPort p s (s.emptySlot p r cause) := by
  simp only [emptySlot, modContract_eq, modMonitor_eq, modPort_modPort]
  exact .modPort s p _

theorem emptySlot_record (r : Record) (cause : Cause) : (s.emptySlot p r cause).record p = none := by
  simp only [emptySlot, modContract_eq, modMonitor_eq, modPort_modPort, record, port_modPort_self]

theorem countFailure_keeps : Keeps s (s.countFailure p) :=
  (Keeps.history s p _ rfl).trans (.ite ((Keeps.history _ p _ rfl).trans (.flag _ p _)) (.refl _))

theorem rebidDecision_keeps (failed : Bool) (cause : Cause) (later : Bool) : Keeps s (s.rebidDecision p failed cause later).1 := by
  have hheld : Keeps s (s.modContract p (fun c => { c with hold := true })) := .history s p _ rfl
  unfold rebidDecision
  dsimp only
  repeat' split
  all_goals first | exact .refl s | exact hheld

theorem releaseLink_keeps (r : Record) (cause : Cause) (granted : Bool) : Keeps s (s.releaseLink p r cause granted) := by
  rw [releaseLink_eq]
  exact .port s p _ rfl

theorem retireCore_keeps (cause : Cause) (granted later : Bool) : Keeps s (s.retireCore p cause granted later).1 := by
  unfold retireCore
  split
  · exact .refl s
  · rename_i r hr
    dsimp only
    refine .trans (.trans (.trans ?_ (.flag _ p .retired)) (.ite (countFailure_keeps _ p) (.refl _))) (rebidDecision_keeps _ p _ _ _)
    refine .trans ((openPath_keeps s p).trans (releaseLink_keeps _ p r cause granted)) ?_
    obtain ⟨r₁, hr₁, hlasts⟩ := s.openPath_handle p r hr
    have hhandle : r₁.handle = r.handle := (congrArg Record.handle hlasts : r₁.lasting.handle = r.lasting.handle)
    generalize hu : (s.openPath p).releaseLink p r cause granted = u
    have hur : u.record p = some r₁ := by
      rw [← hu, releaseLink_eq, record, port_modPort_self]
      exact hr₁
    obtain ⟨hentries, hguard, hlist⟩ := rosterRemove_entries u p r.handle
    refine .removes p r₁ ?_ hur (emptySlot_record _ p r cause) (hhandle ▸ hlist)
    exact AtPort.trans ⟨fun q _ => hentries q, hguard⟩ (emptySlot_atPort _ p r cause)

/-! ## Fresh bids -/

theorem createRecord_keeps (k : Record) (hr : s.record p = none) (hh : k.handle = s.nextHandle) (hlive : k.live = false)
    (ha : k.amendment = none) : Keeps s (s.createRecord p k) := by
  unfold createRecord
  rw [setRecord_eq]
  refine .creates p k ⟨fun q hq => ?_, rfl⟩ rfl hr (by rw [record, port_modPort_self]) hh hlive ha
  rw [port_modPort_ne _ _ _ hq]
  rfl

theorem requestBid_keeps (r : BidRequest) : Keeps s (s.requestBid p r) := .ite (.slot s p _) (.refl s)

theorem localBid_keeps (current : Nat) (h : s.record p = none) : Keeps s (s.localBid p current) := by
  unfold localBid
  exact .trans (createRecord_keeps s p _ h rfl rfl rfl) (.monitor _ p _)

theorem linkBid_keeps (b : Terms) (h : s.record p = none) : Keeps s (s.linkBid p b) :=
  (createRecord_keeps s p (s.newRecord b) h rfl rfl rfl).trans (.ite (retireCore_keeps _ p _ _ _) (requestBid_keeps _ p _))

theorem freshBid_keeps (b : Terms) (h : s.record p = none) : Keeps s (s.freshBid p b) :=
  .ite (localBid_keeps s p _ h) (linkBid_keeps s p b h)

theorem asking_keeps : Keeps s (s.asking p) := by
  by_cases h : s.MayBid p
  · rw [asking_bids s p h]
    split
    · exact freshBid_keeps s p _ h.2.2.1
    · exact .refl s
  · rw [asking_idle s p h]
    exact .refl s

theorem askAll_keeps : Keeps s s.askAll := .fold _ asking_keeps Port.all s

theorem retireWith_keeps (cause : Cause) (granted later : Bool) : Keeps s (s.retireWith p cause granted later) :=
  .ite ((retireCore_keeps s p cause granted later).trans (asking_keeps _ p)) (retireCore_keeps s p cause granted later)

theorem retire_keeps (cause : Cause) : Keeps s (s.retire p cause) := retireWith_keeps s p cause false false

/-! ## Amendments -/

theorem sendAmendment_keeps (b : Terms) (origin : Origin) (h : ∀ r, s.record p = some r → r.live = true) :
    Keeps s (s.sendAmendment p b origin) := by
  unfold sendAmendment
  split
  · exact .refl s
  · rename_i r hr
    refine .trans ?_ (requestBid_keeps _ p _)
    exact .revise hr rfl rfl (fun _ => ⟨rfl, rfl⟩) (fun _ => .inr (h r hr))

theorem live_of_canAmend {r : Record} (h : s.canAmend p r = true) : r.live = true := by
  simp only [canAmend, Bool.and_eq_true] at h
  exact h.1.1.1.1

theorem askAmendment_keeps (cause : AmendCause) (b : Terms) : Keeps s (s.askAmendment p cause b) := by
  unfold askAmendment
  split
  · exact .refl s
  · rename_i r hr
    split
    · rename_i hcan
      refine sendAmendment_keeps s p b .auto (fun k hk => ?_)
      exact Option.some.inj (hr.symm.trans hk) ▸ live_of_canAmend s p hcan
    · exact .record hr (by cases cause <;> rfl)

theorem sendOwed_keeps : Keeps s (s.sendOwed p) := by
  unfold sendOwed
  split
  · exact .refl s
  · rename_i r hr
    split
    · rename_i hcan
      simp only [Bool.and_eq_true] at hcan
      obtain ⟨⟨-, hcan⟩, -⟩ := hcan
      split
      · refine .ite (sendAmendment_keeps s p _ .auto (fun k hk => ?_)) (.refl s)
        exact Option.some.inj (hr.symm.trans hk) ▸ live_of_canAmend s p hcan
      · exact .refl s
    · exact .refl s

theorem checkRecord_keeps : Keeps s (s.checkRecord p) := by
  unfold checkRecord
  split
  · exact .refl s
  · rename_i r hr
    have hstale : Keeps s (s.setRecord p (some { r with stale := true })) := .record hr rfl
    refine .ite (.refl s) (.ite (.record hr rfl) (.ite ?_ hstale))
    split
    · exact hstale.trans (askAmendment_keeps _ p _ _)
    · exact hstale

theorem baseTierTest_keeps : Keeps s (s.baseTierTest p) := by
  unfold baseTierTest
  split
  · exact .refl s
  · refine .ite ?_ (.refl s)
    split
    · exact .ite (.refl s) (askAmendment_keeps s p _ _)
    · exact .refl s

theorem acceptCatalogue_keeps (l : List Tier) : Keeps s (s.acceptCatalogue p l) :=
  ((((Keeps.catalogue s p _).trans (checkRecord_keeps _ p)).trans (baseTierTest_keeps _ p)).trans (.flag _ p _)).trans (asking_keeps _ p)

theorem rejectCatalogue_keeps (e : RejectReason) : Keeps s (s.rejectCatalogue p e) :=
  ((Keeps.catalogue s p _).trans (.flag _ p _)).trans (asking_keeps _ p)

theorem takeCatalogue_keeps (l : List (BitVec 2 × RawEntry)) : Keeps s (s.takeCatalogue p l) := by
  unfold takeCatalogue
  dsimp only
  split
  · exact rejectCatalogue_keeps s p _
  · exact acceptCatalogue_keeps s p _

theorem modRecord_some {s : State} {p : Port} {r : Record} (hr : s.record p = some r) (f : Record → Record) :
    s.modRecord p f = s.setRecord p (some (f r)) := by
  have hr' : (s.port p).contract.record = some r := hr
  rw [modRecord_eq, setRecord_eq]
  exact modPort_congr s p (by rw [hr', Option.map_some])

theorem modRecord_none {s : State} {p : Port} (hr : s.record p = none) (f : Record → Record) : s.modRecord p f = s := by
  have hr' : (s.port p).contract.record = none := hr
  rw [modRecord_eq]
  refine modPort_id s p ?_
  rw [hr', Option.map_none, ← hr']

theorem refuseAmendment_keeps : Keeps s (s.refuseAmendment p) := by
  refine .trans (.trans ?_ (.flag _ p .amended)) (sendOwed_keeps _ p)
  cases hr : s.record p with
  | none => exact (modRecord_none hr _).symm ▸ .refl s
  | some r =>
    rw [modRecord_some hr]
    exact .revise hr rfl rfl (fun _ => ⟨rfl, rfl⟩) (fun h => nomatch h)

end State

end Sys2Proof.Machine
end

section
/-! PROOF. Amendments granted, renewals, settling, recalls, enforcement and partner frames as chains of the changes that the roster's list
sees. -/

namespace Sys2Proof.Machine

open Sys2Proof

namespace State

/-! ## The grant of an amendment -/

/-- An amendment's application up to the re-placing of its record (R76). -/
def amendedAt (s : State) (p : Port) (r : Record) (a : Amendment) (granted lease : Nat) : State :=
  let u := ((s.setRecord p (some (s.amendedRecord r a granted lease))).modSlot p (fun q => q.withdrawRenew r.handle)).modMonitor p
    (fun m => { m with burstArmed := true })
  (if u.path p = .closed then u.publish else u).setFlag p .amended

variable (s : State) (p : Port) {r : Record}

theorem applyAmendment_eq {a : Amendment} (hr : s.record p = some r) (ha : r.amendment = some a) (granted lease : Nat) :
    s.applyAmendment p granted lease =
      (if ((s.amendedAt p r a granted lease).rosterReplace p).arrivedAfter p a.bidTick then
        ((s.amendedAt p r a granted lease).rosterReplace p).checkRecord p
      else (s.amendedAt p r a granted lease).rosterReplace p).sendOwed p := by
  simp only [applyAmendment, hr, ha]
  rfl

theorem amendedAt_stays (a : Amendment) (granted lease : Nat) :
    Stays (s.setRecord p (some (s.amendedRecord r a granted lease))) (s.amendedAt p r a granted lease) := by
  unfold amendedAt
  refine .trans ?_ (.port _ p _ rfl)
  exact .trans (.trans (.port _ p _ rfl) (.port _ p _ rfl)) (.ite (Worked.publish _).stays (.refl _))

theorem amendedRecord_live (r : Record) (a : Amendment) (granted lease : Nat) : (s.amendedRecord r a granted lease).live = r.live := by
  rw [Record.live, Record.live, amendedRecord]
  cases r.state <;> rfl

theorem checkRecord_of_not_live {s : State} {p : Port} (hr : s.record p = some r) (hlive : r.live = false) : s.checkRecord p = s := by
  simp only [checkRecord, hr, hlive, Bool.not_false, if_true]

theorem sendOwed_of_not_live {s : State} {p : Port} (hr : s.record p = some r) (hlive : r.live = false) : s.sendOwed p = s := by
  simp only [sendOwed, hr, canAmend, hlive, Bool.false_and, Bool.and_false, Bool.false_eq_true, if_false]

theorem rosterReplace_stays : Stays (s.place p) (s.rosterReplace p) := (recompute_worked _).stays

theorem applyAmendment_does (granted lease : Nat) : Does s (s.applyAmendment p granted lease) := by
  cases hr : s.record p with
  | none =>
    simp only [applyAmendment, hr]
    exact (Keeps.refl s).does
  | some r =>
  cases ha : r.amendment with
  | none =>
    simp only [applyAmendment, hr, ha]
    exact (Keeps.refl s).does
  | some a =>
  rw [applyAmendment_eq s p hr ha]
  obtain ⟨k, hstate, hplaced⟩ := place_after hr (by rfl) (amendedAt_stays s p a granted lease)
  generalize s.amendedAt p r a granted lease = u at hplaced
  have hklive : k.live = r.live := (Record.live_congr hstate).trans (amendedRecord_live s r a granted lease)
  have hstay := rosterReplace_stays u p
  cases hlive : r.live with
  | true =>
    refine Keeps.does (.trans (.trans ?_ (.ite (checkRecord_keeps _ p) (.refl _))) (sendOwed_keeps _ p))
    exact (Keeps.places p r k hplaced (hklive.trans hlive)).trans (.still hstay)
  | false =>
    obtain ⟨k', hk', hentry⟩ := entry_some (hstay.entries p).symm hplaced.after
    have hlive' : k'.live = false := by
      rw [← Record.live_congr (Record.entry_eq_iff.mp hentry).2.1, hklive, hlive]
    rw [checkRecord_of_not_live hk' hlive', ite_self, sendOwed_of_not_live hk' hlive']
    exact .inr ⟨p, r, k, s, u.place p, .refl s, hplaced, hlive, by rw [ha]; rfl, hstay⟩

/-- Over a live record an amendment is applied by changes that keep the invariants. -/
theorem applyAmendment_keeps (granted lease : Nat) (h : ∀ r, s.record p = some r → r.live = true) :
    Keeps s (s.applyAmendment p granted lease) := by
  cases hr : s.record p with
  | none =>
    simp only [applyAmendment, hr]
    exact .refl s
  | some r =>
  cases ha : r.amendment with
  | none =>
    simp only [applyAmendment, hr, ha]
    exact .refl s
  | some a =>
  rw [applyAmendment_eq s p hr ha]
  refine .trans (.trans (.trans ?_ (.still (rosterReplace_stays _ p))) (.ite (checkRecord_keeps _ p) (.refl _))) (sendOwed_keeps _ p)
  exact place_keeps hr (by rfl) ((amendedRecord_live s r a granted lease).trans (h r hr)) (amendedAt_stays s p a granted lease)

theorem testTransition_keeps : Keeps s (s.testTransition p) := by
  unfold testTransition
  split
  · exact .refl s
  · rename_i r hr
    split
    · exact .refl s
    · split
      · exact .refl s
      · split
        · rename_i hlive
          simp only [Bool.and_eq_true] at hlive
          obtain ⟨⟨hlive, -⟩, -⟩ := hlive
          exact applyAmendment_keeps s p _ _ (fun k hk => Option.some.inj (hr.symm.trans hk) ▸ hlive)
        · exact .refl s

theorem grantAmendment_does (r : Record) (a : Amendment) (tier : BitVec 3) (v c l : Nat) (hr : s.record p = some r)
    (ha : r.amendment = some a) : Does s (s.grantAmendment p r a tier v c l) := by
  unfold grantAmendment
  dsimp only
  split
  · split
    · exact applyAmendment_does s p _ _
    · refine Keeps.does (.record hr ?_)
      simp only [Record.entry, Record.grantedPower, ha, Option.isSome_some]
  · exact (refuseAmendment_keeps s p).does

/-! ## Renewals -/

theorem renewNoReply_keeps : Keeps s (s.renewNoReply p) := by
  unfold renewNoReply
  split
  · exact .refl s
  · rename_i r hr
    split
    · refine .ite (.trans ?_ (sendOwed_keeps _ p)) (sendOwed_keeps s p)
      exact (Keeps.record hr (by rfl)).trans (.ite (.flag _ p _) (.refl _))
    · exact sendOwed_keeps s p

theorem requestRenew_keeps (r : RenewRequest) : Keeps s (s.requestRenew p r) := .ite (.slot s p _) (.refl s)

theorem askRenew_keeps (r : Record) (n : Nat) (hr : s.record p = some r) : Keeps s (s.askRenew p r n) :=
  (Keeps.record (k := { r with renewal := some { state := .inFlight, attempts := n } }) hr rfl).trans
    (.ite (renewNoReply_keeps _ p) (requestRenew_keeps _ p _))

theorem renewalTest_keeps : Keeps s (s.renewalTest p) := by
  unfold renewalTest
  split
  · exact .refl s
  · rename_i r hr
    exact .ite (askRenew_keeps s p r 1 hr) (.refl s)

theorem takeRenewed_keeps (lease : Nat) : Keeps s (s.takeRenewed p lease) := by
  unfold takeRenewed
  split
  · exact .refl s
  · rename_i r hr
    refine .ite ?_ ?_
    · unfold refuseRenewal
      simp only [hr]
      exact ((Keeps.record hr (by rfl)).trans (.ite (.flag _ p _) (.refl _))).trans (sendOwed_keeps _ p)
    · unfold extendLease
      refine .trans (.trans (.trans ?_ (.monitor _ p _)) (.flag _ p _)) (sendOwed_keeps _ p)
      exact .modRecord s p _ (fun _ => by rfl)

/-! ## Settling -/

theorem enterInForce_keeps : Keeps s (s.enterInForce p) := by
  unfold enterInForce
  split
  · exact .refl s
  · rename_i r hr
    dsimp only
    refine .trans (.trans (.trans (.trans (.trans ?_ (recompute_keeps _)) (.ite (checkRecord_keeps _ p) (.refl _)))
      (baseTierTest_keeps _ p)) (.flag _ p _)) (renewalTest_keeps _ p)
    exact place_keeps (k := { r with state := .inForce }) hr rfl rfl (.port _ p _ rfl)

theorem settlingTest_keeps : Keeps s (s.settlingTest p) := by
  unfold settlingTest
  split
  · exact .refl s
  · exact .ite (enterInForce_keeps s p) (.refl s)

theorem settleTransition_keeps (r : Record) (hr : s.record p = some r) : Keeps s (s.settleTransition p r) := by
  unfold settleTransition
  split
  · exact .refl s
  · rename_i a ha
    split
    · exact .refl s
    · refine .ite (.refl s) (.trans (.record hr ?_) (testTransition_keeps _ p))
      simp only [Record.entry, Record.grantedPower, ha, Option.isSome_some]

theorem takeSettled_keeps : Keeps s (s.takeSettled p) := by
  unfold takeSettled
  split
  · exact .refl s
  · rename_i r hr
    split
    · exact .refl s
    · exact .ite (.refl s) ((Keeps.record hr (by rfl)).trans (settlingTest_keeps _ p))
    · exact settleTransition_keeps s p r hr
    · exact settleTransition_keeps s p r hr

/-! ## Recalls -/

theorem yieldTest_keeps : Keeps s (s.yieldTest p) := by
  have hmeet : Keeps s (s.meetRecall p) := .worked (meetRecall_worked s p)
  unfold yieldTest
  split
  · exact .refl s
  · split
    · exact .refl s
    · exact .ite hmeet (.refl s)

theorem takeRecall_keeps (ceiling deadline : Nat) (tag : Tag) : Keeps s (s.takeRecall p ceiling deadline tag) := by
  unfold takeRecall
  split
  · exact .refl s
  · rename_i r hr
    refine .ite (.record hr (by rfl)) (.ite ?_ ?_)
    · unfold setRecall
      refine .trans (.trans (.trans (.slot s p (fun q => q.withdrawYield r.handle)) ?_) (.flag _ p _)) (yieldTest_keeps _ p)
      exact reviseRecord_keeps _ p _ (fun _ => by rfl)
    · unfold liftRecall
      split
      · exact .refl s
      · exact .trans (reviseRecord_keeps s p _ (fun _ => by rfl)) (.flag _ p _)

theorem applyInitialRecall_keeps : Keeps s (s.applyInitialRecall p) := by
  unfold applyInitialRecall
  split
  · exact .refl s
  · rename_i r hr
    split
    · exact .refl s
    · refine .ite ?_ (.record hr (by rfl))
      exact ((Keeps.record hr (by rfl)).trans (.flag _ p _)).trans (yieldTest_keeps _ p)

theorem recallOverdue_keeps (r : Record) (c : Recall) (hr : s.record p = some r) : Keeps s (s.recallOverdue p r c) :=
  ((Keeps.record hr (by rfl)).trans (bench_keeps _ p)).trans (.worked (requestYield_worked _ p _))

/-! ## Enforcement -/

theorem restartRecovery_keeps : Keeps s (s.restartRecovery p) := .monitor s p _

theorem raiseTrim_keeps (n : Nat) : Keeps s (s.raiseTrim p n) := reviseRecord_keeps s p _ (fun _ => by rfl)

theorem troubleTrim_keeps (n : Nat) : Keeps s (s.troubleTrim p n) := by
  unfold troubleTrim
  split
  · exact .refl s
  · exact .trans (.trans (.monitor s p _) (raiseTrim_keeps _ p n)) (restartRecovery_keeps _ p)

theorem strainTrim_keeps : Keeps s (s.strainTrim p) := .ite (troubleTrim_keeps s p 4) (.refl s)

theorem overdrawSample_keeps : Keeps s (s.overdrawSample p) := by
  unfold overdrawSample
  split
  · exact .refl s
  · exact .ite (.monitor s p _) (.refl s)

theorem endOverdrawWindow_keeps (w : OverdrawWindow) : Keeps s (s.endOverdrawWindow p w) := by
  unfold endOverdrawWindow
  refine .trans (.monitor s p (fun m => { m with window := none })) ?_
  dsimp only
  split
  · exact .refl _
  · refine .ite (.refl _) (.ite ?_ ?_)
    · exact .trans (.trans (raiseTrim_keeps _ p 2) (.flag _ p _)) (restartRecovery_keeps _ p)
    · exact .trans (.flag _ p _) (bench_keeps _ p)

theorem recover_keeps : Keeps s (s.recover p) :=
  .trans (reviseRecord_keeps s p _ (fun _ => by rfl)) (restartRecovery_keeps _ p)

theorem watchSample_keeps : Keeps s (s.watchSample p) := .ite (.watch s p _) (.refl s)

theorem tidyWatch_keeps : Keeps s (s.tidyWatch p) := .worked (tidyWatch_worked s p)

theorem setPassEnable_keeps (b : Bool) : Keeps s (s.setPassEnable b) :=
  .ite (.refl s) (.trans (.part rfl rfl rfl) (.worked (.publish _)))

theorem supplyLoss_keeps (cause : Cause) : Keeps s (s.supplyLoss p cause) := by
  unfold supplyLoss
  split
  · exact .refl s
  · rename_i r hr
    have hwatch : Keeps s (s.modWatch p (fun w => { w with repeatAt := some (s.dropoutThreshold r.low) })) := .watch s p _
    have hretire := (hwatch.trans (openPath_keeps _ p)).trans (retire_keeps _ p cause)
    exact (hretire.trans (.flag _ p .loss)).trans (.ite (setPassEnable_keeps _ _) (.refl _))

theorem judgeDroop_keeps (w : WatchWindow) : Keeps s (s.judgeDroop p w) := .ite (troubleTrim_keeps s p 1) (.refl s)

theorem judgeRepeat_keeps (w : WatchWindow) : Keeps s (s.judgeRepeat p w) :=
  .ite (.ite (.flag s p _) (.trans (.watch s p _) (tidyWatch_keeps _ p))) (.refl s)

theorem endWatchWindow_keeps (w : WatchWindow) : Keeps s (s.endWatchWindow p w) :=
  .trans (.trans (.watch s p _) (judgeDroop_keeps _ p w))
    (.ite (supplyLoss_keeps _ p _) (.trans (judgeRepeat_keeps _ p w) (.ite (.flag _ p _) (.refl _))))

theorem takeFault_keeps : Keeps s (s.takeFault p) := .ite (supplyLoss_keeps s p _) (retire_keeps s p _)

/-! ## Outcomes of exchanges -/

theorem declineFresh_keeps (later : Bool) : Keeps s (s.declineFresh p later) :=
  .trans (.flag s p _) (retireWith_keeps _ p _ _ _)

theorem acceptFresh_keeps (r : Record) (current lease : Nat) (hr : s.record p = some r) (hb : r.state = .bidding) :
    Keeps s (s.acceptFresh p r current lease) := by
  have hlive : r.live = false := by rw [Record.live, hb]
  refine .trans (.trans ?_ (.monitor _ p _)) (applyInitialRecall_keeps _ p)
  refine .revise hr rfl (by rw [hlive]; rfl) (fun h => ?_) .inl
  rw [hlive] at h
  cases h

theorem takeGrant_does (tier : BitVec 3) (v c l : Nat) : Does s (s.takeGrant p tier v c l) := by
  unfold takeGrant
  split
  · exact (Keeps.refl s).does
  · rename_i r hr
    split
    · exact (retireWith_keeps s p _ _ _).does
    · split
      · rename_i hb
        exact (Keeps.ite (declineFresh_keeps s p _) (.ite (declineFresh_keeps s p _) (acceptFresh_keeps s p r c l hr hb))).does
      · split
        · rename_i a ha
          exact grantAmendment_does s p r a tier v c l hr (Option.filter_eq_some_iff.mp ha).1
        · exact (Keeps.refl s).does

theorem takeDecline_keeps (later : Bool) : Keeps s (s.takeDecline p later) := by
  unfold takeDecline
  split
  · exact .refl s
  · exact .ite (retireWith_keeps s p _ _ _) (.ite (declineFresh_keeps s p _) (.ite (refuseAmendment_keeps s p) (.refl s)))

theorem bidNoReply_keeps : Keeps s (s.bidNoReply p) := by
  unfold bidNoReply
  split
  · exact .refl s
  · exact .ite (retireWith_keeps s p _ _ _) (.ite (retire_keeps s p _) (.ite (refuseAmendment_keeps s p) (.refl s)))

theorem exchangeNoReply_keeps : Keeps s (s.exchangeNoReply p) := by
  unfold exchangeNoReply
  split
  · exact .refl s
  · split
    · exact .link s p _
    · exact .trans (.link s p _) (bidNoReply_keeps _ p)
    · exact .trans (.link s p _) (renewNoReply_keeps _ p)

theorem sendFailed_keeps : Keeps s (s.sendFailed p) := by
  unfold sendFailed
  split
  · exact .refl s
  · exact .ite (exchangeNoReply_keeps s p) (.link s p _)

theorem enterResync_keeps : Keeps s (s.enterResync p) := .trans (.link s p _) (sendFailed_keeps _ p)

theorem answerWaiting_keeps : Keeps s (s.answerWaiting p) :=
  .trans (.trans (.slot s p _) (.ite (renewNoReply_keeps _ p) (.refl _))) (.ite (bidNoReply_keeps _ p) (.refl _))

theorem enterMute_keeps : Keeps s (s.enterMute p) :=
  .trans (.trans (.trans (.trans (.trans (.link s p _) (exchangeNoReply_keeps _ p)) (answerWaiting_keeps _ p)) (.link _ p _))
    (.flag _ p _)) (asking_keeps _ p)

/-! ## Frames -/

theorem staleReply_keeps (tag : Tag) (k : Option AbandonedKind) : Keeps s (s.staleReply p tag k) := by
  unfold staleReply
  split
  · exact .ite (.link s p _) (.refl s)
  · exact .refl s

theorem onGrant_does (tag : Tag) (tier : BitVec 3) (v c l : Nat) : Does s (s.onGrant p tag tier v c l) := by
  unfold onGrant
  split
  · exact (Keeps.link s p _).trans_does (takeGrant_does _ p tier v c l)
  · exact (staleReply_keeps s p tag _).does

theorem onDecline_keeps (tag : Tag) (reason : BitVec 2) : Keeps s (s.onDecline p tag reason) :=
  .ite (.trans (.link s p _) (takeDecline_keeps _ p _)) (staleReply_keeps s p tag _)

theorem onRenewed_keeps (tag : Tag) (lease : Nat) : Keeps s (s.onRenewed p tag lease) :=
  .ite (.trans (.link s p _) (takeRenewed_keeps _ p lease)) (staleReply_keeps s p tag _)

theorem completeAssembly_keeps (tag : Tag) (l : List (BitVec 2 × RawEntry)) : Keeps s (s.completeAssembly p tag l) :=
  .trans (.ite (.link s p _) (.refl s)) (takeCatalogue_keeps _ p l)

theorem onTiersPart_keeps (tag : Tag) (scale : BitVec 2) (total index : Nat) (last : Bool) (es : List RawEntry) :
    Keeps s (s.onTiersPart p tag scale total index last es) := by
  unfold onTiersPart
  split
  · exact .link s p _
  · refine .trans (.link s p _) (.ite (.trans (.link _ p _) (.ite (completeAssembly_keeps _ p tag _) (.refl _))) (.link _ p _))

theorem handleBody_does (tag : Tag) (body : PartnerBody) : Does s (handleBody p tag body s) :=
  match body with
  | .tiers .. => (onTiersPart_keeps s p tag _ _ _ _ _).does
  | .grant .. => onGrant_does s p tag _ _ _ _
  | .decline _ => (onDecline_keeps s p tag _).does
  | .settled => (takeSettled_keeps s p).does
  | .renewed _ => (onRenewed_keeps s p tag _).does
  | .recall .. => (takeRecall_keeps s p _ _ tag).does
  | .fault _ => (takeFault_keeps s p).does

theorem endReception_keeps : Keeps s (s.endReception p) := .link s p _

theorem receive_does (f : PartnerFrame) : Does s (s.receive p f) := by
  unfold receive takeFrame
  dsimp only
  split
  · refine ((endReception_keeps s p).trans ?_).trans_does (handleBody_does _ p f.tag f.body)
    exact .ite (strainTrim_keeps _ p) (.refl _)
  · exact (endReception_keeps s p).does

end State

end Sys2Proof.Machine
end

section
/-! PROOF. Samples, deadlines and the command port as chains of the changes that the roster's list sees, and the invariants of the roster, the
handles, the amendments and the lock through every step. -/

namespace Sys2Proof.Machine

open Sys2Proof

namespace State

variable (s : State) (p : Port)

/-! ## Samples and completions -/

theorem coldAuto_keeps : Keeps s (s.coldAuto p) := by
  unfold coldAuto
  split
  · dsimp only
    refine .trans (.trans (.trans (.front s p _) (.history _ p _ ?_)) (.link _ p _)) (recompute_keeps _)
    rfl
  · exact .refl s

theorem coldTake_keeps : Keeps s (s.coldTake p) := by
  unfold coldTake
  split
  · dsimp only
    refine .trans (.part (t := { s with cold := .coldSupply, coldPort := some p }) rfl rfl rfl) ?_
    refine .trans (coldAuto_keeps _ p) ?_
    split
    · rename_i h
      exact localBid_keeps _ p _ (Option.isNone_iff_eq_none.mp h)
    · exact .refl _
  · exact .refl s

theorem enterOpening_keeps : Keeps s (s.enterOpening p) := .link s p _

theorem attachPort_keeps : Keeps s (s.attachPort p) := by
  have hpresent : Keeps s (s.modFront p (fun f => { f with attach := .present, debounce := 0 })) := .front s p _
  have hbase := (hpresent.trans (.flag _ p .attach)).trans (.catalogue _ p (fun c => { c with base := true }))
  exact (hbase.trans (.ite (.refl _) (enterOpening_keeps _ p))).trans (coldTake_keeps _ p)

theorem attachIfDue_keeps : Keeps s (s.attachIfDue p) := .ite (attachPort_keeps s p) (.refl s)

theorem coldLost_keeps : Keeps s (s.coldLost p) := .ite (.part rfl rfl rfl) (.refl s)

theorem detachPort_keeps : Keeps s (s.detachPort p) := by
  unfold detachPort
  dsimp only
  refine .trans (.trans (.trans (.trans (.trans (.trans (.trans (.trans (.front s p _) (.link _ p _)) (retire_keeps _ p _))
    (.catalogue _ p _)) (.history _ p _ ?_)) (.flag _ p _)) (.watch _ p _)) (tidyWatch_keeps _ p)) (coldLost_keeps _ p)
  rfl

theorem detachIfDue_keeps : Keeps s (s.detachIfDue p) := .ite (detachPort_keeps s p) (.refl s)

theorem reportPath_keeps (b : Bool) : Keeps s (s.reportPath p b) := .trans (.part rfl rfl rfl) (.worked (.publish _))

theorem closePath_keeps : Keeps s (s.closePath p) := by
  unfold closePath
  refine .trans ?_ (reportPath_keeps _ p true)
  exact .trans (.trans (.front s p _) (.monitor _ p _)) (.watch _ p _)

theorem closeIfDue_keeps : Keeps s (s.closeIfDue p) := by
  unfold closeIfDue
  split
  · refine .ite (.ite ?_ (.front s p _)) (.refl s)
    exact .trans (.trans (closePath_keeps s p) (.role _ p _)) (recompute_keeps _)
  · exact .refl s

theorem overdrawEndIfDue_keeps : Keeps s (s.overdrawEndIfDue p) := by
  unfold overdrawEndIfDue
  split
  · exact .ite (endOverdrawWindow_keeps s p _) (.refl s)
  · exact .refl s

theorem watchEndIfDue_keeps : Keeps s (s.watchEndIfDue p) := by
  unfold watchEndIfDue
  split
  · exact .ite (endWatchWindow_keeps s p _) (.refl s)
  · exact .refl s

theorem settlePort_keeps : Keeps s (s.settlePort p) :=
  .trans (.trans (.trans (.trans (overdrawEndIfDue_keeps s p) (watchEndIfDue_keeps _ p)) (closeIfDue_keeps _ p)) (detachIfDue_keeps _ p))
    (attachIfDue_keeps _ p)

theorem clock_keeps (n : Instant) (b : Bool) : Keeps s { s with time := n, sampleTaken := b } := .part rfl rfl rfl

theorem beginTick_keeps : Keeps s s.beginTick := by
  have hsettle : Keeps s (Port.all.foldl settlePort s) := .fold _ settlePort_keeps Port.all s
  unfold beginTick
  exact hsettle.trans (clock_keeps _ _ _)

theorem storeReading_keeps (r : PerPort Reading) : Keeps s (storeReading r s p) := .front s p _

theorem debounceSample_keeps : Keeps s (s.debounceSample p) := .front s p _

theorem closeSample_keeps : Keeps s (s.closeSample p) := by
  unfold closeSample
  split
  · exact .front s p _
  · exact .refl s

theorem contractSample_keeps : Keeps s (s.contractSample p) :=
  .trans (.trans (settlingTest_keeps s p) (yieldTest_keeps _ p)) (testTransition_keeps _ p)

theorem takeSamples_keeps (r : PerPort Reading) : Keeps s (s.takeSamples r) := by
  have hstore : Keeps s (Port.all.foldl (storeReading r) s) := .fold _ (fun s p => storeReading_keeps s p r) _ s
  have hclose := (hstore.trans (.fold _ debounceSample_keeps Port.all _)).trans (.fold _ closeSample_keeps Port.all _)
  have hwatch := (hclose.trans (.fold _ overdrawSample_keeps Port.all _)).trans (.fold _ watchSample_keeps Port.all _)
  exact (hwatch.trans (.fold _ contractSample_keeps Port.all _)).trans (clock_keeps _ _ true)

/-! ## Deadlines and the wire -/

theorem failClose_keeps : Keeps s (s.failClose p) := by
  unfold failClose
  dsimp only
  have hopen : Keeps s (s.modFront p (fun f => { f with path := .opened, closeOp := none })) := .front s p _
  refine (hopen.trans (.role _ p .none)).trans ?_
  split
  · exact .ite (bench_keeps _ p) (recompute_keeps _)
  · exact recompute_keeps _

theorem nextAttempt_keeps : Keeps s (s.nextAttempt p) := by
  unfold nextAttempt
  split
  · exact .refl s
  · rename_i r hr
    split
    · exact .refl s
    · split
      · exact .ite (askRenew_keeps s p r _ hr) (.refl s)
      · exact .refl s
      · exact .refl s

theorem endHoldoff_keeps : Keeps s (s.endHoldoff p) := .trans (.history s p _ rfl) (asking_keeps _ p)

theorem recallDeadline_keeps : Keeps s (s.recallDeadline p) := by
  unfold recallDeadline
  split
  · exact .refl s
  · rename_i r hr
    split
    · exact .refl s
    · exact .ite (recallOverdue_keeps s p r _ hr) (.refl s)

theorem startWaiting_keeps : Keeps s (s.startWaiting p) := by
  have hlink (f : Link → Link) : Keeps s (s.modLink p f) := .link s p f
  unfold startWaiting
  dsimp only
  repeat' split
  all_goals first | exact .refl s | exact hlink _

theorem setPhase_keeps (r : Resync) : Keeps s (s.setPhase p r) := .link s p _

theorem breakEnd_keeps : Keeps s (s.breakEnd p) := by
  unfold breakEnd
  split
  · exact .ite (setPhase_keeps s p _) (.refl s)
  · exact .refl s

theorem idleFound_keeps : Keeps s (s.idleFound p) := by
  unfold idleFound
  split
  · exact .ite (.link s p _) (.refl s)
  · exact .refl s

theorem idleWaitExpiry_keeps : Keeps s (s.idleWaitExpiry p) := by
  unfold idleWaitExpiry
  split
  · exact .ite (.ite (enterMute_keeps s p) (setPhase_keeps s p _)) (.refl s)
  · exact .refl s

/-! ## The command port -/

theorem openLink_keeps : Keeps s (s.openLink p) := .ite (enterOpening_keeps s p) (.refl s)

theorem reopenMute_keeps : Keeps s (s.reopenMute p) :=
  .ite (.trans (enterOpening_keeps s p) (.ite (sendOwed_keeps _ p) (.refl _))) (.refl s)

theorem adoptClose_keeps : Keeps s (s.adoptClose p) := .ite (.trans (.front s p _) (.role _ p .incoming)) (.refl s)

theorem setModeOf_keeps (m : Mode) : Keeps s (s.modFront p (fun f => { f with mode := m })) := .front s p _

theorem toSense_keeps : Keeps s (s.toSense p) :=
  .trans (.trans (.trans (.trans (.trans (retire_keeps s p .mode) (openPath_keeps _ p)) (setModeOf_keeps _ p .sense)) (.role _ p .none))
    (.link _ p _)) (recompute_keeps _)

theorem toAuto_keeps : Keeps s (s.toAuto p) := by
  have hfront (u : State) : Keeps u (u.modFront p (fun f => { f with mode := .auto })) := setModeOf_keeps u p .auto
  unfold toAuto
  dsimp only
  refine .trans (.trans (.history s p (fun c => { c with hold := false }) rfl) ?_) (asking_keeps _ p)
  split
  · exact .trans (.trans (hfront _) (openLink_keeps _ p)) (recompute_keeps _)
  · exact .trans (.trans (hfront _) (adoptClose_keeps _ p)) (recompute_keeps _)
  · exact reopenMute_keeps _ p

theorem toDirect_keeps : Keeps s (s.toDirect p) := by
  have hfront (u : State) : Keeps u (u.modFront p (fun f => { f with mode := .direct })) := setModeOf_keeps u p .direct
  unfold toDirect
  split
  · exact .trans (.trans (hfront _) (openLink_keeps _ p)) (recompute_keeps _)
  · dsimp only
    exact .trans (.trans (.trans (.ite (openPath_keeps s p) (.refl s)) (hfront _)) (.role _ p .none)) (recompute_keeps _)
  · exact reopenMute_keeps _ p

theorem done_keeps {s t : State} (h : Keeps s t) : Keeps s (Answer.done t).1 := h

theorem setMode_keeps (a b : Byte) : Keeps s (s.setMode a b).1 := by
  unfold setMode
  split
  · rename_i p _ _
    split
    · exact .refl s
    · exact done_keeps (toSense_keeps s p)
  · exact done_keeps (toAuto_keeps s _)
  · exact done_keeps (toDirect_keeps s _)
  · exact .refl s

theorem hostClose_keeps : Keeps s (s.hostClose p) := by
  unfold hostClose
  split
  · split
    · rename_i t h
      exact .trans (.worked (requestClose_worked s p _ t h)) (recompute_keeps _)
    · exact .refl s
  · exact .refl s

theorem storeRequest_keeps (r : PathRequest) : Keeps s (s.storeRequest p r) := .front s p _

theorem setPath_keeps (a b : Byte) : Keeps s (s.setPath a b).1 := by
  unfold setPath
  split
  · rename_i p r _ _
    split
    · exact done_keeps (storeRequest_keeps s p r)
    · split
      · exact done_keeps (.trans (storeRequest_keeps s p .opened) (.worked (openRequest_worked _ p)))
      · split
        · exact .refl s
        · split
          · exact .refl s
          · exact done_keeps (.trans (storeRequest_keeps s p .closed) (hostClose_keeps _ p))
  · exact .refl s

theorem bid_keeps (a b : Byte) (v c l : Word) : Keeps s (s.bid a b v c l).1 := by
  unfold bid
  split
  · exact .refl s
  · rename_i p _
    split
    · exact .refl s
    · split
      · exact .refl s
      · rename_i h
        have hnone : s.record p = none := by
          simp only [not_or, Bool.not_eq_true, Option.isSome_eq_false_iff, Option.isNone_iff_eq_none] at h
          exact h.2
        split
        · exact .refl s
        · split
          · exact .refl s
          · dsimp only
            refine .trans (.ite (.history s p (fun c => { c with hold := false }) rfl) (.refl s)) (freshBid_keeps _ p _ ?_)
            split
            · rw [modContract_eq, record, port_modPort_self]
              exact hnone
            · exact hnone

theorem amend_keeps (a b : Byte) (v c l : Word) : Keeps s (s.amend a b v c l).1 := by
  unfold amend
  split
  · exact .refl s
  · rename_i p _
    split
    · exact .refl s
    · split
      · exact .refl s
      · rename_i r hr
        split
        · exact .refl s
        · rename_i hlive
          split
          · exact .refl s
          · split
            · exact .refl s
            · split
              · refine done_keeps (sendAmendment_keeps s p _ _ (fun k hk => ?_))
                rw [Bool.not_eq_false] at hlive
                exact Option.some.inj (hr.symm.trans hk) ▸ hlive
              · exact .refl s

theorem retireCommand_keeps (a : Byte) : Keeps s (s.retireCommand a).1 := by
  unfold retireCommand
  split
  · exact .refl s
  · rename_i p _
    split
    · exact .refl s
    · rename_i r hr
      have hmark : Keeps s (s.setRecord p (some { r with withdraw := true })) := .record hr rfl
      exact Keeps.ite (.refl s) (.ite hmark (retire_keeps s p .hostRetire))

/-- The rank of a port is written; a live record is unbenched and re-placed by it. -/
theorem writeRank_keeps (n : Nat) : Keeps s (s.writeRank p n) := by
  have hrank : AtPort p s (s.modPort p (fun t => { t with rank := n })) := .modPort s p _
  have hrecord : (s.modPort p (fun t => { t with rank := n })).record p = s.record p := by rw [record, port_modPort_self, record]
  have hlist : (s.modPort p (fun t => { t with rank := n })).roster.list = s.roster.list := rfl
  unfold writeRank
  generalize s.modPort p (fun t => { t with rank := n }) = u at *
  dsimp only
  rw [hrecord]
  split
  · rename_i r hr
    split
    · rename_i hlive
      have hunbench : u.unbench p = u.setRecord p (some (if r.state = .benched then { r with state := .inForce } else r)) :=
        modRecord_some (hrecord.trans hr) _
      have hkeep (k : Record) (hh : k.handle = r.handle) (hk : k.live = true) : Keeps s ((u.setRecord p (some k)).rosterReplace p) := by
        have hset : AtPort p u (u.setRecord p (some k)) := setRecord_eq u p _ ▸ .modPort u p _
        have hplaced := place_placed (hrank.trans hset) hlist hr (by rw [setRecord_eq, record, port_modPort_self]) hh
        exact (Keeps.places p r _ hplaced hk).trans (.still (rosterReplace_stays _ p))
      rw [hunbench]
      split
      · exact hkeep _ rfl rfl
      · exact hkeep _ rfl hlive
    · rename_i hlive
      exact .revises p r r hrank hlist hr (hrecord.trans hr) rfl rfl (fun h => absurd h hlive) .inl
  · rename_i hr
    exact .ranks p hrank hlist hr (hrecord.trans hr)

theorem lockedWatch_of_open {t : State} (h : t.lock = false) : t.LockedWatch := fun hl => by simp [h] at hl

/-- A parameter other than the dropout percentage under the lock. -/
theorem writePolicy_keeps (n : Parameter) (w : Word) (h : n = .dropout → s.lock = false) : Keeps s (s.writePolicy p n w) := by
  have hp (P : Policy) (hd : P.dropout = s.policy.dropout) : Keeps s { s with policy := P } := .part rfl rfl (by simp only [guarded, hd])
  cases n with
  | vinLow => exact .ite (hp _ (by rfl)) ((hp _ (by rfl)).trans (.trans (recompute_keeps _) (askAll_keeps _)))
  | vinHigh => exact .ite (hp _ (by rfl)) ((hp _ (by rfl)).trans (.trans (recompute_keeps _) (askAll_keeps _)))
  | currentMax => exact .ite (hp _ (by rfl)) ((hp _ (by rfl)).trans (askAll_keeps _))
  | leaseWant => exact hp _ (by rfl)
  | renewLead => exact .ite ((hp _ (by rfl)).trans (.fold _ renewalTest_keeps _ _)) (hp _ (by rfl))
  | settleTime => exact hp _ (by rfl)
  | overdrawMargin => exact hp _ (by rfl)
  | overdrawWindow => exact hp _ (by rfl)
  | derate => exact .ite (hp _ (by rfl)) ((hp _ (by rfl)).trans (.worked (.publish _)))
  | combine => exact .ite (hp _ (by rfl)) ((hp _ (by rfl)).trans (recompute_keeps _))
  | dropout => exact .unlocked (fun _ => rfl) rfl rfl (h rfl) (lockedWatch_of_open (h rfl))
  | rebidCauses => exact .history s p (fun c => { c with rebidCauses := w &&& causeBits }) rfl
  | rank => exact writeRank_keeps s p _

theorem setPolicy_keeps (a b : Byte) (w : Word) : Keeps s (s.setPolicy a b w).1 := by
  unfold setPolicy
  split
  · exact .refl s
  · rename_i n _
    split
    · exact .refl s
    · split
      · exact .refl s
      · rename_i hopen
        split
        · exact .refl s
        · split
          · exact .refl s
          · refine done_keeps (writePolicy_keeps s _ n w (fun hn => ?_))
            simpa [hn] using hopen

theorem setTrim_keeps (a b c : Byte) : Keeps s (s.setTrim a b c).1 := by
  unfold setTrim
  split
  · rename_i p m _ _
    split
    · exact .refl s
    · cases m with
      | auto => exact .trans (.monitor s p _) (.ite (restartRecovery_keeps _ p) (.refl _))
      | manual =>
        show Keeps s (s.trimManual p c.toNat)
        exact .trans (.monitor s p _) (reviseRecord_keeps _ p _ (fun _ => by rfl))
  · exact .refl s

theorem watchOff_keeps : Keeps s (s.watchOff p) := .trans (.watch s p _) (tidyWatch_keeps _ p)

theorem lockTest_keeps : Keeps s s.lockTest := by
  unfold lockTest
  split
  · rename_i hall
    simp only [Bool.and_eq_true] at hall
    obtain ⟨⟨hwatch, hroute⟩, -⟩ := hall
    cases hlock : s.lock with
    | true => exact .part rfl rfl (by simp only [guarded, hlock])
    | false => exact .unlocked (fun _ => rfl) rfl rfl hlock (fun _ => ⟨hwatch, hroute⟩)
  · exact .refl s

theorem setWatch_keeps (a b : Byte) : Keeps s (s.setWatch a b).1 := by
  unfold setWatch
  split
  · exact .refl s
  · rename_i hlock
    rw [Bool.not_eq_true] at hlock
    split
    · rename_i e r _ _
      refine .trans (.trans (.unlocked (t := { s with watchEnable := e, alertRoute := r }) (fun _ => rfl) rfl rfl hlock
        (lockedWatch_of_open hlock)) ?_) (lockTest_keeps _)
      exact .ite (.refl _) (.fold _ watchOff_keeps _ _)
    · exact .refl s

theorem forceLoss_keeps (a b : Byte) : Keeps s (s.forceLoss a b).1 := by
  unfold forceLoss
  split
  · exact .trans (.watch s _ _) (tidyWatch_keeps _ _)
  · exact .refl s

theorem setAttention_keeps (a : Byte) : Keeps s (s.setAttention a).1 := by
  unfold setAttention
  split
  · exact .refl s
  · exact .trans (.part (t := { s with enables := a.setWidth 5 }) rfl rfl rfl) (lockTest_keeps _)

theorem softResetPort_keeps : Keeps s (s.softResetPort p) := .trans (.port s p _ rfl) (tidyWatch_keeps _ p)

theorem softReset_keeps : Keeps s s.softReset := by
  have hclear : Keeps s { s with deviceFlags := 0, enables := 0 } := .part rfl rfl rfl
  unfold softReset
  exact (hclear.trans (.fold _ softResetPort_keeps Port.all _)).trans (askAll_keeps _)

/-! ## Every command -/

theorem freezePort_keeps (a b : Byte) : Keeps s (freezePort a b s p) := by
  have hrecord (s : State) : Keeps s (s.fillRecord p) :=
    .port s p (fun t => { t with frozenRecord := some (t.frozenRecord.getD (s.frozenRecordOf p)) }) rfl
  have hstatus (s : State) : Keeps s (s.fillStatus p) :=
    .port s p (fun t => { t with frozenStatus := some (t.frozenStatus.getD (s.frozenStatusOf p)) }) rfl
  exact .ite (.trans (.ite (hrecord s) (.refl s)) (.ite (hstatus _) (.refl _))) (.refl s)

theorem freeze_keeps (a b : Byte) : Keeps s (s.freeze a b).1 := by
  unfold freeze
  split
  · exact .refl s
  · exact .fold _ (fun s p => freezePort_keeps s p a b) Port.all s

theorem takeFrozen_keeps : Keeps s (s.takeFrozen p).1 := by
  unfold takeFrozen
  split
  · exact .port s p (fun t => { t with frozenStatus := none }) rfl
  · split
    · exact .port s p (fun t => { t with frozenRecord := none }) rfl
    · exact .refl s

theorem readFrozen_keeps (a : Byte) : Keeps s (s.readFrozen a).1 := by
  unfold readFrozen
  split
  · exact takeFrozen_keeps s _
  · exact .refl s

theorem rankCommand_keeps (a b : Byte) : Keeps s (s.rankCommand a b).1 := by
  unfold rankCommand
  split
  · exact .refl s
  · split
    · exact .refl s
    · exact done_keeps (writeRank_keeps s _ _)

theorem setClaim_keeps (a : Byte) (r f : Word) (q : Byte) : Keeps s (s.setClaim a r f q).1 := by
  unfold setClaim
  split
  · exact .refl s
  · split
    · exact .refl s
    · split
      · exact .refl s
      · refine done_keeps (.trans ?_ (.worked (.publish _)))
        exact .part rfl rfl rfl

theorem setPass_keeps (a : Byte) : Keeps s (s.setPass a).1 := by
  unfold setPass
  split
  · exact .refl s
  · exact done_keeps (setPassEnable_keeps s _)

theorem clearFlags_keeps (g : Byte) (m : Word) : Keeps s (s.clearFlags g m).1 := by
  unfold clearFlags
  split
  · exact .refl s
  · refine done_keeps ?_
    unfold clearGroup
    split
    · exact .port s _ (fun t => { t with flags := t.flags &&& ~~~m }) rfl
    · exact .part rfl rfl rfl

theorem queryRecord_fst (a : Byte) : (s.queryRecord a).1 = s := by
  unfold queryRecord
  split
  · split
    · rfl
    · rfl
  · rfl

theorem queryTiers_fst (a : Byte) : (s.queryTiers a).1 = s := by
  unfold queryTiers
  split
  · rfl
  · rfl

theorem queryStatus_fst (a : Byte) : (s.queryStatus a).1 = s := by
  unfold queryStatus
  split
  · rfl
  · split
    · rfl
    · rfl

theorem runCommand_keeps (c : HostCommand) : Keeps s (s.runCommand c).1 :=
  match c with
  | .queryRecord a => (queryRecord_fst s a).symm ▸ .refl s
  | .queryTiers a => (queryTiers_fst s a).symm ▸ .refl s
  | .queryStatus a => (queryStatus_fst s a).symm ▸ .refl s
  | .freeze a b => freeze_keeps s a b
  | .readFrozen a => readFrozen_keeps s a
  | .setMode a b => setMode_keeps s a b
  | .setPath a b => setPath_keeps s a b
  | .bid a b v c l => bid_keeps s a b v c l
  | .amend a b v c l => amend_keeps s a b v c l
  | .retire a => retireCommand_keeps s a
  | .rank a b => rankCommand_keeps s a b
  | .setClaim a r f q => setClaim_keeps s a r f q
  | .setPass a => setPass_keeps s a
  | .setPolicy a b w => setPolicy_keeps s a b w
  | .setTrim a b c => setTrim_keeps s a b c
  | .setWatch a b => setWatch_keeps s a b
  | .forceLoss a b => forceLoss_keeps s a b
  | .setAttention a => setAttention_keeps s a
  | .readFlags => .refl s
  | .clearFlags g m => clearFlags_keeps s g m
  | .resetPart => done_keeps (softReset_keeps s)

theorem coldTakeover_keeps : Keeps s s.coldTakeover := .ite (.refl s) (.part rfl rfl rfl)

theorem response_keeps {s t : State} (r : Option Response) (h : Keeps s t) : Keeps s { t with response := r } :=
  h.trans (.part rfl rfl rfl)

theorem respond_keeps {s : State} {a : Answer} (h : Keeps s a.1) : Keeps s (respond a) := response_keeps (some a.2) h

theorem takeCommand_keeps (c : HostCommand) : Keeps s (s.takeCommand c) := by
  have hcold : Keeps s (if c.endsCold then s.coldTakeover else s) := .ite (coldTakeover_keeps s) (.refl s)
  unfold takeCommand
  refine .ite (.refl s) (respond_keeps (hcold.trans (runCommand_keeps _ c)))

theorem takeWrite_keeps (bytes : List Byte) : Keeps s (s.takeWrite bytes) := by
  unfold takeWrite
  split
  · exact .refl s
  · exact response_keeps (t := s) _ (.refl s)
  · exact response_keeps _ (.ite (coldTakeover_keeps s) (.refl s))
  · exact takeCommand_keeps s _

theorem takeRead_keeps (n : Nat) : Keeps s (s.takeRead n) := .part rfl rfl rfl

theorem meterSample_keeps (r : PerPort Reading) : Keeps s ((if s.sampleTaken then s.beginTick else s).takeSamples r) := by
  have hbegin : Keeps s (if s.sampleTaken then s.beginTick else s) := .ite (beginTick_keeps s) (.refl s)
  exact hbegin.trans (takeSamples_keeps _ r)

variable {s} {t : State}

theorem does_of_next {a : State} {c : Instr} (ha : Does s a) (e : exec c s = .next a) (h : exec c s = .next t) : Does s t :=
  Host.Outcome.next.inj (e.symm.trans h) ▸ ha

theorem keeps_of_next {a : State} {c : Instr} (ha : Keeps s a) (e : exec c s = .next a) (h : exec c s = .next t) : Does s t :=
  does_of_next ha.does e h

theorem strapSampling_keeps {a b d : Bool} (h : exec (.strapSampling a b d) s = .next t) : Keeps s t := by
  simp only [exec, execStrapSampling] at h
  split at h
  · exact Host.Outcome.next.inj h ▸ .refl s
  · exact Host.Outcome.next.inj h ▸ .part rfl rfl rfl

theorem execMeterSample_keeps {r : PerPort Reading} (h : exec (.meterSample r) s = .next t) : Keeps s t := by
  simp only [exec, execMeterSample] at h
  split at h
  · exact Host.Outcome.next.inj h ▸ .refl s
  · exact Host.Outcome.next.inj h ▸ meterSample_keeps s r

theorem discard_does {p : Port} {f : WireFrame} (h : exec (.partnerFrameDiscard p f) s = .next t) : Does s t := by
  simp only [exec, execPartnerFrameDiscard] at h
  split at h
  · exact Host.Outcome.next.inj h ▸ (endReception_keeps s p).does
  · exact Host.Outcome.next.inj h ▸ receive_does s p _

/-- What every command but a power-on reset does. -/
theorem exec_does (c : Instr) (hc : c ≠ .powerOnReset) (h : exec c s = .next t) : Does s t := by
  have hif {d : Prop} [Decidable d] {a : State} (ha : Keeps s a) : Keeps s (if d then a else s) := .ite ha (.refl s)
  cases c
  case powerOnReset => exact absurd rfl hc
  case strapSampling => exact (strapSampling_keeps h).does
  case meterSample => exact (execMeterSample_keeps h).does
  case attach p => exact keeps_of_next (attachIfDue_keeps s p) rfl h
  case detach p => exact keeps_of_next (detachIfDue_keeps s p) rfl h
  case pathCloseComplete p => exact keeps_of_next (closeIfDue_keeps s p) rfl h
  case closeDeadline p => exact keeps_of_next (hif (failClose_keeps s p)) rfl h
  case settleDeadline p => exact keeps_of_next (hif (retire_keeps s p .settleFail)) rfl h
  case transitionDeadline p => exact keeps_of_next (hif (retire_keeps s p .settleFail)) rfl h
  case leaseExpiry p => exact keeps_of_next (hif (retire_keeps s p .lapsed)) rfl h
  case renewalPoint p => exact keeps_of_next (renewalTest_keeps s p) rfl h
  case nextAttempt p => exact keeps_of_next (nextAttempt_keeps s p) rfl h
  case holdoffDeadline p => exact keeps_of_next (hif (endHoldoff_keeps s p)) rfl h
  case recallDeadline p => exact keeps_of_next (recallDeadline_keeps s p) rfl h
  case overdrawWindowEnd p => exact keeps_of_next (overdrawEndIfDue_keeps s p) rfl h
  case recoveryDeadline p => exact keeps_of_next (hif (recover_keeps s p)) rfl h
  case watchWindowEnd p => exact keeps_of_next (watchEndIfDue_keeps s p) rfl h
  case frameSendStart p => exact keeps_of_next (hif (startWaiting_keeps s p)) rfl h
  case sendAgain p => exact keeps_of_next (hif (.link s p _)) rfl h
  case frameSendEnd p => exact keeps_of_next (.link s p _) rfl h
  case startPulseCollision p => exact keeps_of_next (hif (.link s p _)) rfl h
  case inFrameCollision p => exact keeps_of_next (hif (enterResync_keeps s p)) rfl h
  case linkDisturbance p => exact keeps_of_next (hif (enterResync_keeps s p)) rfl h
  case breakEnd p => exact keeps_of_next (breakEnd_keeps s p) rfl h
  case idleFound p => exact keeps_of_next (idleFound_keeps s p) rfl h
  case idleWaitExpiry p => exact keeps_of_next (idleWaitExpiry_keeps s p) rfl h
  case replyDeadline p => exact keeps_of_next (hif (sendFailed_keeps s p)) rfl h
  case openingDeadline p => exact keeps_of_next (hif (enterMute_keeps s p)) rfl h
  case assemblyDeadline p => exact keeps_of_next (hif (.link s p _)) rfl h
  case openingHelloSend p => exact keeps_of_next (hif (.trans (.link s p _) (.link _ p _))) rfl h
  case partnerFrameDiscard p f => exact discard_does h
  case writeTaken a b => exact keeps_of_next (hif (takeWrite_keeps s b)) rfl h
  case responseRead a n => exact keeps_of_next (hif (takeRead_keeps s n)) rfl h
  case tiersPart | grant | decline | settled | renewed | fault => exact does_of_next (receive_does s _ _) rfl h
  -- A RECALL frame stands first among the rest; its constructor's name is a keyword of Mathlib, which `case` does not take.
  next => exact does_of_next (receive_does s _ _) rfl h
  all_goals exact keeps_of_next (takeCommand_keeps s _) rfl h

theorem idle_keeps (s : State) : Keeps s s.idle := .ite (beginTick_keeps s) (.refl s)

/-- A step is a power-on reset, or does what the roster's invariants outlast with the rest of its queue. -/
theorem step_does (h : step s = .next t) :
    (s.pending.head? = some .powerOnReset ∧ t = { State.powerOn with pending := t.pending }) ∨ ∃ rest, Does (s.withPending rest) t := by
  obtain ⟨-, rfl⟩ | ⟨c, rest, hp, hc⟩ := step_next h
  · exact .inr ⟨s.pending, (idle_keeps s).does⟩
  · by_cases hreset : c = .powerOnReset
    · subst hreset
      rw [exec_powerOnReset] at hc
      exact .inl ⟨by rw [hp, List.head?_cons], Host.Outcome.next.inj hc ▸ rfl⟩
    · exact .inr ⟨rest, exec_does c hreset hc⟩

/-! ## The power-on state -/

theorem powerOn_record (q : List Instr) (p : Port) : ({ State.powerOn with pending := q } : State).record p = none := by
  cases p <;> rfl

theorem powerOn_handlesDistinct (q : List Instr) : ({ State.powerOn with pending := q } : State).HandlesDistinct :=
  ⟨fun p r hr => by simp [powerOn_record] at hr, fun p _ r _ _ hr => by simp [powerOn_record] at hr⟩

theorem powerOn_amendmentsLive (q : List Instr) : ({ State.powerOn with pending := q } : State).AmendmentsLive :=
  fun p r hr => by simp [powerOn_record] at hr

theorem powerOn_rosterExact (q : List Instr) : ({ State.powerOn with pending := q } : State).RosterExact := by
  refine ⟨List.nodup_nil, fun h => iff_of_false List.not_mem_nil ?_⟩
  rintro ⟨p, r, hr, -⟩
  simp [powerOn_record] at hr

theorem powerOn_rosterOrdered (q : List Instr) : ({ State.powerOn with pending := q } : State).RosterOrdered := List.Pairwise.nil

end State

/-! ## The obligations -/

/-- Settles O7: every change that a command is a chain of keeps the handles distinct, the list exact and the amendments live. -/
theorem handlesAndRosterKept : Obligations.HandlesAndRosterKept := by
  intro s t hd ha hx hstep
  obtain ⟨-, hreset⟩ | ⟨rest, hdoes⟩ := State.step_does hstep
  · rw [hreset]
    exact ⟨State.powerOn_handlesDistinct _, State.powerOn_amendmentsLive _, State.powerOn_rosterExact _⟩
  · exact hdoes.registers hd hx ha

/-- Settles O8: a record is placed by its key, and a record that is listed changes its key only where it is placed again. -/
theorem rosterKeptOrdered : Obligations.RosterKeptOrdered := by
  intro s t hd hx ho hstep
  obtain ⟨-, hreset⟩ | ⟨rest, hdoes⟩ := State.step_does hstep
  · rw [hreset]
    exact State.powerOn_rosterOrdered _
  · exact hdoes.ordered hd hx ho

/-- Settles O9: a command writes what the lock holds only while the lock is not set. -/
theorem lockedWatchKept : Obligations.LockedWatchKept := by
  intro s t hlocked hstep
  obtain ⟨hfront, hreset⟩ | ⟨rest, hdoes⟩ := State.step_does hstep
  · rw [hreset]
    exact ⟨State.lockedWatch_of_open rfl, fun _ hnot => absurd hfront hnot⟩
  · obtain ⟨hkept, hsame⟩ := hdoes.locked
    refine ⟨hkept hlocked, fun hset _ => ?_⟩
    obtain ⟨hwatch, hroute⟩ := hlocked hset
    have hguard := hsame hset
    simp only [State.guarded, Prod.mk.injEq, State.withPending] at hguard
    obtain ⟨-, hlock, hwatch', hroute', hdropout⟩ := hguard
    exact ⟨hlock.trans hset, hwatch'.trans hwatch, hroute'.trans hroute, hdropout⟩

end Sys2Proof.Machine
end

section
/-! PROOF. The step, the resets and the passing of time (R20, R42, R55, R84, R131, R146, R167, R168, R174, R187): what every command does with the
queue, and what the completions of a tick's end leave of the part. -/

namespace Sys2Proof.Machine

open Sys2Proof

namespace State

variable {s t u : State} {p : Port}

/-! ## The completions of a port -/

/-- What no event of a port changes of the part: all that a contract's event leaves but the cold state. -/
def apart (s : State) : State := { s.lasting with cold := .idle, coldPort := none }

/-- The frame of an event on port p that may be the cold start's. -/
structure Serves (p : Port) (s t : State) : Prop where
  part   : t.apart = s.apart
  others : ∀ q, q ≠ p → (t.port q).lasting = (s.port q).lasting

namespace Serves

theorem refl (p : Port) (s : State) : Serves p s s := ⟨rfl, fun _ _ => rfl⟩

theorem trans (h : Serves p s t) (g : Serves p t u) : Serves p s u :=
  ⟨g.part.trans h.part, fun q hq => (g.others q hq).trans (h.others q hq)⟩

theorem ite {c : Prop} [Decidable c] (h : Serves p s t) (g : Serves p s u) : Serves p s (if c then t else u) := by
  split
  · exact h
  · exact g

theorem frame (h : s.FrameAt t p) : Serves p s t := ⟨by rw [apart, h.1, apart], h.2⟩

theorem moves (h : Moves p s t) : Serves p s t := frame h.frameAt

theorem cold (s : State) (c : ColdState) (k : Option Port) : Serves p s { s with cold := c, coldPort := k } := ⟨rfl, fun _ _ => rfl⟩

theorem pending (h : Serves p s t) : t.pending = s.pending := (congrArg State.pending h.part : t.apart.pending = s.apart.pending)
theorem time (h : Serves p s t) : t.time = s.time := (congrArg State.time h.part : t.apart.time = s.apart.time)
theorem response (h : Serves p s t) : t.response = s.response := (congrArg State.response h.part : t.apart.response = s.apart.response)

end Serves

variable (s p)

theorem localBid_serves (n : Nat) (h : s.record p = none) : Serves p s (s.localBid p n) := .moves (localBid_moves s p n h)

theorem coldTake_serves : Serves p s (s.coldTake p) := by
  unfold coldTake
  split
  · dsimp only
    refine (Serves.cold s .coldSupply (some p)).trans ((Serves.moves (coldAuto_moves _ p)).trans ?_)
    split
    · rename_i h
      exact localBid_serves _ p _ (Option.isNone_iff_eq_none.mp h)
    · exact .refl p _
  · exact .refl p s

/-- A port that becomes PRESENT, but for the cold start's take (R9, R41). -/
def attached (s : State) (p : Port) : State :=
  s.modPort p (fun u =>
    { u with
      front := { u.front with attach := .present, debounce := 0 }
      flags := u.flags ||| oneBit PortFlag.attach.bit
      catalogue := { u.catalogue with base := true }
      link := if u.front.mode = .sense then u.link else u.link.opens (s.ahead 250) })

theorem attachPort_eq : s.attachPort p = (s.attached p).coldTake p := by
  have hmode : (((s.modFront p (fun f => { f with attach := .present, debounce := 0 })).setFlag p .attach).modCatalogue p
      (fun c => { c with base := true })).mode p = s.mode p := by
    simp only [mode, modFront_eq, setFlag_eq, modCatalogue_eq, port_modPort_self]
  unfold attachPort attached
  dsimp only
  rw [hmode]
  congr 1
  by_cases hsense : s.mode p = .sense
  · rw [if_pos hsense]
    simp only [modFront_eq, setFlag_eq, modCatalogue_eq, modPort_modPort]
    exact modPort_congr s p (by rw [if_pos (show (s.port p).front.mode = .sense from hsense)])
  · rw [if_neg hsense]
    simp only [enterOpening, modFront_eq, setFlag_eq, modCatalogue_eq, modLink_eq, modPort_modPort]
    exact modPort_congr s p (by rw [if_neg (show ¬ (s.port p).front.mode = .sense from hsense)]; rfl)

theorem attached_serves : Serves p s (s.attached p) := .frame (.modPort s p _)

theorem attachPort_serves : Serves p s (s.attachPort p) := by
  rw [attachPort_eq]
  exact (attached_serves s p).trans (coldTake_serves _ p)

theorem attachIfDue_serves : Serves p s (s.attachIfDue p) := .ite (attachPort_serves s p) (.refl p s)

theorem coldLost_serves : Serves p s (s.coldLost p) := .ite (.cold s _ _) (.refl p s)

/-- A port that becomes VACANT with its link QUIET, before its record retires (R10, R40). -/
def detaching (s : State) (p : Port) : State :=
  s.modPort p (fun u => { u with front := { u.front with attach := .vacant, debounce := 0 }, link := u.link.enterQuiet })

/-- What a detach clears after the retirement (R10, R65, R163). -/
def vacated (s : State) (p : Port) : State :=
  (s.modPort p (fun u =>
    { u with
      catalogue := .reset
      contract := { u.contract with attempts := 0, holdoff := none }
      flags := u.flags ||| oneBit PortFlag.detach.bit
      watch := { u.watch with repeatAt := none } })).tidyWatch p

theorem detachPort_eq : s.detachPort p = (((s.detaching p).retire p .detached).vacated p).coldLost p := by
  simp only [detachPort, detaching, vacated, enterQuiet, modFront_eq, modLink_eq, modCatalogue_eq, modContract_eq, setFlag_eq, modWatch_eq,
    modPort_modPort]

theorem vacated_serves : Serves p s (s.vacated p) := .trans (.frame (.modPort s p _)) (.moves (tidyWatch_moves _ p))

theorem detachPort_serves : Serves p s (s.detachPort p) := by
  rw [detachPort_eq]
  have hretire : Serves p s ((s.detaching p).retire p .detached) := .trans (.frame (.modPort s p _)) (.moves (retire_moves _ p .detached))
  exact (hretire.trans (vacated_serves _ p)).trans (coldLost_serves _ p)

theorem detachIfDue_serves : Serves p s (s.detachIfDue p) := .ite (detachPort_serves s p) (.refl p s)

theorem settlePort_serves : Serves p s (s.settlePort p) :=
  ((((Serves.moves (overdrawEndIfDue_moves s p)).trans (.moves (watchEndIfDue_moves _ p))).trans (.moves (closeIfDue_moves _ p))).trans
    (detachIfDue_serves _ p)).trans (attachIfDue_serves _ p)

theorem foldl_settlePort_time (l : List Port) : (l.foldl settlePort s).time = s.time := by
  induction l generalizing s with
  | nil => rfl
  | cons p l ih => rw [List.foldl_cons, ih, (settlePort_serves s p).time]

theorem beginTick_time : s.beginTick.time = s.time + 1 := congrArg (· + 1) (foldl_settlePort_time s Port.all)

/-! ## Every command gives a next state -/

theorem exec_next (s : State) (c : Instr) : ∃ t, exec c s = .next t := by
  cases c
  case strapSampling a b d =>
    simp only [exec, execStrapSampling]
    split
    · exact ⟨_, rfl⟩
    · exact ⟨_, rfl⟩
  case meterSample r =>
    simp only [exec, execMeterSample]
    split
    · exact ⟨_, rfl⟩
    · exact ⟨_, rfl⟩
  case partnerFrameDiscard p f =>
    simp only [exec, execPartnerFrameDiscard]
    split
    · exact ⟨_, rfl⟩
    · exact ⟨_, rfl⟩
  all_goals exact ⟨_, rfl⟩

theorem exec_pending {c : Instr} (h : exec c s = .next t) : t.pending = s.pending := by
  by_cases hreset : c = .powerOnReset
  · subst hreset
    exact Host.Outcome.next.inj h ▸ rfl
  · exact (exec_does c hreset h).pending

end State

/-- Settles O2: the queue is no part of what a command works on. -/
theorem everyCommandCompletes : Obligations.EveryCommandCompletes := by
  intro s c
  obtain ⟨t, ht⟩ := State.exec_next s c
  exact ⟨t, ht, State.exec_pending s ht⟩

/-- Settles O1: on an empty queue a step is the beginning of the next tick, or nothing. -/
theorem stepTakesFrontCommand : Obligations.StepTakesFrontCommand := by
  refine ⟨fun s c rest hp => State.step_of_front hp, fun s hp => ?_⟩
  rw [State.step_of_empty hp]
  refine ⟨fun hidle => ?_, fun hstraps htaken => ?_⟩
  · rw [State.idle, if_neg]
    rintro ⟨hstraps, htaken⟩
    obtain h | h := hidle
    · simp [h] at hstraps
    · simp [h] at htaken
  · refine ⟨s.beginTick, by rw [State.idle, if_pos ⟨hstraps, htaken⟩], s.beginTick_time, rfl, ?_⟩
    exact s.beginTick_keeps.pending.trans hp

/-- Settles O3: the power-on state holds the power-on value of every block, and the straps are sampled where none are held. -/
theorem powerOnResetAndStraps : Obligations.PowerOnResetAndStraps := by
  refine ⟨fun s addr1 addr0 cold => ⟨fun hnone => ?_, fun hsome => ?_⟩, fun s => ?_⟩
  · refine ⟨_, if_neg (by simp [hnone]), rfl, ?_⟩
    show some (0x38#7 + (BitVec.ofBool addr1 ++ BitVec.ofBool addr0).setWidth 7) = some (BitVec.ofNat 7 (0x38 + 2 * addr1.toNat + addr0.toNat))
    revert addr1 addr0
    decide
  · exact if_pos hsome
  · refine ⟨_, rfl, rfl, rfl, rfl, fun p => ?_, rfl, rfl, rfl, rfl, rfl, rfl, rfl, rfl, rfl, rfl, fun p => ?_, State.attn_of_disabled rfl,
      State.alert_of_cleared (fun p => ?_)⟩
    · cases p <;> exact ⟨rfl, rfl, rfl, rfl, rfl, rfl, rfl, rfl, rfl, rfl, rfl⟩
    · cases p <;> rfl
    · cases p <;> rfl

/-- Settles O4: the state after reset is the power-on state with its straps sampled. -/
theorem invariantsAtReset : Obligations.InvariantsAtReset := by
  have hpaths : State.reset.PathsLawful := State.PathsLawful.powerOn.of_cores (fun _ => rfl) rfl
  obtain ⟨htwo, hbacked, hright⟩ := State.pathsLawful_iff.mp hpaths
  exact ⟨htwo, hbacked, hright, State.powerOn_handlesDistinct [], State.powerOn_amendmentsLive [], State.powerOn_rosterExact [],
    State.powerOn_rosterOrdered [], State.lockedWatch_of_open rfl, Allocator.reset_lawful⟩

end Sys2Proof.Machine
end

section
/-! PROOF. The wire and the link engine (chapter 2): the frames of the part in their order (R24, R28, R30, R32, R33), collisions, disturbances and
the phases of RESYNC (R29, R37, R38). -/

namespace Sys2Proof.Machine

open Sys2Proof

/-! ## A link's own changes, as the statements name them -/

namespace Link

variable (l : Link)

theorem endExchange_eq : l.endExchange = l.ended := rfl

theorem beginExchange_eq (body : ExchangeBody) : l.beginExchange body = l.issued body := rfl

theorem cutOff_eq : l.cutOff = l.cut := by
  obtain ⟨state, exchange, tagCounter, ⟨release, yield, renew, bid, hello⟩, memory, assembly, deadline, resync, sending, receiving⟩ := l
  cases sending with
  | none => rfl
  | some f =>
    cases f with
    | exchange => rfl
    | yield y n => cases yield <;> rfl
    | release r => cases release <;> rfl

theorem mayServe_iff : l.mayServe = true ↔ l.state = .ready ∧ l.exchange = none ∧ l.sending = none ∧ l.receiving = false := by
  simp only [mayServe, wireFree, Bool.and_eq_true, decide_eq_true_eq, Option.isNone_iff_eq_none, Bool.not_eq_true', and_assoc]

theorem maySend_iff : l.maySend = true ↔ (l.state = .exchange ∨ l.state = .opening) ∧ l.sending = none ∧ l.receiving = false ∧
    ∃ e, l.exchange = some e ∧ e.deadline = none := by
  unfold maySend wireFree
  cases l.exchange with
  | none => simp
  | some e =>
    simp only [Bool.and_eq_true, Bool.or_eq_true, decide_eq_true_eq, Option.isNone_iff_eq_none, Bool.not_eq_true', and_assoc,
      Option.some.injEq, exists_eq_left']

theorem mayOpen_iff : l.mayOpen = true ↔ l.state = .opening ∧ l.sending = none ∧ l.receiving = false ∧
    ∀ e, l.exchange = some e → e.body.isHello = true ∧ e.deadline = none := by
  unfold mayOpen wireFree
  cases l.exchange with
  | none => simp
  | some e =>
    simp only [Bool.and_eq_true, decide_eq_true_eq, Option.isNone_iff_eq_none, Bool.not_eq_true', and_assoc, Option.all_some,
      Option.some.injEq, forall_eq']

theorem disturbable_iff : l.disturbable = true ↔ l.state = .opening ∨ l.state = .ready ∨ l.state = .exchange := by
  unfold disturbable
  cases l.state <;> simp

end Link

theorem ExchangeBody.isHello_iff (b : ExchangeBody) : b.isHello = true ↔ b = .hello := by
  cases b <;> simp [isHello]

theorem ExchangeBody.cases (b : ExchangeBody) : b = .hello ∨ (∃ r, b = .bid r) ∨ ∃ r, b = .renew r := by
  cases b <;> simp

theorem reached_self (t : Tick) : reached t t = true := by
  simp [reached]

namespace State

variable {s : State} {p : Port}

/-! ## One link's update -/

theorem modLink_congr {f g : Link → Link} (h : f (s.port p).link = g (s.port p).link) : s.modLink p f = s.modLink p g :=
  modPort_congr s p (by simp only [h])

theorem modLink_id {f : Link → Link} (h : f (s.port p).link = (s.port p).link) : s.modLink p f = s := modPort_id s p (by simp only [h])

theorem link_modLink (s : State) (p : Port) (f : Link → Link) : ((s.modLink p f).port p).link = f (s.port p).link := by
  rw [modLink_eq, port_modPort_self]

theorem modLink_modLink (s : State) (p : Port) (f g : Link → Link) : (s.modLink p f).modLink p g = s.modLink p (fun l => g (f l)) := by
  simp only [modLink_eq, modPort_modPort]

/-! ## Frames of the part -/

theorem exec_frameSendStart_served (h : (s.port p).link.mayServe = true) : exec (.frameSendStart p) s = .next (s.startWaiting p) :=
  congrArg Host.Outcome.next (if_pos h)

theorem startWaiting_release {r : ReleaseRequest} (hr : (s.port p).link.slot.release = some r) :
    s.startWaiting p =
      s.modLink p (fun l => { l with slot := { (s.port p).link.slot with release := none }, sending := some (.release r) }) := by
  unfold startWaiting
  dsimp only
  rw [hr]

theorem startWaiting_yield {y : YieldRequest} (hr : (s.port p).link.slot.release = none) (hy : (s.port p).link.slot.yield = some y) :
    s.startWaiting p = s.modLink p (fun l =>
      { l with slot := { (s.port p).link.slot with yield := none }, sending := some (.yield y (s.port p).front.current) }) := by
  unfold startWaiting
  dsimp only
  rw [hr, hy]

/-- The link that begins an exchange and starts its frame, with what is left in the slot. -/
def begins (s : State) (p : Port) (body : ExchangeBody) (rest : RequestSlot) : State :=
  s.modLink p (fun l => { l.issued body with state := .exchange, slot := rest, sending := some (.exchange body l.tagCounter) })

theorem startWaiting_renew {r : RenewRequest} (hr : (s.port p).link.slot.release = none) (hy : (s.port p).link.slot.yield = none)
    (hn : (s.port p).link.slot.renew = some r) :
    s.startWaiting p = s.begins p (.renew r) { (s.port p).link.slot with renew := none } := by
  unfold startWaiting
  dsimp only
  rw [hr, hy, hn]
  rfl

theorem startWaiting_bid {r : BidRequest} (hr : (s.port p).link.slot.release = none) (hy : (s.port p).link.slot.yield = none)
    (hn : (s.port p).link.slot.renew = none) (hb : (s.port p).link.slot.bid = some r) :
    s.startWaiting p = s.begins p (.bid r) { (s.port p).link.slot with bid := none } := by
  unfold startWaiting
  dsimp only
  rw [hr, hy, hn, hb]
  rfl

theorem startWaiting_hello (hr : (s.port p).link.slot.release = none) (hy : (s.port p).link.slot.yield = none)
    (hn : (s.port p).link.slot.renew = none) (hb : (s.port p).link.slot.bid = none) (hh : (s.port p).link.slot.hello = true) :
    s.startWaiting p = s.begins p .hello { (s.port p).link.slot with hello := false } := by
  unfold startWaiting
  dsimp only
  rw [hr, hy, hn, hb]
  exact if_pos hh

theorem startExchangeFrame_waiting {e : Exchange} (he : (s.port p).link.exchange = some e) (hd : e.deadline = none) :
    s.startExchangeFrame p = s.modLink p (fun l => { l with sending := some (.exchange e.body e.tag) }) := by
  unfold startExchangeFrame
  exact modPort_congr s p (by simp only [he, hd, Option.isNone_none, if_true])

theorem exec_sendAgain {e : Exchange} (hstate : (s.port p).link.state = .exchange ∨ (s.port p).link.state = .opening)
    (hs : (s.port p).link.sending = none) (hr : (s.port p).link.receiving = false) (he : (s.port p).link.exchange = some e)
    (hd : e.deadline = none) :
    exec (.sendAgain p) s = .next (s.modLink p (fun l => { l with sending := some (.exchange e.body e.tag) })) := by
  rw [← startExchangeFrame_waiting he hd]
  exact congrArg Host.Outcome.next (if_pos ((Link.maySend_iff _).mpr ⟨hstate, hs, hr, e, he, hd⟩))

theorem sendOpeningHello_waiting {e : Exchange} (hstate : (s.port p).link.state = .opening)
    (hs : (s.port p).link.sending = none) (hr : (s.port p).link.receiving = false) (he : (s.port p).link.exchange = some e)
    (hd : e.deadline = none) (hb : e.body = .hello) :
    s.sendOpeningHello p = s.modLink p (fun l => { l with sending := some (.exchange e.body e.tag) }) := by
  have hopen : (s.port p).link.mayOpen = true := by
    refine (Link.mayOpen_iff _).mpr ⟨hstate, hs, hr, fun e' he' => ?_⟩
    obtain rfl : e = e' := Option.some.inj (he.symm.trans he')
    exact ⟨(ExchangeBody.isHello_iff _).mpr hb, hd⟩
  have hsame : (s.modLink p (fun l => if l.exchange.isNone then l.beginExchange .hello else l)) = s :=
    modLink_id (by simp only [he, Option.isNone_some, Bool.false_eq_true, if_false])
  rw [sendOpeningHello, if_pos hopen, hsame, startExchangeFrame_waiting he hd]

theorem sendOpeningHello_fresh (hstate : (s.port p).link.state = .opening) (hs : (s.port p).link.sending = none)
    (hr : (s.port p).link.receiving = false) (he : (s.port p).link.exchange = none) :
    s.sendOpeningHello p = s.modLink p (fun l => { l.issued .hello with sending := some (.exchange .hello l.tagCounter) }) := by
  have hopen : (s.port p).link.mayOpen = true :=
    (Link.mayOpen_iff _).mpr ⟨hstate, hs, hr, fun e he' => absurd (he.symm.trans he') (by simp)⟩
  rw [sendOpeningHello, if_pos hopen]
  simp only [startExchangeFrame, modLink_eq, modPort_modPort]
  exact modPort_congr s p (by simp only [he, Option.isNone_none, if_true]; rfl)

theorem endOwnFrame_exchange {e : Exchange} {body : ExchangeBody} (hf : (s.port p).link.sending = some (.exchange body e.tag))
    (he : (s.port p).link.exchange = some e) (hd : e.deadline = none) :
    s.endOwnFrame p = s.modLink p (fun l => { l with sending := none, exchange := some { e with deadline := some (s.ahead 25) } }) :=
  modLink_congr (by simp only [hf, he, hd, and_self, if_true])

theorem endOwnFrame_other {f : OutFrame} (hf : (s.port p).link.sending = some f)
    (hother : ∀ e, (s.port p).link.exchange = some e → e.deadline = none → ∀ body, f ≠ .exchange body e.tag) :
    s.endOwnFrame p = s.modLink p (fun l => { l with sending := none }) := by
  unfold endOwnFrame
  refine modLink_congr ?_
  rw [hf]
  cases f with
  | yield => rfl
  | release => rfl
  | exchange body tag =>
    cases he : (s.port p).link.exchange with
    | none => rfl
    | some e =>
      have hne : ¬ (e.tag = tag ∧ e.deadline = none) := fun ⟨htag, hd⟩ => hother e he hd body (htag ▸ rfl)
      simp only [if_neg hne]

/-! ## RESYNC -/

theorem beginResync_eq (s : State) (p : Port) : s.beginResync p = s.modLink p (fun l => l.resynced (s.ahead 3)) := by
  simp only [beginResync, Link.cutOff_eq]
  rfl

theorem enterResync_eq (s : State) (p : Port) :
    s.enterResync p = (s.modLink p (fun l => l.resynced (s.ahead 3))).sendFailed p := by
  rw [enterResync, beginResync_eq]

theorem sendFailed_none (h : (s.port p).link.exchange = none) : s.sendFailed p = s := by simp only [sendFailed, h]

theorem sendFailed_retry {e : Exchange} (h : (s.port p).link.exchange = some e) (hr : 0 < e.retries) :
    s.sendFailed p = s.modLink p (fun l => { l with exchange := some { e with retries := e.retries - 1, deadline := none } }) := by
  simp only [sendFailed, h, if_neg (Nat.ne_of_gt hr)]

theorem sendFailed_spent {e : Exchange} (h : (s.port p).link.exchange = some e) (hr : e.retries = 0) :
    s.sendFailed p = s.exchangeNoReply p := by
  simp only [sendFailed, h, if_pos hr]

theorem exchangeNoReply_hello {e : Exchange} (h : (s.port p).link.exchange = some e) (hb : e.body = .hello) :
    s.exchangeNoReply p = s.modLink p (fun l => if l.state = .opening then l.issued .hello else l.ended) := by
  simp only [exchangeNoReply, h, hb]
  refine modLink_congr ?_
  split
  · rename_i hopen
    rw [Link.endExchange_eq, Link.beginExchange_eq]
    simp only [Link.ended, Link.issued, hopen, reduceCtorEq, if_false]
  · rfl

theorem exchangeNoReply_bid {e : Exchange} {b : BidRequest} (h : (s.port p).link.exchange = some e) (hb : e.body = .bid b) :
    s.exchangeNoReply p = (s.modLink p (fun l =>
      { l.ended with memory := if b.replace then l.memory else some { tag := e.tag, kind := .bid, cause := .noReply } })).bidNoReply p := by
  simp only [exchangeNoReply, h, hb]
  rfl

theorem exchangeNoReply_renew {e : Exchange} {b : RenewRequest} (h : (s.port p).link.exchange = some e) (hb : e.body = .renew b) :
    s.exchangeNoReply p = (s.modLink p Link.ended).renewNoReply p := by
  simp only [exchangeNoReply, h, hb]
  rfl

/-- The end of an exchange without a reply does not depend on the deadline it had. -/
theorem exchangeNoReply_deadline {e : Exchange} (h : (s.port p).link.exchange = some e) (d : Option Tick) :
    (s.modLink p (fun l => { l with exchange := some { e with deadline := d } })).exchangeNoReply p = s.exchangeNoReply p := by
  have hd := link_modLink s p (fun l => { l with exchange := some { e with deadline := d } })
  have hd := congrArg Link.exchange hd
  obtain hb | ⟨b, hb⟩ | ⟨b, hb⟩ := e.body.cases
  · rw [exchangeNoReply_hello hd hb, exchangeNoReply_hello h hb, modLink_modLink]
    rfl
  · rw [exchangeNoReply_bid hd hb, exchangeNoReply_bid h hb, modLink_modLink]
    rfl
  · rw [exchangeNoReply_renew hd hb, exchangeNoReply_renew h hb, modLink_modLink]
    rfl

theorem exec_replyDeadline {e : Exchange} {d : Tick} (h : (s.port p).link.exchange = some e) (hd : e.deadline = some d)
    (hreach : reached s.tick d = true) : exec (.replyDeadline p) s = .next (s.sendFailed p) :=
  congrArg Host.Outcome.next (if_pos (by simp only [replyOverdue, h, hd]; exact hreach))

/-- A send lost without a retry ends as a reply deadline does (R32, R38). -/
theorem sendFailed_as_reply_deadline {e : Exchange} (h : (s.port p).link.exchange = some e) (hr : e.retries = 0) :
    exec (.replyDeadline p) (s.modLink p (fun l => { l with exchange := some { e with deadline := some s.tick } })) =
      .next (s.sendFailed p) := by
  have hd : ((s.modLink p (fun l => { l with exchange := some { e with deadline := some s.tick } })).port p).link.exchange =
      some { e with deadline := some s.tick } := by rw [modLink_eq, port_modPort_self]
  rw [exec_replyDeadline hd rfl (reached_self s.tick), sendFailed_spent hd hr, exchangeNoReply_deadline h, sendFailed_spent h hr]

end State

/-! ## The obligations -/

/-- Settles O26: the slot's places are looked at in their order. -/
theorem frameStartsInSlotOrder : Obligations.FrameStartsInSlotOrder := by
  intro s p l q hready hex hsending hreceiving begins
  have hserve := State.exec_frameSendStart_served ((Link.mayServe_iff l).mpr ⟨hready, hex, hsending, hreceiving⟩)
  have hnext {t : State} (h : s.startWaiting p = t) : exec (.frameSendStart p) s = .next t := hserve.trans (congrArg _ h)
  exact ⟨fun r hr => hnext (State.startWaiting_release hr), fun y hr hy => hnext (State.startWaiting_yield hr hy),
    fun r hr hy hn => hnext (State.startWaiting_renew hr hy hn), fun r hr hy hn hb => hnext (State.startWaiting_bid hr hy hn hb),
    fun hr hy hn hb hh => hnext (State.startWaiting_hello hr hy hn hb hh)⟩

/-- Settles O27: a frame starts for the exchange that awaits send, and its end sets the reply deadline. -/
theorem exchangeFrameSent : Obligations.ExchangeFrameSent := by
  intro s p l
  refine ⟨fun e hs hr he hd => ⟨fun hstate => State.exec_sendAgain hstate hs hr he hd, fun hstate hb => ?_⟩, fun hs hr he hstate => ?_,
    fun f hf => ⟨fun body e hbody he hd => ?_, fun hother => ?_⟩⟩
  · exact congrArg Host.Outcome.next (State.sendOpeningHello_waiting hstate hs hr he hd hb)
  · exact congrArg Host.Outcome.next (State.sendOpeningHello_fresh hstate hs hr he)
  · exact congrArg Host.Outcome.next (State.endOwnFrame_exchange (hbody ▸ hf) he hd)
  · exact congrArg Host.Outcome.next (State.endOwnFrame_other hf hother)

/-- Settles O28: both ways into RESYNC lose the send of the exchange in flight. -/
theorem collisionsAndDisturbance : Obligations.CollisionsAndDisturbance := by
  intro s p l
  refine ⟨fun hsending => ?_, fun c hc => ?_⟩
  · refine (congrArg Host.Outcome.next (if_pos hsending)).trans (congrArg Host.Outcome.next ?_)
    simp only [State.startPulseCollision, Link.cutOff_eq]
  · have hexec : exec c s = .next ((s.modLink p (fun l => l.resynced (s.ahead 3))).sendFailed p) := by
      rw [← State.enterResync_eq]
      obtain ⟨rfl, hsending⟩ | ⟨rfl, hstate⟩ := hc
      · exact congrArg Host.Outcome.next (if_pos hsending)
      · exact congrArg Host.Outcome.next (if_pos ((Link.disturbable_iff l).mpr hstate))
    have hlink : ((s.modLink p (fun l => l.resynced (s.ahead 3))).port p).link.exchange = l.exchange := by
      rw [State.modLink_eq, State.port_modPort_self]
      rfl
    rw [hexec]
    refine ⟨fun he => ?_, fun e he hr => ?_, fun e he hr hb => ?_, fun e he hr => ?_⟩
    · rw [State.sendFailed_none (hlink.trans he)]
    · rw [State.sendFailed_retry (hlink.trans he) hr]
      simp only [State.modLink_eq, State.modPort_modPort]
    · rw [State.sendFailed_spent (hlink.trans he) hr, State.exchangeNoReply_hello (hlink.trans he) hb]
      simp only [State.modLink_eq, State.modPort_modPort]
      rfl
    · rw [← State.sendFailed_as_reply_deadline (hlink.trans he) hr]
      simp only [State.modLink_eq, State.modPort_modPort]
      rfl

/-- Settles O29: each event of RESYNC acts in its own phase. -/
theorem resyncPhases : Obligations.ResyncPhases := by
  intro s p r hr
  refine ⟨fun hphase hreach => ?_, fun hphase => ?_, fun hphase hreach hbreaks => ?_⟩
  · refine congrArg Host.Outcome.next ?_
    simp only [State.breakEnd, hr, hphase, hreach, and_self, if_true]
    rfl
  · refine congrArg Host.Outcome.next ?_
    simp only [State.idleFound, hr, hphase, if_true]
    refine State.modPort_congr s p ?_
    cases hreturn : r.returnTo <;> simp [Link.afterIdle, hreturn]
  · refine congrArg Host.Outcome.next ?_
    simp only [State.idleWaitExpiry, hr, hphase, hreach, and_self, if_true, if_neg (Nat.not_le.mpr hbreaks)]
    rfl

end Sys2Proof.Machine
end

section
/-! PROOF. A command of the part's own clock or wire that finds nothing due leaves the state as it is (log 3): one lemma per command. -/

namespace Sys2Proof.Machine

open Sys2Proof

namespace State

variable {s : State} {p : Port}

theorem ite_idle {c : Prop} [Decidable c] (h : ¬ c) (t : State) : Host.Outcome.next (if c then t else s) = (.next s : Host.Outcome State Fault Refusal) :=
  congrArg Host.Outcome.next (if_neg h)

/-! ## Completions -/

theorem exec_attach_idle (h : (s.port p).front.attach = .present ∨ (s.port p).front.debounce < 50) : exec (.attach p) s = .next s := by
  refine ite_idle (fun ⟨hattach, hcount⟩ => ?_) _
  obtain h | h := h
  · simp [h] at hattach
  · omega

theorem exec_detach_idle (h : (s.port p).front.attach = .vacant ∨ (s.port p).front.debounce < 50) : exec (.detach p) s = .next s := by
  refine ite_idle (fun ⟨hattach, hcount⟩ => ?_) _
  obtain h | h := h
  · simp [h] at hattach
  · omega

theorem exec_pathCloseComplete_idle
    (h : (s.port p).front.path ≠ .closing ∨ (s.port p).front.closeOp.all (fun c => !c.due) = true) :
    exec (.pathCloseComplete p) s = .next s := by
  refine congrArg Host.Outcome.next ?_
  unfold closeIfDue
  cases hc : (s.port p).front.closeOp with
  | none => rfl
  | some c =>
    refine if_neg (fun ⟨hpath, hdue⟩ => ?_)
    obtain h | h := h
    · exact h hpath
    · simp [hc, hdue] at h

theorem exec_closeDeadline_idle
    (h : (s.port p).front.path ≠ .closing ∨ s.due ((s.port p).front.closeOp.map CloseOp.deadline) = false) :
    exec (.closeDeadline p) s = .next s := by
  refine ite_idle (fun hdue => ?_) _
  simp only [closeOverdue, Bool.and_eq_true, decide_eq_true_eq] at hdue
  obtain ⟨hpath, hdue⟩ := hdue
  obtain h | h := h
  · exact h hpath
  · exact absurd hdue (by rw [h]; exact Bool.false_ne_true)

theorem exec_overdrawWindowEnd_idle (h : (s.port p).monitor.window.all (fun w => !w.due) = true) :
    exec (.overdrawWindowEnd p) s = .next s := by
  refine congrArg Host.Outcome.next ?_
  unfold overdrawEndIfDue
  cases hw : (s.port p).monitor.window with
  | none => rfl
  | some w =>
    rw [hw, Option.all_some, Bool.not_eq_true'] at h
    exact if_neg (by rw [h]; exact Bool.false_ne_true)

theorem exec_watchWindowEnd_idle (h : (s.port p).watch.window.all (fun w => w.count < 8) = true) :
    exec (.watchWindowEnd p) s = .next s := by
  refine congrArg Host.Outcome.next ?_
  unfold watchEndIfDue
  cases hw : (s.port p).watch.window with
  | none => rfl
  | some w =>
    rw [hw, Option.all_some, decide_eq_true_eq] at h
    exact if_neg (by omega)

/-! ## Deadlines -/

theorem exec_settleDeadline_idle (h : ∀ k, s.record p = some k → k.state = .settling → s.due k.settleDeadline = false) :
    exec (.settleDeadline p) s = .next s := by
  refine ite_idle ?_ _
  unfold settleOverdue
  cases hr : s.record p with
  | none => exact Bool.false_ne_true
  | some k =>
    simp only [Bool.and_eq_true, decide_eq_true_eq, not_and, Bool.not_eq_true]
    exact h k hr

theorem exec_transitionDeadline_idle
    (h : ∀ k a x, s.record p = some k → k.amendment = some a → a.transition = some x → reached s.tick x.deadline = false) :
    exec (.transitionDeadline p) s = .next s := by
  refine ite_idle ?_ _
  cases hr : s.record p with
  | none => simp [transitionOverdue, hr]
  | some k =>
    cases ha : k.amendment with
    | none => simp [transitionOverdue, hr, ha]
    | some a =>
      cases hx : a.transition with
      | none => simp [transitionOverdue, hr, ha, hx, due]
      | some x => simp [transitionOverdue, hr, ha, hx, due, h k a x hr ha hx]

theorem exec_leaseExpiry_idle (h : ∀ k n, s.record p = some k → k.lease = some n → k.live = true → s.due n.expiry = false) :
    exec (.leaseExpiry p) s = .next s := by
  refine ite_idle ?_ _
  cases hr : s.record p with
  | none => simp [leaseOverdue, hr]
  | some k =>
    cases hl : k.lease with
    | none => simp [leaseOverdue, hr, hl]
    | some n =>
      simp only [leaseOverdue, hr, hl, Bool.and_eq_true, not_and, Bool.not_eq_true]
      exact h k n hr hl

/-- The conditions under which a renewal begins (R86, R87). -/
theorem renewalDue_iff (s : State) (k : Record) :
    s.renewalDue k = true ↔ k.live = true ∧ k.renewal = none ∧ k.withdraw = false ∧
      ∃ n e, k.lease = some n ∧ n.expiry = some e ∧ (e - s.tick).toInt ≤ (n.length * 10 * s.policy.renewLead : Nat) := by
  unfold renewalDue
  cases k.lease with
  | none => simp
  | some n =>
    cases hn : n.expiry with
    | none => simp [renewalPointReached, hn]
    | some e =>
      simp [renewalPointReached, hn, renewalLead, and_assoc]

theorem exec_renewalPoint_idle
    (h : ∀ k n e, s.record p = some k → k.live = true → k.renewal = none → k.withdraw = false → k.lease = some n → n.expiry = some e →
      (n.length * 10 * s.policy.renewLead : Nat) < (e - s.tick).toInt) :
    exec (.renewalPoint p) s = .next s := by
  refine congrArg Host.Outcome.next ?_
  unfold renewalTest
  cases hr : s.record p with
  | none => rfl
  | some k =>
    refine if_neg (fun hdue => ?_)
    obtain ⟨hlive, hnone, hwithdraw, n, e, hn, he, hle⟩ := (renewalDue_iff s k).mp hdue
    exact absurd (h k n e hr hlive hnone hwithdraw hn he) (not_lt.mpr hle)

theorem exec_nextAttempt_idle
    (h : ∀ k n d, s.record p = some k → k.renewal = some n → n.state = .retryWait d → reached s.tick d = false) :
    exec (.nextAttempt p) s = .next s := by
  refine congrArg Host.Outcome.next ?_
  cases hr : s.record p with
  | none => simp only [nextAttempt, hr]
  | some k =>
    cases hn : k.renewal with
    | none => simp only [nextAttempt, hr, hn]
    | some n =>
      cases hstate : n.state with
      | inFlight => simp only [nextAttempt, hr, hn, hstate]
      | refused => simp only [nextAttempt, hr, hn, hstate]
      | retryWait d => simp only [nextAttempt, hr, hn, hstate, h k n d hr hn hstate, Bool.false_eq_true, if_false]

theorem exec_recallDeadline_idle
    (h : ∀ k c, s.record p = some k → k.recallPart = some c → c.yield = .owed → reached s.tick c.deadline = false) :
    exec (.recallDeadline p) s = .next s := by
  refine congrArg Host.Outcome.next ?_
  cases hr : s.record p with
  | none => simp only [recallDeadline, hr]
  | some k =>
    cases hc : k.recallPart with
    | none => simp only [recallDeadline, hr, hc]
    | some c =>
      simp only [recallDeadline, hr, hc]
      exact if_neg (fun hdue => by simp [h k c hr hc hdue.1] at hdue)

theorem exec_recoveryDeadline_idle
    (h : (s.port p).front.path ≠ .closed ∨ (s.port p).monitor.trimMode = .manual ∨ s.due (s.port p).monitor.recovery = false) :
    exec (.recoveryDeadline p) s = .next s := by
  refine ite_idle (fun hdue => ?_) _
  simp only [recoveryDue, Bool.and_eq_true, decide_eq_true_eq] at hdue
  obtain ⟨⟨hpath, hauto⟩, hdue⟩ := hdue
  obtain h | h | h := h
  · exact h hpath
  · simp [h] at hauto
  · simp [h] at hdue

/-! ## The wire -/

theorem startWaiting_empty (hr : (s.port p).link.slot.release = none) (hy : (s.port p).link.slot.yield = none)
    (hn : (s.port p).link.slot.renew = none) (hb : (s.port p).link.slot.bid = none) (hh : (s.port p).link.slot.hello = false) :
    s.startWaiting p = s := by
  unfold startWaiting
  dsimp only
  rw [hr, hy, hn, hb]
  exact if_neg (by rw [hh]; exact Bool.false_ne_true)

theorem exec_frameSendStart_idle
    (h : (s.port p).link.state ≠ .ready ∨ (s.port p).link.exchange.isSome = true ∨ (s.port p).link.sending.isSome = true ∨
      (s.port p).link.receiving = true ∨ ((s.port p).link.slot.release = none ∧ (s.port p).link.slot.yield = none ∧
        (s.port p).link.slot.renew = none ∧ (s.port p).link.slot.bid = none ∧ (s.port p).link.slot.hello = false)) :
    exec (.frameSendStart p) s = .next s := by
  by_cases hserve : (s.port p).link.mayServe = true
  · rw [exec_frameSendStart_served hserve]
    obtain ⟨hready, hex, hsend, hreceive⟩ := (Link.mayServe_iff _).mp hserve
    obtain h | h | h | h | ⟨hr, hy, hn, hb, hh⟩ := h
    · exact absurd hready h
    · simp [hex] at h
    · simp [hsend] at h
    · simp [hreceive] at h
    · rw [startWaiting_empty hr hy hn hb hh]
  · exact ite_idle hserve _

theorem exec_sendAgain_idle
    (h : ((s.port p).link.state ≠ .exchange ∧ (s.port p).link.state ≠ .opening) ∨
      (s.port p).link.exchange.all (fun e => e.deadline.isSome) = true ∨ (s.port p).link.sending.isSome = true ∨
      (s.port p).link.receiving = true) :
    exec (.sendAgain p) s = .next s := by
  refine ite_idle (fun hsend => ?_) _
  obtain ⟨hstate, hnone, hreceive, e, he, hd⟩ := (Link.maySend_iff _).mp hsend
  obtain ⟨hx, ho⟩ | h | h | h := h
  · exact hstate.elim hx ho
  · simp [he, hd] at h
  · simp [hnone] at h
  · simp [hreceive] at h

theorem exec_openingHelloSend_idle
    (h : (s.port p).link.state ≠ .opening ∨ (s.port p).link.exchange.any (fun e => e.deadline.isSome || !e.body.isHello) = true ∨
      (s.port p).link.sending.isSome = true ∨ (s.port p).link.receiving = true) :
    exec (.openingHelloSend p) s = .next s := by
  refine ite_idle (fun hopen => ?_) _
  obtain ⟨hstate, hnone, hreceive, hex⟩ := (Link.mayOpen_iff _).mp hopen
  obtain h | h | h | h := h
  · exact h hstate
  · obtain ⟨e, he, hbad⟩ := (Option.any_eq_true _ _).mp h
    obtain ⟨hhello, hd⟩ := hex e he
    simp [hhello, hd] at hbad
  · simp [hnone] at h
  · simp [hreceive] at h

theorem exec_frameSendEnd_idle (h : (s.port p).link.sending = none) : exec (.frameSendEnd p) s = .next s := by
  refine congrArg Host.Outcome.next (modLink_id ?_)
  rw [h]
  exact congrArg (fun f => { (s.port p).link with sending := f }) h.symm

theorem not_sending (h : (s.port p).link.sending = none) : ¬ (s.port p).link.sending.isSome = true := by simp [h]

theorem exec_linkDisturbance_idle (h : (s.port p).link.state = .quiet ∨ (s.port p).link.state = .resync ∨ (s.port p).link.state = .mute) :
    exec (.linkDisturbance p) s = .next s := by
  refine ite_idle (fun hopen => ?_) _
  rw [Link.disturbable_iff] at hopen
  obtain h | h | h := h
  · simp [h] at hopen
  · simp [h] at hopen
  · simp [h] at hopen

theorem exec_breakEnd_idle (h : (s.port p).link.resync.all (fun r => r.phase = .idleWait || !reached s.tick r.deadline) = true) :
    exec (.breakEnd p) s = .next s := by
  refine congrArg Host.Outcome.next ?_
  unfold breakEnd
  cases hr : (s.port p).link.resync with
  | none => rfl
  | some r => exact if_neg (fun ⟨hphase, hreach⟩ => by simp [hr, hphase, hreach] at h)

theorem exec_idleFound_idle (h : (s.port p).link.resync.all (fun r => r.phase = .breaking) = true) :
    exec (.idleFound p) s = .next s := by
  refine congrArg Host.Outcome.next ?_
  unfold idleFound
  cases hr : (s.port p).link.resync with
  | none => rfl
  | some r => exact if_neg (fun hphase => by simp [hr, hphase] at h)

theorem exec_idleWaitExpiry_idle (h : (s.port p).link.resync.all (fun r => r.phase = .breaking || !reached s.tick r.deadline) = true) :
    exec (.idleWaitExpiry p) s = .next s := by
  refine congrArg Host.Outcome.next ?_
  unfold idleWaitExpiry
  cases hr : (s.port p).link.resync with
  | none => rfl
  | some r => exact if_neg (fun ⟨hphase, hreach⟩ => by simp [hr, hphase, hreach] at h)

theorem exec_replyDeadline_idle (h : s.due ((s.port p).link.exchange.bind Exchange.deadline) = false) :
    exec (.replyDeadline p) s = .next s := by
  refine ite_idle ?_ _
  unfold replyOverdue
  cases he : (s.port p).link.exchange with
  | none => exact Bool.false_ne_true
  | some e =>
    rw [he, Option.bind_some] at h
    simp [h]

theorem exec_openingDeadline_idle (h : (s.port p).link.opening = false ∨ s.due (s.port p).link.openingDeadline = false) :
    exec (.openingDeadline p) s = .next s := by
  refine ite_idle ?_ _
  rw [openingOverdue, Bool.and_eq_true]
  rintro ⟨hopen, hdue⟩
  obtain h | h := h
  · simp [h] at hopen
  · simp [h] at hdue

end State

/-- Settles O47: every command of the clock and of the wire is guarded by what makes it due. -/
theorem nothingDueNothingDone : Obligations.NothingDueNothingDone := by
  intro s p u l
  exact ⟨State.exec_attach_idle, State.exec_detach_idle, State.exec_pathCloseComplete_idle, State.exec_closeDeadline_idle,
    State.exec_settleDeadline_idle, State.exec_transitionDeadline_idle, State.exec_leaseExpiry_idle, State.exec_renewalPoint_idle,
    State.exec_nextAttempt_idle, fun h => State.ite_idle (by rw [h]; exact Bool.false_ne_true) _, State.exec_recallDeadline_idle,
    State.exec_overdrawWindowEnd_idle, State.exec_recoveryDeadline_idle, State.exec_watchWindowEnd_idle, State.exec_frameSendStart_idle,
    State.exec_sendAgain_idle, State.exec_openingHelloSend_idle,
    fun h => ⟨State.exec_frameSendEnd_idle h, State.ite_idle (State.not_sending h) _, State.ite_idle (State.not_sending h) _⟩,
    State.exec_linkDisturbance_idle, State.exec_breakEnd_idle, State.exec_idleFound_idle, State.exec_idleWaitExpiry_idle,
    State.exec_replyDeadline_idle, State.exec_openingDeadline_idle,
    fun h => State.ite_idle (by rw [State.assemblyOverdue, h]; exact Bool.false_ne_true) _⟩

end Sys2Proof.Machine
end

section
/-! PROOF. A partner frame read back from the words a partner sends for it (O10): each field of a word is the part of the
concatenation it was put in. -/

namespace Sys2Proof.Machine
open Sys2Proof

/-! ## The fields of a header -/

section
variable (kind : BitVec 4) (n : Nat) (scale : BitVec 2) (strain : Bool) (tag : Tag)

theorem header_kind : (header kind n scale strain tag).extractLsb' 12 4 = kind := by
  rw [header]
  erw [BitVec.extractLsb'_append_eq_of_le (by decide), BitVec.extractLsb'_append_eq_of_le (by decide),
    BitVec.extractLsb'_append_eq_of_le (by decide)]
  exact BitVec.extractLsb'_append_eq_left

theorem header_scale : (header kind n scale strain tag).extractLsb' 6 2 = scale := by
  rw [header]
  erw [BitVec.extractLsb'_append_eq_of_le (by decide), BitVec.extractLsb'_append_eq_of_le (by decide)]
  exact BitVec.extractLsb'_append_eq_right

theorem header_tag : (header kind n scale strain tag).extractLsb' 0 5 = tag := BitVec.extractLsb'_append_eq_right

theorem header_strain : (header kind n scale strain tag).getLsbD 5 = strain := by
  rw [header]
  erw [BitVec.getLsbD_append, BitVec.getLsbD_append]
  simp

theorem headerLength_header (h : n ≤ 14) : headerLength (header kind n scale strain tag) = n := by
  have length : (header kind n scale strain tag).extractLsb' 8 4 = BitVec.ofNat 4 n := by
    rw [header]
    erw [BitVec.extractLsb'_append_eq_of_le (by decide : 5 ≤ 8), BitVec.extractLsb'_append_eq_of_le (by decide : 1 ≤ 3),
      BitVec.extractLsb'_append_eq_of_le (by decide : 2 ≤ 2)]
    exact BitVec.extractLsb'_append_eq_right
  rw [headerLength, length, BitVec.toNat_ofNat, Nat.mod_eq_of_lt (by omega)]

end

/-! ## The fields of a payload word -/

/-- A field alone in a word is read from its low bits. -/
theorem extractLsb'_setWidth_self {k : Nat} (x : BitVec k) (h : k ≤ 16) : (x.setWidth 16).extractLsb' 0 k = x := by
  apply BitVec.eq_of_getLsbD_eq
  intro i hi
  simp [hi, show i < 16 by omega]

theorem encodeEntry_length (e : RawEntry) : (encodeEntry e).length = entryWords e := by
  cases h : e.burst <;> simp [encodeEntry, entryWords, h]

/-- The words of an entry give the entry back, whatever follows them. -/
theorem parseEntries_encodeEntry (e : RawEntry) (fuel : Nat) (rest : List Word) :
    parseEntries (fuel + 1) (encodeEntry e ++ rest) = (parseEntries fuel rest).map (e :: ·) := by
  obtain ⟨id, span, low, high, ceiling, lease, burst⟩ := e
  have first (b : Bool) : let w : Word := id ++ BitVec.ofBool span ++ BitVec.ofBool b ++ low
      w.extractLsb' 13 3 = id ∧ w.getLsbD 12 = span ∧ w.extractLsb' 0 11 = low ∧ w.getLsbD 11 = b := by
    refine ⟨?_, ?_, BitVec.extractLsb'_append_eq_right, ?_⟩
    · erw [BitVec.extractLsb'_append_eq_of_le (by decide), BitVec.extractLsb'_append_eq_of_le (by decide)]
      exact BitVec.extractLsb'_append_eq_left
    · erw [BitVec.getLsbD_append, BitVec.getLsbD_append, BitVec.getLsbD_append]
      simp
    · erw [BitVec.getLsbD_append, BitVec.getLsbD_append]
      simp
  have second : (lease.extractLsb' 6 5 ++ high : Word).extractLsb' 11 5 = lease.extractLsb' 6 5 ∧
      (lease.extractLsb' 6 5 ++ high : Word).extractLsb' 0 11 = high :=
    ⟨BitVec.extractLsb'_append_eq_left, BitVec.extractLsb'_append_eq_right⟩
  have third : (lease.extractLsb' 0 6 ++ ceiling : Word).extractLsb' 10 6 = lease.extractLsb' 0 6 ∧
      (lease.extractLsb' 0 6 ++ ceiling : Word).extractLsb' 0 10 = ceiling :=
    ⟨BitVec.extractLsb'_append_eq_left, BitVec.extractLsb'_append_eq_right⟩
  have leases : lease.extractLsb' 6 5 ++ lease.extractLsb' 0 6 = lease := BitVec.extractLsb'_append_extractLsb'
  cases burst with
  | none =>
    obtain ⟨hid, hspan, hlow, hburst⟩ := first false
    simp only [encodeEntry, Option.isSome_none, List.append_nil, List.cons_append, List.nil_append, parseEntries, hid, hspan,
      hlow, hburst, second, third, leases, Bool.false_eq_true, if_false]
  | some b =>
    obtain ⟨length, current⟩ := b
    obtain ⟨hid, hspan, hlow, hburst⟩ := first true
    have fourth : (length ++ current : Word).extractLsb' 10 6 = length ∧ (length ++ current : Word).extractLsb' 0 10 = current :=
      ⟨BitVec.extractLsb'_append_eq_left, BitVec.extractLsb'_append_eq_right⟩
    simp only [encodeEntry, Option.isSome_some, List.cons_append, List.nil_append, parseEntries, hid, hspan, hlow, hburst,
      second, third, fourth, leases, if_true]

theorem parseEntries_encoded (entries : List RawEntry) : ∀ fuel, entries.length ≤ fuel →
    parseEntries fuel (entries.map encodeEntry).flatten = some entries := by
  induction entries with
  | nil => intro fuel _; cases fuel <;> rfl
  | cons e rest ih =>
    rintro (_ | fuel) h
    · simp at h
    · rw [List.map_cons, List.flatten_cons, parseEntries_encodeEntry, ih fuel (by simpa using h)]
      rfl

theorem length_le_encoded (entries : List RawEntry) : entries.length ≤ (entries.map encodeEntry).flatten.length := by
  induction entries with
  | nil => exact Nat.le_refl 0
  | cons e rest ih =>
    have words : 3 ≤ (encodeEntry e).length := by rw [encodeEntry_length, entryWords]; split <;> decide
    rw [List.map_cons, List.flatten_cons, List.length_append, List.length_cons]
    omega

theorem encoded_length (entries : List RawEntry) :
    (entries.map encodeEntry).flatten.length = (entries.map entryWords).sum := by
  rw [List.length_flatten, List.map_map]
  exact congrArg List.sum (List.map_congr_left fun e _ => encodeEntry_length e)

/-! ## Bodies and frames -/

theorem bodyPayload_length {body : PartnerBody} (h : bodyFieldsOk body = true) : (bodyPayload body).length ≤ 14 := by
  cases body with
  | tiers scale total index last entries =>
    have := of_decide_eq_true h
    simp only [bodyPayload, List.length_cons, encoded_length]
    omega
  | _ => exact of_decide_eq_true rfl

theorem parseBody_bodyPayload (body : PartnerBody) :
    parseBody (bodyKind body).toNat (bodyScale body) (bodyPayload body) = some body := by
  match body with
  | .tiers scale total index last entries =>
    let w : Word := 0#10 ++ BitVec.ofBool last ++ index ++ total
    have htotal : w.extractLsb' 0 3 = total := BitVec.extractLsb'_append_eq_right
    have hindex : w.extractLsb' 3 2 = index := by
      erw [BitVec.extractLsb'_append_eq_of_le (by decide)]
      exact BitVec.extractLsb'_append_eq_right
    have hlast : w.getLsbD 5 = last := by
      erw [BitVec.getLsbD_append, BitVec.getLsbD_append, BitVec.getLsbD_append]
      simp
    show (parseEntries _ _).map (PartnerBody.tiers scale (w.extractLsb' 0 3) (w.extractLsb' 3 2) (w.getLsbD 5)) = _
    rw [parseEntries_encoded entries _ (length_le_encoded entries), htotal, hindex, hlast]
    rfl
  | .grant tier voltage current lease =>
    show some (PartnerBody.grant _ _ _ _) = _
    rw [extractLsb'_setWidth_self tier (by decide), extractLsb'_setWidth_self voltage (by decide),
      extractLsb'_setWidth_self current (by decide)]
  | .decline reason => exact congrArg (some ∘ PartnerBody.decline) (extractLsb'_setWidth_self reason (by decide))
  | .settled => rfl
  | .renewed lease => rfl
  | .recall ceiling deadline =>
    exact congrArg (fun c => some (PartnerBody.recall c deadline)) (extractLsb'_setWidth_self ceiling (by decide))
  | .fault code => exact congrArg (some ∘ PartnerBody.fault) (extractLsb'_setWidth_self code (by decide))

/-- Settles O10: the header gives back its fields and the payload its body. -/
theorem partnerFramesReadBack : Obligations.PartnerFramesReadBack := by
  intro f ok
  have short := bodyPayload_length ok
  simp only [readFrame, encodeFrame, header_kind, header_scale, header_strain, header_tag,
    headerLength_header _ _ _ _ _ short, parseBody_bodyPayload, ok, short, decide_true, Bool.and_true, if_true]

end Sys2Proof.Machine

end

section
/-! PROOF. The command port: a write of a command's bytes is the command's row (O11), and what the transport does around it (O60). -/

namespace Sys2Proof.Machine
open Sys2Proof

/-! ## The bytes of a command -/

theorem word_wordBytes (w : Word) : word (w.setWidth 8) (w.extractLsb' 8 8) = w := by
  have low : w.setWidth 8 = w.extractLsb' 0 8 := (BitVec.setWidth_eq_extractLsb' (by decide))
  rw [word, low]
  exact BitVec.extractLsb'_append_extractLsb'

/-- The bytes of a command are read back as the command. -/
theorem parseWrite_bytes (h : HostCommand) : parseWrite h.bytes = .command h := by
  cases h with
  | bid _ _ voltage current lease =>
    show WriteForm.command (.bid _ _ (word _ _) (word _ _) (word _ _)) = _
    rw [word_wordBytes, word_wordBytes, word_wordBytes]
  | amend _ _ voltage current lease =>
    show WriteForm.command (.amend _ _ (word _ _) (word _ _) (word _ _)) = _
    rw [word_wordBytes, word_wordBytes, word_wordBytes]
  | setClaim _ request floor _ =>
    show WriteForm.command (.setClaim _ (word _ _) (word _ _) _) = _
    rw [word_wordBytes, word_wordBytes]
  | setPolicy _ _ value =>
    show WriteForm.command (.setPolicy _ _ (word _ _)) = _
    rw [word_wordBytes]
  | clearFlags _ mask =>
    show WriteForm.command (.clearFlags _ (word _ _)) = _
    rw [word_wordBytes]
  | _ => rfl

/-- The codes of the command table with the number of their parameter bytes (section 11.2). -/
def formLengths : List (Nat × Nat) :=
  [(1, 1), (2, 1), (3, 1), (4, 2), (5, 1), (16, 2), (17, 2), (18, 8), (19, 8), (20, 1), (21, 2), (32, 6), (33, 1), (34, 4), (35, 3),
    (36, 2), (37, 2), (48, 1), (49, 0), (50, 3), (63, 0)]

/-- A code of the table takes no other number of parameter bytes: the number of bytes decides which of its rows could match. -/
theorem commandOf_wrong_length {code n : Nat} {args : List Byte} (h : (code, n) ∈ formLengths) (hn : args.length ≠ n) :
    commandOf code args = none := by
  simp only [formLengths, List.mem_cons, Prod.mk.injEq, List.not_mem_nil, or_false] at h
  rcases args with _ | ⟨a, _ | ⟨b, _ | ⟨c, _ | ⟨d, _ | ⟨e, _ | ⟨f, _ | ⟨g, _ | ⟨x, _ | ⟨y, rest⟩⟩⟩⟩⟩⟩⟩⟩⟩
  all_goals
    casesm* _ ∨ _, _ ∧ _
    all_goals
      subst code n
      first | rfl | exact absurd rfl hn

/-- A code outside the table has no row. The rows' own case split goes too deep to unfold by cases, so its tests of the code are
refuted one by one. -/
theorem commandOf_unknown {code : Nat} (h : code ∉ knownCodes) (args : List Byte) : commandOf code args = none := by
  simp only [knownCodes, List.mem_cons, List.not_mem_nil, or_false, not_or] at h
  unfold commandOf commandOf.match_1
  simp only [h, dif_neg, not_false_eq_true]

theorem knownCodes_of_form {code n : Nat} (h : (code, n) ∈ formLengths) : code ∈ knownCodes := by
  have known : ∀ x ∈ formLengths, x.1 ∈ knownCodes := by decide
  exact known _ h

theorem parseWrite_unknown {code : Byte} (h : code.toNat ∉ knownCodes) (rest : List Byte) : parseWrite (code :: rest) = .unknown := by
  have other : ¬ knownCodes.contains code.toNat = true := by simpa using h
  simp only [parseWrite, commandOf_unknown h, if_neg other]

theorem parseWrite_wrongForm {code : Byte} {rest : List Byte} {n : Nat} (h : (code.toNat, n) ∈ formLengths) (hn : rest.length ≠ n) :
    parseWrite (code :: rest) = .wrongForm := by
  have known : knownCodes.contains code.toNat = true := by simpa using knownCodes_of_form h
  simp only [parseWrite, commandOf_wrong_length h hn, if_pos known]

/-- Of the codes of the table those of the queries leave a cold state (R172). -/
theorem codeEndsCold_iff {code : Byte} {n : Nat} (h : (code.toNat, n) ∈ formLengths) :
    codeEndsCold code = true ↔ code.toNat ∉ [1, 2, 3, 4, 5, 49] := by
  have known := knownCodes_of_form h
  simp only [codeEndsCold, List.contains_iff_mem, known, readingCodes, Bool.and_eq_true, true_and, Bool.not_eq_true',
    ← Bool.not_eq_true]

/-! ## The taking of a command -/

namespace State

variable {s : State} {c : Instr} {h : HostCommand} {a : BitVec 7}

/-- A command of the host is taken (R175). -/
theorem exec_of_hostCommand (hc : hostCommandOf c = some h) (s : State) : exec c s = .next (s.takeCommand h) := by
  cases c with
  | _ => cases hc <;> rfl

theorem exec_of_listening (hs : s.Listening) (hc : hostCommandOf c = some h) : exec c s = .next (respond (s.runCommand h)) := by
  rw [exec_of_hostCommand hc, takeCommand_of_listening hs]

theorem takeCommand_of_reset (hs : s.straps = none) (h : HostCommand) : s.takeCommand h = s := if_pos (by rw [hs]; rfl)

theorem takeCommand_of_straps (hs : s.straps.isSome = true) (h : HostCommand) :
    s.takeCommand h = respond ((if h.endsCold then s.coldTakeover else s).runCommand h) := by
  have sampled : ¬ s.straps.isNone = true := by rw [← Option.not_isSome, hs]; exact Bool.false_ne_true
  exact if_neg sampled

theorem straps_of_targetAddress (ha : s.targetAddress = some a) : s.straps.isSome = true := by
  rw [targetAddress, Option.map_eq_some_iff] at ha
  obtain ⟨t, ht, -⟩ := ha
  rw [ht]
  rfl

theorem exec_writeTaken (ha : s.targetAddress = some a) (bytes : List Byte) : exec (.writeTaken a bytes) s = .next (s.takeWrite bytes) :=
  congrArg Host.Outcome.next (if_pos ha)

theorem exec_writeTaken_elsewhere (ha : s.targetAddress ≠ some a) (bytes : List Byte) : exec (.writeTaken a bytes) s = .next s :=
  congrArg Host.Outcome.next (if_neg ha)

theorem exec_responseRead (ha : s.targetAddress = some a) (n : Nat) : exec (.responseRead a n) s = .next (s.takeRead n) :=
  congrArg Host.Outcome.next (if_pos ha)

theorem exec_responseRead_elsewhere (ha : s.targetAddress ≠ some a) (n : Nat) : exec (.responseRead a n) s = .next s :=
  congrArg Host.Outcome.next (if_neg ha)

theorem targetAddress_of_reset (hs : s.straps = none) : s.targetAddress ≠ some a := by
  rw [targetAddress, hs]
  exact nofun

/-- A write whose bytes are a command's is the taking of the command. -/
theorem takeWrite_command {bytes : List Byte} (hb : parseWrite bytes = .command h) : s.takeWrite bytes = s.takeCommand h := by
  simp only [takeWrite, hb]

theorem exec_writeTaken_command (hs : s.Listening) (ha : s.targetAddress = some a) {bytes : List Byte}
    (hb : parseWrite bytes = .command h) : exec (.writeTaken a bytes) s = .next (respond (s.runCommand h)) := by
  rw [exec_writeTaken ha, takeWrite_command hb, takeCommand_of_listening hs]

theorem takeWrite_wrongForm {code : Byte} {rest : List Byte} (hb : parseWrite (code :: rest) = .wrongForm) :
    s.takeWrite (code :: rest) = (if codeEndsCold code then s.coldTakeover else s).answered .refusedRange .empty := by
  simp only [takeWrite, hb, List.headD_cons]
  rfl

/-! ## Numbers that no row carries -/

theorem modeOf_over {b : Byte} (h : 2 < b.toNat) : modeOf b = none := by
  unfold modeOf
  split
  case h_4 => rfl
  all_goals omega

theorem requestOf_over {b : Byte} (h : 1 < b.toNat) : requestOf b = none := by
  unfold requestOf
  split
  case h_3 => rfl
  all_goals omega

theorem trimModeOf_over {b : Byte} (h : 1 < b.toNat) : trimModeOf b = none := by
  unfold trimModeOf
  split
  case h_3 => rfl
  all_goals omega

theorem parameterOf_over {b : Byte} (h : b = 0 ∨ 13 < b.toNat) : parameterOf b = none := by
  have out : b.toNat = 0 ∨ 13 < b.toNat := h.imp_left (fun h => by rw [h]; rfl)
  unfold parameterOf
  split
  case h_14 => rfl
  all_goals omega

theorem setMode_over {value : Byte} (h : 2 < value.toNat) (port : Byte) : s.setMode port value = .refuse s .refusedRange := by
  rw [setMode, modeOf_over h]
  cases portOf port <;> rfl

theorem setPath_over {value : Byte} (h : 1 < value.toNat) (port : Byte) : s.setPath port value = .refuse s .refusedRange := by
  rw [setPath, requestOf_over h]
  cases portOf port <;> rfl

theorem setTrim_over {value : Byte} (h : 1 < value.toNat) (port steps : Byte) :
    s.setTrim port value steps = .refuse s .refusedRange := by
  rw [setTrim, trimModeOf_over h]
  cases portOf port <;> rfl

theorem setPolicy_over {value : Byte} (h : value = 0 ∨ 13 < value.toNat) (port : Byte) (w : Word) :
    s.setPolicy value port w = .refuse s .refusedRange := by
  rw [setPolicy, parameterOf_over h]

/-! ## The end of a cold state -/

theorem coldTakeover_of_cold (hc : s.cold ≠ .idle) :
    s.coldTakeover = { s with
      cold := .idle, coldPort := none, deviceFlags := s.deviceFlags ||| oneBit DeviceFlag.coldDone.bit } := if_neg hc

end State

open State

/-- Settles O11: the bytes are read back as the command, and a number outside its list stops the command at its first check. -/
theorem writtenCommandIsItsRow : Obligations.WrittenCommandIsItsRow := by
  refine ⟨fun s c h a hc ha => ?_, fun s a port value steps low high hs ha => ⟨fun hv => ?_, fun hv => ⟨?_, ?_⟩, fun hv => ?_⟩⟩
  · refine ⟨s.takeCommand h, ?_, exec_of_hostCommand hc s, ?_⟩
    · rw [exec_writeTaken ha, takeWrite_command (parseWrite_bytes h)]
    · rw [takeCommand_of_straps (straps_of_targetAddress ha)]
      rfl
  · rw [exec_writeTaken_command hs ha (h := .setMode port value) rfl, runCommand, setMode_over hv, respond_refuse]
  · rw [exec_writeTaken_command hs ha (h := .setPath port value) rfl, runCommand, setPath_over hv, respond_refuse]
  · rw [exec_writeTaken_command hs ha (h := .setTrim port value steps) rfl, runCommand, setTrim_over hv, respond_refuse]
  · rw [exec_writeTaken_command hs ha (h := .setPolicy value port (word low high)) rfl, runCommand, setPolicy_over hv,
      respond_refuse]

end Sys2Proof.Machine

end

section
/-! PROOF. The queries and the frozen copies (O57, O58), and the transport around every command (O60). -/

namespace Sys2Proof.Machine
open Sys2Proof

/-! ## Bits of a mask -/

/-- The high bits of a byte are clear exactly when it is small. -/
theorem extractLsb'_eq_zero_iff (b : Byte) {k n : Nat} (h : k + n = 8) : b.extractLsb' k n = 0#n ↔ b.toNat < 2 ^ k := by
  have small : b.toNat / 2 ^ k < 2 ^ n := by
    apply Nat.div_lt_of_lt_mul
    rw [← Nat.pow_add, h]
    exact b.isLt
  have value : (b.extractLsb' k n).toNat = b.toNat / 2 ^ k := by
    rw [BitVec.extractLsb'_toNat, Nat.shiftRight_eq_div_pow, Nat.mod_eq_of_lt small]
  rw [← BitVec.toNat_inj, value, BitVec.toNat_ofNat, Nat.zero_mod, Nat.div_eq_zero_iff_lt (Nat.two_pow_pos k)]

/-! ## The copies of a port -/

/-- What FREEZE makes of a port (R180). -/
def PortState.freezeAt (ports parts : Byte) (now : Tick) (p : Port) (u : PortState) : PortState :=
  { u with
    frozenRecord :=
      if ports.getLsbD p.index && parts.getLsbD 0 then
        some (u.frozenRecord.getD { record := u.contract.record.map (Record.view p), tick := now })
      else u.frozenRecord
    frozenStatus :=
      if ports.getLsbD p.index && parts.getLsbD 1 then
        some (u.frozenStatus.getD
          { attach := u.front.attach, link := u.link.state, mode := u.front.mode, voltage := u.front.voltage,
            current := u.front.current, pathRequest := u.front.pathRequest, path := u.front.path.view,
            trim := (u.contract.record.map Record.trim).getD 0, hold := u.contract.hold,
            lastRetirement := u.contract.lastRetirement, tick := now })
      else u.frozenStatus }

/-- The four low bits of a port's byte in the held map, and its four high ones (R180). -/
theorem heldByte_bits (u v : PortState) :
    (State.heldByte u v).getLsbD 0 = v.frozenRecord.isSome ∧ (State.heldByte u v).getLsbD 1 = v.frozenStatus.isSome ∧
      (State.heldByte u v).getLsbD 2 = (v.frozenRecord.isSome && u.frozenRecord.isNone) ∧
      (State.heldByte u v).getLsbD 3 = (v.frozenStatus.isSome && u.frozenStatus.isNone) ∧
      (State.heldByte u v).extractLsb' 4 4 = 0 := by
  unfold State.heldByte
  generalize v.frozenRecord.isSome = r
  generalize v.frozenStatus.isSome = t
  generalize u.frozenRecord.isNone = a
  generalize u.frozenStatus.isNone = b
  revert r t a b
  decide

namespace State

variable {s : State} {c : Instr} {h : HostCommand} {p : Port}

theorem exec_query (hs : s.straps.isSome = true) (hc : hostCommandOf c = some h) (hq : h.endsCold = false) :
    exec c s = .next (respond (s.runCommand h)) := by
  rw [exec_of_hostCommand hc, takeCommand_of_straps hs, hq]
  rfl

theorem respond_give (s : State) (d : ResponseData) : respond (.give s d) = s.answered .done d := rfl

/-! ## What the queries show -/

theorem queryRecord_port {b : Byte} (hb : portOf b = some p) :
    s.queryRecord b = .give s ((s.record p).elim .noRecord (fun k => .record (k.view p))) := by
  simp only [queryRecord, hb, recordView]
  cases s.record p <;> rfl

theorem queryTiers_port {b : Byte} (hb : portOf b = some p) : s.queryTiers b = .give s (.tiers (s.tiersView p)) := by
  simp only [queryTiers, hb]

theorem queryStatus_port {b : Byte} (hb : portOf b = some p) : s.queryStatus b = .give s (.portStatus (s.portStatus p)) := by
  simp only [queryStatus, hb]

theorem queryRecord_refused {b : Byte} (hb : portOf b = none) : s.queryRecord b = .refuse s .refusedRange := by
  simp only [queryRecord, hb]

theorem queryTiers_refused {b : Byte} (hb : portOf b = none) : s.queryTiers b = .refuse s .refusedRange := by
  simp only [queryTiers, hb]

theorem queryStatus_refused {b : Byte} (hb : portOf b = none) (h4 : b ≠ 4) : s.queryStatus b = .refuse s .refusedRange := by
  simp only [queryStatus, hb, if_neg h4]

theorem eligible_eq (t : Tier) :
    s.eligible t = decide (t.low ≤ s.policy.vinHigh ∧ s.policy.vinLow ≤ t.high ∧ 10 ≤ t.ceiling) :=
  Bool.eq_iff_iff.mpr ((eligible_iff s t).trans decide_eq_true_iff.symm)

theorem tiersView_eq (s : State) (p : Port) :
    s.tiersView p =
      { held := (s.port p).catalogue.held, arrival := ((s.port p).catalogue.arrival.map (BitVec.ofNat 32)).getD 0
        outcome := (s.port p).catalogue.outcome
        tiers := (s.port p).catalogue.tiers.map (fun t =>
          { tier := t, eligible := decide (t.low ≤ s.policy.vinHigh ∧ s.policy.vinLow ≤ t.high ∧ 10 ≤ t.ceiling) }) } := by
  simp only [← eligible_eq]
  rfl

theorem benchedHandle_eq (s : State) (h : Handle) :
    s.benchedHandle h = (s.recordOfHandle h).any (fun k => k.state = .benched) := by
  rw [benchedHandle]
  cases s.recordOfHandle h <;> rfl

/-! ## FREEZE and READ FROZEN -/

theorem freezePort_eq (a b : Byte) (s : State) (p : Port) : freezePort a b s p = s.modPort p (PortState.freezeAt a b s.tick p) := by
  unfold freezePort PortState.freezeAt
  cases a.getLsbD p.index with
  | false => exact (modPort_id s p rfl).symm
  | true =>
    cases b.getLsbD 0 with
    | false =>
      cases b.getLsbD 1 with
      | false => exact (modPort_id s p rfl).symm
      | true =>
        show s.fillStatus p = _
        rw [fillStatus]
        exact modPort_congr s p (by rfl)
    | true =>
      cases b.getLsbD 1 with
      | false =>
        show s.fillRecord p = _
        rw [fillRecord]
        exact modPort_congr s p (by rfl)
      | true =>
        show (s.fillRecord p).fillStatus p = _
        simp only [fillStatus, fillRecord, frozenStatusOf, trimSteps, record, port_modPort_self, modPort_modPort]
        exact modPort_congr s p rfl

theorem freezePorts_eq (a b : Byte) (s : State) :
    Port.all.foldl (freezePort a b) s =
      { s with ports := ⟨s.ports.p0.freezeAt a b s.tick .p0, s.ports.p1.freezeAt a b s.tick .p1, s.ports.p2.freezeAt a b s.tick .p2,
          s.ports.p3.freezeAt a b s.tick .p3⟩ } := by
  simp only [Port.all, List.foldl_cons, List.foldl_nil, freezePort_eq]
  rfl

theorem freezePorts_port (a b : Byte) (s : State) (p : Port) :
    (Port.all.foldl (freezePort a b) s).port p = (s.port p).freezeAt a b s.tick p := by
  rw [freezePorts_eq]
  cases p <;> rfl

theorem heldMap_get (s t : State) (p : Port) : (heldMap s t).get p = heldByte (s.port p) (t.port p) := by cases p <;> rfl

theorem freeze_refused {a b : Byte} (h : 16 ≤ a.toNat ∨ 4 ≤ b.toNat) : s.freeze a b = .refuse s .refusedRange := by
  have masks : a.extractLsb' 4 4 ≠ 0#4 ∨ b.extractLsb' 2 6 ≠ 0#6 := by
    rw [Ne, Ne, extractLsb'_eq_zero_iff a rfl, extractLsb'_eq_zero_iff b rfl]
    omega
  exact if_pos masks

theorem freeze_taken {a b : Byte} (ha : a.toNat < 16) (hb : b.toNat < 4) :
    s.freeze a b = .give (Port.all.foldl (freezePort a b) s) (.heldMap (heldMap s (Port.all.foldl (freezePort a b) s))) := by
  have masks : ¬ (a.extractLsb' 4 4 ≠ 0#4 ∨ b.extractLsb' 2 6 ≠ 0#6) := by
    rw [Ne, Ne, extractLsb'_eq_zero_iff a rfl, extractLsb'_eq_zero_iff b rfl]
    omega
  exact if_neg masks

theorem readFrozen_refused {b : Byte} (hb : portOf b = none) : s.readFrozen b = .refuse s .refusedRange := by
  simp only [readFrozen, hb]

theorem readFrozen_port {b : Byte} (hb : portOf b = some p) : s.readFrozen b = .give (s.takeFrozen p).1 (.frozen (s.takeFrozen p).2) := by
  simp only [readFrozen, hb]

end State

open State

/-- Settles O57: each query answers a view of the state that stands, field by field the one stated. -/
theorem queriesAnswer : Obligations.QueriesAnswer := by
  intro s hs
  refine ⟨fun b hb => ⟨?_, ?_, fun h4 => ?_⟩, fun b p hb => ⟨fun hr => ?_, fun k hr => ?_, ?_, ?_⟩, ?_, ?_⟩
  · rw [exec_query hs (h := .queryRecord b) rfl rfl, runCommand, queryRecord_refused hb, respond_refuse]
  · rw [exec_query hs (h := .queryTiers b) rfl rfl, runCommand, queryTiers_refused hb, respond_refuse]
  · rw [exec_query hs (h := .queryStatus b) rfl rfl, runCommand, queryStatus_refused hb h4, respond_refuse]
  · rw [exec_query hs (h := .queryRecord b) rfl rfl, runCommand, queryRecord_port hb, hr, respond_give]
    rfl
  · rw [exec_query hs (h := .queryRecord b) rfl rfl, runCommand, queryRecord_port hb, hr, respond_give]
    rfl
  · rw [exec_query hs (h := .queryTiers b) rfl rfl, runCommand, queryTiers_port hb, respond_give, tiersView_eq]
    rfl
  · rw [exec_query hs (h := .queryStatus b) rfl rfl, runCommand, queryStatus_port hb, respond_give]
    rfl
  · rw [exec_query hs (h := .queryStatus 4) rfl rfl]
    simp only [← benchedHandle_eq]
    rfl
  · rw [exec_query hs (h := .readFlags) rfl rfl]
    rfl

/-- Settles O58: a freeze fills each port's named slots from the port as it stands, and a read empties the slot it shows. -/
theorem freezeAndReadFrozen : Obligations.FreezeAndReadFrozen := by
  intro s hs
  refine ⟨fun a b => ⟨fun hover => ?_, fun ha hb => ?_⟩, fun b hb => ?_, fun b p hb => ⟨fun c hc => ?_, fun c hn hc => ?_, fun hn hr => ?_⟩⟩
  · rw [exec_query hs (h := .freeze a b) rfl rfl, runCommand, freeze_refused hover, respond_refuse]
  · refine ⟨Port.all.foldl (freezePort a b) s, heldMap s (Port.all.foldl (freezePort a b) s), ?_, ?_, fun p => ?_⟩
    · rw [exec_query hs (h := .freeze a b) rfl rfl, runCommand, freeze_taken ha hb, respond_give]
    · rw [freezePorts_eq]
    · rw [heldMap_get, freezePorts_port]
      obtain ⟨held, statusHeld, filled, statusFilled, high⟩ := heldByte_bits (s.port p) ((s.port p).freezeAt a b s.tick p)
      refine ⟨rfl, held, statusHeld, filled.trans ?_, statusFilled.trans ?_, high⟩
      · unfold PortState.freezeAt
        cases (a.getLsbD p.index && b.getLsbD 0) <;> cases (s.port p).frozenRecord <;> rfl
      · unfold PortState.freezeAt
        cases (a.getLsbD p.index && b.getLsbD 1) <;> cases (s.port p).frozenStatus <;> rfl
  · rw [exec_query hs (h := .readFrozen b) rfl rfl, runCommand, readFrozen_refused hb, respond_refuse]
  · rw [exec_query hs (h := .readFrozen b) rfl rfl, runCommand, readFrozen_port hb, respond_give]
    simp only [takeFrozen, hc]
  · rw [exec_query hs (h := .readFrozen b) rfl rfl, runCommand, readFrozen_port hb, respond_give]
    simp only [takeFrozen, hn, hc]
  · rw [exec_query hs (h := .readFrozen b) rfl rfl, runCommand, readFrozen_port hb, respond_give]
    simp only [takeFrozen, hn, hr]

/-! ## Transport -/

namespace State

variable {s : State} {c : Instr} {h : HostCommand} {p : Port}

theorem takeFrozen_around (s : State) (p : Port) : (s.takeFrozen p).1.around = s.around := by
  unfold takeFrozen
  split
  · rfl
  · split <;> rfl

/-- A query leaves the part around the ports as it stands. -/
theorem runCommand_query_around (s : State) (hq : h.endsCold = false) : (s.runCommand h).1.around = s.around := by
  cases h
  case queryRecord b => exact congrArg State.around (queryRecord_fst s b)
  case queryTiers b => exact congrArg State.around (queryTiers_fst s b)
  case queryStatus b => exact congrArg State.around (queryStatus_fst s b)
  case freeze a b =>
    rw [runCommand, freeze]
    split
    · rfl
    · rw [freezePorts_eq]
      rfl
  case readFrozen b =>
    rw [runCommand, readFrozen]
    split
    · exact takeFrozen_around s _
    · rfl
  case readFlags => rfl
  all_goals cases hq

theorem exec_query_keeps (hs : s.straps.isSome = true) (hc : hostCommandOf c = some h) (hq : h.endsCold = false) :
    ∃ t : State, exec c s = .next t ∧ t.cold = s.cold ∧ t.coldPort = s.coldPort ∧ t.deviceFlags = s.deviceFlags := by
  have same := runCommand_query_around s hq
  have cold : (s.runCommand h).1.cold = s.cold := (congrArg State.cold same :)
  have port : (s.runCommand h).1.coldPort = s.coldPort := (congrArg State.coldPort same :)
  have flags : (s.runCommand h).1.deviceFlags = s.deviceFlags := (congrArg State.deviceFlags same :)
  exact ⟨_, exec_query hs hc hq, cold, port, flags⟩

/-- A command that ends a cold state acts as it does once the state has ended. -/
theorem exec_takesOver (hs : s.straps.isSome = true) (hc : hostCommandOf c = some h) (hq : h.endsCold = true) (hcold : s.cold ≠ .idle) :
    exec c s = exec c
      { s with cold := .idle, coldPort := none, deviceFlags := s.deviceFlags ||| oneBit DeviceFlag.coldDone.bit } := by
  have listening : Listening
      { s with cold := .idle, coldPort := none, deviceFlags := s.deviceFlags ||| oneBit DeviceFlag.coldDone.bit } := ⟨hs, rfl⟩
  rw [exec_of_listening listening hc, exec_of_hostCommand hc, takeCommand_of_straps hs, if_pos hq, coldTakeover_of_cold hcold]

theorem takeWrite_nil (s : State) : s.takeWrite [] = s := rfl

theorem takeWrite_unknown {code : Byte} (hc : code.toNat ∉ knownCodes) (rest : List Byte) :
    s.takeWrite (code :: rest) = s.answered .unknown .empty := by
  simp only [takeWrite, parseWrite_unknown hc, respond_refuse]

theorem exec_meterSample_of_reset (hs : s.straps = none) (r : PerPort Reading) : exec (.meterSample r) s = .next s :=
  if_pos (by rw [hs]; rfl)

theorem takeRead_eq (s : State) (n : Nat) :
    s.takeRead n = { s with
      response := if n = 0 then s.response else none
      lastRead :=
        let sent : List Byte := match s.response with
          | some r => r.status.code :: BitVec.ofNat 8 r.data.bytes.length :: r.data.bytes
          | none => [0x0F, 0]
        sent.take n ++ List.replicate (n - sent.length) 0 } := by
  have sent : bufferBytes s.response = match s.response with
      | some r => r.status.code :: BitVec.ofNat 8 r.data.bytes.length :: r.data.bytes
      | none => [0x0F, 0] := by cases s.response <;> rfl
  rw [takeRead, readBytes, sent]

end State

/-- The queries of the command set: the commands that leave a cold state as it stands (R172). -/
def IsQuery (c : Instr) : Prop :=
  c = .queryDeviceStatus ∨ c = .readFlags ∨ (∃ b, c = .queryRecord b ∨ c = .queryTiers b ∨
    c = .queryPortStatus b ∨ c = .readFrozen b) ∨ ∃ m q, c = .freeze m q

theorem endsCold_of_query {c : Instr} {h : HostCommand} (hc : hostCommandOf c = some h) (hq : IsQuery c) : h.endsCold = false := by
  rcases hq with rfl | rfl | ⟨b, rfl | rfl | rfl | rfl⟩ | ⟨m, q, rfl⟩ <;> cases hc <;> rfl

theorem isQuery_of_keepsCold {c : Instr} {h : HostCommand} (hc : hostCommandOf c = some h) (he : h.endsCold = false) : IsQuery c := by
  cases c
  case queryDeviceStatus => exact .inl rfl
  case readFlags => exact .inr (.inl rfl)
  case queryRecord b => exact .inr (.inr (.inl ⟨b, .inl rfl⟩))
  case queryTiers b => exact .inr (.inr (.inl ⟨b, .inr (.inl rfl)⟩))
  case queryPortStatus b => exact .inr (.inr (.inl ⟨b, .inr (.inr (.inl rfl))⟩))
  case readFrozen b => exact .inr (.inr (.inl ⟨b, .inr (.inr (.inr rfl))⟩))
  case freeze m q => exact .inr (.inr (.inr ⟨m, q, rfl⟩))
  all_goals
    cases hc
    try cases he

/-- Settles O60: what the transport does is decided by the address, the form of the bytes and whether the command is a query. -/
theorem commandTransport : Obligations.CommandTransport := by
  refine ⟨fun s hs => ⟨fun c h hc => ?_, fun a bytes => ?_, fun a n => ?_, ?_⟩, fun s a ha => ⟨?_, ?_⟩,
    fun s a ha => ⟨?_, fun code rest hc => ?_, fun code rest n hn hlen => ⟨fun calm => ?_, fun hcold hq => ?_⟩, fun n => ?_⟩,
    fun s c h hc hs hcold => ⟨fun hq => ?_, fun hq => ?_⟩⟩
  · rw [exec_of_hostCommand hc, takeCommand_of_reset hs]
  · exact exec_writeTaken_elsewhere (targetAddress_of_reset hs) bytes
  · exact exec_responseRead_elsewhere (targetAddress_of_reset hs) n
  · exact exec_meterSample_of_reset hs
  · exact exec_writeTaken_elsewhere ha
  · exact exec_responseRead_elsewhere ha
  · rw [exec_writeTaken ha, takeWrite_nil]
  · rw [exec_writeTaken ha, takeWrite_unknown hc]
  · rw [exec_writeTaken ha, takeWrite_wrongForm (parseWrite_wrongForm hn hlen)]
    rcases calm with idle | hq
    · rw [coldTakeover_of_idle idle, ite_self]
    · rw [if_neg (fun ends => (codeEndsCold_iff hn).mp ends hq)]
  · rw [exec_writeTaken ha, takeWrite_wrongForm (parseWrite_wrongForm hn hlen), if_pos ((codeEndsCold_iff hn).mpr hq),
      coldTakeover_of_cold hcold]
  · exact (exec_responseRead ha n).trans (congrArg Host.Outcome.next (takeRead_eq s n))
  · exact exec_query_keeps hs hc (endsCold_of_query hc hq)
  · have ends : h.endsCold = true := by
      by_contra he
      exact hq (isQuery_of_keepsCold hc (Bool.eq_false_iff.mpr he))
    exact exec_takesOver hs hc ends hcold

end Sys2Proof.Machine

end

section
/-! PROOF. Parameters that only act later (O53), trim (O55), and the watch with its lock (O56). -/

namespace Sys2Proof.Machine
open Sys2Proof

theorem Record.effectiveCeiling_eq (k : Record) :
    k.effectiveCeiling = match k.recallPart with
      | some c => min (k.granted * (32 - k.trim) / 32) c.ceiling
      | none => k.granted * (32 - k.trim) / 32 := by
  cases h : k.recallPart <;> simp only [effectiveCeiling, trimmed, h]

namespace State

variable {s : State} {p : Port}

/-! ## A changed record -/

/-- A revised record is written, and its effective ceiling reported (R57, R142). -/
theorem reviseRecord_eq {r : Record} (h : s.record p = some r) (f : Record → Record) :
    s.reviseRecord p f =
      (s.modPort p (fun u => { u with contract := { u.contract with record := some (f r) } })).ceilingReported p r (f r) := by
  simp only [reviseRecord, h]
  rfl

theorem reviseRecord_none (h : s.record p = none) (f : Record → Record) : s.reviseRecord p f = s := by
  simp only [reviseRecord, h]

@[simp] theorem ceilingReported_port (s : State) (p : Port) (a b : Record) (q : Port) : (s.ceilingReported p a b).port q = s.port q := by
  unfold ceilingReported
  split
  · exact publish_port s q
  · rfl

/-! ## SET POLICY -/

/-- The checks of R179 for a parameter of a port. -/
theorem setPolicy_of_port {n : Parameter} (hn : n.perPort = true) {b : Byte} (hb : portOf b = some p) (v : Word) :
    s.setPolicy n.code b v = if inRange n v.toNat = true then .done (s.writePolicy p n v) else .refuse s .refusedRange := by
  have hlock : n ≠ .dropout := fun h => by rw [h] at hn; cases hn
  have kept : s.windowKept n v.toNat = true := by cases n <;> first | rfl | cases hn
  simp only [setPolicy, parameterOf_code, hn, if_true, hb, hlock, false_and, if_false, kept, Bool.true_eq_false]
  cases inRange n v.toNat <;> rfl

theorem setPolicy_of_no_port {n : Parameter} (hn : n.perPort = true) {b : Byte} (hb : portOf b = none) (v : Word) :
    s.setPolicy n.code b v = .refuse s .refusedRange := by
  simp only [setPolicy, parameterOf_code, hn, if_true, hb]

/-- The write of DROPOUT is the only one that the lock stops (R157, R165). -/
theorem setPolicy_dropout (b : Byte) (v : Word) :
    s.setPolicy Parameter.dropout.code b v =
      if s.lock = true then .refuse s .refusedLocked
      else if inRange .dropout v.toNat = true then .done (s.writePolicy .p0 .dropout v) else .refuse s .refusedRange := by
  have hport : portOf (if Parameter.dropout.perPort then b else 0) = some .p0 := rfl
  simp only [setPolicy, parameterOf_code, hport, true_and, windowKept, Bool.true_eq_false, if_false]
  cases inRange .dropout v.toNat <;> rfl

theorem exec_policy_of_part (hs : s.Listening) {c : Instr} {n : Parameter} {b : Byte} {v : Word}
    (hc : hostCommandOf c = some (.setPolicy n.code b v)) (hpart : n.perPort = false) (hlock : n ≠ .dropout) :
    exec c s = .next (if inRange n v.toNat = true ∧ s.windowKept n v.toNat = true then (s.writePolicy .p0 n v).answered .done .empty
      else s.answered .refusedRange .empty) := by
  rw [exec_of_listening hs hc, runCommand, setPolicy_of_part s hpart hlock, apply_ite respond, respond_done, respond_refuse]

end State

open State

/-- Settles O53: the range of each parameter decides, and its write is the storing alone. -/
theorem policyStored : Obligations.PolicyStored := by
  intro s b v hs
  refine ⟨?_, ?_, ?_, ?_, ?_, fun hb => ?_, fun p hb => ?_⟩
  · rw [exec_policy_of_part hs (n := .leaseWant) rfl rfl nofun]
    simp only [inRange, windowKept, Bool.and_eq_true, decide_eq_true_eq, and_true]
    rfl
  · rw [exec_policy_of_part hs (n := .settleTime) rfl rfl nofun]
    simp only [inRange, windowKept, Bool.and_eq_true, decide_eq_true_eq, and_true]
    rfl
  · rw [exec_policy_of_part hs (n := .overdrawMargin) rfl rfl nofun]
    simp only [inRange, windowKept, Bool.and_eq_true, decide_eq_true_eq, and_true]
    rfl
  · rw [exec_policy_of_part hs (n := .overdrawWindow) rfl rfl nofun]
    simp only [inRange, windowKept, Bool.and_eq_true, decide_eq_true_eq, and_true]
    rfl
  · rw [exec_of_listening hs (h := .setPolicy Parameter.dropout.code b v) rfl, runCommand, setPolicy_dropout, apply_ite respond,
      apply_ite respond, respond_done, respond_refuse, respond_refuse]
    simp only [inRange, Bool.and_eq_true, decide_eq_true_eq]
    rfl
  · rw [exec_of_listening hs (h := .setPolicy Parameter.rebidCauses.code b v) rfl, runCommand, setPolicy_of_no_port rfl hb,
      respond_refuse]
  · rw [exec_of_listening hs (h := .setPolicy Parameter.rebidCauses.code b v) rfl, runCommand, setPolicy_of_port rfl hb]
    rfl

/-! ## Trim -/

namespace State

variable {s : State} {p : Port}

theorem trimAuto_eq (s : State) (p : Port) :
    s.trimAuto p = s.modPort p (fun u =>
      { u with monitor := { u.monitor with
          trimMode := .auto
          recovery := if u.monitor.trimMode = .manual ∧ s.path p = .closed then some (s.ahead 1000) else u.monitor.recovery } }) := by
  have samePath (f : Monitor → Monitor) : (s.modMonitor p f).path p = s.path p := by
    rw [modMonitor_eq, path, port_modPort_self]
    rfl
  simp only [trimAuto, samePath]
  split
  case isTrue h =>
    rw [restartRecovery, modMonitor_eq, modMonitor_eq, modPort_modPort]
    exact modPort_congr s p (by rw [if_pos h]; rfl)
  case isFalse h => exact modPort_congr s p (by rw [if_neg h])

theorem setTrim_refused {b mode steps : Byte} {m : TrimMode} (hm : trimModeOf mode = some m)
    (h : portOf b = none ∨ 15 < steps.toNat) : s.setTrim b mode steps = .refuse s .refusedRange := by
  unfold setTrim
  cases hb : portOf b with
  | none => rfl
  | some p =>
    rw [hm]
    exact if_pos (h.resolve_left (fun none => by rw [hb] at none; cases none))

theorem setTrim_auto {b steps : Byte} (hb : portOf b = some p) (h : steps.toNat ≤ 15) :
    s.setTrim b 0 steps = .give (s.trimAuto p) (.trimSteps ((s.trimAuto p).trimSteps p)) := by
  unfold setTrim
  rw [hb]
  exact if_neg (Nat.not_lt.mpr h)

theorem setTrim_manual {b steps : Byte} (hb : portOf b = some p) (h : steps.toNat ≤ 15) :
    s.setTrim b 1 steps = .give (s.trimManual p steps.toNat) (.trimSteps ((s.trimManual p steps.toNat).trimSteps p)) := by
  unfold setTrim
  rw [hb]
  exact if_neg (Nat.not_lt.mpr h)

end State

/-- Settles O55: AUTO_TRIM and MANUAL_TRIM are changes of the port's monitor, MANUAL_TRIM with a revision of the record. -/
theorem trimTaken : Obligations.TrimTaken := by
  refine ⟨Record.effectiveCeiling_eq, fun s b steps hs => ⟨fun hover => ⟨?_, ?_⟩, fun p hb h => ⟨?_, fun hr => ?_, fun k hr => ?_⟩⟩⟩
  · rw [exec_of_listening hs (h := .setTrim b 0 steps) rfl, runCommand, setTrim_refused (m := .auto) rfl hover, respond_refuse]
  · rw [exec_of_listening hs (h := .setTrim b 1 steps) rfl, runCommand, setTrim_refused (m := .manual) rfl hover, respond_refuse]
  · rw [exec_of_listening hs (h := .setTrim b 0 steps) rfl, runCommand, setTrim_auto hb h, respond_give, trimAuto_eq, trimSteps, record,
      port_modPort_self]
    rfl
  · rw [exec_of_listening hs (h := .setTrim b 1 steps) rfl, runCommand, setTrim_manual hb h, respond_give, trimManual, modMonitor_eq,
      reviseRecord_none (by rw [record, port_modPort_self]; exact hr), trimSteps, record, port_modPort_self]
    show Host.Outcome.next (State.answered _ _ (.trimSteps (((s.record p).map Record.trim).getD 0))) = _
    rw [hr]
    rfl
  · rw [exec_of_listening hs (h := .setTrim b 1 steps) rfl, runCommand, setTrim_manual hb h, respond_give, trimManual, modMonitor_eq,
      reviseRecord_eq (by rw [record, port_modPort_self]; exact hr), trimSteps, record, ceilingReported_port, port_modPort_self]
    rfl

/-! ## The watch and its lock -/

namespace State

variable {s : State} {p : Port}

/-- A watch window runs on in the three cases of R158 alone. -/
theorem tidyWatch_eq (s : State) (p : Port) :
    s.tidyWatch p = s.modPort p (fun u =>
      { u with watch := { u.watch with
          window :=
            if u.front.path = .closed ∨ (u.watch.forced = true ∧ s.watchEnable = true) ∨ u.watch.repeatAt.isSome = true then u.watch.window
            else none } }) := by
  have runs : s.watchRuns p = true ↔ (s.port p).front.path = .closed ∨
      ((s.port p).watch.forced = true ∧ s.watchEnable = true) ∨ (s.port p).watch.repeatAt.isSome = true := by
    show _ ↔ s.path p = .closed ∨ _
    simp only [watchRuns, Bool.or_eq_true, decide_eq_true_eq, Bool.and_eq_true, or_assoc]
  unfold tidyWatch
  by_cases h : s.watchRuns p = true
  · rw [if_pos h, modPort_id s p (by rw [if_pos (runs.mp h)])]
  · rw [if_neg h]
    exact modPort_congr s p (by rw [if_neg (fun hr => h (runs.mpr hr))])

/-- With the watch off a port keeps its window while its path is CLOSED, and no repeat state (R157, R163). -/
theorem watchOff_eq (h : s.watchEnable = false) (p : Port) :
    s.watchOff p = s.modPort p (fun u =>
      { u with watch := { u.watch with repeatAt := none, window := if u.front.path = .closed then u.watch.window else none } }) := by
  rw [watchOff, modWatch_eq, tidyWatch_eq, modPort_modPort]
  refine modPort_congr s p ?_
  simp [h]

theorem watchOff_all (h : s.watchEnable = false) :
    Port.all.foldl watchOff s = { s with
      ports := s.ports.map (fun u =>
        { u with watch := { u.watch with repeatAt := none, window := if u.front.path = .closed then u.watch.window else none } }) } := by
  simp only [Port.all, List.foldl_cons, List.foldl_nil]
  rw [watchOff_eq h, watchOff_eq (s := s.modPort _ _) h, watchOff_eq (s := (s.modPort _ _).modPort _ _) h,
    watchOff_eq (s := ((s.modPort _ _).modPort _ _).modPort _ _) h]
  rfl

theorem anyGroup_eq (e : BitVec 5) : Port.all.any (fun p => e.getLsbD p.index) = (e.extractLsb' 0 4 != 0) := by
  revert e
  decide

theorem lockTest_eq (s : State) :
    s.lockTest = { s with lock := s.lock || (s.watchEnable && s.alertRoute && (s.enables.extractLsb' 0 4 != 0)) } := by
  rw [lockTest, ← anyGroup_eq]
  split
  case isTrue h =>
    have locks : (s.watchEnable && s.alertRoute && Port.all.any (fun p => s.enables.getLsbD p.index)) = true := h
    rw [locks, Bool.or_true]
  case isFalse h =>
    have rests : (s.watchEnable && s.alertRoute && Port.all.any (fun p => s.enables.getLsbD p.index)) = false := Bool.eq_false_iff.mpr h
    rw [rests, Bool.or_false]

theorem setWatch_locked (h : s.lock = true) (e r : Byte) : s.setWatch e r = .refuse s .refusedLocked := if_pos h

theorem setWatch_refused (hl : s.lock = false) {e r : Byte} (h : 1 < e.toNat ∨ 1 < r.toNat) :
    s.setWatch e r = .refuse s .refusedRange := by
  unfold setWatch
  rw [hl]
  rcases h with he | hr
  · rw [onOff_eq_none he]
    rfl
  · rw [onOff_eq_none hr]
    cases onOff e <;> rfl

theorem setWatch_taken (hl : s.lock = false) {e r : Byte} (he : e.toNat ≤ 1) (hr : r.toNat ≤ 1) :
    s.setWatch e r = .done { s with
      watchEnable := e = 1, alertRoute := r = 1, lock := e = 1 && r = 1 && (s.enables.extractLsb' 0 4 != 0)
      ports := if e = 1 then s.ports else s.ports.map (fun u =>
        { u with watch := { u.watch with
            repeatAt := none, window := if u.front.path = .closed then u.watch.window else none } }) } := by
  simp only [setWatch, hl, onOff_eq_some he, onOff_eq_some hr, Bool.false_eq_true, if_false]
  by_cases on : e = 1
  · simp only [on, decide_true, if_true, lockTest_eq, Bool.false_or]
  · simp only [on, decide_false, Bool.false_eq_true, if_false, watchOff_all, lockTest_eq, Bool.false_or]

theorem setAttention_refused {e : Byte} (h : 32 ≤ e.toNat) : s.setAttention e = .refuse s .refusedRange := by
  have high : e.extractLsb' 5 3 ≠ 0#3 := by
    rw [Ne, extractLsb'_eq_zero_iff e rfl]
    omega
  exact if_pos high

theorem setAttention_taken {e : Byte} (h : e.toNat < 32) :
    s.setAttention e = .done { s with
      enables := e.setWidth 5
      lock := s.lock || (s.watchEnable && s.alertRoute && ((e.setWidth 5).extractLsb' 0 4 != 0)) } := by
  have low : ¬ e.extractLsb' 5 3 ≠ 0#3 := by
    rw [Ne, extractLsb'_eq_zero_iff e rfl]
    omega
  exact (if_neg low).trans (congrArg Answer.done (lockTest_eq _))

theorem forceLoss_refused {b v : Byte} (h : portOf b = none ∨ 1 < v.toNat) : s.forceLoss b v = .refuse s .refusedRange := by
  unfold forceLoss
  rcases h with hb | hv
  · rw [hb]
  · rw [onOff_eq_none hv]
    cases portOf b <;> rfl

theorem forceLoss_taken {b v : Byte} (hb : portOf b = some p) (hv : v.toNat ≤ 1) :
    s.forceLoss b v = .done (s.modPort p (fun u =>
      { u with watch := { u.watch with
          forced := v = 1
          window := if u.front.path = .closed ∨ (v = 1 ∧ s.watchEnable = true) ∨ u.watch.repeatAt.isSome = true
            then u.watch.window else none } })) := by
  simp only [forceLoss, hb, onOff_eq_some hv, modWatch_eq, tidyWatch_eq, modPort_modPort, modPort_watchEnable, decide_eq_true_eq]

end State

/-- Settles O56: each command is its checks with one change of the watch, and the lock test after SET WATCH and SET ATTENTION. -/
theorem watchAndLock : Obligations.WatchAndLock := by
  intro s hs
  refine ⟨fun e r => ⟨fun hl => ?_, fun hl h => ?_, fun hl he hr => ?_⟩, fun e => ⟨fun h => ?_, fun h => ?_⟩,
    fun b v => ⟨fun h => ?_, fun p hb hv => ?_⟩⟩
  · rw [exec_of_listening hs (h := .setWatch e r) rfl, runCommand, setWatch_locked hl, respond_refuse]
  · rw [exec_of_listening hs (h := .setWatch e r) rfl, runCommand, setWatch_refused hl h, respond_refuse]
  · rw [exec_of_listening hs (h := .setWatch e r) rfl, runCommand, setWatch_taken hl he hr, respond_done]
  · rw [exec_of_listening hs (h := .setAttention e) rfl, runCommand, setAttention_refused h, respond_refuse]
  · rw [exec_of_listening hs (h := .setAttention e) rfl, runCommand, setAttention_taken h, respond_done]
  · rw [exec_of_listening hs (h := .forceLoss b v) rfl, runCommand, forceLoss_refused h, respond_refuse]
  · rw [exec_of_listening hs (h := .forceLoss b v) rfl, runCommand, forceLoss_taken hb hv, respond_done]

end Sys2Proof.Machine

end

section
/-! PROOF. BID (O48), AMEND (O49) and RETIRE (O50): the checks in their order, and what a command that passes them leaves. -/

namespace Sys2Proof.Machine
open Sys2Proof

theorem State.bidOutOfRange_iff {tier : Byte} {i n : Word} :
    State.bidOutOfRange tier i n = true ↔ 7 < tier.toNat ∨ 1000 < i.toNat ∨ (tier ≠ 0 ∧ (n = 0 ∨ 600 < n.toNat)) := by
  simp only [State.bidOutOfRange, Bool.or_eq_true, Bool.and_eq_true, decide_eq_true_eq, bne_iff_ne, beq_iff_eq, or_assoc]

/-- The base tier, where a port has one, is the tier of id 0. -/
theorem Catalogue.find_base {c : Catalogue} (h : c.base = true) : c.find 0 = some baseTier := by
  rw [find, tiers, if_pos h]
  rfl

theorem Catalogue.id_of_find {c : Catalogue} {id : BitVec 3} {t : Tier} (h : c.find id = some t) : t.id = id := by
  simpa using List.find?_some h

namespace State

variable {s : State} {p : Port} {b tier : Byte} {v i n : Word}

/-! ## The tier a command asks for -/

/-- A tier that a BID or AMEND of some voltage and current may take (R62, R72). -/
def Fits (s : State) (t : Tier) (v i : Nat) : Prop :=
  t.low ≤ s.policy.vinHigh ∧ s.policy.vinLow ≤ t.high ∧ 10 ≤ t.ceiling ∧ i ≤ t.ceiling ∧ (t.kind = .span → t.low ≤ v ∧ v ≤ t.high)

theorem termsFor_fit {id : BitVec 3} {t : Tier} {v i n : Nat} (hf : (s.port p).catalogue.find id = some t) (h : s.Fits t v i) :
    s.termsFor p id v i n = some
      { tier := id, kind := t.kind, low := t.low, high := t.high, voltage := if t.kind = .span then v else t.fixedVoltage
        current := i, lease := some (match t.leaseMax with | some m => min n m | none => n) } := by
  obtain ⟨hlow, hhigh, hten, hi, hspan⟩ := h
  have elig : ¬ s.eligible t = false := by
    rw [Bool.not_eq_false, eligible_iff]
    exact ⟨hlow, hhigh, hten⟩
  have inside : ¬ (t.kind = .span ∧ (v < t.low ∨ t.high < v)) := by
    rintro ⟨span, outside⟩
    have := hspan span
    omega
  simp only [termsFor, hf, if_neg elig, if_neg inside, if_neg (Nat.not_lt.mpr hi), Catalogue.id_of_find hf]
  cases hk : t.kind <;> cases t.leaseMax <;> rfl

theorem termsFor_unfit {id : BitVec 3} {v i n : Nat} (h : ∀ t, (s.port p).catalogue.find id = some t → ¬ s.Fits t v i) :
    s.termsFor p id v i n = none := by
  unfold termsFor
  split
  · rfl
  · next t hf =>
    by_cases elig : s.eligible t = false
    · exact if_pos elig
    · rw [if_neg elig]
      by_cases outside : t.kind = .span ∧ (v < t.low ∨ t.high < v)
      · exact if_pos outside
      · rw [if_neg outside]
        refine if_pos (Nat.not_le.mp (fun hi => h t hf ?_))
        obtain ⟨hlow, hhigh, hten⟩ := (eligible_iff s t).mp (Bool.not_eq_false _ ▸ elig)
        refine ⟨hlow, hhigh, hten, hi, fun span => ?_⟩
        have inside : ¬ (v < t.low ∨ t.high < v) := fun out => outside ⟨span, out⟩
        omega

/-! ## The next handle -/

/-- The next handle depends on the records and the last handle alone. -/
theorem nextHandle_congr {t : State} (hr : ∀ q, t.record q = s.record q) (hl : t.lastHandle = s.lastHandle) :
    t.nextHandle = s.nextHandle := by
  have owner (h : Handle) : t.portOfHandle h = s.portOfHandle h := by
    simp only [portOfHandle, hr]
  have found (n : Nat) : ∀ h, t.findHandle n h = s.findHandle n h := by
    induction n with
    | zero => exact fun _ => rfl
    | succ n ih =>
      intro h
      rw [findHandle, findHandle, owner, ih]
  rw [nextHandle, nextHandle, hl, found]

/-! ## BID -/

/-- A port whose hold a BID of the host lifts in AUTO (R65). -/
def holdLifted (m : Mode) (u : PortState) : PortState :=
  { u with contract := { u.contract with hold := if m = .auto then false else u.contract.hold } }

/-- The state in which a BID of the host makes its record: on an AUTO port the hold is gone (R65). -/
def unheld (s : State) (p : Port) : State := s.modPort p (holdLifted (s.mode p))

theorem unheld_eq (s : State) (p : Port) :
    (if s.mode p = .auto then s.modContract p (fun c => { c with hold := false }) else s) = s.unheld p := by
  split
  case isTrue h => exact modPort_congr s p (by rw [holdLifted, if_pos h])
  case isFalse h => exact (modPort_id s p (by rw [holdLifted, if_neg h])).symm

theorem unheld_port_ne {q : Port} (h : q ≠ p) : (s.unheld p).port q = s.port q := port_modPort_ne _ _ _ h

theorem unheld_record (s : State) (p q : Port) : (s.unheld p).record q = s.record q := by
  by_cases hq : q = p
  · rw [hq, record, unheld, port_modPort_self]
    rfl
  · rw [record, unheld_port_ne hq]
    rfl

theorem unheld_nextHandle (s : State) (p : Port) : (s.unheld p).nextHandle = s.nextHandle :=
  nextHandle_congr (unheld_record s p) rfl

theorem unheld_linkState (s : State) (p : Port) : (s.unheld p).linkState p = s.linkState p := by
  rw [linkState, unheld, port_modPort_self]
  rfl

theorem bid_refused (h : portOf b = none ∨ bidOutOfRange tier i n = true) : s.bid b tier v i n = .refuse s .refusedRange := by
  unfold bid
  cases hb : portOf b with
  | none => rfl
  | some p => exact if_pos (h.resolve_left (fun none => by rw [hb] at none; cases none))

theorem bid_occupied (hb : portOf b = some p) (hr : ¬ bidOutOfRange tier i n = true) (h : s.mode p = .sense ∨ (s.record p).isSome = true) :
    s.bid b tier v i n = .refuse s .refusedState := by
  simp only [bid, hb, if_neg hr, if_pos h]

theorem bid_unfit (hb : portOf b = some p) (hr : ¬ bidOutOfRange tier i n = true)
    (h : ¬ (s.mode p = .sense ∨ (s.record p).isSome = true))
    (ht : s.termsFor p (tier.setWidth 3) v.toNat i.toNat n.toNat = none) : s.bid b tier v i n = .refuse s .refusedRange := by
  simp only [bid, hb, if_neg hr, if_neg h, ht]

theorem bid_unready {t : Terms} (hb : portOf b = some p) (hr : ¬ bidOutOfRange tier i n = true)
    (h : ¬ (s.mode p = .sense ∨ (s.record p).isSome = true))
    (ht : s.termsFor p (tier.setWidth 3) v.toNat i.toNat n.toNat = some t) (hl : t.tier ≠ 0 ∧ s.linkState p ≠ .ready) :
    s.bid b tier v i n = .refuse s .refusedState := by
  simp only [bid, hb, if_neg hr, if_neg h, ht, if_pos hl]

theorem bid_taken {t : Terms} (hb : portOf b = some p) (hr : ¬ bidOutOfRange tier i n = true)
    (h : ¬ (s.mode p = .sense ∨ (s.record p).isSome = true))
    (ht : s.termsFor p (tier.setWidth 3) v.toNat i.toNat n.toNat = some t) (hl : ¬ (t.tier ≠ 0 ∧ s.linkState p ≠ .ready)) :
    s.bid b tier v i n = .give ((s.unheld p).freshBid p t) (.handle s.nextHandle) := by
  simp only [bid, hb, if_neg hr, if_neg h, ht, if_neg hl, unheld_eq, unheld_nextHandle]

/-- What a BID of the host leaves of its port: the record with what goes with it, and on an AUTO port no hold (R60, R61, R65). -/
def bidPlaced (s : State) (p : Port) (r : Record) (f : PortState → PortState) : State :=
  { s with lastHandle := s.nextHandle }.modPort p (fun u => f
    { u with contract := { u.contract with
        record := some r, hold := if s.mode p = Mode.auto then false else u.contract.hold } })

theorem unheld_issued (s : State) (p : Port) (h : Handle) (f : PortState → PortState) :
    { s.unheld p with lastHandle := h }.modPort p f = { s with lastHandle := h }.modPort p (fun u => f (holdLifted (s.mode p) u)) :=
  modPort_modPort { s with lastHandle := h } p (holdLifted (s.mode p)) f

theorem unheld_localBid (s : State) (p : Port) (current : Nat) :
    (s.unheld p).localBid p current =
      s.bidPlaced p (s.baseRecord current) (fun u => { u with monitor := { u.monitor with burstArmed := true } }) := by
  rw [localBid_eq, baseRecord, unheld_nextHandle]
  exact unheld_issued s p s.nextHandle _

theorem unheld_linkBid {t : Terms} (h : s.linkState p = .ready) :
    (s.unheld p).linkBid p t =
      s.bidPlaced p (s.biddingRecord t) (fun u =>
        { u with link := { u.link with slot := { u.link.slot with bid := some (s.bidFrame s.nextHandle false t) } } }) := by
  have ready : (s.unheld p).linkState p = .ready := (unheld_linkState s p).trans h
  have usable : (s.unheld p).linkUsable p = true := by rw [linkUsable, ready]
  rw [linkBid_eq _ _ _ (by rw [ready]; exact nofun), usable, biddingRecord, unheld_nextHandle]
  exact unheld_issued s p s.nextHandle _

end State

/-- A byte that names a tier other than the base tier does so in its three bits. -/
theorem setWidth_tier_ne_zero {tier : Byte} (h : tier ≠ 0) (h7 : tier.toNat ≤ 7) : tier.setWidth 3 ≠ (0 : BitVec 3) := by
  bv_omega

open State

/-- Settles O48: the next handle is the first number that no record has, and a BID is its checks with the fresh bid that follows. -/
theorem bidTaken : Obligations.BidTaken := by
  refine ⟨nextHandle_spec, fun s b tier v i n hs => ⟨fun range => ?_, fun p hb inRange =>
    ⟨fun busy => ?_, fun hmode hfree => ⟨fun unfit => ?_, fun htier hbase hfit => ?_, fun t htier hfind hfit =>
      ⟨fun hlink => ?_, fun hlink => ?_⟩⟩⟩⟩⟩
  · have refused : portOf b = none ∨ bidOutOfRange tier i n = true := range.imp_right bidOutOfRange_iff.mpr
    rw [exec_of_listening hs (h := .bid b tier v i n) rfl, runCommand, bid_refused refused, respond_refuse]
  all_goals have hr : ¬ bidOutOfRange tier i n = true := fun h => inRange (.inr (bidOutOfRange_iff.mp h))
  · rw [exec_of_listening hs (h := .bid b tier v i n) rfl, runCommand, bid_occupied hb hr busy, respond_refuse]
  all_goals
    have free : ¬ (s.mode p = .sense ∨ (s.record p).isSome = true) := by
      rw [hfree]
      exact fun h => h.elim hmode Bool.false_ne_true
  · rw [exec_of_listening hs (h := .bid b tier v i n) rfl, runCommand, bid_unfit hb hr free (termsFor_unfit unfit), respond_refuse]
  · have terms := termsFor_fit (n := n.toNat) (Catalogue.find_base hbase) hfit
    subst htier
    rw [exec_of_listening hs (h := .bid b 0 v i n) rfl, runCommand, bid_taken hb hr free terms (fun h => h.1 rfl), respond_give,
      freshBid, if_pos rfl, unheld_localBid]
    rfl
  · have nonzero : tier.setWidth 3 ≠ (0 : BitVec 3) := setWidth_tier_ne_zero htier (Nat.not_lt.mp (fun h => inRange (.inr (.inl h))))
    rw [exec_of_listening hs (h := .bid b tier v i n) rfl, runCommand,
      bid_unready hb hr free (termsFor_fit hfind hfit) ⟨nonzero, hlink⟩, respond_refuse]
  · have nonzero : tier.setWidth 3 ≠ (0 : BitVec 3) := setWidth_tier_ne_zero htier (Nat.not_lt.mp (fun h => inRange (.inr (.inl h))))
    have fixed : t.fixedVoltage = t.low := by rw [Tier.fixedVoltage, Catalogue.id_of_find hfind, if_neg nonzero]
    rw [exec_of_listening hs (h := .bid b tier v i n) rfl, runCommand,
      bid_taken hb hr free (termsFor_fit hfind hfit) (fun h => h.2 hlink), respond_give, freshBid, if_neg nonzero,
      unheld_linkBid hlink, fixed]
    rfl

/-! ## AMEND -/

/-- The record with an amendment of the host as it is sent: what is owed stays owed (R73). -/
theorem Record.amending_host (r : Record) (a : Amendment) (h : a.origin = .host) :
    r.amending a = { r with amendment := some a, refused := false } := by
  simp [Record.amending, h]

/-- The tier byte of a command names the base tier exactly when it is 0. -/
theorem setWidth_tier_eq_zero {tier : Byte} (h7 : tier.toNat ≤ 7) : tier.setWidth 3 = (0 : BitVec 3) ↔ tier = 0 :=
  ⟨fun h => by_contra (fun hne => setWidth_tier_ne_zero hne h7 h), fun h => by rw [h]; rfl⟩

namespace State

variable {s : State} {p : Port} {b tier : Byte} {v i n : Word}

/-- The whole effect of sending an amendment of the host over a usable link (R72). -/
theorem sendAmendment_host {r : Record} (terms : Terms) (h : s.record p = some r) (hu : s.linkUsable p = true) :
    s.sendAmendment p terms .host = s.modPort p (fun u =>
      { u with
        contract := { u.contract with
          record := some { r with amendment := some (s.pendingAmendment terms .host), refused := false } }
        link := { u.link with slot := { u.link.slot with bid := some (s.bidFrame r.handle true terms) } } }) := by
  have usable (k : Option Record) : (s.setRecord p k).linkUsable p = s.linkUsable p := by
    rw [linkUsable, linkUsable, linkState, setRecord_eq, port_modPort_self]
    rfl
  unfold sendAmendment
  rw [h]
  dsimp only
  rw [Record.amending_host r _ rfl, requestBid, usable, if_pos hu, setRecord_eq, modSlot_eq, modPort_modPort]
  rfl

theorem amend_refused (h : portOf b = none ∨ bidOutOfRange tier i n = true) : s.amend b tier v i n = .refuse s .refusedRange := by
  unfold amend
  cases hb : portOf b with
  | none => rfl
  | some p => exact if_pos (h.resolve_left (fun none => by rw [hb] at none; cases none))

theorem amend_not_live (hb : portOf b = some p) (hr : ¬ bidOutOfRange tier i n = true)
    (h : ∀ k, s.record p = some k → k.live = false) : s.amend b tier v i n = .refuse s .refusedState := by
  cases hk : s.record p with
  | none => simp only [amend, hb, if_neg hr, hk]
  | some k => simp only [amend, hb, if_neg hr, hk, if_pos (h k hk)]

/-- An AMEND of a live record: busy, out of the catalogue, without a link, or sent (R72). -/
theorem amend_live {k : Record} (hb : portOf b = some p) (hr : ¬ bidOutOfRange tier i n = true) (hk : s.record p = some k)
    (hlive : k.live = true) :
    s.amend b tier v i n =
      if amendBusy k = true then .refuse s .refusedBusy
      else match s.termsFor p (tier.setWidth 3) v.toNat i.toNat n.toNat with
        | none => .refuse s .refusedRange
        | some t => if s.linkUsable p = true then .done (s.sendAmendment p t .host) else .refuse s .refusedState := by
  have live : ¬ k.live = false := by rw [hlive]; exact nofun
  simp only [amend, hb, if_neg hr, hk, if_neg live] <;> rfl

theorem amendBusy_iff (k : Record) : amendBusy k = true ↔ k.amendment.isSome = true ∨ k.renewing = true ∨ k.withdraw = true := by
  simp only [amendBusy, Bool.or_eq_true, or_assoc]

end State

/-- Settles O49: an AMEND is its checks with the sending of the amendment. -/
theorem amendTaken : Obligations.AmendTaken := by
  intro s b tier v i n hs
  refine ⟨fun range => ?_, fun p hb inRange => ⟨fun hnone => ?_, fun k hk hlive => ⟨fun busy => ?_, fun ha hren hw =>
    ⟨fun unfit => ?_, fun t hfind hfit => ⟨fun hlink => ?_, fun hquiet hmute => ?_⟩⟩⟩⟩⟩
  · have refused : portOf b = none ∨ bidOutOfRange tier i n = true := range.imp_right bidOutOfRange_iff.mpr
    rw [exec_of_listening hs (h := .amend b tier v i n) rfl, runCommand, amend_refused refused, respond_refuse]
  all_goals
    have hr : ¬ bidOutOfRange tier i n = true := fun h => inRange (.inr (bidOutOfRange_iff.mp h))
    rw [exec_of_listening hs (h := .amend b tier v i n) rfl, runCommand]
  · rw [amend_not_live hb hr hnone, respond_refuse]
  · rw [amend_live hb hr hk hlive, if_pos ((amendBusy_iff k).mpr busy), respond_refuse]
  all_goals
    have calm : ¬ amendBusy k = true := by
      rw [amendBusy_iff, ha, hren, hw]
      exact nofun
    rw [amend_live hb hr hk hlive, if_neg calm]
  · rw [termsFor_unfit unfit, respond_refuse]
  all_goals rw [termsFor_fit hfind hfit]
  · have unusable : ¬ s.linkUsable p = true := fun h => hlink.elim ((linkUsable_iff s p).mp h).1 ((linkUsable_iff s p).mp h).2
    simp only [if_neg unusable, respond_refuse]
  · have usable : s.linkUsable p = true := (linkUsable_iff s p).mpr ⟨hquiet, hmute⟩
    have fixed : t.fixedVoltage = if tier = 0 then 250 else t.low := by
      simp only [Tier.fixedVoltage, Catalogue.id_of_find hfind,
        setWidth_tier_eq_zero (Nat.not_lt.mp (fun h => inRange (.inr (.inl h))))]
    simp only [if_pos usable, respond_done, sendAmendment_host _ hk usable, fixed] <;> rfl

/-! ## RETIRE -/

namespace State

variable {s : State} {p : Port} {b : Byte}

theorem Link.bidInFlight_iff (l : Link) (h : Handle) : l.bidInFlight h = true ↔ ∃ e r, l.exchange = some e ∧ e.body = .bid r ∧ r.handle = h := by
  unfold Link.bidInFlight
  cases l.exchange with
  | none => simp
  | some e => cases hb : e.body <;> simp [hb]

/-- A retirement by the host is not followed by an asking (R64). -/
theorem retire_hostRetire {k : Record} (hr : s.record p = some k) :
    s.RetiredAt (s.retire p .hostRetire) p k .hostRetire false false := by
  obtain ⟨retired, again⟩ := retireCore_spec s p k .hostRetire false false hr nofun
  have quiet : asksAgain (s.port p).contract.rebidCauses k .hostRetire = false := Bool.and_false _
  rw [retire, retireWith, again, quiet]
  exact retired

theorem retireCommand_port (hb : portOf b = some p) :
    s.retireCommand b = (s.record p).elim (.refuse s .refusedState) (fun k => .done (s.hostRetire p k)) := by
  simp only [retireCommand, hb]
  cases s.record p <;> rfl

end State

/-- Settles O50: the record is marked, or retired at once. -/
theorem retireTaken : Obligations.RetireTaken := by
  intro s b hs
  refine ⟨fun hb => ?_, fun p hb => ⟨fun hr => ?_, fun k hr => ⟨fun hw => ?_, fun hw hf => ?_, fun hw hf => ?_⟩⟩⟩
  · rw [exec_of_listening hs (h := .retire b) rfl, runCommand, retireCommand, hb, respond_refuse]
  all_goals rw [exec_of_listening hs (h := .retire b) rfl, runCommand, retireCommand_port hb, hr]
  · rfl
  · rw [Option.elim_some, hostRetire, if_pos hw, respond_done]
  · rw [Option.elim_some, hostRetire, if_neg (by rw [hw]; exact nofun), if_pos ((Link.bidInFlight_iff _ _).mpr hf), respond_done]
    rfl
  · refine ⟨s.retire p .hostRetire, ?_, retire_hostRetire hr⟩
    rw [Option.elim_some, hostRetire, if_neg (by rw [hw]; exact nofun), if_neg (fun h => hf ((Link.bidInFlight_iff _ _).mp h)),
      respond_done]

end Sys2Proof.Machine

end

section
/-! PROOF. The placing of a live record on the roster, and RANK (O51). -/

namespace Sys2Proof.Machine
open Sys2Proof

/-- A live record that is not BENCHED is IN_FORCE. -/
theorem Record.state_of_live {k : Record} (h : k.live = true) : k.state = .inForce ∨ k.state = .benched := by
  unfold live at h
  cases hs : k.state <;> simp_all

namespace State

variable {s t : State} {p : Port} {k : Record}

/-- A record of a port as its roster entry has it, with the port's rank (R113). -/
def ranked (s : State) (p : Port) (k : Record) : Record := { k with rank := some (s.port p).rank }

/-- What a placing leaves: the record with its rank, and its handle on the list (R112, R113). -/
structure PlacedAt (s t : State) (p : Port) (k : Record) : Prop where
  frame : s.FrameAt t p
  lastHandle : t.lastHandle = s.lastHandle
  port : (t.port p).lasting =
    { s.port p with contract := { (s.port p).contract with record := some (s.ranked p k) } }.lasting
  list : ∀ h, h ∈ t.roster.list ↔ h = k.handle ∨ h ∈ s.roster.list

theorem setRoster_lasting (s : State) (l : List Handle) : (s.setRoster l).lasting = s.lasting := by
  unfold setRoster
  dsimp only
  split
  · rfl
  · rfl

theorem setRoster_lastHandle (s : State) (l : List Handle) : (s.setRoster l).lastHandle = s.lastHandle := by
  unfold setRoster
  dsimp only
  split
  · rfl
  · rfl

theorem setRoster_port (s : State) (l : List Handle) (q : Port) : (s.setRoster l).port q = s.port q := by
  rw [port, setRoster_ports, port]

theorem mem_replaced {l : List Handle} {h x : Handle} (key : PlaceKey) :
    x ∈ s.insertHandle key h (l.filter (fun e => e ≠ h)) ↔ x = h ∨ x ∈ l := by
  rw [(insertHandle_perm s key h _).mem_iff, List.mem_cons, List.mem_filter]
  by_cases hx : x = h <;> simp [hx]

theorem place_placedAt (hr : s.record p = some k) : s.PlacedAt (s.place p) p k := by
  have hplace : s.place p = ((s.setRecord p (some (s.ranked p k))).setRoster
      ((s.setRecord p (some (s.ranked p k))).insertHandle ((s.setRecord p (some (s.ranked p k))).keyOf p k) k.handle
        (s.roster.list.filter (fun h => h ≠ k.handle)))) := by
    simp only [place, hr]
    rfl
  rw [hplace]
  refine ⟨⟨setRoster_lasting _ _, fun q hq => ?_⟩, setRoster_lastHandle _ _, ?_, fun h => ?_⟩
  · rw [setRoster_port, setRecord_eq, port_modPort_ne _ _ _ hq]
  · rw [setRoster_port, setRecord_eq, port_modPort_self]
  · rw [setRoster_list, mem_replaced]

theorem PlacedAt.worked {u : State} (h : s.PlacedAt t p k) (hw : Worked t u) : s.PlacedAt u p k where
  frame := ⟨hw.1.trans h.frame.1, fun q hq => (hw.2.2.2 q).trans (h.frame.2 q hq)⟩
  lastHandle := hw.2.1.trans h.lastHandle
  port := (hw.2.2.2 p).trans h.port
  list x := by rw [hw.2.2.1, h.list]

theorem rosterReplace_placedAt (hr : s.record p = some k) : s.PlacedAt (s.rosterReplace p) p k :=
  (place_placedAt hr).worked (recompute_worked _)

theorem rosterInsert_placedAt (hr : s.record p = some k) : s.PlacedAt (s.rosterInsert p) p k := rosterReplace_placedAt hr

/-! ## RANK -/

theorem writeRank_not_live (h : ∀ k, s.record p = some k → k.live = false) (n : Nat) :
    s.writeRank p n = s.modPort p (fun u => { u with rank := n }) := by
  have hrecord : (s.modPort p (fun u => { u with rank := n })).record p = s.record p := by rw [record, port_modPort_self, record]
  unfold writeRank
  dsimp only
  rw [hrecord]
  cases hk : s.record p with
  | none => rfl
  | some k => exact if_neg (by rw [h k hk]; exact nofun)

/-- The port of a live record as a written rank finds it for the re-placing (R114, R116). -/
theorem writeRank_live (hr : s.record p = some k) (hlive : k.live = true) (n : Nat) :
    s.writeRank p n =
      (s.modPort p (fun u =>
        { u with rank := n, contract := { u.contract with record := some { k with state := .inForce } } })).rosterReplace p := by
  have hrecord : (s.modPort p (fun u => { u with rank := n })).record p = some k := by rw [record, port_modPort_self]; exact hr
  have hforce : (if k.state = .benched then { k with state := .inForce } else k) = { k with state := .inForce } := by
    rcases Record.state_of_live hlive with h | h
    · rw [h, if_neg (by decide), ← h]
    · exact if_pos h
  unfold writeRank
  dsimp only
  rw [hrecord]
  dsimp only
  rw [if_pos hlive, unbench, modRecord_some hrecord, hforce, setRecord_eq, modPort_modPort]

/-- A rank written over a live record leaves it IN_FORCE and placed by the rank (R114, R116). -/
theorem writeRank_placed (hr : s.record p = some k) (hlive : k.live = true) (n : Nat) :
    s.FrameAt (s.writeRank p n) p ∧ (s.writeRank p n).lastHandle = s.lastHandle ∧
      ((s.writeRank p n).port p).lasting =
        { s.port p with
          rank := n
          contract := { (s.port p).contract with record := some { k with state := .inForce, rank := some n } } }.lasting ∧
      ∀ h, h ∈ (s.writeRank p n).roster.list ↔ h = k.handle ∨ h ∈ s.roster.list := by
  rw [writeRank_live hr hlive]
  generalize hu : s.modPort p (fun u =>
    { u with rank := n, contract := { u.contract with record := some { k with state := .inForce } } }) = u
  have hframe : s.FrameAt u p := hu ▸ FrameAt.modPort s p _
  have hport : u.port p =
      { s.port p with rank := n, contract := { (s.port p).contract with record := some { k with state := .inForce } } } := by
    rw [← hu, port_modPort_self]
  have hrecord : u.record p = some { k with state := .inForce } := by rw [record, hport]
  have hhandle : u.lastHandle = s.lastHandle := by rw [← hu, modPort_lastHandle]
  have hlist : u.roster = s.roster := by rw [← hu, modPort_roster]
  have placed := rosterReplace_placedAt hrecord
  refine ⟨hframe.trans placed.frame, placed.lastHandle.trans hhandle, placed.port.trans ?_, fun h => ?_⟩
  · rw [ranked, hport]
  · rw [placed.list, hlist]

end State

open State

/-- Settles O51: both commands write the rank, and a live record is placed by it. -/
theorem rankTaken : Obligations.RankTaken := by
  intro s b value c hs hc
  have refused (h : portOf b = none ∨ 3 < value) : exec c s = .next (s.answered .refusedRange .empty) := by
    rcases hc with ⟨rfl, hsize⟩ | ⟨rfl, hsize⟩
    · have hvalue : (BitVec.ofNat 8 value).toNat = value := Nat.mod_eq_of_lt hsize
      rw [exec_of_listening hs (h := .rank b (BitVec.ofNat 8 value)) rfl, runCommand, rankCommand, hvalue]
      cases hb : portOf b with
      | none => rfl
      | some p => exact congrArg (fun a => Host.Outcome.next (respond a)) (if_pos (h.resolve_left (by rw [hb]; exact nofun)))
    · have hvalue : (BitVec.ofNat 16 value).toNat = value := Nat.mod_eq_of_lt hsize
      rw [exec_of_listening hs (h := .setPolicy Parameter.rank.code b (BitVec.ofNat 16 value)) rfl, runCommand]
      cases hb : portOf b with
      | none => rw [setPolicy_of_no_port rfl hb, respond_refuse]
      | some p =>
        have hover : ¬ inRange .rank (BitVec.ofNat 16 value).toNat = true := by
          rw [hvalue, inRange, decide_eq_true_eq]
          exact Nat.not_le.mpr (h.resolve_left (by rw [hb]; exact nofun))
        rw [setPolicy_of_port rfl hb, if_neg hover, respond_refuse]
  have taken {p : Port} (hb : portOf b = some p) (hv : value ≤ 3) :
      exec c s = .next ((s.writeRank p value).answered .done .empty) := by
    rcases hc with ⟨rfl, hsize⟩ | ⟨rfl, hsize⟩
    · have hvalue : (BitVec.ofNat 8 value).toNat = value := Nat.mod_eq_of_lt hsize
      rw [exec_of_listening hs (h := .rank b (BitVec.ofNat 8 value)) rfl, runCommand, rankCommand, hvalue, hb]
      exact congrArg (fun a => Host.Outcome.next (respond a)) (if_neg (Nat.not_lt.mpr hv))
    · have hvalue : (BitVec.ofNat 16 value).toNat = value := Nat.mod_eq_of_lt hsize
      have hrange : inRange .rank (BitVec.ofNat 16 value).toNat = true := by
        rw [hvalue, inRange, decide_eq_true_eq]
        exact hv
      rw [exec_of_listening hs (h := .setPolicy Parameter.rank.code b (BitVec.ofNat 16 value)) rfl, runCommand,
        setPolicy_of_port rfl hb, if_pos hrange, respond_done, writePolicy, hvalue]
  refine ⟨refused, fun p hb hv => ⟨fun h => ?_, fun k hr hlive => ?_⟩⟩
  · rw [taken hb hv, writeRank_not_live h]
  · exact ⟨s.writeRank p value, taken hb hv, writeRank_placed hr hlive value⟩

end Sys2Proof.Machine

end

section
/-! PROOF. Partner frames in general (O34), stale replies (O35) and the TIERS assembly (O32). -/

namespace Sys2Proof.Machine
open Sys2Proof

namespace State

variable {s : State} {p q : Port}

/-! ## A publication beside other changes of a port -/

/-- The pool and the publication are read off the records and the part around the ports. -/
theorem publish_modPort (s : State) (p : Port) {f : PortState → PortState} (hf : ∀ u, (f u).contract.record = u.contract.record) :
    (s.modPort p f).publish = s.publish.modPort p f := by
  have hrecord (q : Port) : (s.modPort p f).record q = s.record q := by
    by_cases hq : q = p
    · rw [hq, record, port_modPort_self, hf, record]
    · rw [record, port_modPort_ne _ _ _ hq, record]
  have hpool : (s.modPort p f).computePool = s.computePool := by
    simp only [computePool_eq, contribution_eq, hrecord]
    rfl
  rw [publish_eq, publish_eq, hpool]
  rfl

/-- A change of a port that leaves its record and path alone may come before or after the report of a ceiling. -/
theorem ceilingReported_modPort (s : State) (p q : Port) (a b : Record) {f : PortState → PortState}
    (hf : ∀ u, (f u).contract.record = u.contract.record) (hp : ∀ u, (f u).front.path = u.front.path) :
    (s.ceilingReported p a b).modPort q f = (s.modPort q f).ceilingReported p a b := by
  have hpath : (s.modPort q f).path p = s.path p := by
    by_cases hq : p = q
    · rw [hq, path, port_modPort_self, hp, path]
    · rw [path, port_modPort_ne _ _ _ hq, path]
  unfold ceilingReported
  rw [hpath]
  split
  · rw [publish_modPort _ _ hf]
  · rfl

@[simp] theorem ceilingReported_ahead (s : State) (p : Port) (a b : Record) (n : Nat) :
    (s.ceilingReported p a b).ahead n = s.ahead n := by
  unfold ceilingReported
  split
  · rw [publish_eq]
    rfl
  · rfl

/-! ## Trim raises -/

/-- A droop or strain raise: the trim with its report, the remembered steps and the recovery deadline (R150, R154, R155). -/
theorem troubleTrim_eq {k : Record} (hr : s.record p = some k) (hmode : (s.port p).monitor.trimMode = .auto) (n : Nat) :
    s.troubleTrim p n =
      (s.modPort p (fun u =>
        { u with
          contract := { u.contract with record := some { k with trim := min 15 (k.trim + n) } }
          monitor := { u.monitor with raiseBase := some (s.time, s.trimBefore p k), recovery := some (s.ahead 1000) } })).ceilingReported
        p k { k with trim := min 15 (k.trim + n) } := by
  unfold troubleTrim
  rw [hr]
  dsimp only
  rw [raiseTrim, modMonitor_eq, reviseRecord_eq (by rw [record, port_modPort_self]; exact hr), restartRecovery,
    ceilingReported_ahead, modMonitor_eq, ceilingReported_modPort, modPort_modPort, modPort_modPort]
  case hf => exact fun _ => rfl
  case hp => exact fun _ => rfl
  refine congrArg (fun u : State => u.ceilingReported p k _) (modPort_congr s p ?_)
  dsimp only
  rw [if_pos hmode, modPort_ahead, modPort_ahead]

/-- The state after a strain mark over a CLOSED path in AUTO_TRIM (R155). -/
def strained (s : State) (p : Port) (k : Record) : State :=
  (s.modPort p (fun u =>
    { u with
      contract := { u.contract with record := some { k with trim := min 15 (k.trim + 4) } }
      monitor := { u.monitor with raiseBase := some (s.time, s.trimBefore p k), recovery := some (s.ahead 1000) } })).ceilingReported
    p k { k with trim := min 15 (k.trim + 4) }

/-! ## A frame at its declared end -/

theorem exec_frameRow (s : State) (p : Port) (f : PartnerFrame) : exec (frameRow f p) s = .next (s.receive p f) := by
  obtain ⟨strain, tag, body⟩ := f
  cases body <;> rfl

@[simp] theorem heard_port_self (s : State) (p : Port) :
    (s.heard p).port p = { s.port p with link := { (s.port p).link with receiving := false } } := port_modPort_self _ _ _

theorem heard_hears (s : State) (p : Port) : (s.heard p).hears p = s.hears p := by
  rw [hears, linkState, heard_port_self, hears, linkState]

/-- A frame that the link does not hear, or with a field out of range, is discarded (R23, R25). -/
theorem receive_discarded {f : PartnerFrame} (h : s.hears p = false ∨ bodyFieldsOk f.body = false) : s.receive p f = s.heard p := by
  have discards : ¬ ((s.heard p).hears p && bodyFieldsOk f.body) = true := by
    rw [heard_hears]
    rcases h with h | h <;> simp [h]
  exact if_neg discards

/-- A frame that is taken, with its strain mark first (R26). -/
theorem receive_taken {f : PartnerFrame} (hh : s.hears p = true) (ok : bodyFieldsOk f.body = true) :
    s.receive p f = handleBody p f.tag f.body (if f.strain then (s.heard p).strainTrim p else s.heard p) := by
  have takes : ((s.heard p).hears p && bodyFieldsOk f.body) = true := by rw [heard_hears, hh, ok]; rfl
  exact if_pos takes

theorem receive_plain {tag : Tag} {body : PartnerBody} (hh : s.hears p = true) (ok : bodyFieldsOk body = true) :
    s.receive p ⟨false, tag, body⟩ = handleBody p tag body (s.heard p) := receive_taken hh ok

/-- A strain mark acts over a CLOSED path in AUTO_TRIM with a record alone. -/
theorem strainTrim_idle (h : s.path p ≠ .closed ∨ (s.port p).monitor.trimMode = .manual ∨ s.record p = none) : s.strainTrim p = s := by
  unfold strainTrim
  split
  case isTrue acts =>
    obtain ⟨hpath, hmode⟩ := acts
    rcases h with h | h | h
    · exact absurd hpath h
    · rw [h] at hmode
      cases hmode
    · simp only [troubleTrim, h]
  case isFalse => rfl

theorem strained_hears {k : Record} : (s.strained p k).hears p = s.hears p := by
  rw [hears, linkState, strained, ceilingReported_port, port_modPort_self]
  rfl

/-- The strain mark of a frame is taken as over the state before its reception. -/
theorem strainTrim_heard {k : Record} (hpath : s.path p = .closed) (hmode : (s.port p).monitor.trimMode = .auto)
    (hr : s.record p = some k) : (s.heard p).strainTrim p = (s.strained p k).heard p := by
  have active : (s.heard p).path p = .closed ∧ ((s.heard p).port p).monitor.trimMode = .auto := by
    rw [path, heard_port_self]
    exact ⟨hpath, hmode⟩
  have hr' : (s.heard p).record p = some k := by rw [record, heard_port_self]; exact hr
  have before : (s.heard p).trimBefore p k = s.trimBefore p k := by
    rw [trimBefore, heard_port_self, trimBefore]
    rfl
  rw [strainTrim, if_pos active, troubleTrim_eq hr' active.2, before, strained, heard, heard, ceilingReported_modPort, modPort_modPort,
    modPort_modPort]
  case hf => exact fun _ => rfl
  case hp => exact fun _ => rfl
  rfl

end State

open State

/-- Settles O34: a row of a frame is its reception, which begins with the strain mark. -/
theorem framesAndStrain : Obligations.FramesAndStrain := by
  intro s p
  refine ⟨fun w hw => ?_, fun w f hw => ?_, fun f => ⟨fun h => ?_, fun hh ok hstrain => ⟨fun idle => ?_, fun k hpath hmode hr => ?_⟩⟩⟩
  · show execPartnerFrameDiscard p w s = _
    rw [execPartnerFrameDiscard, hw]
    rfl
  · show execPartnerFrameDiscard p w s = _
    rw [execPartnerFrameDiscard, hw, exec_frameRow]
  · rw [exec_frameRow, receive_discarded h]
  · have idle' : (s.heard p).strainTrim p = s.heard p := strainTrim_idle (by rw [path, record, heard_port_self]; exact idle)
    rw [exec_frameRow, exec_frameRow, receive_taken hh ok, receive_taken (f := { f with strain := false }) hh ok, idle', ite_self]
    rfl
  · show exec (frameRow f p) s = exec (frameRow { f with strain := false } p) (s.strained p k)
    rw [exec_frameRow, exec_frameRow, receive_taken hh ok, receive_taken (f := { f with strain := false }) (strained_hears.trans hh) ok,
      if_pos hstrain, strainTrim_heard hpath hmode hr]
    rfl

/-! ## Replies that end no exchange -/

namespace State

variable {s : State} {p : Port}

theorem matchesExchange_eq_false {tag : Tag} {kind : ExchangeBody → Bool}
    (h : ∀ e, (s.port p).link.exchange = some e → e.tag = tag → kind e.body = false) : s.matchesExchange p tag kind = false := by
  unfold matchesExchange
  split
  case h_1 e he =>
    by_cases ht : e.tag = tag
    · rw [h e he ht, Bool.and_false]
    · rw [decide_eq_false ht, Bool.false_and]
  case h_2 => rfl

/-- The three replies, where none of them ends the exchange in flight, are stale (R36). -/
theorem exec_stale {tag : Tag} {c : Instr} {undoes : Option AbandonedKind} (hh : s.hears p = true)
    (hc : ((∃ tier v i n, c = .grant p false tag tier v i n ∧ bodyFieldsOk (.grant tier v i n) = true) ∧ undoes = some .bid ∧
        ∀ e, (s.port p).link.exchange = some e → e.tag = tag → e.body.isBid = false) ∨
      ((∃ reason, c = .decline p false tag reason ∧ reason ≠ 0) ∧ undoes = none ∧
        ∀ e, (s.port p).link.exchange = some e → e.tag = tag → e.body.isBid = false) ∨
      ((∃ n, c = .renewed p false tag n) ∧ undoes = some .renew ∧
        ∀ e, (s.port p).link.exchange = some e → e.tag = tag → e.body.isRenew = false)) :
    exec c s = .next ((s.heard p).staleReply p tag undoes) := by
  have noBid (h : ∀ e, (s.port p).link.exchange = some e → e.tag = tag → e.body.isBid = false) :
      (s.heard p).matchesExchange p tag ExchangeBody.isBid = false :=
    matchesExchange_eq_false (by rw [heard_port_self]; exact h)
  rcases hc with ⟨⟨tier, v, i, n, rfl, ok⟩, rfl, none⟩ | ⟨⟨reason, rfl, hreason⟩, rfl, none⟩ | ⟨⟨n, rfl⟩, rfl, none⟩
  · refine (exec_frameRow s p ⟨false, tag, .grant tier v i n⟩).trans ?_
    rw [receive_plain hh ok, handleBody, onGrant, noBid none]
    rfl
  · refine (exec_frameRow s p ⟨false, tag, .decline reason⟩).trans ?_
    rw [receive_plain hh (by simpa [bodyFieldsOk] using hreason), handleBody, onDecline, noBid none]
    rfl
  · have noRenew : (s.heard p).matchesExchange p tag ExchangeBody.isRenew = false :=
      matchesExchange_eq_false (by rw [heard_port_self]; exact none)
    refine (exec_frameRow s p ⟨false, tag, .renewed n⟩).trans ?_
    rw [receive_plain hh rfl, handleBody, onRenewed, noRenew]
    rfl

theorem staleReply_other {tag : Tag} {undoes : Option AbandonedKind} (h : ∀ m, (s.port p).link.memory = some m → m.tag ≠ tag) :
    s.staleReply p tag undoes = s := by
  unfold staleReply
  split
  case h_1 m hm => exact if_neg (h m hm)
  case h_2 => rfl

theorem staleReply_remembered {tag : Tag} {undoes : Option AbandonedKind} {m : Abandoned} (hm : (s.port p).link.memory = some m)
    (ht : m.tag = tag) :
    s.staleReply p tag undoes = s.modLink p (fun l =>
      { l with
        memory := none
        slot := if undoes = some m.kind then l.slot.putRelease { handle := none, tag := tag, cause := m.cause } else l.slot }) := by
  simp only [staleReply, hm, if_pos ht]

end State

/-- Settles O35: a stale reply looks at the memory alone. -/
theorem staleReplies : Obligations.StaleReplies := by
  intro s p tag c undoes l hh hc
  have memory : ((s.heard p).port p).link.memory = l.memory := by rw [heard_port_self]
  rw [exec_stale hh hc]
  refine ⟨fun hm => ?_, fun m hm ht hu => ?_, fun m hm ht hu => ?_⟩
  · rw [staleReply_other (by rw [memory]; exact hm)]
  · rw [staleReply_remembered (memory.trans hm) ht]
    simp only [if_neg hu, heard, modLink_eq, modPort_modPort]
  · rw [staleReply_remembered (memory.trans hm) ht]
    simp only [if_pos hu, heard, modLink_eq, modPort_modPort]
    rfl

/-! ## The TIERS assembly -/

theorem Link.moveHello_eq (l : Link) (tag : Tag) (deadline : Tick) : l.moveHello tag deadline = l.helloMoved tag deadline := by
  obtain ⟨state, exchange, tagCounter, slot, memory, assembly, opening, resync, sending, receiving⟩ := l
  cases exchange with
  | none => rfl
  | some e =>
    simp only [moveHello, helloMoved, ExchangeBody.isHello_iff, Option.map_some]
    split <;> rfl

namespace State

variable {s : State} {p : Port}

/-- The entries of an assembly with a part taken in; none when the part is thrown away (R27). -/
def gathered (l : Link) (tag : Tag) (index : BitVec 2) (taken : List (BitVec 2 × RawEntry)) : Option (List (BitVec 2 × RawEntry)) :=
  if index = 0 then some taken
  else (l.assembly.filter (fun a => a.tag = tag ∧ a.next = index.toNat)).map (fun a => a.entries ++ taken)

theorem extendAssembly_eq (s : State) (l : Link) (tag : Tag) (index : BitVec 2) (taken : List (BitVec 2 × RawEntry)) :
    s.extendAssembly l tag index.toNat taken =
      (gathered l tag index taken).map (fun g => { tag := tag, next := index.toNat + 1, entries := g, deadline := s.ahead 25 }) := by
  unfold extendAssembly gathered
  by_cases h : index = 0
  · subst h
    rfl
  · have nonzero : ¬ index.toNat = 0 := by bv_omega
    rw [if_neg h, if_neg nonzero]
    cases l.assembly with
    | none => rfl
    | some a =>
      by_cases next : a.tag = tag ∧ a.next = index.toNat
      · simp only [if_pos next, Option.filter_some, decide_eq_true next, if_true, Option.map_some]
      · simp only [if_neg next, Option.filter_some, decide_eq_false next, Bool.false_eq_true, if_false, Option.map_none]

/-- A TIERS part that the link takes. -/
theorem exec_tiersPart {tag : Tag} {scale : BitVec 2} {total : BitVec 3} {index : BitVec 2} {last : Bool} {entries : List RawEntry}
    (hh : s.hears p = true) (ok : bodyFieldsOk (.tiers scale total index last entries) = true) :
    exec (.tiersPart p false tag scale total index last entries) s =
      .next ((s.heard p).onTiersPart p tag scale total.toNat index.toNat last entries) :=
  (exec_frameRow s p ⟨false, tag, .tiers scale total index last entries⟩).trans (congrArg Host.Outcome.next (receive_plain hh ok))

theorem onTiersPart_thrown {tag : Tag} {scale : BitVec 2} {total : Nat} {index : BitVec 2} {last : Bool} {entries : List RawEntry}
    (h : gathered (s.port p).link tag index (entries.map (fun e => (scale, e))) = none) :
    s.onTiersPart p tag scale total index.toNat last entries = s.modLink p (fun l => { l with assembly := none }) := by
  simp only [onTiersPart, extendAssembly_eq, h, Option.map_none]

theorem onTiersPart_next {tag : Tag} {scale : BitVec 2} {total : Nat} {index : BitVec 2} {entries : List RawEntry}
    {g : List (BitVec 2 × RawEntry)} (h : gathered (s.port p).link tag index (entries.map (fun e => (scale, e))) = some g) :
    s.onTiersPart p tag scale total index.toNat false entries = s.modLink p (fun l =>
      { l.helloMoved tag (s.ahead 25) with
        assembly := some { tag := tag, next := index.toNat + 1, entries := g, deadline := s.ahead 25 } }) := by
  simp only [onTiersPart, extendAssembly_eq, h, Option.map_some, Bool.false_eq_true, if_false, modLink_eq, modPort_modPort,
    Link.moveHello_eq]

/-- The last part of an assembly: the assembly is over, and goes to the catalogue if it is whole (R27). -/
theorem onTiersPart_last {tag : Tag} {scale : BitVec 2} {total : Nat} {index : BitVec 2} {entries : List RawEntry}
    {g : List (BitVec 2 × RawEntry)} (h : gathered (s.port p).link tag index (entries.map (fun e => (scale, e))) = some g) :
    s.onTiersPart p tag scale total index.toNat true entries =
      if g.length = total then
        (s.modLink p (fun l => { l.helloMoved tag (s.ahead 25) with assembly := none })).completeAssembly p tag g
      else s.modLink p (fun l => { l.helloMoved tag (s.ahead 25) with assembly := none }) := by
  simp only [onTiersPart, extendAssembly_eq, h, Option.map_some, if_true, modLink_eq, modPort_modPort, Link.moveHello_eq]

end State

/-- Settles O32: what is gathered of the parts decides. -/
theorem tiersAssembly : Obligations.TiersAssembly := by
  intro s p
  refine ⟨fun tag scale total index last entries => ?parts, fun a ha hdue => ?deadline⟩
  case deadline =>
    have overdue : s.assemblyOverdue p = true := by rw [assemblyOverdue, ha]; exact hdue
    exact congrArg Host.Outcome.next (if_pos overdue)
  intro part taken gath hh ok
  have same : gathered ((s.heard p).port p).link tag index taken = gath := by rw [heard_port_self]; rfl
  refine ⟨fun hg => ?_, fun g hg hlast => ?_, fun g hg hlast hlen => ?_⟩
  · refine (exec_tiersPart hh ok).trans (congrArg Host.Outcome.next ((onTiersPart_thrown (same.trans hg)).trans ?_))
    rw [heard, modLink_eq, modLink_eq, modPort_modPort]
  · subst hlast
    refine (exec_tiersPart hh ok).trans (congrArg Host.Outcome.next ((onTiersPart_next (same.trans hg)).trans ?_))
    rw [heard, modLink_eq, modLink_eq, modPort_modPort]
    rfl
  · subst hlast
    refine (exec_tiersPart hh ok).trans (congrArg Host.Outcome.next ((onTiersPart_last (same.trans hg)).trans ?_))
    rw [if_neg hlen, heard, modLink_eq, modLink_eq, modPort_modPort]
    rfl

end Sys2Proof.Machine

end

section
/-! PROOF. What ends an exchange: replies and their absence on bids and renewals (O31, O36, O39). -/

namespace Sys2Proof.Machine
open Sys2Proof

/-- A record in BIDDING fails its bid with these causes (R63). -/
theorem failsBid_of_bidding {k : Record} {c : Cause} (hs : k.state = .bidding) (hc : c = .declined ∨ c = .noReply ∨ c = .settleFail) :
    failsBid k c = true := by
  rcases hc with rfl | rfl | rfl <;> simp [failsBid, Record.live, hs]

theorem asksAgain_of_fails {w : Word} {k : Record} {c : Cause} (h : failsBid k c = true) : asksAgain w k c = false := by
  unfold asksAgain
  rw [h]
  rfl

namespace State

variable {s : State} {p : Port} {k : Record}

/-! ## Retirements -/

/-- A retirement with the asking that may follow it (R64, R83). -/
theorem retireWith_spec (hr : s.record p = some k) (c : Cause) (g later : Bool) (hl : later = true → failsBid k c = true) :
    ∃ u : State, s.retireWith p c g later = (if asksAgain (s.port p).contract.rebidCauses k c then u.asking p else u) ∧
      s.RetiredAt u p k c g later := by
  obtain ⟨retired, again⟩ := retireCore_spec s p k c g later hr hl
  exact ⟨_, by rw [← again]; rfl, retired⟩

theorem retireWith_quiet (hr : s.record p = some k) (c : Cause) (g later : Bool) (hl : later = true → failsBid k c = true)
    (hq : asksAgain (s.port p).contract.rebidCauses k c = false) : s.RetiredAt (s.retireWith p c g later) p k c g later := by
  obtain ⟨u, hu, retired⟩ := retireWith_spec hr c g later hl
  rw [hu, hq]
  exact retired

/-- A withdrawn record is retired by the host, with nothing after it (R64, R81). -/
theorem endWithdrawn_retired (hr : s.record p = some k) (g : Bool) :
    s.RetiredAt (s.endWithdrawn p k g) p k .hostRetire (g && decide (k.state = .bidding)) false :=
  retireWith_quiet hr .hostRetire _ false nofun (Bool.and_false _)

/-- A fresh bid that fails is retired, with nothing after it: the holdoff runs (R63). -/
theorem retire_failed (hr : s.record p = some k) {c : Cause} (hf : failsBid k c = true) :
    s.RetiredAt (s.retire p c) p k c false false :=
  retireWith_quiet hr c false false nofun (asksAgain_of_fails hf)

theorem declineFresh_retired (hr : s.record p = some k) (hs : k.state = .bidding) (later : Bool) :
    (s.modPort p (fun u => { u with flags := u.flags ||| oneBit PortFlag.declined.bit })).RetiredAt (s.declineFresh p later) p k
      .declined false later := by
  have fails : failsBid k .declined = true := failsBid_of_bidding hs (.inl rfl)
  exact retireWith_quiet (by rw [record, port_modPort_self]; exact hr) .declined false later (fun _ => fails) (asksAgain_of_fails fails)

/-! ## Amendments refused and renewals ended -/

theorem refuseAmendment_eq (hr : s.record p = some k) :
    s.refuseAmendment p = (s.modPort p (fun u =>
      { u with
        contract := { u.contract with record := some { k with amendment := none, refused := true } }
        flags := u.flags ||| oneBit PortFlag.amended.bit })).owedReleased p := by
  rw [refuseAmendment, sendOwed_eq, modRecord_some hr, setRecord_eq, setFlag_eq, modPort_modPort]

/-- A flag set under a condition, as a change of the flags. -/
theorem setFlag_if (s : State) (p : Port) (c : Prop) [Decidable c] (f : PortFlag) :
    (if c then s.setFlag p f else s) = s.modPort p (fun u => { u with flags := u.flags ||| (if c then oneBit f.bit else 0) }) := by
  by_cases h : c
  · rw [if_pos h]
    exact modPort_congr s p (by rw [if_pos h])
  · rw [if_neg h]
    exact (modPort_id s p (by simp [h])).symm

theorem renewing_iff : k.renewing = true ↔ ∃ n, k.renewal = some n ∧ n.state = .inFlight := by
  unfold Record.renewing
  cases k.renewal <;> simp

theorem renewNoReply_inFlight {n : Renewal} (hr : s.record p = some k) (hn : k.renewal = some n) (hs : n.state = .inFlight) :
    s.renewNoReply p = (s.modPort p (fun u =>
      { u with
        contract := { u.contract with record := some { k with renewal := some { n with state := .retryWait (s.ahead 2000) } } }
        flags := u.flags ||| (if n.attempts = 1 then oneBit PortFlag.renewFail.bit else 0) })).owedReleased p := by
  simp only [renewNoReply, hr, hn, if_pos hs, setFlag_if, sendOwed_eq, setRecord_eq, modPort_modPort]

theorem renewNoReply_other (hr : s.record p = some k) (h : k.renewing = false) : s.renewNoReply p = s.owedReleased p := by
  cases hn : k.renewal with
  | none => simp only [renewNoReply, hr, hn, sendOwed_eq]
  | some n =>
    have idle : n.state ≠ .inFlight := fun hs => by
      have := renewing_iff.mpr ⟨n, hn, hs⟩
      rw [h] at this
      cases this
    simp only [renewNoReply, hr, hn, if_neg idle, sendOwed_eq]

/-- The attempt count of a renewal that its exchange ends: a renewal that is not IN_FLIGHT counts as absent (log 41). -/
def attemptsEnded (k : Record) : Nat :=
  match k.renewal with
  | some n => if n.state = .inFlight then n.attempts else 1
  | none => 1

theorem takeRenewed_refused (hr : s.record p = some k) :
    s.takeRenewed p 0 = (s.modPort p (fun u =>
      { u with
        contract := { u.contract with record := some { k with renewal := some { state := .refused, attempts := attemptsEnded k } } }
        flags := u.flags ||| (if attemptsEnded k = 1 then oneBit PortFlag.renewFail.bit else 0) })).owedReleased p := by
  simp only [takeRenewed, hr, if_true, refuseRenewal, setFlag_if, sendOwed_eq, setRecord_eq, modPort_modPort]
  rfl

theorem takeRenewed_extended {lease : Nat} (hr : s.record p = some k) (hl : lease ≠ 0) :
    s.takeRenewed p lease = (s.modPort p (fun u =>
      { u with
        contract := { u.contract with
          record := some { k with renewal := none, lease := k.lease.map (fun _ => s.renewedLease lease) } }
        monitor := { u.monitor with burstArmed := true }
        flags := u.flags ||| oneBit PortFlag.renewed.bit })).owedReleased p := by
  simp only [takeRenewed, hr, if_neg hl, extendLease, modRecord_some hr, sendOwed_eq, setRecord_eq, modMonitor_eq, setFlag_eq,
    modPort_modPort]

/-! ## A BID that ends without a reply -/

theorem bidNoReply_none (hr : s.record p = none) : s.bidNoReply p = s := by simp only [bidNoReply, hr]

theorem bidNoReply_withdrawn (hr : s.record p = some k) (hw : k.withdraw = true) :
    s.RetiredAt (s.bidNoReply p) p k .hostRetire false false := by
  simp only [bidNoReply, hr, if_pos hw]
  exact endWithdrawn_retired hr false

theorem bidNoReply_bidding (hr : s.record p = some k) (hw : k.withdraw = false) (hs : k.state = .bidding) :
    s.RetiredAt (s.bidNoReply p) p k .noReply false false := by
  simp only [bidNoReply, hr, hw, Bool.false_eq_true, if_false, if_pos hs]
  exact retire_failed hr (failsBid_of_bidding hs (.inr (.inl rfl)))

theorem bidNoReply_amending {a : Amendment} (hr : s.record p = some k) (hw : k.withdraw = false) (hs : k.state ≠ .bidding)
    (ha : k.amendment = some a) (ht : a.transition = none) : s.bidNoReply p = s.refuseAmendment p := by
  have open_ : k.openAmendment.isSome = true := by rw [Record.openAmendment, ha, Option.filter_some, ht]; rfl
  simp only [bidNoReply, hr, hw, Bool.false_eq_true, if_false, if_neg hs, if_pos open_]

theorem record_modLink (s : State) (p : Port) (f : Link → Link) : (s.modLink p f).record p = s.record p := by
  rw [modLink_eq, record, port_modPort_self, record]

end State

open State

/-- Settles O31: a reply deadline is a failed send, whose end depends on the body of the exchange. -/
theorem replyDeadlineReached : Obligations.ReplyDeadlineReached := by
  intro s p e d l he hd hdue
  have sent : exec (.replyDeadline p) s = .next (s.sendFailed p) := exec_replyDeadline he hd hdue
  refine ⟨fun hretry => ?_, fun hspent => ⟨fun hb => ?_, fun b hb => ?bid, fun b k hb hr => ?renew⟩⟩
  · rw [sent, sendFailed_retry he hretry]
  all_goals rw [sendFailed_spent he hspent] at sent
  · rw [sent, exchangeNoReply_hello he hb]
  case bid =>
    rw [exchangeNoReply_bid he hb] at sent
    intro after
    have same : after.record p = s.record p := record_modLink _ _ _
    refine ⟨fun hr => ?_, fun k hr => ⟨fun hw => ?_, fun hw hs => ?_, fun a hw hs ha ht => ?_⟩⟩
    · rw [sent, bidNoReply_none (same.trans hr)]
    · exact ⟨_, sent, bidNoReply_withdrawn (same.trans hr) hw⟩
    · exact ⟨_, sent, bidNoReply_bidding (same.trans hr) hw hs⟩
    · rw [sent, bidNoReply_amending (same.trans hr) hw hs ha ht, refuseAmendment_eq (same.trans hr)]
  case renew =>
    rw [exchangeNoReply_renew he hb] at sent
    have same : (s.modLink p Link.ended).record p = some k := (record_modLink _ _ _).trans hr
    refine ⟨fun n hn hs => ?_, fun hn => ?_⟩
    · rw [sent, renewNoReply_inFlight same hn hs, modLink_eq, modPort_modPort]
      rfl
    · rw [sent, renewNoReply_other same hn]

/-! ## Replies -/

namespace State

variable {s : State} {p : Port} {k : Record} {e : Exchange} {tag : Tag}

theorem matchesExchange_eq_true {kind : ExchangeBody → Bool} (he : (s.port p).link.exchange = some e) (ht : e.tag = tag)
    (hk : kind e.body = true) : s.matchesExchange p tag kind = true := by
  simp only [matchesExchange, he, ht, hk, decide_true, Bool.and_true]

/-- The state once a reply has ended the exchange in flight. -/
def replied (s : State) (p : Port) : State := (s.heard p).modLink p Link.ended

theorem replied_port (s : State) (p : Port) :
    (s.replied p).port p = { s.port p with link := { (s.port p).link with receiving := false }.ended } := by
  rw [replied, modLink_eq, port_modPort_self, heard_port_self]

theorem replied_record (hr : s.record p = some k) : (s.replied p).record p = some k := by
  rw [record, replied_port]
  exact hr

/-- A link that hears partner frames is usable, and stays so when its exchange ends. -/
theorem replied_usable (hh : s.hears p = true) : (s.replied p).linkUsable p = true := by
  unfold hears linkState at hh
  rw [linkUsable, linkState, replied_port, Link.ended]
  dsimp only
  cases hs : (s.port p).link.state <;> simp [hs] at hh ⊢

theorem exec_decline_ends (hh : s.hears p = true) (he : (s.port p).link.exchange = some e) (ht : e.tag = tag)
    (hk : e.body.isBid = true) {reason : BitVec 2} (hreason : reason ≠ 0) :
    exec (.decline p false tag reason) s = .next ((s.replied p).takeDecline p (reason = 3)) := by
  refine (exec_frameRow s p ⟨false, tag, .decline reason⟩).trans ?_
  rw [receive_plain hh (by simpa [bodyFieldsOk] using hreason), handleBody, onDecline,
    matchesExchange_eq_true (by rw [heard_port_self]; exact he) ht hk]
  rfl

theorem exec_grant_ends (hh : s.hears p = true) (he : (s.port p).link.exchange = some e) (ht : e.tag = tag)
    (hk : e.body.isBid = true) {tier : BitVec 3} {v : BitVec 11} {i : BitVec 10} {n : Word}
    (ok : bodyFieldsOk (.grant tier v i n) = true) :
    exec (.grant p false tag tier v i n) s = .next ((s.replied p).takeGrant p tier v.toNat i.toNat n.toNat) := by
  refine (exec_frameRow s p ⟨false, tag, .grant tier v i n⟩).trans ?_
  rw [receive_plain hh ok, handleBody, onGrant, matchesExchange_eq_true (by rw [heard_port_self]; exact he) ht hk]
  rfl

theorem exec_renewed_ends (hh : s.hears p = true) (he : (s.port p).link.exchange = some e) (ht : e.tag = tag)
    (hk : e.body.isRenew = true) (lease : Word) :
    exec (.renewed p false tag lease) s = .next ((s.replied p).takeRenewed p lease.toNat) := by
  refine (exec_frameRow s p ⟨false, tag, .renewed lease⟩).trans ?_
  rw [receive_plain hh rfl, handleBody, onRenewed, matchesExchange_eq_true (by rw [heard_port_self]; exact he) ht hk]
  rfl

end State

/-- Settles O39: a RENEWED that ends its exchange extends the lease or is the refusal. -/
theorem renewedTaken : Obligations.RenewedTaken := by
  intro s p tag lease e k l hh he ht hk hr after attempts renewed
  have taken := exec_renewed_ends hh he ht hk lease
  refine ⟨fun hl => ?_, fun hl => ?_⟩
  · have nonzero : lease.toNat ≠ 0 := fun h => hl (BitVec.eq_of_toNat_eq h)
    exact taken.trans (congrArg Host.Outcome.next (takeRenewed_extended (replied_record hr) nonzero))
  · subst hl
    exact taken.trans (congrArg Host.Outcome.next (takeRenewed_refused (replied_record hr)))

/-! ## A fresh bid answered -/

namespace State

variable {s : State} {p : Port} {k : Record}

/-- A recall as it is set, once its yield is met. -/
theorem meetRecall_owed {c : Recall} (hr : s.record p = some k) (hc : k.recallPart = some c) (hy : c.yield = .owed)
    (hu : s.linkUsable p = true) :
    s.meetRecall p = s.modPort p (fun u =>
      { u with
        contract := { u.contract with record := some { k with recallPart := some { c with yield := .met } } }
        link := { u.link with slot := { u.link.slot with
          yield := some { handle := k.handle, tag := c.tag, status := .met } } } }) := by
  have usable (r : Option Record) : (s.setRecord p r).linkUsable p = s.linkUsable p := by
    rw [linkUsable, linkUsable, linkState, setRecord_eq, port_modPort_self]
    rfl
  simp only [meetRecall, hr, hc, if_pos hy]
  rw [requestYield, usable, if_pos hu, setRecord_eq, modSlot_eq, modPort_modPort]

/-- An OWED recall over a path that is not CLOSED is met at once (R103). -/
theorem yieldTest_open {c : Recall} (hr : s.record p = some k) (hc : k.recallPart = some c)
    (h : s.path p ≠ .closed ∨ (s.port p).front.current ≤ c.ceiling) : s.yieldTest p = s.meetRecall p := by
  simp only [yieldTest, hr, hc, if_pos h]

theorem yieldTest_drawing {c : Recall} (hr : s.record p = some k) (hc : k.recallPart = some c)
    (h : ¬ (s.path p ≠ .closed ∨ (s.port p).front.current ≤ c.ceiling)) : s.yieldTest p = s := by
  simp only [yieldTest, hr, hc, if_neg h]

theorem applyInitialRecall_dropped (hr : s.record p = some k) (h : ∀ x, k.initialRecall = some x → k.granted ≤ x.ceiling) :
    s.applyInitialRecall p = s.modPort p (fun u =>
      { u with contract := { u.contract with record := some { k with initialRecall := none } } }) := by
  cases hi : k.initialRecall with
  | none =>
    have same : s.applyInitialRecall p = s := by simp only [applyInitialRecall, hr, hi]
    refine same.trans (modPort_id s p ?_).symm
    have hself : some { k with initialRecall := none } = (s.port p).contract.record := by rw [← hi]; exact hr.symm
    rw [hself]
  | some x =>
    simp only [applyInitialRecall, hr, hi, if_neg (Nat.not_lt.mpr (h x hi)), setRecord_eq]

theorem applyInitialRecall_set {x : InitialRecall} (hr : s.record p = some k) (hi : k.initialRecall = some x) (hx : x.ceiling < k.granted)
    (hpath : s.path p ≠ .closed) (hu : s.linkUsable p = true) :
    s.applyInitialRecall p = s.modPort p (fun u =>
      { u with
        contract := { u.contract with
          record := some { k with
            initialRecall := none
            recallPart := some { ceiling := x.ceiling, deadline := s.ahead x.deadline, yield := .met, tag := x.tag, arrival := s.time } } }
        flags := u.flags ||| oneBit PortFlag.recall.bit
        link := { u.link with slot := { u.link.slot with yield := some { handle := k.handle, tag := x.tag, status := .met } } } }) := by
  simp only [applyInitialRecall, hr, hi, if_pos hx, setRecord_eq, setFlag_eq, modPort_modPort]
  rw [yieldTest_open (by rw [record, port_modPort_self]) rfl (.inl (by rw [path, port_modPort_self]; exact hpath)),
    meetRecall_owed (by rw [record, port_modPort_self]) rfl rfl (by rw [linkUsable, linkState, port_modPort_self]; exact hu),
    modPort_modPort]
  rfl

/-- The record of a fresh bid that is granted (R66). -/
def settlingRecord (s : State) (k : Record) (i n : Nat) : Record :=
  { k with
    state := .settling, granted := if k.requested = 0 then i else min i k.requested
    lease := if k.tier = 0 then none else some { length := min n 600, expiry := none }
    grantedAt := some s.tick, settleDeadline := some (s.ahead 500) }

theorem takeGrant_withdrawn (hr : s.record p = some k) (hw : k.withdraw = true) (tier : BitVec 3) (v i n : Nat) :
    s.takeGrant p tier v i n = s.endWithdrawn p k true := by
  simp only [takeGrant, hr, if_pos hw]

theorem takeGrant_bidding (hr : s.record p = some k) (hw : k.withdraw = false) (hs : k.state = .bidding) (tier : BitVec 3) (v i n : Nat) :
    s.takeGrant p tier v i n =
      if tier ≠ k.tier ∨ v ≠ k.voltage ∨ i = 0 ∨ (n = 0 ∧ k.tier ≠ 0) then s.declineFresh p false else s.acceptFresh p k i n := by
  simp only [takeGrant, hr, hw, Bool.false_eq_true, if_false, if_pos hs, grantFresh, ← ite_or, or_assoc]

theorem acceptFresh_eq (s : State) (p : Port) (k : Record) (i n : Nat) :
    s.acceptFresh p k i n = (s.modPort p (fun u =>
      { u with
        contract := { u.contract with record := some (s.settlingRecord k i n) }
        monitor := { u.monitor with burstArmed := true } })).applyInitialRecall p := by
  rw [acceptFresh, setRecord_eq, modMonitor_eq, modPort_modPort]
  rfl

theorem takeDecline_withdrawn (hr : s.record p = some k) (hw : k.withdraw = true) (later : Bool) :
    s.takeDecline p later = s.endWithdrawn p k false := by
  simp only [takeDecline, hr, if_pos hw]

theorem takeDecline_bidding (hr : s.record p = some k) (hw : k.withdraw = false) (hs : k.state = .bidding) (later : Bool) :
    s.takeDecline p later = s.declineFresh p later := by
  simp only [takeDecline, hr, hw, Bool.false_eq_true, if_false, if_pos hs]

end State

/-- Settles O36: the end of the exchange, and then the test of the reply against the record in BIDDING. -/
theorem freshBidAnswered : Obligations.FreshBidAnswered := by
  intro s p tag e k l hh he ht hk hr hs after declined
  have hr' : (s.replied p).record p = some k := replied_record hr
  refine ⟨fun reason hreason => ?_, fun tier v i n ok => ?_⟩
  · have taken := exec_decline_ends hh he ht hk hreason
    refine ⟨fun hw => ⟨_, taken, ?_⟩, fun hw => ⟨_, taken, ?_⟩⟩
    · rw [takeDecline_withdrawn hr' hw]
      exact endWithdrawn_retired hr' false
    · rw [takeDecline_bidding hr' hw hs]
      exact declineFresh_retired hr' hs _
  · have taken := exec_grant_ends hh he ht hk ok
    intro fails granted settling set
    have zero : i = 0 ↔ i.toNat = 0 := ⟨fun h => by rw [h]; rfl, fun h => BitVec.eq_of_toNat_eq h⟩
    have zeroLease : n = 0 ↔ n.toNat = 0 := ⟨fun h => by rw [h]; rfl, fun h => BitVec.eq_of_toNat_eq h⟩
    have failing : fails ↔ tier ≠ k.tier ∨ v.toNat ≠ k.voltage ∨ i.toNat = 0 ∨ (n.toNat = 0 ∧ k.tier ≠ 0) := by
      rw [← zero, ← zeroLease]
    refine ⟨fun hw => ⟨_, taken, ?_⟩, fun hw hf => ⟨_, taken, ?_⟩, fun hw hf => ?_⟩
    · rw [takeGrant_withdrawn hr' hw]
      have retired := endWithdrawn_retired hr' true
      rw [hs] at retired
      exact retired
    · rw [takeGrant_bidding hr' hw hs, if_pos (failing.mp hf)]
      exact declineFresh_retired hr' hs _
    · rw [takeGrant_bidding hr' hw hs, if_neg (fun h => hf (failing.mpr h)), acceptFresh_eq] at taken
      have hset : ((s.replied p).modPort p (fun u =>
          { u with
            contract := { u.contract with record := some ((s.replied p).settlingRecord k i.toNat n.toNat) }
            monitor := { u.monitor with burstArmed := true } })).record p =
          some ((s.replied p).settlingRecord k i.toNat n.toNat) := by rw [record, port_modPort_self]
      refine ⟨fun h => ?_, fun x hx hlt hpath => ?_⟩
      · refine taken.trans (congrArg Host.Outcome.next ((applyInitialRecall_dropped hset h).trans ?_))
        rw [modPort_modPort]
        rfl
      · refine taken.trans (congrArg Host.Outcome.next ((applyInitialRecall_set hset hx hlt ?_ ?_).trans ?_))
        · rw [path, port_modPort_self, replied_port]
          exact hpath
        · rw [linkUsable, linkState, port_modPort_self]
          exact replied_usable hh
        · rw [modPort_modPort]
          rfl

end Sys2Proof.Machine

end

section
/-! PROOF. Deadlines of contracts: retirements (O42), renewals asked (O43) and the holdoff (O44). -/

namespace Sys2Proof.Machine
open Sys2Proof

namespace State

variable {s : State} {p : Port} {k : Record}

theorem exec_settleDeadline_due (hr : s.record p = some k) (hs : k.state = .settling) (hd : s.due k.settleDeadline = true) :
    exec (.settleDeadline p) s = .next (s.retire p .settleFail) := by
  have overdue : s.settleOverdue p = true := by
    simp only [settleOverdue, hr, hs, hd, decide_true, Bool.and_self]
  exact congrArg Host.Outcome.next (if_pos overdue)

theorem exec_transitionDeadline_due {a : Amendment} {x : Transition} (hr : s.record p = some k) (ha : k.amendment = some a)
    (hx : a.transition = some x) (hd : reached s.tick x.deadline = true) :
    exec (.transitionDeadline p) s = .next (s.retire p .settleFail) := by
  have overdue : s.transitionOverdue p = true := by
    simp only [transitionOverdue, hr, ha, hx]
    exact hd
  exact congrArg Host.Outcome.next (if_pos overdue)

theorem exec_leaseExpiry_due {n : Lease} (hr : s.record p = some k) (hlive : k.live = true) (hn : k.lease = some n)
    (hd : s.due n.expiry = true) : exec (.leaseExpiry p) s = .next (s.retire p .lapsed) := by
  have overdue : s.leaseOverdue p = true := by
    simp only [leaseOverdue, hr, hn, hlive, hd, Bool.and_self]
  exact congrArg Host.Outcome.next (if_pos overdue)

end State

open State

/-- Settles O42: each deadline is a retirement. -/
theorem deadlinesRetire : Obligations.DeadlinesRetire := by
  intro s p k c cause hr hc
  have retires : exec c s = .next (s.retire p cause) := by
    rcases hc with ⟨rfl, rfl, hs, hd⟩ | ⟨rfl, rfl, a, x, ha, hx, hd⟩ | ⟨rfl, rfl, hlive, n, hn, hd⟩
    · exact exec_settleDeadline_due hr hs hd
    · exact exec_transitionDeadline_due hr ha hx hd
    · exact exec_leaseExpiry_due hr hlive hn hd
  obtain ⟨u, hu, retired⟩ := retireWith_spec hr cause false false nofun
  exact ⟨u, retires.trans (congrArg Host.Outcome.next hu), retired⟩

/-! ## Renewals -/

namespace State

variable {s : State} {p : Port} {k : Record}

/-- On a MUTE link nothing that is owed goes out. -/
theorem owedReleased_mute (h : s.linkState p = .mute) : s.owedReleased p = s := by
  unfold owedReleased
  split
  · exact if_neg (fun sends => sends.2.2.2.2.2.2.2.2.1 h)
  · rfl

/-- The lease a RENEW asks for (R88). -/
theorem renewLease_eq (s : State) (p : Port) (k : Record) :
    s.renewLease p k = match (s.port p).catalogue.find k.tier with
      | some t => match t.leaseMax with
        | some n => min s.policy.leaseWant n
        | none => s.policy.leaseWant
      | none => s.policy.leaseWant := by
  unfold renewLease leaseWanted
  cases (s.port p).catalogue.find k.tier with
  | none => rfl
  | some t => cases t.leaseMax <;> rfl

/-- A renewal attempt over a link that is not MUTE (R87, R88). -/
theorem askRenew_open (h : s.linkState p ≠ .mute) (n : Nat) :
    s.askRenew p k n = s.modPort p (fun u =>
      { u with
        contract := { u.contract with record := some { k with renewal := some { state := .inFlight, attempts := n } } }
        link := if s.linkState p = .quiet then u.link
          else { u.link with slot := { u.link.slot with renew := some { handle := k.handle, lease := s.renewLease p k } } } }) := by
  have same (r : Option Record) : (s.setRecord p r).linkState p = s.linkState p := by
    rw [linkState, setRecord_eq, port_modPort_self, linkState]
  have wanted (r : Option Record) : (s.setRecord p r).renewLease p k = s.renewLease p k := by
    rw [renewLease, setRecord_eq, port_modPort_self, renewLease]
    rfl
  simp only [askRenew, same, if_neg h, wanted, requestRenew]
  by_cases hq : s.linkState p = .quiet
  · have unusable : ¬ (s.setRecord p (some { k with renewal := some { state := .inFlight, attempts := n } })).linkUsable p = true := by
      rw [linkUsable_iff, same]
      exact fun usable => usable.1 hq
    rw [if_neg unusable, setRecord_eq]
    exact modPort_congr s p (by rw [if_pos hq])
  · have usable : (s.setRecord p (some { k with renewal := some { state := .inFlight, attempts := n } })).linkUsable p = true := by
      rw [linkUsable_iff, same]
      exact ⟨hq, h⟩
    rw [if_pos usable, setRecord_eq, modSlot_eq, modPort_modPort]
    exact modPort_congr s p (by rw [if_neg hq])

/-- A renewal attempt on a MUTE link fails at once (R91, R92). -/
theorem askRenew_mute (h : s.linkState p = .mute) (n : Nat) :
    s.askRenew p k n = s.modPort p (fun u =>
      { u with
        contract := { u.contract with record := some { k with renewal := some { state := .retryWait (s.ahead 2000), attempts := n } } }
        flags := u.flags ||| (if n = 1 then oneBit PortFlag.renewFail.bit else 0) }) := by
  have same (r : Option Record) : (s.setRecord p r).linkState p = s.linkState p := by
    rw [linkState, setRecord_eq, port_modPort_self, linkState]
  simp only [askRenew, same, if_pos h]
  rw [renewNoReply_inFlight (k := { k with renewal := some { state := .inFlight, attempts := n } })
    (by rw [setRecord_eq, record, port_modPort_self]) rfl rfl, setRecord_eq, modPort_modPort, owedReleased_mute]
  · rfl
  · rw [linkState, port_modPort_self]
    exact h

theorem exec_renewalPoint_due (hr : s.record p = some k) (hd : s.renewalDue k = true) :
    exec (.renewalPoint p) s = .next (s.askRenew p k 1) := by
  refine congrArg Host.Outcome.next ?_
  simp only [renewalTest, hr, if_pos hd]

theorem exec_nextAttempt_due {n : Renewal} {d : Tick} (hr : s.record p = some k) (hn : k.renewal = some n)
    (hs : n.state = .retryWait d) (hd : reached s.tick d = true) :
    exec (.nextAttempt p) s = .next (s.askRenew p k (min 255 (n.attempts + 1))) := by
  refine congrArg Host.Outcome.next ?_
  simp only [nextAttempt, hr, hn, hs, if_pos hd]

end State

/-- Settles O43: both commands ask a renewal of their attempt count. -/
theorem renewalAsked : Obligations.RenewalAsked := by
  intro s p k c attempts hr hc wanted
  have asks : exec c s = .next (s.askRenew p k attempts) := by
    rcases hc with ⟨rfl, rfl, hlive, hnone, hw, n, e, hn, he, hlead⟩ | ⟨rfl, n, d, hn, hs, hd, rfl⟩
    · exact exec_renewalPoint_due hr ((renewalDue_iff s k).mpr ⟨hlive, hnone, hw, n, e, hn, he, hlead⟩)
    · exact exec_nextAttempt_due hr hn hs hd
  refine ⟨fun hl => asks.trans (congrArg Host.Outcome.next ?_), fun hl => asks.trans (congrArg Host.Outcome.next (askRenew_mute hl _))⟩
  have lease : s.renewLease p k = wanted := renewLease_eq s p k
  rw [← lease]
  exact askRenew_open hl attempts

/-! ## The holdoff -/

namespace State

variable {s : State} {p : Port}

/-- The state once the holdoff of a port is gone (R63). -/
def heldOff (s : State) (p : Port) : State := s.modPort p (fun u => { u with contract := { u.contract with holdoff := none } })

theorem heldOff_port (s : State) (p : Port) :
    (s.heldOff p).port p = { s.port p with contract := { (s.port p).contract with holdoff := none } } := port_modPort_self _ _ _

theorem exec_holdoffDeadline_due (h : s.due (s.port p).contract.holdoff = true) :
    exec (.holdoffDeadline p) s = .next ((s.heldOff p).asking p) :=
  congrArg Host.Outcome.next (if_pos h)

theorem heldOff_nextHandle (s : State) (p : Port) : (s.heldOff p).nextHandle = s.nextHandle := by
  refine nextHandle_congr (fun q => ?_) rfl
  by_cases hq : q = p
  · rw [hq, record, heldOff_port, record]
  · rw [record, heldOff, port_modPort_ne _ _ _ hq, record]

theorem heldOff_linkState (s : State) (p : Port) : (s.heldOff p).linkState p = s.linkState p := by
  rw [linkState, heldOff_port, linkState]

theorem heldOff_mayBid : (s.heldOff p).MayBid p ↔ s.mode p = .auto ∧ (s.port p).front.attach = .present ∧ s.record p = none ∧
    (s.port p).contract.hold = false ∧ ((s.port p).catalogue.held = true ∨ s.linkState p = .mute) := by
  simp only [MayBid, mode, record, linkState, heldOff_port, true_and]

theorem heldOff_localBid (s : State) (p : Port) (current : Nat) :
    (s.heldOff p).localBid p current = { s.heldOff p with lastHandle := s.nextHandle }.modPort p (fun u =>
      { u with
        contract := { u.contract with record := some (s.baseRecord current) }
        monitor := { u.monitor with burstArmed := true } }) := by
  rw [localBid_eq, baseRecord, heldOff_nextHandle]
  rfl

theorem heldOff_linkBid {b : Terms} (h : s.linkState p ≠ .mute) :
    (s.heldOff p).linkBid p b = { s.heldOff p with lastHandle := s.nextHandle }.modPort p (fun u =>
      { u with
        contract := { u.contract with record := some (s.biddingRecord b) }
        link := if s.linkUsable p then { u.link with slot := { u.link.slot with bid := some (s.bidFrame s.nextHandle false b) } }
          else u.link }) := by
  have usable : (s.heldOff p).linkUsable p = s.linkUsable p := by rw [linkUsable, heldOff_linkState, linkUsable]
  rw [linkBid_eq _ _ _ (by rw [heldOff_linkState]; exact h), biddingRecord, heldOff_nextHandle, usable]
  rfl

end State

/-- Settles O44: the asking finds the port without its holdoff. -/
theorem holdoffEndsWithAsking : Obligations.HoldoffEndsWithAsking := by
  intro s p hd after bids locally
  have ended := exec_holdoffDeadline_due hd
  have choice : (s.heldOff p).autoChoice p = s.autoChoice p := autoChoice_congr p rfl (by rw [heldOff_port])
  refine ⟨fun hb => ?_, fun hb hl => ?_, fun hb hl => ?_⟩
  · rw [ended, asking_idle _ _ (fun h => hb (heldOff_mayBid.mp h))]
    rfl
  · have hl' : (s.heldOff p).linkState p ≠ .mute := by rw [heldOff_linkState]; exact hl
    rw [asking_bids _ _ (heldOff_mayBid.mpr hb), askingTerms_open _ _ hl', choice] at ended
    refine ⟨fun hc => ?_, fun b hc => ⟨fun ht => ?_, fun ht => ?_⟩⟩
    · rw [hc] at ended
      exact ended
    · rw [hc] at ended
      refine ended.trans (congrArg Host.Outcome.next ?_)
      exact (if_pos ht).trans (heldOff_localBid s p b.current)
    · rw [hc] at ended
      refine ended.trans (congrArg Host.Outcome.next ?_)
      exact (if_neg ht).trans (heldOff_linkBid hl)
  · have hl' : (s.heldOff p).linkState p = .mute := by rw [heldOff_linkState]; exact hl
    rw [asking_bids _ _ (heldOff_mayBid.mpr hb)] at ended
    refine ⟨fun h => ?_, fun h => ?_⟩
    · have chosen : (s.heldOff p).askingTerms p = some (baseTerms (min 90 s.policy.currentMax)) :=
        (askingTerms_mute _ _ hl').trans (if_pos (by rw [heldOff_port]; exact h))
      rw [chosen] at ended
      refine ended.trans (congrArg Host.Outcome.next ?_)
      exact (if_pos rfl).trans (heldOff_localBid s p _)
    · have chosen : (s.heldOff p).askingTerms p = none :=
        (askingTerms_mute _ _ hl').trans (if_neg (by rw [heldOff_port]; exact h))
      rw [chosen] at ended
      exact ended

end Sys2Proof.Machine

end

section
/-! PROOF. Benching (R79, R115), recalls and their deadline (O40), the overdraw monitor (O45) and a watch window without a loss (O46). -/

namespace Sys2Proof.Machine
open Sys2Proof

namespace State

variable {s t : State} {p : Port} {k : Record}

/-! ## An open of the path -/

/-- Where no recall is OWED an open meets none. -/
theorem meetRecall_calm (h : ∀ k c, s.record p = some k → k.recallPart = some c → c.yield ≠ .owed) : s.meetRecall p = s := by
  unfold meetRecall
  split
  · rfl
  · next k hr =>
    split
    · rfl
    · next c hc => exact if_neg (h k c hr hc)

theorem tidyWatch_contract (s : State) (p : Port) : ((s.tidyWatch p).port p).contract = (s.port p).contract := by
  rw [tidyWatch_eq, port_modPort_self]

/-- An open of the path leaves a record without an OWED recall as it is. -/
theorem openPath_record_calm (h : ∀ k c, s.record p = some k → k.recallPart = some c → c.yield ≠ .owed) :
    (s.openPath p).record p = s.record p := by
  cases hp : s.path p with
  | opened => simp only [openPath, hp]
  | closing => rw [openPath_closing s p hp, record, port_modPort_self, record]
  | closed =>
    generalize hu : ((s.modFront p (fun f => { f with path := .opened, closeOp := none })).modMonitor p Monitor.stop).tidyWatch p = u
    have same : u.record p = s.record p := by
      rw [← hu, record, tidyWatch_contract, modFront_eq, modMonitor_eq, modPort_modPort, port_modPort_self, record]
    have opens : s.openPath p = (u.meetRecall p).reportPath p false := by
      rw [← hu]
      simp only [openPath, hp]
    rw [opens, meetRecall_calm (by rw [same]; exact h), record, reportPath_port]
    exact same

/-! ## Benching -/

/-- The state in which a benching recomputes the roster (R79, R115). -/
def benchedAt (s : State) (p : Port) (k : Record) : State :=
  ((((s.setRecord p (some { k with state := .benched })).openPath p).setRole p .none).place p).setFlag p .benched

theorem bench_eq (hr : s.record p = some k) (hs : k.state = .inForce) : s.bench p = (s.benchedAt p k).recompute := by
  simp only [bench, hr, if_pos hs]
  rfl

/-- The port when a benching recomputes: its path OPEN, its record benched and placed. -/
theorem benchedAt_port (s : State) (p : Port) (k : Record) :
    ∃ k', ((s.setRecord p (some { k with state := .benched })).openPath p).record p = some k' ∧
      k'.lasting = { k with state := .benched }.lasting ∧
      (s.benchedAt p k).port p =
        { ((s.setRecord p (some { k with state := .benched })).openPath p).port p with
          role := .none
          contract := { (((s.setRecord p (some { k with state := .benched })).openPath p).port p).contract with
            record := some { k' with rank := some (s.port p).rank } }
          flags := (s.port p).flags ||| oneBit PortFlag.benched.bit } := by
  generalize hv : s.setRecord p (some { k with state := .benched }) = v
  have hself : v.port p = { s.port p with contract := { (s.port p).contract with record := some { k with state := .benched } } } := by
    rw [← hv, setRecord_eq, port_modPort_self]
  have hrecord : v.record p = some { k with state := .benched } := by rw [record, hself]
  obtain ⟨k', hk', hlasting⟩ := openPath_handle v p _ hrecord
  have hworked := (openPath_worked v p).2.2.2 p
  have hrank : ((v.openPath p).port p).rank = (s.port p).rank := (congrArg PortState.rank hworked).trans (by rw [hself]; rfl)
  have hflags : ((v.openPath p).port p).flags = (s.port p).flags := (congrArg PortState.flags hworked).trans (by rw [hself]; rfl)
  refine ⟨k', hk', hlasting, ?_⟩
  have hbenched : s.benchedAt p k = (((v.openPath p).setRole p .none).place p).setFlag p .benched := by rw [← hv]; rfl
  generalize v.openPath p = o at *
  have hrole : (o.setRole p .none).port p = { o.port p with role := .none } := by rw [setRole_eq, port_modPort_self]
  have hrecord' : (o.setRole p .none).record p = some k' := by rw [record, hrole]; exact hk'
  have hplace : ((o.setRole p .none).place p).port p =
      { o.port p with
        role := .none, contract := { (o.port p).contract with record := some { k' with rank := some (o.port p).rank } } } := by
    simp only [place, hrecord', setRoster_port, setRecord_eq, port_modPort_self, hrole]
  rw [hbenched, setFlag_eq, port_modPort_self, hplace, ← hrank, ← hflags]

/-- The recomputation at the end of a benching leaves the benched port as it is: its record may not supply (R118). -/
theorem bench_port (hr : s.record p = some k) (hs : k.state = .inForce) : (s.bench p).port p = (s.benchedAt p k).port p := by
  obtain ⟨k', hk', hlasting, hport⟩ := benchedAt_port s p k
  rw [bench_eq hr hs]
  have state : k'.state = .benched := congrArg Record.state hlasting
  have hrecord : (s.benchedAt p k).record p = some { k' with rank := some (s.port p).rank } := by rw [record, hport]
  have aside : Aside (s.benchedAt p k) p := by
    refine .inr ⟨?_, ?_⟩
    · rw [eligibleSupply, hrecord]
      simp [state]
    · rw [path, hport]
      exact openPath_path _ p
  exact (recompute_aside aside).eq (by rw [hport])

theorem bench_lastHandle (s : State) (p : Port) : (s.bench p).lastHandle = s.lastHandle := by
  unfold bench
  split
  · rfl
  · next k hr =>
    split
    · rw [(recompute_worked _).2.1, setFlag_eq, modPort_lastHandle]
      have placed (u : State) : (u.place p).lastHandle = u.lastHandle := by
        unfold place
        split
        · rfl
        · rw [setRoster_lastHandle, setRecord_eq, modPort_lastHandle]
      rw [placed, setRole_eq, modPort_lastHandle, (openPath_worked _ p).2.1, setRecord_eq, modPort_lastHandle]
    · rfl

/-- What benching a record IN_FORCE leaves (R79, R115). -/
theorem bench_benchedAt (hr : s.record p = some k) (hs : k.state = .inForce) : s.BenchedAt (s.bench p) p k := by
  obtain ⟨k', hk', hlasting, hport⟩ := benchedAt_port s p k
  have hset : (s.setRecord p (some { k with state := .benched })).port p =
      { s.port p with contract := { (s.port p).contract with record := some { k with state := .benched } } } := by
    rw [setRecord_eq, port_modPort_self]
  have hworked := (openPath_worked (s.setRecord p (some { k with state := .benched })) p).2.2.2 p
  have hcloseOp := openPath_closeOp (s.setRecord p (some { k with state := .benched })) p
  have hpath := openPath_path (s.setRecord p (some { k with state := .benched })) p
  rw [path, hset] at hcloseOp
  rw [path] at hpath
  rw [hset] at hworked
  refine ⟨(bench_moves s p).frameAt, bench_lastHandle s p, ?_, ?_, ?_, fun h => ?_⟩
  · rw [bench_port hr hs, hport]
    generalize (State.openPath _ p).port p = o at hworked ⊢
    simp only [PortState.lasting, PortState.mk.injEq, Option.map_some] at hworked ⊢
    obtain ⟨hfront, hlink, hcatalogue, hcontract, hmonitor, hwatch, hrank, -, hflags, hrecord, hstatus⟩ := hworked
    refine ⟨hfront, hlink, hcatalogue, ?_, hmonitor, hwatch, hrank, trivial, trivial, hrecord, hstatus⟩
    have same : { k' with rank := some (s.port p).rank }.lasting =
        { k with state := .benched, rank := some (s.port p).rank }.lasting :=
      congrArg (fun r : Record => { r with rank := some (s.port p).rank }) hlasting
    rw [same]
    exact congrArg (fun c : ContractSlot =>
      { c with record := some { k with state := .benched, rank := some (s.port p).rank }.lasting }) hcontract
  · rw [path, bench_port hr hs, hport]
    exact hpath
  · rw [role, bench_port hr hs, hport]
  · rw [bench_port hr hs, hport]
    exact hcloseOp h

/-! ## The overdraw monitor -/

theorem exec_overdrawWindowEnd_due {w : OverdrawWindow} (hw : (s.port p).monitor.window = some w) (hd : w.due = true) :
    exec (.overdrawWindowEnd p) s = .next (s.endOverdrawWindow p w) := by
  refine congrArg Host.Outcome.next ?_
  simp only [overdrawEndIfDue, hw, if_pos hd]

/-- The state once the overdraw window of a port has ended. -/
def overdrawClosed (s : State) (p : Port) : State := s.modPort p (fun u => { u with monitor := { u.monitor with window := none } })

theorem overdrawClosed_record (hr : s.record p = some k) : (s.overdrawClosed p).record p = some k := by
  rw [record, overdrawClosed, port_modPort_self]
  exact hr

theorem overdrawClosed_trimBefore (s : State) (p : Port) (k : Record) : (s.overdrawClosed p).trimBefore p k = s.trimBefore p k := by
  rw [trimBefore, overdrawClosed, port_modPort_self, trimBefore]
  rfl

theorem endOverdrawWindow_eq (hr : s.record p = some k) (w : OverdrawWindow) :
    s.endOverdrawWindow p w =
      if w.allOver = false then s.overdrawClosed p
      else if s.trimBefore p k < 15 then (s.overdrawClosed p).overdrawStage1 p else (s.overdrawClosed p).overdrawStage2 p := by
  have hr' : (s.modMonitor p (fun m => { m with window := none })).record p = some k := overdrawClosed_record hr
  have before : (s.modMonitor p (fun m => { m with window := none })).trimBefore p k = s.trimBefore p k :=
    overdrawClosed_trimBefore s p k
  simp only [endOverdrawWindow, hr', before]
  rfl

/-- Stage 1 of an overdraw, with the report of the ceiling last (R150). -/
theorem overdrawStage1_eq (hr : s.record p = some k) :
    s.overdrawStage1 p =
      (s.modPort p (fun u =>
        { u with
          contract := { u.contract with record := some { k with trim := min 15 (k.trim + 2) } }
          flags := u.flags ||| oneBit PortFlag.overdraw.bit
          monitor := { u.monitor with
            recovery := if u.monitor.trimMode = .auto then some (s.ahead 1000) else u.monitor.recovery } })).ceilingReported
        p k { k with trim := min 15 (k.trim + 2) } := by
  rw [overdrawStage1]
  dsimp only
  rw [raiseTrim, reviseRecord_eq hr, restartRecovery, setFlag_eq, modPort_ahead, ceilingReported_ahead, modPort_ahead, modMonitor_eq,
    ceilingReported_modPort, ceilingReported_modPort, modPort_modPort, modPort_modPort]
  case hf => exact fun _ => rfl
  case hp => exact fun _ => rfl
  case hf => exact fun _ => rfl
  case hp => exact fun _ => rfl
  refine congrArg (fun u : State => u.ceilingReported p k _) (modPort_congr s p ?_)
  dsimp only
  split <;> rfl

/-- A recovery: a step less, and the deadline set anew (R156). -/
theorem recalwayseq (hr : s.record p = some k) (hmode : (s.port p).monitor.trimMode = .auto) :
    s.recover p =
      (s.modPort p (fun u =>
        { u with
          contract := { u.contract with record := some { k with trim := k.trim - 1 } }
          monitor := { u.monitor with recovery := some (s.ahead 1000) } })).ceilingReported p k { k with trim := k.trim - 1 } := by
  rw [recover]
  dsimp only
  rw [reviseRecord_eq hr, restartRecovery, ceilingReported_ahead, modPort_ahead, modMonitor_eq, ceilingReported_modPort,
    modPort_modPort]
  case hf => exact fun _ => rfl
  case hp => exact fun _ => rfl
  refine congrArg (fun u : State => u.ceilingReported p k _) (modPort_congr s p ?_)
  dsimp only
  rw [if_pos hmode]

end State

open State

/-- Settles O45: an overdraw trims or benches, and a recovery takes a step off. -/
theorem overdrawAndRecovery : Obligations.OverdrawAndRecovery := by
  intro s p k hr
  refine ⟨fun w hw hd => ?_, fun hpath hmode hd => ?_⟩
  · have ended := exec_overdrawWindowEnd_due hw hd
    rw [endOverdrawWindow_eq hr] at ended
    have hr' : (s.overdrawClosed p).record p = some k := overdrawClosed_record hr
    refine ⟨fun quiet => ?_, fun always low => ?_, fun always high hs => ?_⟩
    · rw [if_pos quiet] at ended
      exact ended
    · have below : s.trimBefore p k < 15 := low
      rw [if_neg (by rw [always]; exact nofun), if_pos below, overdrawStage1_eq hr'] at ended
      refine ended.trans (congrArg (fun u : State => Host.Outcome.next (u.ceilingReported p k _)) ?_)
      rw [modPort_modPort]
      rfl
    · have full : ¬ s.trimBefore p k < 15 := Nat.not_lt.mpr high
      rw [if_neg (by rw [always]; exact nofun), if_neg full] at ended
      refine ⟨_, ended, ?_⟩
      exact bench_benchedAt (by rw [record, port_modPort_self]; exact hr') hs
  · have overdue : s.recoveryDue p = true := by
      simp only [recoveryDue, hpath, hmode, hd, decide_true, Bool.and_self]
    have recovers : exec (.recoveryDeadline p) s = .next (s.recover p) := congrArg Host.Outcome.next (if_pos overdue)
    rw [recovers, recalwayseq hr hmode]

/-! ## A watch window without a loss -/

namespace State

variable {s t : State} {p : Port} {k : Record}

theorem exec_watchWindowEnd_due {w : WatchWindow} (hw : (s.port p).watch.window = some w) (hd : 8 ≤ w.count) :
    exec (.watchWindowEnd p) s = .next (s.endWatchWindow p w) := by
  refine congrArg Host.Outcome.next ?_
  simp only [watchEndIfDue, hw, if_pos hd]

/-- The state once the watch window of a port has ended. -/
def watchClosed (s : State) (p : Port) : State := s.modPort p (fun u => { u with watch := { u.watch with window := none } })

theorem watchClosed_port (s : State) (p : Port) :
    (s.watchClosed p).port p = { s.port p with watch := { (s.port p).watch with window := none } } := port_modPort_self _ _ _

theorem judgeDroop_off (w : WatchWindow)
    (h : s.path p ≠ .closed ∨ (s.port p).monitor.trimMode = .manual ∨ w.droop < 3 ∨ w.touched = true) : s.judgeDroop p w = s := by
  refine if_neg ?_
  rintro ⟨hpath, hmode, hdroop, htouched⟩
  rcases h with h | h | h | h
  · exact h hpath
  · rw [h] at hmode
    cases hmode
  · omega
  · rw [h] at htouched
    cases htouched

/-- The judgement of a repeat state on a port whose window has ended (R163). -/
theorem judgeRepeat_eq (w : WatchWindow) (hw : (s.port p).watch.window = none) :
    s.judgeRepeat p w =
      let repeats : Bool := (s.port p).watch.repeatAt.isSome && s.watchEnable && (s.port p).front.attach = .present
      s.modPort p (fun u =>
        { u with
          watch := { u.watch with repeatAt := if repeats && !w.allBelow then none else u.watch.repeatAt }
          flags := u.flags ||| (if repeats && w.allBelow then oneBit PortFlag.loss.bit else 0) }) := by
  have test : ((s.port p).watch.repeatAt.isSome = true ∧ s.watchEnable = true ∧ (s.port p).front.attach = .present) ↔
      ((s.port p).watch.repeatAt.isSome && s.watchEnable && (s.port p).front.attach = .present) = true := by
    simp [and_assoc]
  unfold judgeRepeat
  dsimp only
  by_cases h : ((s.port p).watch.repeatAt.isSome && s.watchEnable && (s.port p).front.attach = .present) = true
  · rw [if_pos (test.mpr h), h]
    cases hb : w.allBelow with
    | true =>
      rw [if_pos rfl, setFlag_eq]
      exact modPort_congr s p (by rfl)
    | false =>
      refine (if_neg Bool.false_ne_true).trans ?_
      rw [tidyWatch_eq, modWatch_eq, modPort_modPort]
      refine modPort_congr s p ?_
      simp [hw]
  · rw [if_neg (fun ht => h (test.mp ht)), Bool.eq_false_iff.mpr h]
    refine (modPort_id s p ?_).symm
    simp

/-- Where the end of a window is no loss, what is left are the droop, the repeat state and a forced test (R154, R163, R164). -/
theorem endWatchWindow_calm (w : WatchWindow) (h : ((s.watchClosed p).judgeDroop p w).lossJudged p w = false) :
    s.endWatchWindow p w =
      if ((((s.watchClosed p).judgeDroop p w).judgeRepeat p w).watchEnable &&
          ((((s.watchClosed p).judgeDroop p w).judgeRepeat p w).port p).watch.forced &&
          (((s.watchClosed p).judgeDroop p w).judgeRepeat p w).path p != .closed) = true then
        (((s.watchClosed p).judgeDroop p w).judgeRepeat p w).setFlag p .loss
      else ((s.watchClosed p).judgeDroop p w).judgeRepeat p w := by
  have calm : ¬ ((s.watchClosed p).judgeDroop p w).lossJudged p w = true := by rw [h]; exact nofun
  exact if_neg calm

/-- On a CLOSED path without a repeat state the end of a window that is no loss is its droop judgement alone. -/
theorem endWatchWindow_closed (w : WatchWindow) (hpath : ((s.watchClosed p).judgeDroop p w).path p = .closed)
    (hrepeat : (((s.watchClosed p).judgeDroop p w).port p).watch.repeatAt = none)
    (h : ((s.watchClosed p).judgeDroop p w).lossJudged p w = false) :
    s.endWatchWindow p w = (s.watchClosed p).judgeDroop p w := by
  have norepeat : ((s.watchClosed p).judgeDroop p w).judgeRepeat p w = (s.watchClosed p).judgeDroop p w :=
    if_neg (fun hr => by rw [hrepeat] at hr; cases hr.1)
  rw [endWatchWindow_calm w h, norepeat]
  exact if_neg (by rw [hpath]; simp)

@[simp] theorem ceilingReported_watchEnable (s : State) (p : Port) (a b : Record) :
    (s.ceilingReported p a b).watchEnable = s.watchEnable := by
  unfold ceilingReported
  split
  · rw [publish_eq]
  · rfl

/-- A window of a CLOSED path that is no loss: the forced test or the samples say so (R160, R164). -/
theorem lossJudged_eq_false {w : WatchWindow}
    (h : s.watchEnable = false ∨ ((s.port p).watch.forced = false ∧ (w.allBelow = false ∨ w.touched = true))) :
    s.lossJudged p w = false := by
  unfold lossJudged
  rcases h with h | ⟨hf, h | h⟩
  · simp [h]
  · simp [hf, h]
  · simp [hf, h]

theorem lossJudged_open {w : WatchWindow} (h : s.path p ≠ .closed) : s.lossJudged p w = false := by
  simp [lossJudged, h]

/-- One flag set for two causes. -/
theorem or_flag_or_flag (x f : Word) (a b : Bool) :
    x ||| (if a = true then f else 0) ||| (if b = true then f else 0) = x ||| (if (a || b) = true then f else 0) := by
  cases a <;> cases b <;> simp [BitVec.or_assoc]

end State

/-- Settles O46: without a loss a window's end is the droop judgement on a CLOSED path, and the repeat state with the forced test on
another. -/
theorem watchWindowJudged : Obligations.WatchWindowJudged := by
  intro s p w hw hd
  have ended := exec_watchWindowEnd_due hw hd
  refine ⟨fun hpath => ?_, fun hpath hrepeat calm => ?_⟩
  · intro repeats
    have hpath' : (s.watchClosed p).path p ≠ .closed := by rw [path, watchClosed_port]; exact hpath
    have nodroop : (s.watchClosed p).judgeDroop p w = s.watchClosed p := judgeDroop_off w (.inl hpath')
    rw [endWatchWindow_calm w (by rw [nodroop]; exact lossJudged_open hpath'), nodroop, judgeRepeat_eq w (by rw [watchClosed_port])]
      at ended
    refine ended.trans (congrArg Host.Outcome.next ?_)
    have same : (((s.watchClosed p).port p).watch.repeatAt.isSome && (s.watchClosed p).watchEnable &&
        decide (((s.watchClosed p).port p).front.attach = .present)) = repeats := by
      rw [watchClosed_port]
      rfl
    dsimp only
    rw [same]
    generalize repeats = r
    rw [setFlag_if, path, port_modPort_self, watchClosed_port]
    rw [watchClosed, modPort_modPort, modPort_modPort]
    refine modPort_congr s p ?_
    have notClosed : ((s.port p).front.path != .closed) = true := bne_iff_ne.mpr hpath
    dsimp only
    rw [notClosed, Bool.and_true, or_flag_or_flag]
    rfl
  · intro closed
    have calm' : (s.watchClosed p).watchEnable = false ∨
        (((s.watchClosed p).port p).watch.forced = false ∧ (w.allBelow = false ∨ w.touched = true)) := by
      rw [watchClosed_port]
      exact calm
    have hpath' : (s.watchClosed p).path p = .closed := by rw [path, watchClosed_port]; exact hpath
    refine ⟨fun idle => ?_, fun k hr hmode hdroop htouched => ?_⟩
    · have nodroop : (s.watchClosed p).judgeDroop p w = s.watchClosed p :=
        judgeDroop_off w (.inr (by rw [watchClosed_port]; exact idle))
      have hrepeat' : ((s.watchClosed p).port p).watch.repeatAt = none := by rw [watchClosed_port]; exact hrepeat
      rw [endWatchWindow_closed w (by rw [nodroop]; exact hpath') (by rw [nodroop]; exact hrepeat')
        (by rw [nodroop]; exact lossJudged_eq_false calm'), nodroop] at ended
      exact ended
    · have hr' : (s.watchClosed p).record p = some k := by rw [record, watchClosed_port]; exact hr
      have hmode' : ((s.watchClosed p).port p).monitor.trimMode = .auto := by rw [watchClosed_port]; exact hmode
      have before : (s.watchClosed p).trimBefore p k = s.trimBefore p k := by
        rw [trimBefore, watchClosed_port]
        rfl
      have droop : (s.watchClosed p).judgeDroop p w =
          (((s.watchClosed p).modPort p (fun u =>
            { u with
              contract := { u.contract with record := some { k with trim := min 15 (k.trim + 1) } }
              monitor := { u.monitor with raiseBase := some (s.time, s.trimBefore p k), recovery := some (s.ahead 1000) } })).ceilingReported
            p k { k with trim := min 15 (k.trim + 1) }) := by
        refine (if_pos ⟨hpath', hmode', hdroop, htouched⟩).trans ?_
        rw [troubleTrim_eq hr' hmode', before]
        rfl
      rw [endWatchWindow_closed w ?hp ?hn ?hl, droop] at ended
      case hp => rw [droop, path, ceilingReported_port, port_modPort_self, watchClosed_port]; exact hpath
      case hn => rw [droop, ceilingReported_port, port_modPort_self, watchClosed_port]; exact hrepeat
      case hl =>
        rw [droop]
        refine lossJudged_eq_false ?_
        rw [ceilingReported_watchEnable, ceilingReported_port, port_modPort_self, watchClosed_port]
        exact calm
      exact ended

end Sys2Proof.Machine

end

section
/-! PROOF. RECALL and its deadline (O40). -/

namespace Sys2Proof.Machine
open Sys2Proof

namespace State

variable {s : State} {p : Port} {k : Record}

/-- A change of a port's record that leaves what the port contributes to the pool may come before or after a publication. -/
theorem publish_modPort_of_contribution {f : PortState → PortState} (h : (s.modPort p f).contribution p = s.contribution p) :
    (s.modPort p f).publish = s.publish.modPort p f := by
  have same (q : Port) : (s.modPort p f).contribution q = s.contribution q := by
    by_cases hq : q = p
    · rw [hq, h]
    · rw [contribution_eq, contribution_eq, record, port_modPort_ne _ _ _ hq]
      rfl
  have hpool : (s.modPort p f).computePool = s.computePool := by
    rw [computePool_eq, computePool_eq, same, same, same, same]
    rfl
  rw [publish_eq, publish_eq, hpool]
  rfl

theorem contribution_congr {u : State} (hset : u.allocator.closedSet = s.allocator.closedSet) (hr : s.record p = some k) {k' : Record}
    (hu : u.record p = some k') (hv : k'.voltage = k.voltage) (hc : k'.effectiveCeiling = k.effectiveCeiling) :
    u.contribution p = s.contribution p := by
  simp only [contribution_eq, hset, hr, hu, Option.map_some, hv, hc]

/-- The state of a yield moves no ceiling. -/
theorem effectiveCeiling_yield (k : Record) (c : Recall) (y : YieldState) :
    { k with recallPart := some { c with yield := y } }.effectiveCeiling = { k with recallPart := some c }.effectiveCeiling := by
  rw [Record.effectiveCeiling_eq, Record.effectiveCeiling_eq]

/-- A change of a port that keeps its path and its contribution may come before or after the report of a ceiling. -/
theorem ceilingReported_modPort_of_contribution {a b : Record} {f : PortState → PortState}
    (hc : (s.modPort p f).contribution p = s.contribution p) (hp : (f (s.port p)).front.path = (s.port p).front.path) :
    (s.ceilingReported p a b).modPort p f = (s.modPort p f).ceilingReported p a b := by
  have hpath : (s.modPort p f).path p = s.path p := by rw [path, port_modPort_self, hp, path]
  unfold ceilingReported
  rw [hpath]
  split
  · rw [publish_modPort_of_contribution hc]
  · rfl

/-- The report of a ceiling looks at the ceiling and the state alone. -/
theorem ceilingReported_congr {a b b' : Record} (h : b'.effectiveCeiling = b.effectiveCeiling) (hl : b'.live = b.live) :
    s.ceilingReported p a b' = s.ceilingReported p a b := by
  rw [ceilingReported, ceilingReported, h, hl]

/-- The port with a recall of its record set: the RECALL flag, and a YIELD that waits if the recall is met. -/
def recalledPort (u : PortState) (k : Record) (c : Recall) (waiting : Option YieldRequest) : PortState :=
  { u with
    contract := { u.contract with record := some { k with recallPart := some c } }
    flags := u.flags ||| oneBit PortFlag.recall.bit
    link := { u.link with slot := { u.link.slot with yield := waiting } } }

/-- A recall that is met at once is reported as the recall that was set. -/
theorem recalled_met {c : Recall} {y : PortState → Option YieldRequest} (hu : s.linkUsable p = true) (hy : c.yield = .owed) :
    ((s.modPort p (fun u => recalledPort u k c (y u))).ceilingReported p k { k with recallPart := some c }).meetRecall p =
      (s.modPort p (fun u => recalledPort u k { c with yield := .met }
        (some { handle := k.handle, tag := c.tag, status := .met }))).ceilingReported p k
        { k with recallPart := some { c with yield := .met } } := by
  have hr' : ((s.modPort p (fun u => recalledPort u k c (y u))).ceilingReported p k { k with recallPart := some c }).record p =
      some { k with recallPart := some c } := by
    rw [record, ceilingReported_port, port_modPort_self]
    rfl
  have hu' : ((s.modPort p (fun u => recalledPort u k c (y u))).ceilingReported p k { k with recallPart := some c }).linkUsable p = true := by
    rw [linkUsable, linkState, ceilingReported_port, port_modPort_self]
    exact hu
  rw [meetRecall_owed hr' rfl hy hu', ceilingReported_modPort_of_contribution, modPort_modPort]
  case hp => rfl
  case hc =>
    refine contribution_congr (k := { k with recallPart := some c }) (k' := { k with recallPart := some { c with yield := .met } }) rfl ?_
      (congrArg (fun u : PortState => u.contract.record) (port_modPort_self _ _ _)) rfl (effectiveCeiling_yield k c .met)
    exact congrArg (fun u : PortState => u.contract.record) (port_modPort_self _ _ _)
  exact (ceilingReported_congr (effectiveCeiling_yield k c .met).symm rfl).symm

/-- A recall set on a port whose link can answer (R102, R103). -/
theorem setRecall_eq {ceiling ms : Nat} {tag : Tag} (hr : s.record p = some k) (hu : s.linkUsable p = true) :
    let met : Prop := s.path p ≠ .closed ∨ (s.port p).front.current ≤ ceiling
    let c : Recall := { s.newRecall ceiling (clampDeadline ms) tag with yield := if met then .met else .owed }
    s.setRecall p k ceiling ms tag =
      (s.modPort p (fun u => recalledPort u k c
        (if met then some { handle := k.handle, tag := tag, status := .met }
          else u.link.slot.yield.filter (fun y => y.handle ≠ k.handle)))).ceilingReported p k { k with recallPart := some c } := by
  intro met c
  have set : s.setRecall p k ceiling ms tag =
      ((s.modPort p (fun u => recalledPort u k (s.newRecall ceiling (clampDeadline ms) tag)
        (u.link.slot.yield.filter (fun y => y.handle ≠ k.handle)))).ceilingReported p k
          { k with recallPart := some (s.newRecall ceiling (clampDeadline ms) tag) }).yieldTest p := by
    rw [setRecall, reviseRecord_eq (by rw [record, modSlot_eq, port_modPort_self]; exact hr), setFlag_eq, ceilingReported_modPort,
      modSlot_eq, modPort_modPort, modPort_modPort]
    case hf => exact fun _ => rfl
    case hp => exact fun _ => rfl
    rfl
  rw [set]
  generalize hw : (s.modPort p (fun u => recalledPort u k (s.newRecall ceiling (clampDeadline ms) tag)
        (u.link.slot.yield.filter (fun y => y.handle ≠ k.handle)))).ceilingReported p k
          { k with recallPart := some (s.newRecall ceiling (clampDeadline ms) tag) } = w
  have hport : w.port p = recalledPort (s.port p) k (s.newRecall ceiling (clampDeadline ms) tag)
      ((s.port p).link.slot.yield.filter (fun y => y.handle ≠ k.handle)) := by
    rw [← hw, ceilingReported_port, port_modPort_self]
  have hr' : w.record p = some { k with recallPart := some (s.newRecall ceiling (clampDeadline ms) tag) } :=
    congrArg (fun u : PortState => u.contract.record) hport
  have test : (w.path p ≠ .closed ∨ (w.port p).front.current ≤ (s.newRecall ceiling (clampDeadline ms) tag).ceiling) = met := by
    rw [path, hport]
    rfl
  by_cases h : met
  · rw [yieldTest_open hr' rfl (test ▸ h), ← hw, recalled_met hu rfl]
    simp only [c, if_pos h]
    rfl
  · rw [yieldTest_drawing hr' rfl (test ▸ h), ← hw]
    simp only [c, if_neg h]
    rfl

/-- A recall lifted by one at or above the grant (R105). -/
theorem liftRecall_eq {c : Recall} (hr : s.record p = some k) (hc : k.recallPart = some c) :
    s.liftRecall p k =
      (s.modPort p (fun u =>
        { u with
          contract := { u.contract with record := some { k with recallPart := none } }
          flags := u.flags ||| oneBit PortFlag.recall.bit })).ceilingReported p k { k with recallPart := none } := by
  simp only [liftRecall, hc, reviseRecord_eq hr, setFlag_eq]
  rw [ceilingReported_modPort, modPort_modPort]
  case hf => exact fun _ => rfl
  case hp => exact fun _ => rfl

theorem heard_linkUsable (hh : s.hears p = true) : (s.heard p).linkUsable p = true := by
  unfold hears linkState at hh
  rw [linkUsable, linkState, heard_port_self]
  cases hs : (s.port p).link.state <;> simp [hs] at hh ⊢

theorem exec_recall_taken {ceiling : BitVec 10} {ms : Word} {tag : Tag} (hh : s.hears p = true) (hc : ceiling.toNat ≤ 1000) :
    exec (.recall p false tag ceiling ms) s = .next ((s.heard p).takeRecall p ceiling.toNat ms.toNat tag) :=
  (exec_frameRow s p ⟨false, tag, .recall ceiling ms⟩).trans
    (congrArg Host.Outcome.next (receive_plain hh (by simpa [bodyFieldsOk] using hc)))

/-! ## A recall overdue -/

/-- A record without an OWED recall is benched as it is. -/
theorem bench_record_calm (hr : s.record p = some k) (hs : k.state = .inForce)
    (calm : ∀ c, k.recallPart = some c → c.yield ≠ .owed) :
    (s.bench p).record p = some { k with state := .benched, rank := some (s.port p).rank } := by
  obtain ⟨k', hk', -, hport⟩ := benchedAt_port s p k
  have hset : (s.setRecord p (some { k with state := .benched })).record p = some { k with state := .benched } := by
    rw [record, setRecord_eq, port_modPort_self]
  have opened := openPath_record_calm (s := s.setRecord p (some { k with state := .benched })) (p := p) (fun r c hr' hc => by
    obtain rfl := Option.some.inj (hset.symm.trans hr')
    exact calm c hc)
  obtain rfl := Option.some.inj (hk'.symm.trans (opened.trans hset))
  rw [record, bench_port hr hs, hport]

theorem bench_out_of_force (hr : s.record p = some k) (hs : k.state ≠ .inForce) : s.bench p = s := by
  simp only [bench, hr, if_neg hs]

theorem exec_recallDeadline_due {c : Recall} (hr : s.record p = some k) (hc : k.recallPart = some c) (hy : c.yield = .owed)
    (hd : reached s.tick c.deadline = true) : exec (.recallDeadline p) s = .next (s.recallOverdue p k c) := by
  refine congrArg Host.Outcome.next ?_
  simp only [recallDeadline, hr, hc, if_pos (And.intro hy hd)]

theorem BenchedAt.linkState {t : State} (h : s.BenchedAt t p k) : t.linkState p = s.linkState p := by
  obtain ⟨-, -, hlasting, -⟩ := h
  exact (congrArg (fun u : PortState => u.link.state) hlasting :)

/-- A YIELD asked of the link changes its place in the request slot alone. -/
theorem requestYield_yield (s : State) (p : Port) (r : YieldRequest) :
    ∃ y, (s.requestYield p r).port p =
        { s.port p with link := { (s.port p).link with slot := { (s.port p).link.slot with yield := y } } } ∧
      (s.linkUsable p = true → y = some r) := by
  rw [requestYield_self]
  by_cases hu : s.linkUsable p = true
  · exact ⟨some r, by rw [if_pos hu], fun _ => rfl⟩
  · exact ⟨(s.port p).link.slot.yield, by rw [if_neg hu], fun h => absurd h hu⟩

theorem requestYield_lastHandle (s : State) (p : Port) (r : YieldRequest) : (s.requestYield p r).lastHandle = s.lastHandle := by
  unfold requestYield
  split <;> rfl

/-- A recall overdue over a record IN_FORCE benches it (R104). -/
theorem recallOverdue_inForce {c : Recall} (hc : k.recallPart = some c) (hs : k.state = .inForce) :
    s.BenchedAt (s.recallOverdue p k c) p k ∧
      (∃ k', (s.recallOverdue p k c).record p = some k' ∧ k'.recallPart = some { c with yield := .opened }) ∧
      (s.linkUsable p = true → ((s.recallOverdue p k c).port p).link.slot.yield = some { handle := k.handle, tag := c.tag, status := .opened }) := by
  generalize hw : s.setRecord p (some { k with recallPart := some { c with yield := .opened } }) = w
  have hport : w.port p =
      { s.port p with contract := { (s.port p).contract with record := some { k with recallPart := some { c with yield := .opened } } } } := by
    rw [← hw, setRecord_eq, port_modPort_self]
  have hrecord : w.record p = some { k with recallPart := some { c with yield := .opened } } := by rw [record, hport]
  have benched := bench_benchedAt hrecord hs
  have hbench := bench_record_calm hrecord hs (fun c' hc' => by
    obtain rfl := Option.some.inj hc'
    exact nofun)
  have hlink : (w.bench p).linkState p = s.linkState p := benched.linkState.trans (by rw [linkState, hport, linkState])
  have overdue : s.recallOverdue p k c = (w.bench p).requestYield p { handle := k.handle, tag := c.tag, status := .opened } := by
    rw [← hw]
    rfl
  generalize w.bench p = b at *
  obtain ⟨hframe, hlast, hlasting, hpath, hrole, hclose⟩ := benched
  have hframe' : s.FrameAt w p := hw ▸ FrameAt.modPort s p _
  have hlast' : w.lastHandle = s.lastHandle := by rw [← hw]; rfl
  obtain ⟨y, hself, hasked⟩ := requestYield_yield b p { handle := k.handle, tag := c.tag, status := .opened }
  rw [overdue]
  refine ⟨⟨hframe'.trans (hframe.trans (requestYield_moves b p _).frameAt), ?_, ?_, ?_, ?_, fun h => ?_⟩, ?_, fun hu => ?_⟩
  · rw [requestYield_lastHandle, hlast, hlast']
  · rw [hself]
    refine (show _ = (b.port p).lasting from rfl).trans (hlasting.trans ?_)
    rw [hport]
    simp only [PortState.lasting, Option.map_some, Record.lasting, hc]
  · rw [path, hself]
    exact hpath
  · rw [role, hself]
    exact hrole
  · rw [hself]
    exact hclose (by rw [path, hport]; exact h)
  · have hrecord' : (b.requestYield p { handle := k.handle, tag := c.tag, status := .opened }).record p = b.record p := by
      rw [record, hself, record]
    exact ⟨_, hrecord'.trans hbench, rfl⟩
  · rw [hself]
    exact hasked (by rw [linkUsable, hlink]; exact hu)

/-- A recall overdue over another record marks it and asks the YIELD. -/
theorem recallOverdue_out_of_force {c : Recall} (hs : k.state ≠ .inForce) :
    s.recallOverdue p k c = s.modPort p (fun u =>
      { u with
        contract := { u.contract with record := some { k with recallPart := some { c with yield := .opened } } }
        link := if s.linkUsable p then { u.link with slot := { u.link.slot with
            yield := some { handle := k.handle, tag := c.tag, status := .opened } } } else u.link }) := by
  generalize hw : s.setRecord p (some { k with recallPart := some { c with yield := .opened } }) = w
  have hrecord : w.record p = some { k with recallPart := some { c with yield := .opened } } := by
    rw [record, ← hw, setRecord_eq, port_modPort_self]
  have usable : w.linkUsable p = s.linkUsable p := by
    rw [linkUsable, linkState, ← hw, setRecord_eq, port_modPort_self]
    rfl
  have overdue : s.recallOverdue p k c = w.requestYield p { handle := k.handle, tag := c.tag, status := .opened } := by
    rw [recallOverdue, hw, bench_out_of_force hrecord hs]
  rw [overdue, requestYield, usable, ← hw]
  by_cases hu : s.linkUsable p = true
  · simp only [if_pos hu, setRecord_eq, modSlot_eq, modPort_modPort]
  · simp only [if_neg hu, setRecord_eq]

end State

open State

/-- Settles O40: a RECALL sets, lifts or keeps, and a deadline that finds the yield OWED benches. -/
theorem recallTaken : Obligations.RecallTaken := by
  intro s p
  refine ⟨fun tag ceiling ms hh hc => ?_, fun k c hr hc hy hd => ?_⟩
  · intro clamped keep
    rw [exec_recall_taken hh hc]
    refine ⟨fun hr => ?_, fun k hr => ?_⟩
    · have hr' : (s.heard p).record p = none := by rw [record, heard_port_self]; exact hr
      simp only [takeRecall, hr']
    · have hr' : (s.heard p).record p = some k := by rw [record, heard_port_self]; exact hr
      refine ⟨fun hs => ?_, fun hs hlow => ?_, fun hs hhigh hp => ?_, fun hs hhigh hp => ?_⟩
      · simp only [takeRecall, hr', if_pos hs]
        rfl
      · intro met c k'
        simp only [takeRecall, hr', if_neg hs, if_pos hlow]
        rw [setRecall_eq hr' (heard_linkUsable hh)]
        have hmet : (((s.heard p).path p ≠ .closed ∨ ((s.heard p).port p).front.current ≤ ceiling.toNat)) = met := by
          rw [path, heard_port_self]
          rfl
        simp only [hmet]
        refine congrArg (fun u : State => Host.Outcome.next (u.ceilingReported p k k')) ?_
        simp only [keep, modPort_modPort]
        rfl
      · simp only [takeRecall, hr', if_neg hs, if_neg (Nat.not_lt.mpr hhigh), liftRecall, hp]
      · obtain ⟨c, hc⟩ := Option.isSome_iff_exists.mp hp
        simp only [takeRecall, hr', if_neg hs, if_neg (Nat.not_lt.mpr hhigh), liftRecall_eq hr' hc]
        simp only [keep, modPort_modPort]
  · intro owed
    rw [exec_recallDeadline_due hr hc hy hd]
    refine ⟨fun hs => ?_, fun hs => ?_⟩
    · obtain ⟨benched, ⟨k', hk', hyield⟩, hasked⟩ := recallOverdue_inForce hc hs
      exact ⟨_, k', rfl, benched, hk', hyield, hasked⟩
    · exact congrArg Host.Outcome.next (recallOverdue_out_of_force hs)

end Sys2Proof.Machine
end

section
/-! PROOF. What a recomputation reads of a state, and a failed close (O21). -/

namespace Sys2Proof.Machine
open Sys2Proof

/-- What the supplying set depends on of a record: its handle, its state and its contract voltage. -/
def Record.supply (k : Record) : Handle × RecordState × Nat := (k.handle, k.state, k.voltage)

namespace State

/-- Two states that a recomputation of the roster does not tell apart (R118, R122 to R125). -/
structure Resupplies (s u : State) : Prop where
  policy : u.policy = s.policy
  tick : u.tick = s.tick
  roster : u.roster = s.roster
  switched : u.deviceFlags.getLsbD DeviceFlag.switched.bit = s.deviceFlags.getLsbD DeviceFlag.switched.bit
  mode : ∀ q, u.mode q = s.mode q
  placing : ∀ q, u.placing q = s.placing q
  supply : ∀ q, (u.record q).map Record.supply = (s.record q).map Record.supply

namespace Resupplies

variable {s u t : State} (h : s.Resupplies u)
include h

theorem path (q : Port) : u.path q = s.path q := congrArg Placing.path (h.placing q)

theorem role (q : Port) : u.role q = s.role q := congrArg Placing.role (h.placing q)

/-- A test of a record's handle, state and voltage gives the same in both states. -/
theorem any (q : Port) (f : Handle × RecordState × Nat → Bool) :
    (u.record q).any (fun k => f k.supply) = (s.record q).any (fun k => f k.supply) := by
  have same := congrArg (Option.any f) (h.supply q)
  rwa [Option.any_map, Option.any_map] at same

theorem maySupply (q : Port) : u.maySupply q = s.maySupply q := by
  rw [State.maySupply, State.maySupply, h.mode, h.policy]
  exact congrArg _ (h.any q (fun x => x.2.1 != .benched && decide (s.policy.vinLow ≤ x.2.2) && decide (x.2.2 ≤ s.policy.vinHigh)))

theorem portOfHandle (x : Handle) : u.portOfHandle x = s.portOfHandle x := by
  unfold State.portOfHandle
  refine congrArg (fun f => Port.all.find? f) (funext fun q => ?_)
  have same := h.any q (fun y => y.1 = x)
  revert same
  cases u.record q <;> cases s.record q <;> exact id

theorem directHeld : u.directHeld = s.directHeld := directHeld_congr h.mode (fun q _ => h.path q)

theorem supplyingSet : u.supplyingSet = s.supplyingSet := by
  have may : u.maySupply = s.maySupply := funext h.maySupply
  simp only [State.supplyingSet, h.roster, h.policy, h.directHeld, h.portOfHandle, may]

theorem wanted (q : Port) : u.wanted q = s.wanted q := by
  rw [State.wanted, State.wanted, h.supplyingSet]
  exact h.any q (fun x => s.supplyingSet.contains x.1)

theorem outgoes (q : Port) : u.outgoes q = s.outgoes q := by
  rw [State.outgoes, State.outgoes, h.maySupply, h.wanted, h.path]

theorem incomes : u.incomes = s.incomes := by
  simp only [State.incomes, h.wanted, h.path]

theorem makesFirst : u.makesFirst = s.makesFirst := by
  simp only [State.makesFirst, h.policy, h.wanted, h.outgoes, h.directHeld]

theorem linedUp : u.linedUp = s.linedUp := by
  simp only [State.linedUp, h.wanted, h.path, h.mode, h.role]

theorem placingAfter (q : Port) : u.placingAfter q = s.placingAfter q := by
  simp only [State.placingAfter, h.mode, h.placing, h.wanted, h.path, h.role, h.outgoes, h.incomes, h.makesFirst, State.ahead, h.tick]

/-- What a recomputation leaves on the one it leaves on the other. -/
theorem switchedOver (g : u.SwitchedOver t) : s.SwitchedOver t := by
  obtain ⟨hroster, hplacing, hflag⟩ := g
  rw [h.roster, h.linedUp, h.incomes, h.supplyingSet] at hroster
  rw [h.roster, h.linedUp, h.incomes, h.switched] at hflag
  exact ⟨hroster, fun q => (hplacing q).trans (h.placingAfter q), hflag⟩

end Resupplies

variable {s t : State} {p : Port} {k : Record}

/-- A path that is OPEN with no close operation takes nothing from the paths that are backed. -/
theorem PathsBacked.opened (hb : s.PathsBacked) (others : ∀ q, q ≠ p → t.port q = s.port q) (hp : t.path p = .opened)
    (hc : (t.port p).front.closeOp = none) : t.PathsBacked := by
  intro q
  by_cases hq : q = p
  · subst hq
    exact ⟨fun h => absurd hp h, by rw [hc, hp]; simp⟩
  · have same := hb q
    rw [path, record, mode] at same ⊢
    rw [others q hq]
    exact same

/-! ## What a placing leaves of the roster and of the SWITCHED flag -/

theorem setRoster_roster (s : State) (l : List Handle) : (s.setRoster l).roster = { s.roster with list := l } := by
  unfold setRoster
  dsimp only
  split
  · rfl
  · rfl

/-- One device flag set leaves the others. -/
theorem getLsbD_or_oneBit {n m : Nat} (x : Word) (h : n ≠ m) : (x ||| oneBit m).getLsbD n = x.getLsbD n := by
  have other : (oneBit m).getLsbD n = false := by
    rw [oneBit, BitVec.getLsbD_shiftLeft, BitVec.getLsbD_one]
    have apart : m ≤ n → n - m ≠ 0 := by omega
    by_cases hm : n < m
    · simp [hm]
    · simp [hm, apart (Nat.not_lt.mp hm)]
  rw [BitVec.getLsbD_or, other, Bool.or_false]

theorem setRoster_switched (s : State) (l : List Handle) :
    (s.setRoster l).deviceFlags.getLsbD DeviceFlag.switched.bit = s.deviceFlags.getLsbD DeviceFlag.switched.bit := by
  unfold setRoster
  dsimp only
  split
  · rfl
  · exact getLsbD_or_oneBit _ (by decide)

theorem place_roster (s : State) (p : Port) : (s.place p).roster = { s.roster with list := (s.place p).roster.list } := by
  unfold place
  split
  · rfl
  · rw [setRoster_roster]
    rfl

theorem place_switched (s : State) (p : Port) :
    (s.place p).deviceFlags.getLsbD DeviceFlag.switched.bit = s.deviceFlags.getLsbD DeviceFlag.switched.bit := by
  unfold place
  split
  · rfl
  · rw [setRoster_switched]
    rfl

theorem place_others (s : State) {p q : Port} (h : q ≠ p) : (s.place p).port q = s.port q := by
  unfold place
  split
  · rfl
  · rw [setRoster_port, setRecord_eq, port_modPort_ne _ _ _ h]

/-! ## A benching up to its recomputation -/

theorem benchedAt_others (k : Record) {q : Port} (h : q ≠ p) : (s.benchedAt p k).port q = s.port q := by
  rw [benchedAt, setFlag_eq, port_modPort_ne _ _ _ h, place_others _ h, setRole_eq, port_modPort_ne _ _ _ h, openPath_others _ _ h,
    setRecord_eq, port_modPort_ne _ _ _ h]

theorem benchedAt_roster (s : State) (p : Port) (k : Record) :
    (s.benchedAt p k).roster = { s.roster with list := (s.benchedAt p k).roster.list } := by
  have before : (((s.setRecord p (some { k with state := .benched })).openPath p).setRole p .none).roster = s.roster := by
    rw [setRole_eq, modPort_roster, openPath_roster, setRecord_eq, modPort_roster]
  rw [benchedAt, setFlag_eq, modPort_roster, place_roster, before]

theorem benchedAt_switched (s : State) (p : Port) (k : Record) :
    (s.benchedAt p k).deviceFlags.getLsbD DeviceFlag.switched.bit =
      ((s.setRecord p (some { k with state := .benched })).openPath p).deviceFlags.getLsbD DeviceFlag.switched.bit := by
  rw [benchedAt, setFlag_eq]
  exact place_switched _ p

theorem benchedAt_keeps (hr : s.record p = some k) : Keeps s (s.benchedAt p k) := by
  have placed := place_keeps (k := { k with state := .benched }) hr rfl rfl
    ((openPath_worked _ p).stays.trans (setRole_worked _ p .none).stays)
  exact placed.trans (.flag _ p .benched)

theorem benchedAt_front (s : State) (p : Port) (k : Record) :
    ((s.benchedAt p k).port p).front = ((s.setRecord p (some { k with state := .benched })).openPath p |>.port p).front := by
  obtain ⟨k', -, -, hport⟩ := benchedAt_port s p k
  rw [hport]

theorem benchedAt_mode (s : State) (p : Port) (k : Record) : (s.benchedAt p k).mode p = s.mode p := by
  have before : (s.setRecord p (some { k with state := .benched })).mode p = s.mode p := by
    rw [mode, setRecord_eq, port_modPort_self, mode]
  rw [mode, benchedAt_front]
  exact ((openPath_worked _ p).mode p).trans before

theorem benchedAt_path (s : State) (p : Port) (k : Record) : (s.benchedAt p k).path p = .opened := by
  rw [path, benchedAt_front]
  exact openPath_path _ p

theorem benchedAt_closeOp (h : s.path p = .opened → (s.port p).front.closeOp = none) :
    ((s.benchedAt p k).port p).front.closeOp = none := by
  have hfront : ((s.setRecord p (some { k with state := .benched })).port p).front = (s.port p).front := by
    rw [setRecord_eq, port_modPort_self]
  rw [benchedAt_front]
  by_cases hp : s.path p = .opened
  · have opened : (s.setRecord p (some { k with state := .benched })).openPath p = s.setRecord p (some { k with state := .benched }) := by
      simp only [openPath, path, hfront, show (s.port p).front.path = .opened from hp]
    rw [opened, hfront]
    exact h hp
  · exact openPath_closeOp _ p (by rw [path, hfront]; exact hp)

theorem benchedAt_role (s : State) (p : Port) (k : Record) : (s.benchedAt p k).role p = .none := by
  obtain ⟨k', -, -, hport⟩ := benchedAt_port s p k
  rw [role, hport]

theorem benchedAt_frameAt (hr : s.record p = some k) (hs : k.state = .inForce) : s.FrameAt (s.benchedAt p k) p := by
  refine ⟨?_, fun q hq => by rw [benchedAt_others k hq]⟩
  have frame := (bench_moves s p).frameAt.1
  rw [bench_eq hr hs] at frame
  exact (recompute_worked (s.benchedAt p k)).1.symm.trans frame

theorem benchedAt_supply (s : State) (p : Port) (k : Record) :
    ((s.benchedAt p k).record p).map Record.supply = some { k with state := .benched }.supply := by
  obtain ⟨k', -, hlasting, hport⟩ := benchedAt_port s p k
  have same : k'.lasting.supply = { k with state := .benched }.supply := by rw [hlasting]; rfl
  rw [record, hport]
  exact congrArg some same

theorem benchedAt_placing (h : s.path p = .opened → (s.port p).front.closeOp = none) :
    (s.benchedAt p k).placing p = { path := .opened, closeOp := none, role := .none } := by
  rw [placing, benchedAt_path, benchedAt_closeOp h, benchedAt_role]

/-- The path that a benching leaves OPEN keeps the paths backed, so that its recomputation is the one of R122 to R125. -/
theorem benchedAt_orderly (hr : s.record p = some k) (hclose : s.path p = .opened → (s.port p).front.closeOp = none)
    (hb : s.PathsBacked) (hd : s.HandlesDistinct) (hx : s.RosterExact) : (s.benchedAt p k).Orderly := by
  have kept := (benchedAt_keeps hr).registers hd hx
  refine ⟨hb.opened (fun q hq => benchedAt_others k hq) ?_ ?_, kept.distinct, kept.exact⟩
  · exact benchedAt_path s p k
  · exact benchedAt_closeOp hclose

/-! ## Properties that the roster's work keeps -/

theorem endSteps_part (s : State) (b : Bool) : (s.endSteps b).ports = s.ports ∧ (s.endSteps b).allocator = s.allocator := by
  unfold endSteps
  dsimp only
  split
  · exact ⟨rfl, rfl⟩
  · exact ⟨rfl, rfl⟩

/-- A property of states that every step of a switch-over keeps: a role given, a path opened, a close taken. -/
structure StepsKept (I : State → Prop) : Prop where
  role : ∀ {s : State} (q : Port) {r : Role}, r ≠ .incoming → I s → I (s.setRole q r)
  opens : ∀ {s : State} (q : Port), I s → I (s.openPath q)
  closes : ∀ {s t : State} (q : Port), s.requestClose q .roster = some t → I s → I (t.setRole q .incoming)

namespace StepsKept

variable {I : State → Prop} (h : StepsKept I)
include h

theorem openForRoster {s : State} (hs : I s) (q : Port) : I (s.openForRoster q) := h.role q nofun (h.opens q hs)

theorem askClose {a : State × List Port} (ha : I a.1) (skip : List Port) (q : Port) : I (askClose skip a q).1 := by
  unfold State.askClose
  split
  · exact h.role q nofun ha
  · split
    · next t ht => exact h.closes q ht ha
    · exact h.role q nofun ha

theorem askIfRoom {a : State × List Port} (ha : I a.1) (skip : List Port) (q : Port) : I (askIfRoom skip a q).1 := by
  unfold State.askIfRoom
  split
  · exact h.askClose ha skip q
  · exact h.role q nofun ha

theorem dropUnwanted {s : State} (hs : I s) (q : Port) : I (s.dropUnwanted q) := by
  unfold State.dropUnwanted
  split
  · split
    · exact h.openForRoster hs q
    · split
      · exact hs
      · exact h.openForRoster hs q
    · exact h.role q nofun hs
  · exact hs

theorem keepWanted {s : State} (hs : I s) (q : Port) : I (s.keepWanted q) := by
  unfold State.keepWanted
  split
  · exact h.role q nofun hs
  · exact hs

omit h in
theorem fold {f : State → Port → State} (hf : ∀ {s : State}, I s → ∀ q, I (f s q)) (l : List Port) {s : State} (hs : I s) :
    I (l.foldl f s) := by
  induction l generalizing s with
  | nil => exact hs
  | cons q l ih => exact ih (hf hs q)

omit h in
theorem fold₂ {f : State × List Port → Port → State × List Port} (hf : ∀ {a : State × List Port}, I a.1 → ∀ q, I (f a q).1)
    (l : List Port) {a : State × List Port} (ha : I a.1) : I (l.foldl f a).1 := by
  induction l generalizing a with
  | nil => exact ha
  | cons q l ih => exact ih (hf ha q)

theorem makeBeforeBreak {s : State} (hs : I s) (skip waiting out : List Port) : I (s.makeBeforeBreak skip waiting out).1 := by
  have asked : I (waiting.foldl (State.askClose skip) (s, [])).1 := fold₂ (fun ha q => h.askClose ha skip q) waiting hs
  exact fold (f := fun s q => s.setRole q .held) (fun hs q => h.role q nofun hs) out asked

theorem breakBeforeMake {s : State} (hs : I s) (skip waiting out : List Port) : I (s.breakBeforeMake skip waiting out).1 := by
  have opened : I (out.foldl State.openForRoster s) := fold h.openForRoster out hs
  exact fold₂ (a := (out.foldl State.openForRoster s, [])) (fun ha q => h.askIfRoom ha skip q) waiting opened

theorem switchSteps {s : State} (hs : I s) (skip : List Port) : I (s.switchSteps skip).1 := by
  have sorted : I (Port.all.foldl State.keepWanted (Port.all.foldl State.dropUnwanted s)) :=
    fold h.keepWanted _ (fold h.dropUnwanted _ hs)
  unfold State.switchSteps
  dsimp only
  split
  · exact fold h.openForRoster _ sorted
  · split
    · exact h.makeBeforeBreak sorted skip _ _
    · exact h.breakBeforeMake sorted skip _ _

end StepsKept

/-- A property of states that a recomputation keeps: besides its steps, what is not of the ports is no matter of it. -/
structure RosterKept (I : State → Prop) : Prop extends StepsKept I where
  part : ∀ {s t : State}, t.ports = s.ports → t.allocator = s.allocator → I s → I t

namespace RosterKept

variable {I : State → Prop} (h : RosterKept I)
include h

theorem recomputePass {s : State} (hs : I s) (skip : List Port) : I (s.recomputePass skip).1 := by
  rw [recomputePass_eq]
  have formed : I s.formed := h.part (show s.formed.ports = s.ports from rfl) rfl hs
  exact h.part (endSteps_part _ _).1 (endSteps_part _ _).2 (h.switchSteps formed skip)

/-- What every step keeps the recomputation keeps. -/
theorem recompute {s : State} (hs : I s) : I s.recompute := by
  unfold State.recompute
  dsimp only
  split
  · exact h.recomputePass hs []
  · exact h.recomputePass (h.recomputePass hs []) _

end RosterKept

/-- A close taken touches the front end of its port alone. -/
theorem requestClose_others {q : Port} {who : Requester} (ht : s.requestClose q who = some t) (h : p ≠ q) : t.port p = s.port p := by
  unfold requestClose at ht
  split at ht
  · split at ht
    · obtain rfl := Option.some.inj ht
      rw [modFront_eq, port_modPort_ne _ _ _ h]
    · cases ht
  · rw [Option.some.inj ht]
  · rw [Option.some.inj ht]

/-! ## A port that no recomputation closes -/

/-- A port whose path is OPEN over a record that no close is taken for (R13). -/
structure Barred (s : State) (p : Port) : Prop where
  path : s.path p = .opened
  closeOp : (s.port p).front.closeOp = none
  role : s.role p ≠ .incoming
  record : ∀ k, s.record p = some k → k.state ≠ .inForce

namespace Barred

theorem congr (h : s.Barred p) (hp : t.port p = s.port p) : t.Barred p := by
  obtain ⟨hpath, hclose, hrole, hrecord⟩ := h
  constructor
  · rwa [State.path, hp]
  · rwa [hp]
  · rwa [State.role, hp]
  · rwa [State.record, hp]

theorem setRole (h : s.Barred p) (q : Port) {r : Role} (hr : r ≠ .incoming) : (s.setRole q r).Barred p := by
  by_cases hq : p = q
  · subst hq
    have hport : (s.setRole p r).port p = { s.port p with role := r } := by rw [setRole_eq, port_modPort_self]
    obtain ⟨hpath, hclose, -, hrecord⟩ := h
    constructor
    · rwa [State.path, hport]
    · rwa [hport]
    · rwa [State.role, hport]
    · rwa [State.record, hport]
  · exact h.congr (by rw [setRole_eq, port_modPort_ne _ _ _ hq])

theorem openPath (h : s.Barred p) (q : Port) : (s.openPath q).Barred p := by
  by_cases hq : p = q
  · subst hq
    have opened : s.openPath p = s := by simp only [State.openPath, h.path]
    rwa [opened]
  · exact h.congr (openPath_others _ _ hq)

/-- No close of the port is taken. -/
theorem requestClose (h : s.Barred p) {q : Port} {who : Requester} (ht : s.requestClose q who = some t) : p ≠ q := by
  rintro rfl
  have closed : s.admitsClose p = false := by
    unfold admitsClose
    cases hr : s.record p with
    | none => rfl
    | some k => simp [h.record k hr]
  simp only [State.requestClose, h.path, closed, Bool.false_eq_true, if_false, reduceCtorEq] at ht

/-- A recomputation leaves the path of such a port OPEN. -/
theorem rosterKept (p : Port) : RosterKept (fun s => s.Barred p) where
  part hp _ h := h.congr (by rw [port, hp, port])
  role q _ hr h := h.setRole q hr
  opens q h := h.openPath q
  closes q ht h := h.congr (by
    have hq := h.requestClose ht
    rw [setRole_eq, port_modPort_ne _ _ _ hq, requestClose_others ht hq])

end Barred

/-! ## A port with a link that is not usable -/

/-- The port's link is a given QUIET or MUTE one. -/
structure Hushed (s : State) (p : Port) (l : Link) : Prop where
  link : (s.port p).link = l
  unusable : l.state = .quiet ∨ l.state = .mute

theorem Hushed.congr {l : Link} (h : s.Hushed p l) (hp : (t.port p).link = (s.port p).link) : t.Hushed p l := ⟨hp.trans h.link, h.unusable⟩

theorem Hushed.modPort {l : Link} (h : s.Hushed p l) (q : Port) (f : PortState → PortState) (hf : ∀ u, (f u).link = u.link) :
    (s.modPort q f).Hushed p l := by
  refine h.congr ?_
  by_cases hq : p = q
  · rw [hq, port_modPort_self, hf]
  · rw [port_modPort_ne _ _ _ hq]

theorem Hushed.tidyWatch {l : Link} (h : s.Hushed p l) : (s.tidyWatch p).Hushed p l := by
  rw [tidyWatch_eq]
  exact h.modPort p _ (fun _ => rfl)

/-- On such a link no YIELD is asked (R33, R39, R40). -/
theorem Hushed.meetRecall {l : Link} (h : s.Hushed p l) : (s.meetRecall p).Hushed p l := by
  unfold State.meetRecall
  split
  · exact h
  · next r hr =>
    split
    · exact h
    · next c hc =>
      split
      · have recorded : (s.setRecord p (some { r with recallPart := some { c with yield := .met } })).Hushed p l :=
          setRecord_eq s p _ ▸ h.modPort p _ (fun _ => rfl)
        have unusable : ¬ (s.setRecord p (some { r with recallPart := some { c with yield := .met } })).linkUsable p = true := by
          rw [linkUsable_iff, linkState, recorded.link]
          exact fun usable => recorded.unusable.elim usable.1 usable.2
        rwa [requestYield, if_neg unusable]
      · exact h

theorem Hushed.openPath {l : Link} (h : s.Hushed p l) (q : Port) : (s.openPath q).Hushed p l := by
  by_cases hq : p = q
  · subst hq
    unfold State.openPath
    split
    · exact h
    · exact modFront_eq s p _ ▸ h.modPort p _ (fun _ => rfl)
    · have stopped : ((s.modFront p (fun f => { f with path := .opened, closeOp := none })).modMonitor p Monitor.stop).Hushed p l := by
        rw [modFront_eq, modMonitor_eq, modPort_modPort]
        exact h.modPort p _ (fun _ => rfl)
      exact stopped.tidyWatch.meetRecall.congr (by rw [reportPath_port])
  · exact h.congr (by rw [openPath_others _ _ hq])

/-! ## A failed close -/

/-- A port whose close has failed, before its record is benched or the roster recomputes (R15). -/
def closeFailed (s : State) (p : Port) : State :=
  s.modPort p (fun u => { u with front := { u.front with path := .opened, closeOp := none }, role := .none })

theorem closeFailed_port (s : State) (p : Port) :
    (s.closeFailed p).port p =
      { s.port p with front := { (s.port p).front with path := .opened, closeOp := none }, role := .none } := port_modPort_self _ _ _

theorem exec_closeDeadline_due {c : CloseOp} (hp : s.path p = .closing) (hc : (s.port p).front.closeOp = some c)
    (hd : reached s.tick c.deadline = true) : exec (.closeDeadline p) s = .next (s.failClose p) := by
  refine congrArg Host.Outcome.next (if_pos ?_)
  simp [closeOverdue, hp, hc, due, hd]

theorem failClose_inForce (hr : s.record p = some k) (hs : k.state = .inForce) : s.failClose p = (s.closeFailed p).bench p := by
  have hr' : (s.closeFailed p).record p = some k := by rw [record, closeFailed_port]; exact hr
  have same : (s.modFront p (fun f => { f with path := .opened, closeOp := none })).setRole p .none = s.closeFailed p := by
    rw [modFront_eq, setRole_eq, modPort_modPort]
    rfl
  simp only [failClose, same, hr', if_pos hs]

theorem failClose_out_of_force (h : ∀ k, s.record p = some k → k.state ≠ .inForce) : s.failClose p = (s.closeFailed p).recompute := by
  have hr' : (s.closeFailed p).record p = s.record p := by rw [record, closeFailed_port, record]
  have same : (s.modFront p (fun f => { f with path := .opened, closeOp := none })).setRole p .none = s.closeFailed p := by
    rw [modFront_eq, setRole_eq, modPort_modPort]
    rfl
  simp only [failClose, same, hr']
  cases hr : s.record p with
  | none => rfl
  | some k => exact if_neg (h k hr)

theorem closeFailed_frameAt (s : State) (p : Port) : s.FrameAt (s.closeFailed p) p := FrameAt.modPort s p _

theorem closeFailed_barred (h : ∀ k, s.record p = some k → k.state ≠ .inForce) : (s.closeFailed p).Barred p := by
  constructor
  · rw [path, closeFailed_port]
  · rw [closeFailed_port]
  · rw [role, closeFailed_port]
    exact nofun
  · rw [record, closeFailed_port]
    exact h

theorem closeFailed_record (hr : s.record p = some k) : (s.closeFailed p).record p = some k := by
  rw [record, closeFailed_port]
  exact hr

theorem closeFailed_benched (hr : s.record p = some k) (hs : k.state = .inForce) : s.BenchedAt ((s.closeFailed p).bench p) p k := by
  have benched := bench_benchedAt (closeFailed_record hr) hs
  have closed : (((s.closeFailed p).bench p).port p).front.closeOp = none := by
    rw [bench_port (closeFailed_record hr) hs]
    exact benchedAt_closeOp (fun _ => by rw [closeFailed_port])
  obtain ⟨hframe, hlast, hlasting, hpath, hrole, -⟩ := benched
  refine ⟨(closeFailed_frameAt s p).trans hframe, hlast, hlasting.trans ?_, hpath, hrole, fun _ => closed⟩
  rw [closeFailed_port]
  rfl

/-- A state with another list on the roster. -/
def withList (s : State) (l : List Handle) : State := { s with roster := { s.roster with list := l } }

theorem withList_port (s : State) (l : List Handle) (q : Port) : (s.withList l).port q = s.port q := rfl

/-- The port of a failed close with its record benched, before the record is placed. -/
def closeBenched (s : State) (p : Port) (k : Record) : State :=
  s.modPort p (fun u =>
    { u with
      front := { u.front with path := .opened, closeOp := none }, role := .none
      contract := { u.contract with record := some { k with state := .benched } } })

theorem closeBenched_port (s : State) (p : Port) (k : Record) :
    (s.closeBenched p k).port p =
      { s.port p with
        front := { (s.port p).front with path := .opened, closeOp := none }, role := .none
        contract := { (s.port p).contract with record := some { k with state := .benched } } } := port_modPort_self _ _ _

theorem closeBenched_others (s : State) (k : Record) {q : Port} (h : q ≠ p) : (s.closeBenched p k).port q = s.port q :=
  port_modPort_ne _ _ _ h

/-- The recomputation after a failed close sees the path OPEN, the record benched, and the list it now has. -/
theorem closeFailed_resupplies (hr : s.record p = some k) (hs : k.state = .inForce) :
    Resupplies ((s.closeBenched p k).withList ((s.closeFailed p).benchedAt p k).roster.list) ((s.closeFailed p).benchedAt p k) := by
  have frame := (closeFailed_frameAt s p).trans (benchedAt_frameAt (closeFailed_record hr) hs)
  have others (q : Port) (hq : q ≠ p) : ((s.closeFailed p).benchedAt p k).port q = s.port q :=
    (benchedAt_others k hq).trans (port_modPort_ne _ _ _ hq)
  have opened : (s.closeFailed p).path p = .opened → ((s.closeFailed p).port p).front.closeOp = none := fun _ => by rw [closeFailed_port]
  refine ⟨frame.policy, frame.tick, ?_, ?_, fun q => ?_, fun q => ?_, fun q => ?_⟩
  · rw [benchedAt_roster]
    rfl
  · rw [benchedAt_switched, (openPath_turned _ p).2.2]
    rfl
  · by_cases hq : q = p
    · subst hq
      rw [benchedAt_mode, mode, mode, withList_port, closeBenched_port, closeFailed_port]
    · rw [mode, mode, others q hq, withList_port, closeBenched_others _ _ hq]
  · by_cases hq : q = p
    · subst hq
      rw [benchedAt_placing opened, placing, path, role, withList_port, closeBenched_port]
    · refine (placing_congr (others q hq)).trans (placing_congr ?_).symm
      rw [withList_port, closeBenched_others _ _ hq]
  · by_cases hq : q = p
    · subst hq
      rw [benchedAt_supply, record, withList_port, closeBenched_port]
      rfl
    · rw [record, record, others q hq, withList_port, closeBenched_others _ _ hq]

/-- The recomputation after a failed close is one of the state with the path OPEN, its record benched, and the list it now has. -/
theorem closeFailed_switchedOver (hr : s.record p = some k) (hs : k.state = .inForce) (hb : s.PathsBacked) (hd : s.HandlesDistinct)
    (hx : s.RosterExact) :
    { s.modPort p (fun u =>
        { u with
          front := { u.front with path := .opened, closeOp := none }, role := .none
          contract := { u.contract with record := some { k with state := .benched } } }) with
      roster := { s.roster with list := ((s.closeFailed p).bench p).roster.list } }.SwitchedOver ((s.closeFailed p).bench p) := by
  have backed : (s.closeFailed p).PathsBacked :=
    hb.opened (fun q hq => port_modPort_ne _ _ _ hq) (by rw [path, closeFailed_port]) (by rw [closeFailed_port])
  have kept : Registers s (s.closeFailed p) := .of_entries hd hx (Stays.port s p _ rfl).entries rfl
  have orderly := benchedAt_orderly (closeFailed_record hr) (fun _ => by rw [closeFailed_port]) backed kept.distinct kept.exact
  rw [bench_eq (closeFailed_record hr) hs]
  have list : ((s.closeFailed p).benchedAt p k).recompute.roster.list = ((s.closeFailed p).benchedAt p k).roster.list :=
    (recompute_worked _).2.2.1
  rw [list]
  exact (closeFailed_resupplies hr hs).switchedOver (recompute_switchedOver orderly.backed orderly.distinct orderly.exact)

end State

open State

/-- Settles O21: a failed close benches the record in force, or recomputes the roster past a path of another record. -/
theorem closeDeadlineFails : Obligations.CloseDeadlineFails := by
  intro s p c hp hc hd
  rw [exec_closeDeadline_due hp hc hd]
  refine ⟨fun k hr hs => ⟨_, rfl, ?_, fun hb hdist hexact => ?_⟩, fun h => ?_⟩
  · rw [failClose_inForce hr hs]
    exact closeFailed_benched hr hs
  · rw [failClose_inForce hr hs]
    exact closeFailed_switchedOver hr hs hb hdist hexact
  · have barred := (Barred.rosterKept p).recompute (closeFailed_barred h)
    rw [failClose_out_of_force h]
    refine ⟨_, rfl, (closeFailed_frameAt s p).trans ((recompute_worked _).frameAt p), barred.path, barred.closeOp, barred.role, ?_⟩
    rw [(recompute_worked _).2.2.2 p, closeFailed_port]
    rfl

end Sys2Proof.Machine
end

section
/-! PROOF. What moves keep of the allocator's view of one port, and a completed close (O20). -/

namespace Sys2Proof.Machine
open Sys2Proof

namespace State

variable {s t : State} {p q : Port} {k : Record}

/-! ## The allocator through the moves of an event -/

/-- The closed-path set is right about one port (R135). -/
def RightAt (s : State) (q : Port) : Prop := s.allocator.closedSet.get q = true ↔ s.path q = .closed

theorem RightAt.congr (h : s.RightAt q) (ha : t.allocator.closedSet.get q = s.allocator.closedSet.get q) (hp : t.path q = s.path q) :
    t.RightAt q := by
  rwa [RightAt, ha, hp]

/-- A change of one port that leaves whether its path is CLOSED. -/
theorem RightAt.modPort (h : s.RightAt q) {f : PortState → PortState}
    (hp : (f (s.port p)).front.path = .closed ↔ (s.port p).front.path = .closed) : (s.modPort p f).RightAt q := by
  by_cases hq : q = p
  · subst hq
    rw [RightAt, path, port_modPort_self, hp]
    exact h
  · exact h.congr rfl (by rw [path, port_modPort_ne _ _ _ hq, path])

theorem ne_closed_of_opened (h : s.path p = .opened) : ¬ (s.port p).front.path = .closed := by
  rw [show (s.port p).front.path = .opened from h]
  exact nofun

theorem ne_closed_of_closing (h : s.path p = .closing) : ¬ (s.port p).front.path = .closed := by
  rw [show (s.port p).front.path = .closing from h]
  exact nofun

theorem RightAt.openPath_of (h : s.RightAt q) (hc : s.path p = .closed) : (s.openPath p).RightAt q := by
  by_cases hq : q = p
  · subst hq
    rw [RightAt, openPath_closedSet hc, openPath_path, PerPort.get_set_self]
    simp
  · exact h.congr (by rw [openPath_closedSet hc, PerPort.get_set_ne _ _ hq]) (by rw [path, openPath_others _ _ hq, path])

theorem RightAt.openPath (h : s.RightAt q) : (s.openPath p).RightAt q := by
  cases hp : s.path p with
  | opened => simpa only [State.openPath, hp] using h
  | closing =>
    rw [openPath_closing _ _ hp]
    exact h.modPort (iff_of_false nofun (ne_closed_of_closing hp))
  | closed => exact h.openPath_of hp

theorem closePath_path (s : State) (p : Port) : (s.closePath p).path p = .closed := by
  simp [closePath, path]

theorem closePath_closedSet (s : State) (p : Port) : (s.closePath p).allocator.closedSet = s.allocator.closedSet.set p true := by
  simp only [closePath, reportPath_closedSet]
  rfl

theorem RightAt.moves (h : s.RightAt q) (hm : Moves p s t) : t.RightAt q := by
  induction hm with
  | still hs => exact h.congr (by rw [hs.2.1]) (path_of_core (hs.2.2.1 q))
  | ask r c _ ho => exact h.modPort (iff_of_false nofun (ne_closed_of_opened ho))
  | drop r hc => exact h.modPort (iff_of_false nofun (ne_closed_of_closing hc))
  | opens r hc => exact h.openPath_of hc
  | @closes s hc =>
    by_cases hq : q = p
    · subst hq
      rw [RightAt, closePath_closedSet, closePath_path, PerPort.get_set_self]
      simp
    · exact h.congr (by rw [closePath_closedSet, PerPort.get_set_ne _ _ hq]) (by rw [path, closePath_others _ p hq, path])
  | publish => exact h.congr (by rw [publish_closedSet]) (by rw [path, publish_port, path])
  | pass b => exact h.congr (by rw [setPassEnable_closedSet]) (by rw [path, setPassEnable_port, path])
  | @create s r _ _ =>
    have same : { s with lastHandle := r.handle }.RightAt q := h.congr rfl rfl
    rw [createRecord, setRecord_eq]
    exact same.modPort Iff.rfl
  | revise r r' _ _ _ => exact h.modPort Iff.rfl
  | benches r _ => exact RightAt.openPath (h.modPort Iff.rfl)
  | clear _ => exact h.modPort Iff.rfl
  | mode m _ => exact h.modPort Iff.rfl
  | trans _ _ ih jh => exact jh (ih h)

theorem openPath_published (h : s.allocator.publishedAt = s.tick) : (s.openPath p).allocator.publishedAt = s.tick := by
  cases hp : s.path p with
  | opened => simpa only [State.openPath, hp] using h
  | closing =>
    rw [openPath_closing _ _ hp]
    exact h
  | closed => exact openPath_publishedAt hp

/-- What has been published at the present tick stays so through every move. -/
theorem published_moves (hm : Moves p s t) (h : s.allocator.publishedAt = s.tick) : t.allocator.publishedAt = s.tick := by
  induction hm with
  | still hs => rw [hs.2.1, h]
  | ask => exact h
  | drop => exact h
  | opens r hc => exact openPath_publishedAt hc
  | @closes s hc => simp only [closePath, reportPath_publishedAt]; rfl
  | publish => exact publish_publishedAt _
  | @pass s b =>
    by_cases hb : s.allocator.passEnable = b
    · rwa [setPassEnable_same hb]
    · rw [setPassEnable_changed hb, publish_publishedAt]
      rfl
  | create => exact h
  | revise => exact h
  | benches r _ => exact openPath_published h
  | clear => exact h
  | mode => exact h
  | trans hm _ ih jh => exact (jh ((ih h).trans hm.frameAt.tick.symm)).trans hm.frameAt.tick

/-! ## A completed close -/

/-- A port whose close has completed, before the roster recomputes (R14). -/
def pathClosed (s : State) (p : Port) : State := (s.closePath p).setRole p .none

theorem pathClosed_port (s : State) (p : Port) :
    (s.pathClosed p).port p =
      { s.port p with
        front := { (s.port p).front with path := .closed, closeOp := none }
        role := .none
        monitor := { (s.port p).monitor with
          window := none
          recovery := if (s.port p).monitor.trimMode = .auto then some (s.ahead 1000) else none }
        watch := { (s.port p).watch with window := none, repeatAt := none } } := by
  simp only [pathClosed, closePath, setRole_eq, modFront_eq, modMonitor_eq, modWatch_eq, modPort_modPort, port_modPort_self, reportPath_port]
  rfl

theorem pathClosed_others (s : State) (h : q ≠ p) : (s.pathClosed p).port q = s.port q := by
  rw [pathClosed, setRole_eq, port_modPort_ne _ _ _ h, closePath_others _ _ h]

theorem pathClosed_turned (s : State) (p : Port) : Turned s (s.pathClosed p) := by
  refine ⟨⟨?_, ?_, ?_, fun q => ?_⟩, ?_, ?_⟩
  · exact closePath_lasting s p
  · simp only [pathClosed, closePath, setRole_eq, modPort_lastHandle, reportPath_lastHandle]
    rfl
  · simp only [pathClosed, closePath, setRole_eq, modPort_roster, reportPath_roster]
    rfl
  · by_cases hq : q = p
    · subst hq
      rw [pathClosed_port]
      rfl
    · rw [pathClosed_others s hq]
  · simp only [pathClosed, closePath, setRole_eq, modPort_roster, reportPath_roster]
    rfl
  · simp only [pathClosed, closePath, reportPath]
    exact publish_switched _

/-- A completed close leaves the set that the roster forms (R117, R118). -/
theorem pathClosed_formSet (h : s.path p = .closing) : (s.pathClosed p).formSet = s.formSet := by
  have worked := (pathClosed_turned s p).1
  have used (q : Port) : ((s.pathClosed p).path q != .opened) = (s.path q != .opened) := by
    by_cases hq : q = p
    · subst hq
      rw [path, pathClosed_port, h]
      rfl
    · rw [path, pathClosed_others s hq, path]
  have held : (s.pathClosed p).directHeld = s.directHeld := by
    simp only [directHeld, used, worked.mode]
  have eligible : (s.pathClosed p).eligibleHandle = s.eligibleHandle := funext worked.eligibleHandle
  rw [formSet, formSet, allowed, allowed, held, worked.policy, worked.2.2.1, eligible]

/-- The recomputation at the end of a close leaves the path CLOSED on a DIRECT port, and on an AUTO port of the set. -/
theorem completeClose_port (hr : s.record p = some k) (hp : s.path p = .closing)
    (h : s.mode p = .direct ∨ (s.mode p = .auto ∧ k.handle ∈ s.formSet)) : (s.completeClose p).port p = (s.pathClosed p).port p := by
  have kept : ((s.pathClosed p).port p).Kept ((s.pathClosed p).recompute.port p) := by
    rcases h with h | ⟨-, h⟩
    · refine recompute_aside (.inl ?_)
      rw [mode, pathClosed_port]
      exact fun ha => absurd (h.symm.trans ha) (by decide)
    · refine recompute_chosen ⟨k, ?_, ?_⟩ ?_
      · rw [record, pathClosed_port]
        exact hr
      · rwa [pathClosed_formSet hp]
      · rw [path, pathClosed_port]
  exact kept.eq (by rw [pathClosed_port])

/-- What a close at its completion asks of its port's record and mode (R14). -/
theorem exec_pathCloseComplete_due {c : CloseOp} (hp : s.path p = .closing) (hc : (s.port p).front.closeOp = some c) (hd : c.due = true) :
    exec (.pathCloseComplete p) s =
      .next (if s.mayComplete p then s.completeClose p else s.modFront p (fun f => { f with closeOp := some { c with due := false } })) := by
  refine congrArg Host.Outcome.next ?_
  simp only [closeIfDue, hc, if_pos (And.intro hp hd)]

theorem pathClosed_orderly (hp : s.path p = .closing) (hb : s.PathsBacked) (hd : s.HandlesDistinct) (hx : s.RosterExact) :
    (s.pathClosed p).Orderly := by
  have stays := (pathClosed_turned s p).1.stays
  have kept := Registers.of_entries hd hx stays.entries stays.list
  refine ⟨fun q => ?_, kept.distinct, kept.exact⟩
  have backed := hb q
  by_cases hq : q = p
  · subst hq
    obtain ⟨⟨r, hr, hs⟩, hm⟩ := backed.1 (by rw [hp]; exact nofun)
    rw [path, record, mode, pathClosed_port]
    exact ⟨fun _ => ⟨⟨r, hr, hs⟩, hm⟩, by simp⟩
  · rw [path, record, mode] at backed ⊢
    rwa [pathClosed_others s hq]

theorem completeClose_switchedOver (hp : s.path p = .closing) (hb : s.PathsBacked) (hd : s.HandlesDistinct) (hx : s.RosterExact) :
    (s.modPort p (fun u => { u with front := { u.front with path := .closed, closeOp := none }, role := .none })).SwitchedOver
      (s.completeClose p) := by
  have orderly := pathClosed_orderly hp hb hd hx
  have turned := pathClosed_turned s p
  refine Resupplies.switchedOver (u := s.pathClosed p) ?_ (recompute_switchedOver orderly.backed orderly.distinct orderly.exact)
  have same (q : Port) (hq : q ≠ p) : (s.pathClosed p).port q =
      (s.modPort p (fun u => { u with front := { u.front with path := .closed, closeOp := none }, role := .none })).port q := by
    rw [pathClosed_others s hq, port_modPort_ne _ _ _ hq]
  refine ⟨turned.1.policy, (turned.1.frameAt p).tick, turned.2.1, turned.2.2, fun q => ?_, fun q => ?_, fun q => ?_⟩
  · by_cases hq : q = p
    · subst hq
      rw [mode, mode, pathClosed_port, port_modPort_self]
    · rw [mode, mode, same q hq]
  · by_cases hq : q = p
    · subst hq
      rw [placing, placing, path, path, role, role, pathClosed_port, port_modPort_self]
    · exact placing_congr (same q hq)
  · by_cases hq : q = p
    · subst hq
      rw [record, record, pathClosed_port, port_modPort_self]
    · rw [record, record, same q hq]

end State

open State

/-- Settles O20: a close that may complete makes the path CLOSED and reports it; the recomputation keeps it. -/
theorem closeCompletes : Obligations.CloseCompletes := by
  intro s p c hp hc hd
  rw [exec_pathCloseComplete_due hp hc hd]
  refine ⟨fun k hr hs hm => ?_, fun h => ?_⟩
  · have may : s.mayComplete p = true := by
      rcases hm with hm | ⟨hm, -⟩ <;> simp [mayComplete, hr, hs, hm]
    rw [if_pos may]
    have hport := completeClose_port hr hp hm
    have closed : (s.completeClose p).path p = .closed := by rw [path, hport, pathClosed_port]
    have moves : Moves p (s.pathClosed p) (s.completeClose p) := recompute_moves _ p
    have right : (s.pathClosed p).RightAt p := by
      rw [RightAt, pathClosed, setRole_eq, modPort_allocator, closePath_closedSet, PerPort.get_set_self, path, port_modPort_self]
      exact iff_of_true rfl (closePath_path s p)
    have published : (s.pathClosed p).allocator.publishedAt = s.tick := by
      simp only [pathClosed, closePath, setRole_eq, modPort_allocator, reportPath_publishedAt]
      rfl
    have tick := ((pathClosed_turned s p).1.frameAt p).tick
    refine ⟨_, rfl, (completeClose_moves s p hp).frameAt, hport.trans (pathClosed_port s p), ?_, (right.moves moves).mpr closed, ?_,
      completeClose_switchedOver hp⟩
    · rw [gate, closed]
      rfl
    · exact (published_moves moves (published.trans tick.symm)).trans tick
  · have may : ¬ s.mayComplete p = true := by
      rw [mayComplete]
      rcases h with h | h
      · cases hr : s.record p with
        | none => exact nofun
        | some k => simp [h k hr]
      · simp [h]
    rw [if_neg may]
    rfl

end Sys2Proof.Machine
end

section
/-! PROOF. SET PATH (O22) and SET MODE DIRECT (O25). -/

namespace Sys2Proof.Machine
open Sys2Proof

namespace State

variable {s t : State} {p q : Port} {k : Record} {b : Byte}

/-! ## SET PATH -/

theorem exec_setPathOpen (hs : s.Listening) (b : Byte) : exec (.setPathOpen b) s = .next (respond (s.setPath b 0)) :=
  exec_of_listening hs (h := .setPath b 0) rfl

theorem exec_setPathClosed (hs : s.Listening) (b : Byte) : exec (.setPathClosed b) s = .next (respond (s.setPath b 1)) :=
  exec_of_listening hs (h := .setPath b 1) rfl

theorem setPath_no_port (hb : portOf b = none) (v : Byte) : s.setPath b v = .refuse s .refusedRange := by
  simp only [setPath, hb]

theorem setPath_stored (hb : portOf b = some p) {v : Byte} {r : PathRequest} (hv : requestOf v = some r) (hm : s.mode p ≠ .direct) :
    s.setPath b v = .done (s.storeRequest p r) := by
  simp only [setPath, hb, hv, if_pos hm]

theorem setPath_open (hb : portOf b = some p) (hm : s.mode p = .direct) :
    s.setPath b 0 = .done ((s.storeRequest p .opened).openRequest p) := by
  simp only [setPath, hb, show requestOf 0 = some .opened from rfl, hm, ne_eq, not_true_eq_false, if_false]

theorem setPath_close (hb : portOf b = some p) (hm : s.mode p = .direct) :
    s.setPath b 1 =
      if s.mayClose p = false then .refuse s .refusedState
      else if s.path p = .opened ∧ 2 ≤ s.pathCount then .refuse s .refusedLimit
      else .done ((s.storeRequest p .closed).hostClose p) := by
  simp only [setPath, hb, show requestOf 1 = some .closed from rfl, hm, ne_eq, not_true_eq_false, if_false]

/-- Check 1 of R19. -/
theorem mayClose_iff :
    s.mayClose p = true ↔ ∃ k, s.record p = some k ∧ k.state = .inForce ∧ s.policy.vinLow ≤ k.voltage ∧ k.voltage ≤ s.policy.vinHigh := by
  unfold mayClose inInputWindow
  cases s.record p <;> simp

theorem storeRequest_port (s : State) (p : Port) (r : PathRequest) :
    (s.storeRequest p r).port p = { s.port p with front := { (s.port p).front with pathRequest := r } } := port_modPort_self _ _ _

theorem pathCount_storeRequest (s : State) (p : Port) (r : PathRequest) : (s.storeRequest p r).pathCount = s.pathCount := by
  have same (q : Port) : (s.storeRequest p r).path q = s.path q := by
    by_cases hq : q = p
    · rw [hq, path, storeRequest_port, path]
    · rw [path, storeRequest, modFront_eq, port_modPort_ne _ _ _ hq, path]
  simp only [pathCount, same]

/-- A recomputation leaves a port that is not in AUTO, but for a role it may lose. -/
theorem recompute_kept_of_mode (h : s.mode p ≠ .auto) : (s.port p).Kept (s.recompute.port p) := recompute_aside (.inl h)

/-- An open request leaves the path of a DIRECT port OPEN, and reports one that was CLOSED (R16). -/
theorem openRequest_direct (hm : s.mode p = .direct) (hp : s.path p ≠ .opened) :
    s.FrameAt (s.openRequest p) p ∧ ((s.openRequest p).port p).lasting = (s.port p).lasting ∧ (s.openRequest p).path p = .opened ∧
      ((s.openRequest p).port p).front.closeOp = none ∧
      (s.path p = .closed →
        (s.openRequest p).allocator.closedSet.get p = false ∧ (s.openRequest p).allocator.publishedAt = s.tick) := by
  have opens : s.openRequest p = (s.openPath p).recompute := if_neg hp
  have worked := openPath_worked s p
  have kept := recompute_kept_of_mode (s := s.openPath p) (p := p) (by rw [worked.mode, hm]; exact nofun)
  have front : ((s.openPath p).recompute.port p).front = ((s.openPath p).port p).front :=
    (congrArg PortState.front kept.1 : (PortState.noRole _).front = (PortState.noRole _).front)
  have path : (s.openPath p).recompute.path p = .opened := (congrArg FrontEnd.path front).trans (openPath_path s p)
  rw [opens]
  refine ⟨(worked.frameAt p).trans ((recompute_worked _).frameAt p), ?_, path, ?_, fun hc => ⟨?_, ?_⟩⟩
  · exact ((recompute_worked _).2.2.2 p).trans (worked.2.2.2 p)
  · rw [front]
    exact openPath_closeOp s p hp
  · have right : (s.openPath p).RightAt p := by
      rw [RightAt, openPath_closedSet hc, openPath_path, PerPort.get_set_self]
      simp
    have after := right.moves (recompute_moves _ p)
    rw [RightAt, path] at after
    simpa using after
  · have tick := (worked.frameAt p).tick
    exact (published_moves (recompute_moves _ p) ((openPath_publishedAt hc).trans tick.symm)).trans tick

/-- A host close begins on a DIRECT port with room for its path (R13). -/
theorem hostClose_direct (hm : s.mode p = .direct) (hp : s.path p = .opened) (hr : s.record p = some k) (hs : k.state = .inForce)
    (hroom : s.pathCount < 2) :
    s.FrameAt (s.hostClose p) p ∧ ((s.hostClose p).port p).lasting = (s.port p).lasting ∧ (s.hostClose p).path p = .closing ∧
      ((s.hostClose p).port p).front.closeOp = some { settle := 0, deadline := s.ahead 500, requester := .host, due := false } := by
  have admits : s.admitsClose p = true := by simp [admitsClose, hr, hs, hm, hroom]
  generalize hc : ({ settle := 0, deadline := s.ahead 500, requester := .host, due := false } : CloseOp) = c
  have closes : s.hostClose p = (s.modFront p (fun f => { f with path := .closing, closeOp := some c })).recompute := by
    simp only [hostClose, requestClose, hp, if_pos admits, hc, if_true]
  generalize hw : s.modFront p (fun f => { f with path := .closing, closeOp := some c }) = w at closes
  have hport : w.port p = { s.port p with front := { (s.port p).front with path := .closing, closeOp := some c } } := by
    rw [← hw, modFront_eq, port_modPort_self]
  have kept := recompute_kept_of_mode (s := w) (p := p) (by rw [mode, hport]; exact fun h => absurd (hm.symm.trans h) (by decide))
  have front : (w.recompute.port p).front = (w.port p).front :=
    (congrArg PortState.front kept.1 : (PortState.noRole _).front = (PortState.noRole _).front)
  rw [closes]
  refine ⟨?_, ?_, ?_, ?_⟩
  · exact FrameAt.trans (hw ▸ FrameAt.modPort s p _) ((recompute_worked w).frameAt p)
  · rw [(recompute_worked w).2.2.2 p, hport]
    rfl
  · rw [path, front, hport]
  · rw [front, hport]

end State

open State

/-- Settles O22: outside DIRECT a request is stored; a DIRECT port opens at once, or begins a close after the checks of R19. -/
theorem setPath : Obligations.SetPath := by
  intro s b hs
  rw [exec_setPathOpen hs, exec_setPathClosed hs]
  refine ⟨fun hb => ?_, fun p hb => ?_⟩
  · rw [setPath_no_port hb, setPath_no_port hb]
    exact ⟨rfl, rfl⟩
  intro stored mayClose
  have may : s.mayClose p = true ↔ mayClose := mayClose_iff
  have port (r : PathRequest) := storeRequest_port s p r
  refine ⟨fun hm => ?_, fun hm hp => ?_, fun hm hp => ?_, fun hm hno => ?_, fun hm hmay hp hcount => ?_, fun hm hmay hp => ?_,
    fun hm hmay hp hroom => ?_⟩
  · rw [setPath_stored hb (v := 0) rfl hm, setPath_stored hb (v := 1) rfl hm]
    exact ⟨rfl, rfl⟩
  · rw [setPath_open hb hm]
    have same : (s.storeRequest p .opened).openRequest p = s.storeRequest p .opened := if_pos (by rw [path, port]; exact hp)
    rw [same]
    rfl
  · rw [setPath_open hb hm]
    obtain ⟨hframe, hlasting, hpath, hclose, hreport⟩ := openRequest_direct (s := s.storeRequest p .opened) (p := p)
      (by rw [mode, port]; exact hm) (by rw [path, port]; exact hp)
    exact ⟨_, rfl, (FrameAt.modPort s p _).trans hframe, hlasting, hpath, hclose, fun hc => hreport (by rw [path, port]; exact hc)⟩
  · rw [setPath_close hb hm, if_pos (Bool.eq_false_iff.mpr (mt may.mp hno))]
    rfl
  · rw [setPath_close hb hm, if_neg (by rw [may.mpr hmay]; exact nofun), if_pos ⟨hp, hcount⟩]
    rfl
  · have stays : (s.storeRequest p .closed).hostClose p = s.storeRequest p .closed := if_neg (by rw [path, port]; exact hp)
    rw [setPath_close hb hm, if_neg (by rw [may.mpr hmay]; exact nofun), if_neg (fun h => hp h.1), stays]
    rfl
  · obtain ⟨k, hr, hf, -⟩ := id hmay
    have room : (s.storeRequest p .closed).pathCount = s.pathCount := pathCount_storeRequest s p .closed
    obtain ⟨hframe, hlasting, hpath, hclose⟩ := hostClose_direct (s := s.storeRequest p .closed) (p := p) (k := k)
      (by rw [mode, port]; exact hm) (by rw [path, port]; exact hp) (by rw [record, port]; exact hr) hf (by rw [room]; exact hroom)
    rw [setPath_close hb hm, if_neg (by rw [may.mpr hmay]; exact nofun), if_neg (fun h => absurd h.2 (Nat.not_le.mpr hroom))]
    exact ⟨_, rfl, (FrameAt.modPort s p _).trans hframe, hlasting, hpath, hclose⟩

/-! ## SET MODE DIRECT -/

namespace State

variable {s : State} {p : Port} {b : Byte}

theorem enterOpening_eq (s : State) (p : Port) :
    s.enterOpening p = s.modPort p (fun u => { u with link := u.link.opens (s.ahead 250) }) := rfl

theorem exec_setModeDirect (hs : s.Listening) (b : Byte) : exec (.setModeDirect b) s = .next (respond (s.setMode b 2)) :=
  exec_of_listening hs (h := .setMode b 2) rfl

theorem setMode_no_port (hb : portOf b = none) (v : Byte) : s.setMode b v = .refuse s .refusedRange := by
  simp only [setMode, hb]

theorem setMode_direct (hb : portOf b = some p) : s.setMode b 2 = .done (s.toDirect p) := by
  simp only [setMode, hb, show modeOf 2 = some .direct from rfl]

/-- The recomputation of a change that makes a port DIRECT leaves that port as the change has made it, but for a role it may lose (R128). -/
theorem recompute_direct (f : PortState → PortState) (hmode : (f (s.port p)).front.mode = .direct) :
    s.FrameAt (s.modPort p f).recompute p ∧ (f (s.port p)).Kept ((s.modPort p f).recompute.port p) := by
  have kept := recompute_kept_of_mode (s := s.modPort p f) (p := p) (by rw [mode, port_modPort_self, hmode]; exact nofun)
  rw [port_modPort_self] at kept
  exact ⟨(FrameAt.modPort s p f).trans ((recompute_worked _).frameAt p), kept⟩

/-- A port that becomes DIRECT from AUTO, before the roster recomputes: its close abandoned, its role NONE (R6, R128). -/
def madeDirect (u : PortState) : PortState :=
  { u with
    front := if u.front.path = .closing then { u.front with mode := .direct, path := .opened, closeOp := none }
      else { u.front with mode := .direct }
    role := .none }

theorem madeDirect_mode (u : PortState) : (madeDirect u).front.mode = .direct := by
  unfold madeDirect
  dsimp only
  split
  · rfl
  · rfl

theorem madeDirect_closing {u : PortState} (h : u.front.path = .closing) :
    madeDirect u = { u with front := { u.front with mode := .direct, path := .opened, closeOp := none }, role := .none } := by
  rw [madeDirect, if_pos h]

theorem madeDirect_still {u : PortState} (h : u.front.path ≠ .closing) :
    madeDirect u = { u with front := { u.front with mode := .direct }, role := .none } := by
  rw [madeDirect, if_neg h]

/-- An AUTO port becomes DIRECT: a close is abandoned, the role is NONE (R6, R128). -/
theorem toDirect_auto (hm : s.mode p = .auto) :
    s.toDirect p =
      (s.modPort p madeDirect).recompute := by
  unfold toDirect
  rw [hm]
  dsimp only
  by_cases hp : s.path p = .closing
  · rw [if_pos hp, openPath_closing _ _ hp, modFront_eq, setRole_eq, modPort_modPort, modPort_modPort]
    exact congrArg recompute (modPort_congr s p (madeDirect_closing hp).symm)
  · rw [if_neg hp, modFront_eq, setRole_eq, modPort_modPort]
    exact congrArg recompute (modPort_congr s p (madeDirect_still hp).symm)

/-- A port that becomes DIRECT from SENSE, before the roster recomputes: its link opens when it is PRESENT (R5). -/
def openedDirect (deadline : Tick) (u : PortState) : PortState :=
  { u with
    front := { u.front with mode := .direct }
    link := if u.front.attach = .present then u.link.opens deadline else u.link }

/-- A port leaves SENSE for DIRECT: its link opens when it is PRESENT (R5). -/
theorem toDirect_sense (hm : s.mode p = .sense) :
    s.toDirect p =
      (s.modPort p (openedDirect (s.ahead 250))).recompute := by
  unfold toDirect
  rw [hm]
  dsimp only
  refine congrArg recompute ?_
  have attach : ((s.modFront p (fun f => { f with mode := .direct })).port p).front.attach = (s.port p).front.attach := by
    rw [modFront_eq, port_modPort_self]
  rw [openLink, attach]
  by_cases ha : (s.port p).front.attach = .present
  · rw [if_pos ha, enterOpening_eq, modFront_eq, modPort_modPort]
    exact modPort_congr s p (by rw [openedDirect, if_pos ha]; rfl)
  · rw [if_neg ha, modFront_eq]
    exact modPort_congr s p (by rw [openedDirect, if_neg ha])

theorem toDirect_direct (hm : s.mode p = .direct) :
    s.toDirect p = if s.linkState p = .mute then s.modPort p (fun u => { u with link := u.link.opens (s.ahead 250) }) else s := by
  have direct : ¬ (s.enterOpening p).mode p = .auto := by
    rw [enterOpening_eq, mode, port_modPort_self]
    exact fun h => absurd (hm.symm.trans h) (by decide)
  unfold toDirect
  rw [hm]
  dsimp only
  rw [reopenMute, if_neg direct]
  rfl

end State

open State

/-- Settles O25: the port becomes DIRECT, and the recomputation leaves it so. -/
theorem setModeDirect : Obligations.SetModeDirect := by
  intro s b hs
  rw [exec_setModeDirect hs]
  refine ⟨fun hb => by rw [setMode_no_port hb]; rfl, fun p hb => ?_⟩
  rw [setMode_direct hb]
  refine ⟨fun hm => ⟨s.toDirect p, rfl, ?_⟩, fun hm hp => ⟨s.toDirect p, rfl, ?_⟩,
    fun hm => by rw [toDirect_direct hm]; rfl⟩
  · rw [toDirect_auto hm]
    obtain ⟨frame, kept⟩ := recompute_direct (s := s) (p := p) madeDirect (madeDirect_mode _)
    have hport := kept.eq rfl
    refine ⟨frame, fun hp => ?_, fun hp => ?_⟩
    · rw [hport]
      refine madeDirect_still (fun h => ?_)
      rcases hp with hp | hp
      · exact absurd (hp.symm.trans h) (by decide)
      · exact absurd (hp.symm.trans h) (by decide)
    · rw [hport]
      exact madeDirect_closing hp
  · rw [toDirect_sense hm]
    obtain ⟨frame, kept⟩ := recompute_direct (s := s) (p := p) (openedDirect (s.ahead 250)) rfl
    exact ⟨frame, (congrArg PortState.front kept.1 :), (congrArg PortState.link kept.1 :), (congrArg PortState.contract kept.1 :),
      (congrArg PortState.catalogue kept.1 :)⟩

end Sys2Proof.Machine
end

section
/-! PROOF. A retirement as MODE or DETACHED, a detach (O19) and SET MODE SENSE (O23). -/

namespace Sys2Proof.Machine
open Sys2Proof

/-- A link without requests or an exchange, and not usable, keeps nothing of a retirement (R83). -/
theorem Link.silenced_retired (l : Link) (st : LinkState) (k : Record) (c : Cause) (g : Bool) :
    (l.silenced st).retired false k c g = l.silenced st := rfl

theorem Link.silenced_congr {l l' : Link} (h : l'.tagCounter = l.tagCounter) (st : LinkState) : l'.silenced st = l.silenced st := by
  rw [silenced, h, silenced]

theorem Link.retired_tagCounter (l : Link) (u : Bool) (k : Record) (c : Cause) (g : Bool) : (l.retired u k c g).tagCounter = l.tagCounter := by
  have abandoned : (l.abandon k.handle c).tagCounter = l.tagCounter := by
    unfold abandon
    split
    · split
      · rw [endExchange_eq]
        rfl
      · rfl
    · rfl
  exact abandoned

namespace State

variable {s t : State} {p q : Port} {k : Record} {c : Cause}

/-! ## An open of the path, field by field -/

/-- An open leaves the front end but for its path and close operation. -/
theorem openPath_front (h : s.path p = .opened → (s.port p).front.closeOp = none) :
    ((s.openPath p).port p).front = { (s.port p).front with path := .opened, closeOp := none } := by
  cases hp : s.path p with
  | opened =>
    have opened : s.openPath p = s := by simp only [openPath, hp]
    have hpath : (s.port p).front.path = .opened := hp
    rw [opened, ← hpath, ← h hp]
  | closing => rw [openPath_closing _ _ hp, port_modPort_self]
  | closed => exact (openPath_closed s p hp).1

theorem openPath_contract (s : State) (p : Port) (l : Option Retirement) :
    { ((s.openPath p).port p).contract with record := none, lastRetirement := l } =
      { (s.port p).contract with record := none, lastRetirement := l } := by
  have lasting := congrArg PortState.contract ((openPath_worked s p).2.2.2 p)
  exact congrArg (fun c : ContractSlot => { c with record := none, lastRetirement := l }) lasting

theorem openPath_flags (s : State) (p : Port) : ((s.openPath p).port p).flags = (s.port p).flags :=
  (congrArg PortState.flags ((openPath_worked s p).2.2.2 p) :)

/-! ## Retirements that fail no bid and ask for no other -/

/-- A retirement as MODE or DETACHED is its steps alone (R64, R83). -/
theorem retire_plain (hr : s.record p = some k) (hc : c = .mode ∨ c = .detached) :
    s.retire p c =
      ((((s.openPath p).releaseLink p k c false).rosterRemove p k.handle).emptySlot p k c).setFlag p .retired := by
  have nofail : failsBid k c = false := by rcases hc with rfl | rfl <;> exact Bool.and_false _
  have core : s.retireCore p c false false =
      (((((s.openPath p).releaseLink p k c false).rosterRemove p k.handle).emptySlot p k c).setFlag p .retired, false) := by
    simp only [retireCore, hr, nofail, Bool.false_eq_true, if_false]
    rcases hc with rfl | rfl <;> rfl
  rw [retire, retireWith, core]
  rfl

/-- The port after such a retirement. -/
theorem retire_plain_port (hr : s.record p = some k) (hc : c = .mode ∨ c = .detached) :
    (s.retire p c).port p =
      { (s.openPath p).port p with
        link := ((s.openPath p).port p).link.retired ((s.openPath p).linkUsable p) k c false
        role := .none
        contract := { (s.port p).contract with
          record := none, lastRetirement := some { handle := k.handle, cause := c, tick := s.tick } }
        monitor := { ((s.openPath p).port p).monitor with burstArmed := false }
        flags := (s.port p).flags ||| oneBit PortFlag.retired.bit } := by
  obtain ⟨k', hk', hlasting⟩ := openPath_handle s p k hr
  have hhandle : k'.handle = k.handle := (congrArg Record.handle hlasting :)
  have tick := ((openPath_worked s p).frameAt p).tick
  rw [retire_plain hr hc, ← openPath_contract s p, ← openPath_flags s p]
  have opened := openPath_path s p
  generalize s.openPath p = o at *
  have hself : (o.releaseLink p k c false).port p = { o.port p with link := (o.port p).link.retired (o.linkUsable p) k c false } := by
    rw [releaseLink_eq, port_modPort_self]
  have htick : (o.releaseLink p k c false).tick = s.tick := by
    rw [releaseLink_eq]
    exact tick
  generalize o.releaseLink p k c false = u at *
  have removed := rosterRemove_spec u p k' (by rw [record, hself]; exact hk') (by rw [path, hself]; exact opened)
  rw [hhandle] at removed
  obtain ⟨-, -, -, hport, -⟩ := removed
  have htick' : (u.rosterRemove p k.handle).tick = s.tick := by
    exact ((rosterRemove_moves u p k.handle).frameAt.tick).trans htick
  rw [setFlag_eq, port_modPort_self, emptySlot, modContract_eq, modMonitor_eq, modPort_modPort, port_modPort_self, hport, hself, htick']

theorem retire_none (hr : s.record p = none) (c : Cause) : s.retire p c = s := by
  simp only [retire, retireWith, retireCore, hr, Bool.false_eq_true, if_false]

theorem retire_frameAt (s : State) (p : Port) (c : Cause) : s.FrameAt (s.retire p c) p := (retire_moves s p c).frameAt

/-! ## A detach -/

theorem detaching_port (s : State) (p : Port) :
    (s.detaching p).port p =
      { s.port p with
        front := { (s.port p).front with attach := .vacant, debounce := 0 }, link := (s.port p).link.silenced .quiet } := port_modPort_self _ _ _

/-- What is backed of a port's path alone. -/
theorem PathsBacked.free (hb : s.PathsBacked) (p : Port) :
    (s.record p = none → s.path p = .opened) ∧ (s.path p = .opened → (s.port p).front.closeOp = none) := by
  refine ⟨fun hr => ?_, fun h => by simpa [h] using (hb p).2⟩
  by_contra hne
  obtain ⟨⟨r, hr', -⟩, -⟩ := (hb p).1 hne
  exact absurd (hr.symm.trans hr') nofun

/-- The fields of a port after such a retirement, with a record and without. -/
theorem retire_plain_fields (hc : c = .mode ∨ c = .detached)
    (hfree : (s.record p = none → s.path p = .opened) ∧ (s.path p = .opened → (s.port p).front.closeOp = none)) :
    ((s.retire p c).port p).front = { (s.port p).front with path := .opened, closeOp := none } ∧
    ((s.retire p c).port p).catalogue = (s.port p).catalogue ∧
    ((s.retire p c).port p).contract =
      { (s.port p).contract with
        record := none
        lastRetirement := match s.record p with
          | some k => some { handle := k.handle, cause := c, tick := s.tick }
          | none => (s.port p).contract.lastRetirement } ∧
    ((s.retire p c).port p).flags = (s.port p).flags ||| (if (s.record p).isSome then oneBit PortFlag.retired.bit else 0) ∧
    (s.retire p c).role p = if (s.record p).isSome then .none else s.role p := by
  obtain ⟨hopen, hclose⟩ := hfree
  cases hr : s.record p with
  | none =>
    have hpath : (s.port p).front.path = .opened := hopen hr
    have hnone : (s.port p).contract.record = none := hr
    rw [retire_none hr]
    refine ⟨?_, rfl, ?_, ?_, rfl⟩
    · rw [← hpath, ← hclose hpath]
    · exact congrArg (fun r => { (s.port p).contract with record := r }) hnone
    · simp
  | some k =>
    have hport := retire_plain_port hr hc
    rw [role, hport, openPath_front hclose]
    exact ⟨rfl, (congrArg PortState.catalogue ((openPath_worked s p).2.2.2 p) :), rfl, rfl, rfl⟩

theorem retire_plain_tagCounter (s : State) (p : Port) (hc : c = .mode ∨ c = .detached) :
    ((s.retire p c).port p).link.tagCounter = (s.port p).link.tagCounter := by
  cases hr : s.record p with
  | none => rw [retire_none hr]
  | some k =>
    rw [retire_plain_port hr hc]
    exact (Link.retired_tagCounter _ _ _ _ _).trans (congrArg (fun u : PortState => u.link.tagCounter) ((openPath_worked s p).2.2.2 p) :)

theorem detaching_free (hb : s.PathsBacked) (p : Port) :
    ((s.detaching p).record p = none → (s.detaching p).path p = .opened) ∧
      ((s.detaching p).path p = .opened → ((s.detaching p).port p).front.closeOp = none) := by
  rw [record, path, detaching_port]
  exact hb.free p

/-- A QUIET link stays as it is through the retirement of a detach (R40). -/
theorem detached_link (s : State) (p : Port) : (((s.detaching p).retire p .detached).port p).link = (s.port p).link.silenced .quiet := by
  have hushed : (s.detaching p).Hushed p ((s.port p).link.silenced .quiet) := ⟨by rw [detaching_port], .inl rfl⟩
  cases hr : (s.detaching p).record p with
  | none =>
    rw [retire_none hr]
    exact hushed.link
  | some k =>
    have link := (hushed.openPath p).link
    have unusable : ((s.detaching p).openPath p).linkUsable p = false := by
      rw [linkUsable, linkState, link]
      rfl
    rw [retire_plain_port hr (.inr rfl), link, unusable]
    exact Link.silenced_retired _ _ _ _ _

theorem vacated_port (s : State) (p : Port) :
    ∃ w, ((s.vacated p).port p) =
      { s.port p with
        catalogue := .reset
        contract := { (s.port p).contract with attempts := 0, holdoff := none }
        flags := (s.port p).flags ||| oneBit PortFlag.detach.bit
        watch := { (s.port p).watch with repeatAt := none, window := w } } := by
  rw [vacated, tidyWatch_eq, modPort_modPort, port_modPort_self]
  exact ⟨_, rfl⟩

theorem coldLost_port (s : State) (p q : Port) : (s.coldLost p).port q = s.port q := by
  unfold coldLost
  split
  · rfl
  · rfl

theorem coldLost_taken (h : s.cold = .coldSupply ∧ s.coldPort = some p) : (s.coldLost p).cold = .coldWait ∧ (s.coldLost p).coldPort = none := by
  rw [coldLost, if_pos h]
  exact ⟨rfl, rfl⟩

theorem coldLost_other (h : ¬ (s.cold = .coldSupply ∧ s.coldPort = some p)) : s.coldLost p = s := if_neg h

theorem vacated_frameAt (s : State) (p : Port) : s.FrameAt (s.vacated p) p :=
  (FrameAt.modPort s p _).trans (tidyWatch_moves _ p).frameAt

theorem exec_detach_due (ha : (s.port p).front.attach = .present) (hd : 50 ≤ (s.port p).front.debounce) :
    exec (.detach p) s = .next (s.detachPort p) := congrArg Host.Outcome.next (if_pos ⟨ha, hd⟩)

end State

open State

/-- Settles O19: a detach is the retirement of the record on a QUIET link, the port's clearing, and the cold port's loss. -/
theorem detachCompletes : Obligations.DetachCompletes := by
  intro s p hb ha hd
  have detach : exec (.detach p) s = .next ((((s.detaching p).retire p .detached).vacated p).coldLost p) := by
    rw [exec_detach_due ha hd, detachPort_eq]
  obtain ⟨hfront, -, hcontract, hflags, hrole⟩ := retire_plain_fields (.inr rfl) (detaching_free hb p)
  have hlink := detached_link s p
  have hrecord : (s.detaching p).record p = s.record p := by rw [record, detaching_port, record]
  rw [hrecord, detaching_port] at hcontract hflags
  have hrole' : (s.detaching p).role p = s.role p := by rw [role, detaching_port, role]
  rw [hrecord, hrole'] at hrole
  rw [detaching_port] at hfront
  obtain ⟨w, hport⟩ := vacated_port ((s.detaching p).retire p .detached) p
  have frame : s.FrameAt (((s.detaching p).retire p .detached).vacated p) p :=
    ((FrameAt.modPort s p _).trans (retire_frameAt _ p _)).trans (vacated_frameAt _ p)
  refine ⟨_, detach, ?_, ?_, ?_, ?_, ?_, ?_, ?_, fun hc => ?_, fun hc => ?_, fun q hq => ?_⟩
  · rw [coldLost_port, hport]
    exact hfront
  · rw [coldLost_port, hport]
    exact hlink
  · rw [coldLost_port, hport]
    rfl
  · rw [coldLost_port, hport]
    exact congrArg (fun c : ContractSlot => { c with attempts := 0, holdoff := none }) hcontract
  · rw [coldLost_port, hport]
    refine (congrArg (· ||| oneBit PortFlag.detach.bit) hflags).trans ?_
    rw [BitVec.or_assoc, BitVec.or_assoc, BitVec.or_comm (oneBit PortFlag.detach.bit)]
  · rw [coldLost_port, hport]
  · rw [role, coldLost_port, hport]
    exact hrole
  · exact coldLost_taken (by rw [frame.cold, frame.coldPort]; exact hc)
  · rw [coldLost_other (by rw [frame.cold, frame.coldPort]; exact hc)]
    exact ⟨frame.cold, frame.coldPort⟩
  · rw [coldLost_port]
    exact frame.2 q hq

/-! ## SET MODE SENSE -/

namespace State

variable {s : State} {p : Port} {b : Byte}

theorem exec_setModeSense (hs : s.Listening) (b : Byte) : exec (.setModeSense b) s = .next (respond (s.setMode b 0)) :=
  exec_of_listening hs (h := .setMode b 0) rfl

theorem setMode_sense (hb : portOf b = some p) : s.setMode b 0 = if s.mode p = .sense then .done s else .done (s.toSense p) := by
  simp only [setMode, hb, show modeOf 0 = some .sense from rfl]

/-- A port as it enters SENSE, its record already retired (R4, R40). -/
def sensed (u : PortState) : PortState :=
  { u with front := { u.front with mode := .sense }, role := .none, link := u.link.silenced .quiet }

theorem toSense_eq (h : (s.retire p .mode).path p = .opened) : s.toSense p = ((s.retire p .mode).modPort p sensed).recompute := by
  have opened : (s.retire p .mode).openPath p = s.retire p .mode := by simp only [openPath, h]
  simp only [toSense, opened, modFront_eq, setRole_eq, enterQuiet, modLink_eq, modPort_modPort]
  rfl

/-- The recomputation of a port that enters SENSE leaves that port alone (R128). -/
theorem recompute_sensed (s : State) (p : Port) : (s.modPort p sensed).recompute.port p = sensed (s.port p) := by
  have kept := recompute_kept_of_mode (s := s.modPort p sensed) (p := p) (by rw [mode, port_modPort_self]; exact nofun)
  rw [kept.eq (by rw [port_modPort_self]; rfl), port_modPort_self]

/-- One flag of a port's group, set under a condition. -/
theorem getLsbD_or_flag (x : Word) (f : PortFlag) (c : Bool) :
    (x ||| (if c = true then oneBit f.bit else 0)).getLsbD f.bit = (x.getLsbD f.bit || c) := by
  cases c
  · simp
  · cases f <;> simp [oneBit, PortFlag.bit]

end State

open State

/-- Settles O23: a port in SENSE stays; another retires its record as MODE and turns its link QUIET. -/
theorem setModeSense : Obligations.SetModeSense := by
  intro s b hs
  rw [exec_setModeSense hs]
  refine ⟨fun hb => by rw [setMode_no_port hb]; rfl, fun p hb => ?_⟩
  rw [setMode_sense hb]
  refine ⟨fun hm => by rw [if_pos hm]; rfl, fun hm hb' => ?_⟩
  rw [if_neg hm]
  obtain ⟨hfront, hcatalogue, hcontract, hflags, -⟩ := retire_plain_fields (.inl rfl) (hb'.free p)
  have opened : (s.retire p .mode).path p = .opened := by rw [path, hfront]
  have hport : (s.toSense p).port p = sensed ((s.retire p .mode).port p) := by rw [toSense_eq opened, recompute_sensed]
  refine ⟨s.toSense p, rfl, ?_, ?_, ?_, ?_, ?_, ?_, ?_, ?_⟩
  · rw [toSense_eq opened]
    exact ((retire_frameAt s p .mode).trans (FrameAt.modPort _ p _)).trans ((recompute_worked _).frameAt p)
  · rw [hport, sensed, hfront]
  · rw [hport, sensed]
    exact Link.silenced_congr (retire_plain_tagCounter s p (.inl rfl)) .quiet
  · rw [hport]
    exact hcatalogue
  · rw [role, hport]
    rfl
  · rw [record, hport]
    exact congrArg ContractSlot.record hcontract
  · rw [hport]
    refine hcontract.trans ?_
    cases hr : s.record p with
    | none => exact congrArg (fun r => { (s.port p).contract with record := r }) (show none = (s.port p).contract.record from hr.symm)
    | some k => rfl
  · rw [flag, hport]
    exact (congrArg (BitVec.getLsbD · PortFlag.retired.bit) hflags).trans (getLsbD_or_flag _ _ _)

end Sys2Proof.Machine
end

section
/-! PROOF. An attach, with the cold start's take (O18). -/

namespace Sys2Proof.Machine
open Sys2Proof

namespace State

variable {s t : State} {p q : Port} {k : Record}

/-- The next handle is read off the handles of the records and the last one issued. -/
theorem nextHandle_of_handles (hr : ∀ q, (t.record q).map Record.handle = (s.record q).map Record.handle) (hl : t.lastHandle = s.lastHandle) :
    t.nextHandle = s.nextHandle := by
  have owner (h : Handle) : t.portOfHandle h = s.portOfHandle h := by
    refine congrArg (fun f => Port.all.find? f) (funext fun q => ?_)
    have same := congrArg (Option.any (fun x => decide (x = h))) (hr q)
    revert same
    cases t.record q <;> cases s.record q <;> exact id
  have found (n : Nat) : ∀ h, t.findHandle n h = s.findHandle n h := by
    induction n with
    | zero => exact fun _ => rfl
    | succ n ih => exact fun h => by simp only [findHandle, owner, ih]
  rw [nextHandle, nextHandle, hl, found]

theorem Worked.nextHandle (h : Worked s t) : t.nextHandle = s.nextHandle := nextHandle_of_handles h.handles h.2.1

theorem baseRecord_congr (hn : t.nextHandle = s.nextHandle) (ht : t.time = s.time) (n : Nat) : t.baseRecord n = s.baseRecord n := by
  rw [baseRecord, baseRecord, hn, State.ahead, State.ahead, State.tick, State.tick, ht]

/-! ## The cold start's take -/

/-- The cold port as it becomes PRESENT: it leaves SENSE for AUTO without a hold, and its link opens (R9, R41, R169). -/
def coldPresent (deadline : Tick) (u : PortState) : PortState :=
  { u with
    front := { u.front with attach := .present, debounce := 0, mode := if u.front.mode = .sense then .auto else u.front.mode }
    flags := u.flags ||| oneBit PortFlag.attach.bit
    catalogue := { u.catalogue with base := true }
    contract := { u.contract with hold := if u.front.mode = .sense then false else u.contract.hold }
    link := u.link.opens deadline }

/-- The state with its cold port named. -/
def coldNamed (s : State) (p : Port) : State := { s with cold := .coldSupply, coldPort := some p }

/-- The state with its cold port present, before the roster recomputes and the base-tier record is made. -/
def coldAttached (s : State) (p : Port) : State :=
  (s.coldNamed p).modPort p (coldPresent (s.ahead 250))

/-- The state that the cold start's take finds for its base-tier record. -/
def coldReady (s : State) (p : Port) : State := if s.mode p = .sense then (s.coldAttached p).recompute else s.coldAttached p

theorem coldAuto_named (s : State) (p : Port) : ((s.attached p).coldNamed p).coldAuto p = s.coldReady p := by
  have port : ((s.attached p).coldNamed p).port p = (s.attached p).port p := rfl
  have mode : ((s.attached p).coldNamed p).mode p = s.mode p := by
    rw [State.mode, port, attached, port_modPort_self, State.mode]
  have named : (s.attached p).coldNamed p = (s.coldNamed p).modPort p (fun u =>
      { u with
        front := { u.front with attach := .present, debounce := 0 }
        flags := u.flags ||| oneBit PortFlag.attach.bit
        catalogue := { u.catalogue with base := true }
        link := if u.front.mode = .sense then u.link else u.link.opens (s.ahead 250) }) := rfl
  rw [coldAuto, mode, coldReady, coldAttached]
  by_cases hm : s.mode p = .sense
  · have hm' : ((s.coldNamed p).port p).front.mode = .sense := hm
    rw [if_pos hm, if_pos hm, named]
    refine congrArg recompute ?_
    rw [modFront_eq, modContract_eq, enterOpening_eq, modPort_modPort, modPort_modPort, modPort_modPort]
    refine modPort_congr _ p ?_
    rw [coldPresent]
    simp only [if_pos hm']
    rfl
  · have hm' : ¬ ((s.coldNamed p).port p).front.mode = .sense := hm
    rw [if_neg hm, if_neg hm, named]
    refine modPort_congr _ p ?_
    rw [coldPresent]
    simp only [if_neg hm']

theorem coldTake_eq (hc : s.cold = .coldWait) :
    (s.attached p).coldTake p =
      if ((s.coldReady p).record p).isNone then (s.coldReady p).localBid p (s.coldReady p).baseCurrent else s.coldReady p := by
  rw [coldTake, if_pos (show (s.attached p).cold = .coldWait from hc), ← coldAuto_named]
  rfl

/-- What the cold port's state is when the take looks for a record: its presence, and else what the roster's work may leave. -/
theorem coldReady_worked (s : State) (p : Port) : Worked (s.coldAttached p) (s.coldReady p) := by
  rw [coldReady]
  split
  · exact recompute_worked _
  · exact .refl _

theorem coldReady_lasting (s : State) (p : Port) : ((s.coldReady p).port p).lasting = (coldPresent (s.ahead 250) (s.port p)).lasting := by
  rw [(coldReady_worked s p).2.2.2 p, coldAttached]
  exact congrArg PortState.lasting (port_modPort_self (s.coldNamed p) p _)

theorem coldReady_frame (s : State) (p : Port) : (s.coldReady p).lasting = (s.coldNamed p).lasting ∧ (s.coldReady p).lastHandle = s.lastHandle ∧
    ∀ q, q ≠ p → ((s.coldReady p).port q).lasting = (s.port q).lasting := by
  have worked := coldReady_worked s p
  refine ⟨worked.1, worked.2.1, fun q hq => ?_⟩
  rw [worked.2.2.2 q, coldAttached, port_modPort_ne _ _ _ hq]
  rfl

theorem coldAttached_record (s : State) (p q : Port) : (s.coldAttached p).record q = s.record q := by
  by_cases hq : q = p
  · subst hq
    exact (congrArg (fun u : PortState => u.contract.record) (port_modPort_self (s.coldNamed q) q (coldPresent (s.ahead 250))) :)
  · exact (congrArg (fun u : PortState => u.contract.record) (port_modPort_ne (s.coldNamed p) p (coldPresent (s.ahead 250)) hq) :)

/-- The take on a port without a record gives it one on the base tier; another record stays (R169). -/
theorem coldTake_taken (hc : s.cold = .coldWait) (hr : s.record p = none) :
    (s.attached p).coldTake p =
      { s.coldReady p with lastHandle := s.nextHandle }.modPort p (fun u =>
        { u with
          contract := { u.contract with record := some (s.baseRecord (min 90 s.policy.currentMax)) }
          monitor := { u.monitor with burstArmed := true } }) := by
  have worked := coldReady_worked s p
  have free : (s.coldReady p).record p = none := by
    have same := worked.records p
    rw [coldAttached_record, hr] at same
    exact Option.map_eq_none_iff.mp same
  have next : (s.coldReady p).nextHandle = s.nextHandle := by
    rw [worked.nextHandle]
    exact nextHandle_congr (coldAttached_record s p) rfl
  have frame := worked.frameAt p
  have made : (s.coldReady p).baseRecord (s.coldReady p).baseCurrent = s.baseRecord (min 90 s.policy.currentMax) := by
    rw [baseCurrent, frame.policy, baseRecord_congr next frame.time]
    rfl
  rw [coldTake_eq hc, free, Option.isNone_none, if_pos rfl, localBid_eq, next, made]

theorem coldTake_held (hc : s.cold = .coldWait) (hr : s.record p = some k) : (s.attached p).coldTake p = s.coldReady p := by
  have same := (coldReady_worked s p).records p
  rw [coldAttached_record, hr] at same
  rw [coldTake_eq hc, if_neg]
  intro hnone
  rw [Option.isNone_iff_eq_none.mp hnone] at same
  cases same

/-- What the take leaves of the port and the part, with a record before it and without (R9, R169). -/
theorem coldTake_present (hc : s.cold = .coldWait) :
    ((s.attached p).coldTake p).lasting = (s.coldNamed p).lasting ∧
    (((s.attached p).coldTake p).port p).front.attach = .present ∧ (((s.attached p).coldTake p).port p).front.debounce = 0 ∧
    ((s.attached p).coldTake p).mode p = (if s.mode p = .sense then .auto else s.mode p) ∧
    (((s.attached p).coldTake p).port p).flags = (s.port p).flags ||| oneBit PortFlag.attach.bit ∧
    (((s.attached p).coldTake p).port p).catalogue = { (s.port p).catalogue with base := true } ∧
    (((s.attached p).coldTake p).port p).contract.hold = (if s.mode p = .sense then false else (s.port p).contract.hold) ∧
    ((s.attached p).coldTake p).linkState p = .opening ∧
    (((s.attached p).coldTake p).port p).link.openingDeadline = some (s.ahead 250) ∧
    ∀ q, q ≠ p → (((s.attached p).coldTake p).port q).lasting = (s.port q).lasting := by
  obtain ⟨hlasting, -, hothers⟩ := coldReady_frame s p
  have hport := coldReady_lasting s p
  have same : ((s.attached p).coldTake p).lasting = (s.coldReady p).lasting ∧
      (((s.attached p).coldTake p).port p).front = ((s.coldReady p).port p).front ∧
      (((s.attached p).coldTake p).port p).link = ((s.coldReady p).port p).link ∧
      (((s.attached p).coldTake p).port p).catalogue = ((s.coldReady p).port p).catalogue ∧
      (((s.attached p).coldTake p).port p).flags = ((s.coldReady p).port p).flags ∧
      (((s.attached p).coldTake p).port p).contract.hold = ((s.coldReady p).port p).contract.hold ∧
      ∀ q, q ≠ p → ((s.attached p).coldTake p).port q = (s.coldReady p).port q := by
    cases hr : s.record p with
    | none =>
      rw [coldTake_taken hc hr, port_modPort_self]
      exact ⟨rfl, rfl, rfl, rfl, rfl, rfl, fun q hq => port_modPort_ne _ _ _ hq⟩
    | some k =>
      rw [coldTake_held hc hr]
      exact ⟨rfl, rfl, rfl, rfl, rfl, rfl, fun _ _ => rfl⟩
  obtain ⟨hl, hf, hlink, hcat, hflags, hhold, ho⟩ := same
  rw [mode, linkState, hf, hlink, hcat, hflags, hhold]
  refine ⟨hl.trans hlasting, (congrArg (fun u : PortState => u.front.attach) hport :), (congrArg (fun u : PortState => u.front.debounce) hport :),
    (congrArg (fun u : PortState => u.front.mode) hport :), (congrArg PortState.flags hport :), (congrArg PortState.catalogue hport :),
    (congrArg (fun u : PortState => u.contract.hold) hport :), (congrArg (fun u : PortState => u.link.state) hport :),
    (congrArg (fun u : PortState => u.link.openingDeadline) hport :), fun q hq => ?_⟩
  rw [ho q hq]
  exact hothers q hq

theorem exec_attach_due (ha : (s.port p).front.attach = .vacant) (hd : 50 ≤ (s.port p).front.debounce) :
    exec (.attach p) s = .next ((s.attached p).coldTake p) := by
  rw [← attachPort_eq]
  exact congrArg Host.Outcome.next (if_pos ⟨ha, hd⟩)

end State

open State

/-- Settles O18: an attach makes the port PRESENT; in COLD_WAIT the take follows. -/
theorem attachCompletes : Obligations.AttachCompletes := by
  intro s p ha hd
  rw [exec_attach_due ha hd]
  refine ⟨fun hc => ?_, fun hc => ⟨_, rfl, ?_⟩⟩
  · have still : (s.attached p).coldTake p = s.attached p := if_neg hc
    rw [still]
    rfl
  · obtain ⟨hlasting, hattach, hdebounce, hmode, hflags, hcat, hhold, hstate, hdeadline, hothers⟩ := coldTake_present (p := p) hc
    refine ⟨(congrArg State.cold hlasting :), (congrArg State.coldPort hlasting :), hattach, hdebounce, ?_, hcat, hmode, fun hm => ?_, hstate,
      hdeadline, fun hr => ?_, fun k hr => ?_, hothers, (congrArg State.response hlasting :)⟩
    · rw [flag, hflags]
      exact (getLsbD_or_flag _ .attach true).trans (Bool.or_true _)
    · rw [hhold, if_pos hm]
    · rw [coldTake_taken hc hr, record, port_modPort_self]
      exact ⟨rfl, rfl, rfl⟩
    · rw [coldTake_held hc hr]
      have same := (coldReady_worked s p).records p
      rw [coldAttached_record, hr] at same
      exact Option.map_eq_some_iff.mp same

end Sys2Proof.Machine
end

section
/-! PROOF. What checks, owed amendments and renewals change of a record: amendments answered (O37) and SETTLED (O38). -/

namespace Sys2Proof.Machine
open Sys2Proof

/-- A record without its pending amendment and the marks about amendments. -/
def Record.unmarked (k : Record) : Record :=
  { k with amendment := none, refused := false, stale := false, owed := false, owedStale := false, owedBase := false }

theorem Record.terms_of_unmarked {k k' : Record} (h : k'.unmarked = k.unmarked) : k'.terms = k.terms :=
  (congrArg Record.terms h :)

theorem Record.terms_of_lasting {k k' : Record} (h : k'.lasting = k.lasting) : k'.terms = k.terms := by
  rw [terms, terms, h]

namespace State

variable {s t u : State} {p q : Port} {k : Record}

/-- Nothing has changed but a port's pending amendment with the marks about amendments, and the waiting BID. -/
def Remarked (s t : State) (p : Port) : Prop :=
  ∃ (ko : Option Record) (b : Option BidRequest), ko.map Record.unmarked = (s.record p).map Record.unmarked ∧
    t = s.modPort p (fun u =>
      { u with contract := { u.contract with record := ko }, link := { u.link with slot := { u.link.slot with bid := b } } })

namespace Remarked

theorem refl (s : State) (p : Port) : Remarked s s p :=
  ⟨s.record p, (s.port p).link.slot.bid, rfl, (modPort_id s p rfl).symm⟩

theorem record (h : Remarked s t p) : (t.record p).map Record.unmarked = (s.record p).map Record.unmarked := by
  obtain ⟨ko, b, hko, rfl⟩ := h
  rw [State.record, port_modPort_self]
  exact hko

theorem trans (h : Remarked s t p) (g : Remarked t u p) : Remarked s u p := by
  have before := h.record
  obtain ⟨ko, b, -, rfl⟩ := h
  obtain ⟨ko', b', hko', rfl⟩ := g
  exact ⟨ko', b', hko'.trans before, modPort_modPort ..⟩

theorem ite {c : Prop} [Decidable c] (h : Remarked s t p) (g : Remarked s u p) : Remarked s (if c then t else u) p := by
  split
  · exact h
  · exact g

theorem setRecord {k' : Record} (hr : s.record p = some k) (h : k'.unmarked = k.unmarked) : Remarked s (s.setRecord p (some k')) p := by
  refine ⟨some k', (s.port p).link.slot.bid, by rw [hr, Option.map_some, Option.map_some, h], ?_⟩
  rw [setRecord_eq]
  exact modPort_congr s p rfl

theorem requestBid (s : State) (p : Port) (r : BidRequest) : Remarked s (s.requestBid p r) p := by
  refine .ite ⟨s.record p, some r, rfl, ?_⟩ (.refl s p)
  rw [modSlot_eq]
  exact modPort_congr s p rfl

theorem sendAmendment (s : State) (p : Port) (b : Terms) (o : Origin) : Remarked s (s.sendAmendment p b o) p := by
  unfold State.sendAmendment
  split
  · exact .refl s p
  · next k hr =>
    dsimp only
    refine .trans (setRecord (k' := k.amending _) hr ?_) (requestBid _ p _)
    rfl

theorem askAmendment (s : State) (p : Port) (c : AmendCause) (b : Terms) : Remarked s (s.askAmendment p c b) p := by
  unfold State.askAmendment
  split
  · exact .refl s p
  · next k hr =>
    split
    · exact sendAmendment s p b .auto
    · cases c
      · exact setRecord hr rfl
      · exact setRecord hr rfl

theorem sendOwed (s : State) (p : Port) : Remarked s (s.sendOwed p) p := by
  unfold State.sendOwed
  split
  · exact .refl s p
  · split
    · split
      · exact .ite (sendAmendment s p _ .auto) (.refl s p)
      · exact .refl s p
    · exact .refl s p

theorem checkRecord (s : State) (p : Port) : Remarked s (s.checkRecord p) p := by
  unfold State.checkRecord
  split
  · exact .refl s p
  · next k hr =>
    have stale : Remarked s (s.setRecord p (some { k with stale := true })) p := setRecord hr rfl
    refine .ite (.refl s p) (.ite (setRecord hr rfl) (.ite ?_ stale))
    split
    · exact stale.trans (askAmendment _ p _ _)
    · exact stale

theorem baseTierTest (s : State) (p : Port) : Remarked s (s.baseTierTest p) p := by
  unfold State.baseTierTest
  split
  · exact .refl s p
  · refine .ite ?_ (.refl s p)
    split
    · exact .ite (.refl s p) (askAmendment s p _ _)
    · exact .refl s p

/-- The record afterwards. -/
theorem record_some (h : Remarked s t p) (hr : s.record p = some k) : ∃ k', t.record p = some k' ∧ k'.unmarked = k.unmarked := by
  have same := h.record
  rw [hr] at same
  exact Option.map_eq_some_iff.mp same

theorem roster (h : Remarked s t p) : t.roster = s.roster := by
  obtain ⟨ko, b, -, rfl⟩ := h
  exact modPort_roster s p _

theorem allocator (h : Remarked s t p) : t.allocator = s.allocator := by
  obtain ⟨ko, b, -, rfl⟩ := h
  exact modPort_allocator s p _

theorem fields (h : Remarked s t p) :
    (t.port p).flags = (s.port p).flags ∧ (t.port p).monitor.burstArmed = (s.port p).monitor.burstArmed ∧
      (t.port p).link.exchange = (s.port p).link.exchange ∧ (t.port p).link.slot.renew = (s.port p).link.slot.renew := by
  obtain ⟨ko, b, -, rfl⟩ := h
  rw [port_modPort_self]
  exact ⟨rfl, rfl, rfl, rfl⟩

end Remarked

/-- Nothing has changed but the marks and the renewal of a port's record, the waiting BID and RENEW, and flags of the port that are set. -/
def Reasked (s t : State) (p : Port) : Prop :=
  ∃ (ko : Option Record) (b : Option BidRequest) (r : Option RenewRequest) (f : Word), ko.map Record.terms = (s.record p).map Record.terms ∧
    t = s.modPort p (fun u =>
      { u with
        contract := { u.contract with record := ko }
        link := { u.link with slot := { u.link.slot with bid := b, renew := r } }
        flags := u.flags ||| f })

theorem Remarked.reasked (h : Remarked s t p) : Reasked s t p := by
  obtain ⟨ko, b, hko, rfl⟩ := h
  refine ⟨ko, b, (s.port p).link.slot.renew, 0#16, ?_, modPort_congr s p (by dsimp only; rw [BitVec.or_zero])⟩
  have terms (o : Option Record) : o.map Record.terms = (o.map Record.unmarked).map Record.terms := by
    rw [Option.map_map]
    rfl
  rw [terms, hko, ← terms]

namespace Reasked

theorem refl (s : State) (p : Port) : Reasked s s p := (Remarked.refl s p).reasked

theorem record (h : Reasked s t p) : (t.record p).map Record.terms = (s.record p).map Record.terms := by
  obtain ⟨ko, b, r, f, hko, rfl⟩ := h
  rw [State.record, port_modPort_self]
  exact hko

theorem trans (h : Reasked s t p) (g : Reasked t u p) : Reasked s u p := by
  have before := h.record
  obtain ⟨ko, b, r, f, -, rfl⟩ := h
  obtain ⟨ko', b', r', f', hko', rfl⟩ := g
  refine ⟨ko', b', r', f ||| f', hko'.trans before, ?_⟩
  rw [modPort_modPort]
  exact modPort_congr s p (by simp only [BitVec.or_assoc])

theorem ite {c : Prop} [Decidable c] (h : Reasked s t p) (g : Reasked s u p) : Reasked s (if c then t else u) p := by
  split
  · exact h
  · exact g

theorem setRecord {k' : Record} (hr : s.record p = some k) (h : k'.terms = k.terms) : Reasked s (s.setRecord p (some k')) p := by
  refine ⟨some k', (s.port p).link.slot.bid, (s.port p).link.slot.renew, 0#16, by rw [hr, Option.map_some, Option.map_some, h], ?_⟩
  rw [setRecord_eq]
  exact modPort_congr s p (by dsimp only; rw [BitVec.or_zero])

theorem setFlag (s : State) (p : Port) (f : PortFlag) : Reasked s (s.setFlag p f) p :=
  ⟨s.record p, (s.port p).link.slot.bid, (s.port p).link.slot.renew, oneBit f.bit, rfl, by rw [setFlag_eq]; exact modPort_congr s p rfl⟩

theorem requestRenew (s : State) (p : Port) (r : RenewRequest) : Reasked s (s.requestRenew p r) p := by
  refine .ite ⟨s.record p, (s.port p).link.slot.bid, some r, 0#16, rfl, ?_⟩ (.refl s p)
  rw [modSlot_eq]
  refine modPort_congr s p ?_
  dsimp only
  rw [BitVec.or_zero]
  rfl

theorem renewNoReply (s : State) (p : Port) : Reasked s (s.renewNoReply p) p := by
  unfold State.renewNoReply
  split
  · exact .refl s p
  · next k hr =>
    split
    · refine .ite ?_ (Remarked.sendOwed s p).reasked
      refine .trans (.trans (setRecord hr ?_) (.ite (setFlag _ p .renewFail) (.refl _ p))) (Remarked.sendOwed _ p).reasked
      rfl
    · exact (Remarked.sendOwed s p).reasked

theorem renewalTest (s : State) (p : Port) : Reasked s (s.renewalTest p) p := by
  unfold State.renewalTest
  split
  · exact .refl s p
  · next k hr =>
    refine .ite ?_ (.refl s p)
    unfold askRenew
    refine .trans (setRecord hr ?_) (.ite (renewNoReply _ p) (requestRenew _ p _))
    rfl

theorem roster (h : Reasked s t p) : t.roster = s.roster := by
  obtain ⟨ko, b, r, f, -, rfl⟩ := h
  exact modPort_roster s p _

theorem frameAt (h : Reasked s t p) : s.FrameAt t p := by
  obtain ⟨ko, b, r, f, -, rfl⟩ := h
  exact FrameAt.modPort s p _

theorem record_some (h : Reasked s t p) (hr : s.record p = some k) : ∃ k', t.record p = some k' ∧ k'.terms = k.terms := by
  have same := h.record
  rw [hr] at same
  exact Option.map_eq_some_iff.mp same

end Reasked

/-! ## An amendment applied -/

/-- An armed burst stays armed through the roster's work: a path that opens arms it at most (R147, R152). -/
theorem burstArmed_kept (p : Port) : RosterKept (fun s => (s.port p).monitor.burstArmed = true) := by
  have untouched {s : State} (q : Port) (f : PortState → PortState) (hf : ∀ u, (f u).monitor = u.monitor)
      (h : (s.port p).monitor.burstArmed = true) : ((s.modPort q f).port p).monitor.burstArmed = true := by
    by_cases hq : p = q
    · rwa [hq, port_modPort_self, hf, ← hq]
    · rwa [port_modPort_ne _ _ _ hq]
  refine ⟨⟨fun q r _ h => ?_, fun {s} q h => ?_, fun {s t} q ht h => ?_⟩, fun hp _ h => by rwa [port, hp]⟩
  · exact setRole_eq _ q r ▸ untouched q _ (fun _ => rfl) h
  · by_cases hq : p = q
    · subst hq
      cases hp : s.path p with
      | opened => simpa only [openPath, hp] using h
      | closing => exact openPath_closing s p hp ▸ untouched p _ (fun _ => rfl) h
      | closed => rw [(openPath_closed s p hp).2, Monitor.stop, h, Bool.true_or]
    · rwa [openPath_others _ _ hq]
  · rw [setRole_eq]
    refine untouched q _ (fun _ => rfl) ?_
    by_cases hq : p = q
    · subst hq
      unfold requestClose at ht
      split at ht
      · split at ht
        · obtain rfl := Option.some.inj ht
          exact modFront_eq s p _ ▸ untouched p _ (fun _ => rfl) h
        · cases ht
      · rwa [← Option.some.inj ht]
      · rwa [← Option.some.inj ht]
    · rwa [requestClose_others ht hq]

theorem amendedAt_port (s : State) (p : Port) (k : Record) (a : Amendment) (granted lease : Nat) :
    (s.amendedAt p k a granted lease).port p =
      { s.port p with
        contract := { (s.port p).contract with record := some (s.amendedRecord k a granted lease) }
        link := { (s.port p).link with slot := (s.port p).link.slot.withdrawRenew k.handle }
        monitor := { (s.port p).monitor with burstArmed := true }
        flags := (s.port p).flags ||| oneBit PortFlag.amended.bit } := by
  unfold amendedAt
  dsimp only
  rw [setFlag_eq, port_modPort_self, apply_ite (fun u : State => u.port p), publish_port, ite_self, setRecord_eq, modSlot_eq, modMonitor_eq,
    modPort_modPort, modPort_modPort, port_modPort_self]

theorem place_port (hr : s.record p = some k) :
    (s.place p).port p = { s.port p with contract := { (s.port p).contract with record := some (s.ranked p k) } } := by
  simp only [place, hr, setRoster_port, setRecord_eq, port_modPort_self]
  rfl

/-- What a granted amendment leaves when it applies at once or at the end of its transition (R76, R109, R116, R142, R152). -/
structure AmendedAt (s t : State) (p : Port) (k : Record) (a : Amendment) (granted lease : Nat) : Prop where
  frame : s.FrameAt t p
  record : ∃ k', t.record p = some k' ∧ k'.terms = (s.recordAmended p k a granted lease).terms ∧ k'.renewal = none
  flag : t.flag p .amended = true
  burst : (t.port p).monitor.burstArmed = true
  exchange : (t.port p).link.exchange = (s.port p).link.exchange
  renew : (t.port p).link.slot.renew.all (fun r => r.handle ≠ k.handle) = true
  published : s.path p = .closed → t.allocator.publishedAt = s.tick

theorem amendedAt_tick (s : State) (p : Port) (k : Record) (a : Amendment) (granted lease : Nat) :
    (s.amendedAt p k a granted lease).tick = s.tick := by
  unfold amendedAt
  dsimp only
  split
  · rw [publish_eq]
    rfl
  · rfl

theorem amendedAt_published {k : Record} {a : Amendment} {granted lease : Nat} (hp : s.path p = .closed) :
    (s.amendedAt p k a granted lease).allocator.publishedAt = s.tick := by
  unfold amendedAt
  dsimp only
  rw [if_pos, setFlag_eq, modPort_allocator, publish_publishedAt]
  · rfl
  · rw [path, setRecord_eq, modSlot_eq, modMonitor_eq, modPort_modPort, modPort_modPort, port_modPort_self]
    exact hp

/-- The record that an amendment leaves, as R76 gives it. -/
theorem amendedRecord_terms (hl : k.live = true) (a : Amendment) (granted lease : Nat) :
    { s.amendedRecord k a granted lease with rank := some (s.port p).rank }.terms = (s.recordAmended p k a granted lease).terms := by
  have state : (if k.state = .benched then .inForce else k.state) = RecordState.inForce := by
    rcases Record.state_of_live hl with h | h
    · rw [h, if_neg (by decide)]
    · exact if_pos h
  simp only [amendedRecord, state]
  rfl

theorem withdrawRenew_all (q : RequestSlot) (h : Handle) : (q.withdrawRenew h).renew.all (fun r => r.handle ≠ h) = true := by
  rw [RequestSlot.withdrawRenew]
  cases q.renew with
  | none => rfl
  | some r => by_cases hr : r.handle = h <;> simp [Option.filter, hr]

theorem applyAmendment_amendedAt {a : Amendment} (hr : s.record p = some k) (hl : k.live = true) (ha : k.amendment = some a)
    (granted lease : Nat) : s.AmendedAt (s.applyAmendment p granted lease) p k a granted lease := by
  have applied := applyAmendment_eq s p hr ha granted lease
  have hport := amendedAt_port s p k a granted lease
  generalize hw : s.amendedAt p k a granted lease = w at *
  have hrecord : w.record p = some (s.amendedRecord k a granted lease) := by rw [State.record, hport]
  have placed := rosterReplace_placedAt hrecord
  have burst : ((w.rosterReplace p).port p).monitor.burstArmed = true :=
    (burstArmed_kept p).recompute (by rw [place_port hrecord, hport])
  have marked : Remarked (w.rosterReplace p) (s.applyAmendment p granted lease) p := by
    rw [applied]
    exact .trans (.ite (.checkRecord _ p) (.refl _ p)) (.sendOwed _ p)
  have published : s.path p = .closed → (w.rosterReplace p).allocator.publishedAt = s.tick := fun hp => by
    have first : w.allocator.publishedAt = s.tick := hw ▸ amendedAt_published hp
    have tick : w.tick = s.tick := hw ▸ amendedAt_tick s p k a granted lease
    exact (published_moves (rosterReplace_moves w p) (first.trans tick.symm)).trans tick
  generalize w.rosterReplace p = v at *
  obtain ⟨k₁, hk₁, hlasting⟩ : ∃ k₁, v.record p = some k₁ ∧ k₁.lasting = (w.ranked p (s.amendedRecord k a granted lease)).lasting :=
    Option.map_eq_some_iff.mp (congrArg (fun u : PortState => u.contract.record) placed.port :)
  obtain ⟨k', hk', hmarks⟩ := marked.record_some hk₁
  obtain ⟨hflags, hburst, hexchange, hrenew⟩ := marked.fields
  have hrank : (w.port p).rank = (s.port p).rank := by rw [hport]
  refine ⟨(applyAmendment_moves s p granted lease).frameAt, ⟨k', hk', ?_, ?_⟩, ?_, hburst.trans burst, ?_, ?_, fun hp => ?_⟩
  · calc k'.terms = k₁.terms := Record.terms_of_unmarked hmarks
      _ = (w.ranked p (s.amendedRecord k a granted lease)).terms := Record.terms_of_lasting hlasting
      _ = (s.recordAmended p k a granted lease).terms := by rw [ranked, hrank]; exact amendedRecord_terms hl a granted lease
  · have renewal : k'.renewal = k₁.renewal := (congrArg Record.renewal hmarks :)
    rw [renewal]
    exact (congrArg Record.renewal hlasting :)
  · have flags : (v.port p).flags = (w.port p).flags := (congrArg PortState.flags placed.port :)
    rw [State.flag, hflags, flags, hport]
    exact (getLsbD_or_flag _ .amended true).trans (Bool.or_true _)
  · rw [hexchange]
    refine (congrArg (fun u : PortState => u.link.exchange) placed.port :).trans ?_
    rw [hport]
    rfl
  · rw [hrenew]
    have kept : (v.port p).link.slot.renew = (w.port p).link.slot.renew := (congrArg (fun u : PortState => u.link.slot.renew) placed.port :)
    rw [kept, hport]
    exact withdrawRenew_all _ _
  · rw [marked.allocator]
    exact published hp

/-! ## An amendment answered -/

theorem replied_frameAt (s : State) (p : Port) : s.FrameAt (s.replied p) p := (FrameAt.modPort s p _).trans (FrameAt.modPort _ p _)

theorem takeGrant_amending {a : Amendment} (hr : s.record p = some k) (hw : k.withdraw = false) (hs : k.state ≠ .bidding)
    (ha : k.openAmendment = some a) (tier : BitVec 3) (v i n : Nat) :
    s.takeGrant p tier v i n = s.grantAmendment p k a tier v i n := by
  simp only [takeGrant, hr, hw, Bool.false_eq_true, if_false, if_neg hs, ha]

theorem takeDecline_amending {a : Amendment} (hr : s.record p = some k) (hw : k.withdraw = false) (hs : k.state ≠ .bidding)
    (ha : k.openAmendment = some a) (later : Bool) : s.takeDecline p later = s.refuseAmendment p := by
  simp only [takeDecline, hr, hw, Bool.false_eq_true, if_false, if_neg hs, ha, Option.isSome_some, if_true]

theorem amendmentGrantOk_iff (a : Amendment) (tier : BitVec 3) (v i n : Nat) :
    amendmentGrantOk a tier v i n = false ↔ tier ≠ a.tier ∨ v ≠ a.voltage ∨ i = 0 ∨ (n = 0 ∧ a.tier ≠ 0) := by
  simp only [amendmentGrantOk, Bool.and_eq_false_iff, decide_eq_false_iff_not, bne_eq_false_iff_eq, Bool.or_eq_false_iff, ne_eq, or_assoc]

end State

theorem Record.openAmendment_of {k : Record} {a : Amendment} (ha : k.amendment = some a) (ht : a.transition = none) :
    k.openAmendment = some a := by
  simp [openAmendment, ha, ht]

open State

/-- Settles O37: a GRANT applies the amendment or begins its transition; every other reply refuses it. -/
theorem amendmentAnswered : Obligations.AmendmentAnswered := by
  intro s p tag e k a l hh he ht hk hr hl ha htr after refusal refuses
  have hr' : (s.replied p).record p = some k := replied_record hr
  have hs : k.state ≠ .bidding := fun h => by rw [Record.live, h] at hl; cases hl
  have opened := Record.openAmendment_of ha htr
  have withdrawn (g : Bool) : after.RetiredAt ((s.replied p).endWithdrawn p k g) p k .hostRetire false false := by
    have retired := endWithdrawn_retired hr' g
    rwa [decide_eq_false hs, Bool.and_false] at retired
  have refused : (s.replied p).refuseAmendment p = refusal.owedReleased p := refuseAmendment_eq hr'
  refine ⟨fun reason hreason => ?_, fun tier v i n ok => ?_⟩
  · have ends := exec_decline_ends hh he ht hk hreason
    refine ⟨fun hw => ⟨_, ends.trans (congrArg Host.Outcome.next (takeDecline_withdrawn hr' hw _)), withdrawn false⟩, fun hw => ?_⟩
    rw [ends, takeDecline_amending hr' hw hs opened, refused]
  · intro fails granted
    have ends := exec_grant_ends hh he ht hk ok
    have tests : amendmentGrantOk a tier v.toNat i.toNat n.toNat = false ↔ fails := by
      have zero : i = 0 ↔ i.toNat = 0 := ⟨fun h => by rw [h]; rfl, fun h => BitVec.eq_of_toNat_eq h⟩
      have zeroLease : n = 0 ↔ n.toNat = 0 := ⟨fun h => by rw [h]; rfl, fun h => BitVec.eq_of_toNat_eq h⟩
      rw [amendmentGrantOk_iff, ← zero, ← zeroLease]
    have accepts (hf : ¬ fails) : amendmentGrantOk a tier v.toNat i.toNat n.toNat = true := by
      rw [← Bool.not_eq_false, tests]
      exact hf
    have voltage (hf : ¬ fails) : v.toNat = a.voltage := by
      by_contra hv
      exact hf (.inr (.inl hv))
    refine ⟨fun hf => ⟨fun hw => ?_, fun hw => ?_⟩, fun hw hf hv => ?_, fun hw hf hv => ?_⟩
    · exact ⟨_, ends.trans (congrArg Host.Outcome.next (takeGrant_withdrawn hr' hw _ _ _ _)), withdrawn true⟩
    · have fails' : ¬ amendmentGrantOk a tier v.toNat i.toNat n.toNat = true := by
        rw [Bool.not_eq_true, tests]
        exact hf.resolve_right (by rw [hw]; exact nofun)
      rw [ends, takeGrant_amending hr' hw hs opened, grantAmendment, if_neg fails', refused]
    · intro x
      rw [ends, takeGrant_amending hr' hw hs opened, grantAmendment, if_pos (accepts hf), if_neg (by rw [voltage hf]; exact hv), setRecord_eq]
      rfl
    · have amended := applyAmendment_amendedAt hr' hl ha granted (min n.toNat 600)
      obtain ⟨k', hk', hterms, hrenewal⟩ := amended.record
      have same : (s.replied p).recordAmended p k a granted (min n.toNat 600) = s.recordAmended p k a granted (min n.toNat 600) := by
        rw [recordAmended, replied_port]
        rfl
      have exchange : ((s.replied p).port p).link.exchange = none := by
        rw [replied_port]
        rfl
      rw [ends, takeGrant_amending hr' hw hs opened, grantAmendment, if_pos (accepts hf), if_pos (by rw [voltage hf]; exact hv)]
      refine ⟨_, k', rfl, (replied_frameAt s p).trans amended.frame, hk', hterms.trans (congrArg Record.terms same), hrenewal, amended.flag,
        amended.burst, amended.exchange.trans exchange, amended.renew, fun hp => amended.published ?_⟩
      rw [path, replied_port]
      exact hp

end Sys2Proof.Machine
end

section
/-! PROOF. The entry into IN_FORCE, and SETTLED (O38). -/

namespace Sys2Proof.Machine
open Sys2Proof

namespace State

variable {s t : State} {p : Port} {k : Record}

theorem Reasked.fields (h : Reasked s t p) :
    (∃ f, (t.port p).flags = (s.port p).flags ||| f) ∧ (t.port p).contract.attempts = (s.port p).contract.attempts ∧
      (t.port p).contract.holdoff = (s.port p).contract.holdoff := by
  obtain ⟨ko, b, r, f, -, rfl⟩ := h
  rw [port_modPort_self]
  exact ⟨⟨f, rfl⟩, rfl, rfl⟩

/-- A flag that is set stays set as others are. -/
theorem Reasked.flag (h : Reasked s t p) {f : PortFlag} (hf : s.flag p f = true) : t.flag p f = true := by
  obtain ⟨⟨g, hg⟩, -⟩ := h.fields
  rw [State.flag] at hf ⊢
  rw [hg, BitVec.getLsbD_or, hf, Bool.true_or]

/-! ## The entry into IN_FORCE -/

/-- What the entry of a record into IN_FORCE leaves (R69, R112). -/
structure EnteredAt (s t : State) (p : Port) (k : Record) : Prop where
  frame : s.FrameAt t p
  record : ∃ k', t.record p = some k' ∧ k'.terms = { k with state := .inForce, rank := some (s.port p).rank }.terms
  attempts : (t.port p).contract.attempts = 0
  holdoff : (t.port p).contract.holdoff = none
  granted : t.flag p .granted = true
  listed : k.handle ∈ t.roster.list

/-- A port whose record enters IN_FORCE, before the roster takes it in. -/
def entering (k : Record) (u : PortState) : PortState :=
  { u with contract := { u.contract with record := some { k with state := .inForce }, attempts := 0, holdoff := none } }

theorem enterInForce_eq (hr : s.record p = some k) :
    s.enterInForce p =
      let v := (s.modPort p (entering k)).rosterInsert p
      ((((if v.arrivedAfter p k.bidTick then v.checkRecord p else v).baseTierTest p).setFlag p .granted).renewalTest p) := by
  simp only [enterInForce, hr, setRecord_eq, modContract_eq, modPort_modPort]
  rfl

theorem enterInForce_enteredAt (hr : s.record p = some k) : s.EnteredAt (s.enterInForce p) p k := by
  have frame := (enterInForce_moves s p).frameAt
  have entered := enterInForce_eq hr
  have hport : (s.modPort p (entering k)).port p = entering k (s.port p) := port_modPort_self s p _
  generalize s.modPort p (entering k) = w at *
  have hrecord : w.record p = some { k with state := .inForce } := by rw [State.record, hport]; rfl
  have placed := rosterInsert_placedAt hrecord
  generalize w.rosterInsert p = v at *
  have marked : Remarked v ((if v.arrivedAfter p k.bidTick then v.checkRecord p else v).baseTierTest p) p :=
    .trans (.ite (.checkRecord v p) (.refl v p)) (.baseTierTest _ p)
  dsimp only at entered
  rw [entered] at frame ⊢
  generalize (if v.arrivedAfter p k.bidTick then v.checkRecord p else v).baseTierTest p = x at *
  have last := Reasked.renewalTest (x.setFlag p .granted) p
  have whole : Reasked v ((x.setFlag p .granted).renewalTest p) p := .trans (.trans marked.reasked (.setFlag x p .granted)) last
  obtain ⟨k₁, hk₁, hlasting⟩ : ∃ k₁, v.record p = some k₁ ∧ k₁.lasting = (w.ranked p { k with state := .inForce }).lasting :=
    Option.map_eq_some_iff.mp (congrArg (fun u : PortState => u.contract.record) placed.port :)
  obtain ⟨k', hk', hterms⟩ := whole.record_some hk₁
  obtain ⟨-, hattempts, hholdoff⟩ := whole.fields
  have granted : (x.setFlag p .granted).flag p .granted = true := by
    rw [State.flag, setFlag_eq, port_modPort_self]
    exact (getLsbD_or_flag _ .granted true).trans (Bool.or_true _)
  refine ⟨frame, ⟨k', hk', ?_⟩, ?_, ?_, last.flag granted, ?_⟩
  · refine hterms.trans ((Record.terms_of_lasting hlasting).trans ?_)
    rw [ranked, hport]
    rfl
  · have same : (v.port p).contract.attempts = (w.port p).contract.attempts := (congrArg (fun u : PortState => u.contract.attempts) placed.port :)
    rw [hattempts, same, hport]
    rfl
  · have same : (v.port p).contract.holdoff = (w.port p).contract.holdoff := (congrArg (fun u : PortState => u.contract.holdoff) placed.port :)
    rw [hholdoff, same, hport]
    rfl
  · rw [whole.roster, placed.list]
    exact .inl rfl

/-! ## SETTLED -/

theorem exec_settled (hh : s.hears p = true) (tag : Tag) : exec (.settled p false tag) s = .next ((s.heard p).takeSettled p) :=
  (exec_frameRow s p ⟨false, tag, .settled⟩).trans (congrArg Host.Outcome.next (receive_plain hh rfl))

theorem takeSettled_settling (hr : s.record p = some k) (hs : k.state = .settling) : s.takeSettled p = s.settleFresh p k := by
  simp only [takeSettled, hr, hs]

theorem takeSettled_live (hr : s.record p = some k) (hl : k.live = true) : s.takeSettled p = s.settleTransition p k := by
  rcases Record.state_of_live hl with h | h <;> simp only [takeSettled, hr, h]

/-- SETTLED with nothing to settle is ignored (R69, R71, R78). -/
theorem takeSettled_ignored (hr : s.record p = some k)
    (h : k.state = .bidding ∨ (k.state = .settling ∧ (k.tier = 0 ∨ k.settledHeard = true)) ∨ (k.live = true ∧ k.inTransition = false)) :
    s.takeSettled p = s := by
  rcases h with h | ⟨h, hp⟩ | ⟨hl, hp⟩
  · simp only [takeSettled, hr, h]
  · rw [takeSettled_settling hr h]
    exact if_pos hp
  · rw [takeSettled_live hr hl, settleTransition]
    cases ha : k.amendment with
    | none => rfl
    | some a =>
      cases hx : a.transition with
      | none => simp only [hx]
      | some x => simp [Record.inTransition, ha, hx] at hp

theorem settlingTest_enters (hr : s.record p = some k) (hs : k.state = .settling) (hk : k.tier = 0 ∨ k.settledHeard = true)
    (hv : windowTest (s.port p).front.voltage k.low k.high = true) : s.settlingTest p = s.enterInForce p := by
  simp only [settlingTest, hr, if_pos (show _ ∧ _ ∧ _ from ⟨hs, hk, hv⟩)]

theorem settlingTest_waits (hr : s.record p = some k) (hv : windowTest (s.port p).front.voltage k.low k.high = false) :
    s.settlingTest p = s := by
  simp [settlingTest, hr, hv]

theorem testTransition_applies {a : Amendment} {x : Transition} (hr : s.record p = some k) (hl : k.live = true) (ha : k.amendment = some a)
    (hx : a.transition = some x) (hs : x.settledHeard = true) (hv : windowTest (s.port p).front.voltage a.low a.high = true) :
    s.testTransition p = s.applyAmendment p x.granted x.lease := by
  simp only [testTransition, hr, ha, hx, hl, hs, hv, Bool.and_self, if_true]

theorem testTransition_waits {a : Amendment} {x : Transition} (hr : s.record p = some k) (ha : k.amendment = some a)
    (hx : a.transition = some x) (hv : windowTest (s.port p).front.voltage a.low a.high = false) : s.testTransition p = s := by
  simp only [testTransition, hr, ha, hx, hv, Bool.and_false, Bool.false_eq_true, if_false]

end State

open State

/-- Settles O38: SETTLED marks the record or its transition, and the test follows; elsewhere it is ignored. -/
theorem settledHeard : Obligations.SettledHeard := by
  intro s p tag hh v
  rw [exec_settled hh tag]
  have record : (s.heard p).record p = s.record p := by rw [State.record, heard_port_self, State.record]
  refine ⟨fun hr => ?_, fun k hr => ?_⟩
  · simp only [takeSettled, record, hr]
  have hr' := record.trans hr
  refine ⟨fun h => by rw [takeSettled_ignored hr' h], fun hs ht hh' => ?_, fun a x hl ha hx => ?_⟩
  · intro heard
    generalize hw : (s.heard p).setRecord p (some heard) = w
    have hport : w.port p = { (s.heard p).port p with contract := { ((s.heard p).port p).contract with record := some heard } } := by
      rw [← hw, setRecord_eq, port_modPort_self]
    have hrw : w.record p = some heard := by rw [State.record, hport]
    have voltage : (w.port p).front.voltage = v := by rw [hport, heard_port_self]
    have settles : (s.heard p).takeSettled p = w.settlingTest p := by
      rw [takeSettled_settling hr' hs, settleFresh, if_neg (by rw [hh']; exact not_or_intro ht nofun), ← hw]
      rfl
    rw [settles]
    refine ⟨fun hv => ?_, fun hv => ?_⟩
    · rw [settlingTest_waits hrw (by rw [voltage]; exact hv), ← hw, setRecord_eq]
    · have entered := enterInForce_enteredAt hrw
      rw [settlingTest_enters hrw hs (.inr rfl) (by rw [voltage]; exact hv)]
      obtain ⟨k', hk', hterms⟩ := entered.record
      have frame : s.FrameAt w p := hw ▸ (FrameAt.modPort s p _).trans (setRecord_eq (s.heard p) p _ ▸ FrameAt.modPort _ p _)
      refine ⟨_, k', rfl, frame.trans entered.frame, hk', fun _ => hterms.trans ?_, entered.attempts, entered.holdoff, entered.granted,
        entered.listed⟩
      rw [hport, heard_port_self]
  · have heardSet := setRecord_eq (s.heard p) p
      (some { k with amendment := some { a with transition := some { x with settledHeard := true } } })
    generalize hw : (s.heard p).setRecord p (some { k with amendment := some { a with transition := some { x with settledHeard := true } } }) = w
      at heardSet
    have hport : w.port p = { (s.heard p).port p with contract := { ((s.heard p).port p).contract with
        record := some { k with amendment := some { a with transition := some { x with settledHeard := true } } } } } := by
      rw [heardSet, port_modPort_self]
    have hrw : w.record p = some { k with amendment := some { a with transition := some { x with settledHeard := true } } } := by
      rw [State.record, hport]
    have voltage : (w.port p).front.voltage = v := by rw [hport, heard_port_self]
    have settles (h : x.settledHeard = false) : (s.heard p).takeSettled p = w.testTransition p := by
      simp only [takeSettled_live hr' hl, settleTransition, ha, hx, h, Bool.false_eq_true, if_false, ← hw]
    refine ⟨fun h => ?_, fun h hv => ?_, fun h hv => ?_⟩
    · simp only [takeSettled_live hr' hl, settleTransition, ha, hx, h, if_true]
    · rw [settles h, testTransition_waits hrw rfl rfl (by rw [voltage]; exact hv), heardSet]
    · have applied := testTransition_applies hrw hl rfl rfl rfl (by rw [voltage]; exact hv)
      have amended := applyAmendment_amendedAt hrw hl rfl x.granted x.lease
      obtain ⟨k', hk', hterms, hrenewal⟩ := amended.record
      have frame : s.FrameAt w p := (FrameAt.modPort s p _).trans (heardSet ▸ FrameAt.modPort _ p _)
      rw [settles h, applied]
      refine ⟨_, k', rfl, frame.trans amended.frame, hk', hterms.trans ?_, hrenewal, amended.flag, fun hp => ?_⟩
      · rw [recordAmended, State.ahead, frame.tick, hport, heard_port_self]
        rfl
      · rw [amended.published (by rw [path, hport, heard_port_self]; exact hp), frame.tick]

end Sys2Proof.Machine
end

section
/-! PROOF. What a retirement keeps, and a supply loss (O41). -/

namespace Sys2Proof.Machine
open Sys2Proof

namespace State

variable {s t u : State} {p q : Port} {k : Record}

/-! ## Properties that a retirement and an asking keep -/

/-- A property of states that the roster's work keeps, and every change of a port beside its front end and its watch. -/
structure RetireKept (I : State → Prop) : Prop extends RosterKept I where
  edit : ∀ {s : State} (q : Port) (f : PortState → PortState), (∀ u, (f u).front = u.front ∧ (f u).watch = u.watch) → I s → I (s.modPort q f)

theorem setRoster_allocator (s : State) (l : List Handle) : (s.setRoster l).allocator = s.allocator := by
  unfold setRoster
  dsimp only
  split
  · rfl
  · rfl

/-- What the cause of a retirement does to the port is to set its hold, or nothing (R64). -/
theorem rebidDecision_cases (s : State) (p : Port) (failed : Bool) (c : Cause) (later : Bool) :
    (s.rebidDecision p failed c later).1 = s ∨
      (s.rebidDecision p failed c later).1 = s.modContract p (fun x => { x with hold := true }) := by
  unfold rebidDecision
  dsimp only
  split
  · exact .inl rfl
  · exact .inl rfl
  · exact .inr rfl
  all_goals
    split
    · exact .inl rfl
    · split
      · exact .inl rfl
      · split
        · exact .inl rfl
        · exact .inr rfl

namespace RetireKept

variable {I : State → Prop} (h : RetireKept I)
include h

theorem rosterRemove {s : State} (hs : I s) (x : Handle) : I (s.rosterRemove p x) := by
  unfold State.rosterRemove
  have free : I (s.setRole p .none) := h.role p nofun hs
  dsimp only
  split
  · exact h.recompute (h.part (setRoster_ports _ _) (setRoster_allocator _ _) free)
  · exact free

theorem retireCore {s : State} (hs : I s) (c : Cause) (g later : Bool) : I (s.retireCore p c g later).1 := by
  unfold State.retireCore
  split
  · exact hs
  · next k hr =>
    dsimp only
    have released : I ((s.openPath p).releaseLink p k c g) := by
      rw [releaseLink_eq]
      exact h.edit p _ (fun _ => ⟨rfl, rfl⟩) (h.opens p hs)
    have emptied : I (((((s.openPath p).releaseLink p k c g).rosterRemove p k.handle).emptySlot p k c).setFlag p .retired) := by
      rw [emptySlot, modContract_eq, modMonitor_eq, setFlag_eq, modPort_modPort, modPort_modPort]
      exact h.edit p _ (fun _ => ⟨rfl, rfl⟩) (h.rosterRemove released k.handle)
    generalize ((((s.openPath p).releaseLink p k c g).rosterRemove p k.handle).emptySlot p k c).setFlag p .retired = w at emptied
    have counted : I (if failsBid k c then w.countFailure p else w) := by
      split
      · rw [countFailure_eq]
        exact h.edit p _ (fun _ => ⟨rfl, rfl⟩) emptied
      · exact emptied
    generalize (if failsBid k c then w.countFailure p else w) = v at counted
    rcases rebidDecision_cases v p (failsBid k c) c later with same | held
    · rwa [same]
    · rw [held, modContract_eq]
      exact h.edit p _ (fun _ => ⟨rfl, rfl⟩) counted

theorem asking {s : State} (hs : I s) (p : Port) : I (s.asking p) := by
  obtain ⟨n, r, a, b, asked⟩ := asking_asked s p
  have issued : I { s with lastHandle := n } := h.part (s := s) rfl rfl hs
  rw [asked]
  exact h.edit p _ (fun _ => ⟨rfl, rfl⟩) issued

theorem retireWith {s : State} (hs : I s) (c : Cause) (g later : Bool) : I (s.retireWith p c g later) := by
  unfold State.retireWith
  dsimp only
  split
  · exact h.asking (h.retireCore hs c g later) p
  · exact h.retireCore hs c g later

end RetireKept

theorem openPath_passEnable (s : State) (p : Port) : (s.openPath p).allocator.passEnable = s.allocator.passEnable := by
  cases hp : s.path p with
  | opened => simp only [openPath, hp]
  | closing =>
    rw [openPath_closing _ _ hp]
    rfl
  | closed =>
    obtain ⟨u, hopen, hallocator, -⟩ := openPath_reports hp
    rw [hopen, reportPath, publish_passEnable, ← hallocator]

theorem requestClose_allocator {who : Requester} (ht : s.requestClose q who = some t) : t.allocator = s.allocator := by
  unfold requestClose at ht
  split at ht
  · split at ht
    · rw [← Option.some.inj ht]
      rfl
    · cases ht
  · rw [Option.some.inj ht]
  · rw [Option.some.inj ht]

/-- The pass-through enable is no retirement's business (R161). -/
theorem passEnable_kept (b : Bool) : RetireKept (fun s => s.allocator.passEnable = b) where
  part _ ha h := by rw [ha, h]
  role _ _ _ h := h
  opens q h := by rw [openPath_passEnable, h]
  closes q ht h := by
    rw [setRole_eq, modPort_allocator, requestClose_allocator ht, h]
  edit _ _ _ h := h

theorem meetRecall_watch (s : State) (p : Port) : ((s.meetRecall p).port p).watch = (s.port p).watch := by
  unfold meetRecall
  split
  · rfl
  · split
    · rfl
    · split
      · rw [requestYield_self, setRecord_eq, port_modPort_self]
        split
        · rfl
        · rfl
      · rfl

theorem openPath_repeatAt (s : State) (p : Port) : ((s.openPath p).port p).watch.repeatAt = (s.port p).watch.repeatAt := by
  cases hp : s.path p with
  | opened => simp only [openPath, hp]
  | closing => rw [openPath_closing _ _ hp, port_modPort_self]
  | closed =>
    simp only [openPath, hp, reportPath_port, meetRecall_watch]
    rw [tidyWatch_eq, port_modPort_self, modFront_eq, modMonitor_eq, modPort_modPort, port_modPort_self]

theorem requestClose_watch {who : Requester} (ht : s.requestClose q who = some t) : (t.port p).watch = (s.port p).watch := by
  by_cases hq : p = q
  · subst hq
    unfold requestClose at ht
    split at ht
    · split at ht
      · rw [← Option.some.inj ht, modFront_eq, port_modPort_self]
      · cases ht
    · rw [Option.some.inj ht]
    · rw [Option.some.inj ht]
  · rw [requestClose_others ht hq]

/-- A repeat state stands through the retirement of its port's record (R163). -/
theorem repeatAt_kept (p : Port) (n : Option Nat) : RetireKept (fun s => (s.port p).watch.repeatAt = n) := by
  have untouched {s : State} (q : Port) (f : PortState → PortState) (hf : ∀ u, (f u).watch = u.watch)
      (h : (s.port p).watch.repeatAt = n) : ((s.modPort q f).port p).watch.repeatAt = n := by
    by_cases hq : p = q
    · rwa [hq, port_modPort_self, hf, ← hq]
    · rwa [port_modPort_ne _ _ _ hq]
  refine ⟨⟨⟨fun q r _ h => ?_, fun {s} q h => ?_, fun {s t} q ht h => ?_⟩, fun hp _ h => by rwa [port, hp]⟩,
    fun q f hf h => untouched q f (fun u => (hf u).2) h⟩
  · exact setRole_eq _ q r ▸ untouched q _ (fun _ => rfl) h
  · by_cases hq : p = q
    · subst hq
      rwa [openPath_repeatAt]
    · rwa [openPath_others _ _ hq]
  · rw [setRole_eq]
    refine untouched q _ (fun _ => rfl) ?_
    rwa [requestClose_watch ht]

/-! ## The share of the pass-through sink -/

/-- While the pass-through is disabled its sink is allotted nothing (R139). -/
def PassShut (s : State) : Prop := s.allocator.passEnable = false → s.allocator.allocations.pass = 0

theorem PassShut.publish (s : State) : s.publish.PassShut := by
  rw [PassShut, publish_eq]
  exact s.allocator.divide_disabled _

theorem PassShut.congr (h : s.PassShut) (ha : t.allocator = s.allocator) : t.PassShut := by rwa [PassShut, ha]

theorem PassShut.openPath (h : s.PassShut) : (s.openPath p).PassShut := by
  cases hp : s.path p with
  | opened => simpa only [State.openPath, hp] using h
  | closing => exact openPath_closing s p hp ▸ h.congr rfl
  | closed =>
    obtain ⟨u, hopen, -⟩ := openPath_reports hp
    rw [hopen]
    exact .publish _

theorem PassShut.setPassEnable (h : s.PassShut) (b : Bool) : (s.setPassEnable b).PassShut := by
  by_cases hb : s.allocator.passEnable = b
  · rwa [setPassEnable_same hb]
  · rw [setPassEnable_changed hb]
    exact .publish _

theorem PassShut.moves (h : s.PassShut) (hm : Moves p s t) : t.PassShut := by
  induction hm with
  | still hs => exact h.congr hs.2.1
  | opens q hc => exact h.openPath
  | closes _ => exact .publish _
  | publish => exact .publish _
  | pass b => exact h.setPassEnable b
  | benches r _ => exact PassShut.openPath (h.congr rfl)
  | ask | drop | create | revise | clear | mode => exact h
  | trans _ _ ih jh => exact jh (ih h)

theorem setPassEnable_passEnable (s : State) (b : Bool) : (s.setPassEnable b).allocator.passEnable = b := by
  by_cases hb : s.allocator.passEnable = b
  · rw [setPassEnable_same hb, hb]
  · rw [setPassEnable_changed hb, publish_passEnable]

/-! ## A supply loss -/

/-- The record that an asking has made is not live (R60, R61). -/
theorem asking_record_not_live (hr : s.record p = none) {k : Record} (hk : (s.asking p).record p = some k) : k.live = false := by
  by_cases hbid : s.MayBid p
  · rw [asking_bids s p hbid] at hk
    cases hterms : s.askingTerms p with
    | none =>
      rw [hterms, hr] at hk
      cases hk
    | some b =>
      rw [hterms] at hk
      by_cases htier : b.tier = 0
      · simp only [freshBid, if_pos htier, localBid_eq, record, port_modPort_self] at hk
        exact (Option.some.inj hk) ▸ rfl
      · simp only [freshBid, if_neg htier, linkBid_eq _ _ _ (askingTerms_linked hterms htier), record, port_modPort_self] at hk
        exact (Option.some.inj hk) ▸ rfl
  · rw [asking_idle s p hbid, hr] at hk
    cases hk

/-- What a supply loss leaves (R161). -/
structure LostAt (s t : State) (p : Port) (k : Record) (c : Cause) : Prop where
  frame : s.FrameAt t p
  path : t.path p = .opened
  retirement : (t.port p).contract.lastRetirement = some { handle := k.handle, cause := c, tick := s.tick }
  record : ∀ k', t.record p = some k' → k'.live = false
  loss : t.flag p .loss = true
  retired : t.flag p .retired = true
  repeatAt : (t.port p).watch.repeatAt = some (s.dropoutThreshold k.low)
  last : (∀ q, q ≠ p → s.path q ≠ .closed) → t.allocator.passEnable = false ∧ t.allocator.allocations.pass = 0
  others : (∃ q, q ≠ p ∧ s.path q = .closed) → t.allocator.passEnable = s.allocator.passEnable

/-- What a retirement with the asking after it leaves of the port (R63, R83). -/
theorem retire_leaves {c : Cause} (hr : s.record p = some k) :
    (s.retire p c).path p = .opened ∧
      ((s.retire p c).port p).contract.lastRetirement = some { handle := k.handle, cause := c, tick := s.tick } ∧
      (∀ k', (s.retire p c).record p = some k' → k'.live = false) ∧ (s.retire p c).flag p .retired = true := by
  obtain ⟨u, hu, -, -, hlasting, hpath, -⟩ := retireWith_spec hr c false false nofun
  have last : (u.port p).contract.lastRetirement = some { handle := k.handle, cause := c, tick := s.tick } :=
    (congrArg (fun x : PortState => x.contract.lastRetirement) hlasting :)
  have empty : u.record p = none := Option.map_eq_none_iff.mp (congrArg (fun x : PortState => x.contract.record) hlasting :)
  have flag : u.flag p .retired = true := by
    have flags : (u.port p).flags = (s.port p).flagsRetired k c := (congrArg PortState.flags hlasting :)
    have set := getLsbD_or_flag (s.port p).flags .retired true
    rw [State.flag, flags, PortState.flagsRetired, BitVec.getLsbD_or]
    rw [if_pos rfl] at set
    rw [set, Bool.or_true, Bool.true_or]
  rw [retire, hu]
  split
  · obtain ⟨r, a, b, asked⟩ := asking_port_self u p
    refine ⟨?_, ?_, fun k' hk' => asking_record_not_live empty hk', ?_⟩
    · rw [path, asked]
      exact hpath
    · rw [asked]
      exact last
    · rw [State.flag, asked]
      exact flag
  · exact ⟨hpath, last, fun k' hk' => absurd (empty.symm.trans hk') nofun, flag⟩

theorem anyClosed_eq_false : s.anyClosed = false ↔ ∀ q, s.path q ≠ .closed := by
  simp only [anyClosed, List.any_eq_false, decide_eq_true_eq]
  exact ⟨fun h q => h q (mem_all q), fun h q _ => h q⟩

/-- A port that a supply loss opens, before its record is retired: its repeat state stands (R161, R163). -/
def lossOpened (s : State) (p : Port) (k : Record) : State :=
  (s.modPort p (fun u => { u with watch := { u.watch with repeatAt := some (s.dropoutThreshold k.low) } })).openPath p

theorem supplyLoss_eq (hr : s.record p = some k) (c : Cause) :
    s.supplyLoss p c =
      if (s.lossOpened p k).anyClosed = false then (((s.lossOpened p k).retire p c).setFlag p .loss).setPassEnable false
      else ((s.lossOpened p k).retire p c).setFlag p .loss := by
  have opened : (s.modWatch p (fun w => { w with repeatAt := some (s.dropoutThreshold k.low) })).openPath p = s.lossOpened p k := rfl
  simp only [supplyLoss, hr, opened, Bool.not_eq_true']

theorem supplyLoss_lostAt {c : Cause} (hr : s.record p = some k) (hp : s.path p = .closed) : s.LostAt (s.supplyLoss p c) p k c := by
  have lost := supplyLoss_eq hr c
  have frame := (supplyLoss_moves s p c).frameAt
  have hwport : (s.modPort p (fun u => { u with watch := { u.watch with repeatAt := some (s.dropoutThreshold k.low) } })).port p =
      { s.port p with watch := { (s.port p).watch with repeatAt := some (s.dropoutThreshold k.low) } } := port_modPort_self _ _ _
  have stood : ((s.lossOpened p k).port p).watch.repeatAt = some (s.dropoutThreshold k.low) := by
    rw [lossOpened, openPath_repeatAt, hwport]
  have shut : (s.lossOpened p k).PassShut := by
    obtain ⟨u, hopen, -⟩ := openPath_reports (show (s.modPort p (fun u =>
      { u with watch := { u.watch with repeatAt := some (s.dropoutThreshold k.low) } })).path p = .closed by rw [path, hwport]; exact hp)
    rw [lossOpened, hopen]
    exact .publish _
  have pass : (s.lossOpened p k).allocator.passEnable = s.allocator.passEnable := openPath_passEnable _ p
  have others (q : Port) (hq : q ≠ p) : (s.lossOpened p k).path q = s.path q := by
    rw [path, lossOpened, openPath_others _ _ hq, port_modPort_ne _ _ _ hq, path]
  have opened : (s.lossOpened p k).path p = .opened := openPath_path _ p
  have tick : (s.lossOpened p k).tick = s.tick := ((openPath_worked _ p).frameAt p).tick
  obtain ⟨k₁, hk₁, hlasting⟩ := openPath_handle _ p k (show (s.modPort p (fun u =>
      { u with watch := { u.watch with repeatAt := some (s.dropoutThreshold k.low) } })).record p = some k by rw [State.record, hwport]; exact hr)
  have hhandle : k₁.handle = k.handle := (congrArg Record.handle hlasting :)
  have hk₁' : (s.lossOpened p k).record p = some k₁ := hk₁
  generalize s.lossOpened p k = o at *
  obtain ⟨hpath, hlast, hlive, hretired⟩ := retire_leaves (c := c) hk₁'
  have hrepeat := (repeatAt_kept p _).retireWith (p := p) stood c false false
  have hpass := (passEnable_kept s.allocator.passEnable).retireWith (p := p) pass c false false
  have hshut := shut.moves (retire_moves o p c)
  rw [hhandle, tick] at hlast
  have hport : (s.supplyLoss p c).port p = { (o.retire p c).port p with flags := ((o.retire p c).port p).flags ||| oneBit PortFlag.loss.bit } := by
    rw [lost, apply_ite (fun u : State => u.port p), setPassEnable_port, ite_self, setFlag_eq, port_modPort_self]
  refine ⟨frame, ?_, ?_, fun k' hk' => hlive k' ?_, ?_, ?_, ?_, fun hq => ?_, fun ⟨q, hq, hc⟩ => ?_⟩
  · rw [path, hport]
    exact hpath
  · rw [hport]
    exact hlast
  · rw [State.record, hport] at hk'
    exact hk'
  · rw [State.flag, hport]
    exact (getLsbD_or_flag _ .loss true).trans (Bool.or_true _)
  · rw [State.flag] at hretired
    rw [State.flag, hport]
    dsimp only
    rw [BitVec.getLsbD_or, hretired, Bool.true_or]
  · rw [hport]
    exact hrepeat
  · have none : o.anyClosed = false := anyClosed_eq_false.mpr (fun q => by
      by_cases h : q = p
      · rw [h, opened]
        exact nofun
      · rw [others q h]
        exact hq q h)
    have shut' : (((o.retire p c).setFlag p .loss).setPassEnable false).PassShut :=
      PassShut.setPassEnable (hshut.congr (by rw [setFlag_eq, modPort_allocator])) false
    have off := setPassEnable_passEnable ((o.retire p c).setFlag p .loss) false
    rw [lost, if_pos none]
    exact ⟨off, shut' off⟩
  · have some : ¬ o.anyClosed = false := fun h => anyClosed_eq_false.mp h q ((others q hq).trans hc)
    rw [lost, if_neg some, setFlag_eq, modPort_allocator]
    exact hpass

/-- A supply loss after a change that leaves paths, pass-through enable and what it reads of the record. -/
theorem LostAt.of_frame {k' : Record} {c : Cause} (h : u.LostAt t p k' c) (hf : s.FrameAt u p) (hh : k'.handle = k.handle) (hl : k'.low = k.low)
    (hp : ∀ q, q ≠ p → u.path q = s.path q) (hpass : u.allocator.passEnable = s.allocator.passEnable) : s.LostAt t p k c := by
  obtain ⟨frame, path, retirement, record, loss, retired, repeatAt, last, others⟩ := h
  refine ⟨hf.trans frame, path, ?_, record, loss, retired, ?_, fun hq => last (fun q hqp => ?_), fun ⟨q, hqp, hc⟩ => ?_⟩
  · rw [retirement, hh, hf.tick]
  · rw [repeatAt, hl, dropoutThreshold, dropoutThreshold, hf.policy]
  · rw [hp q hqp]
    exact hq q hqp
  · rw [others ⟨q, hqp, (hp q hqp).trans hc⟩, hpass]

theorem ceilingReported_passEnable (s : State) (p : Port) (a b : Record) :
    (s.ceilingReported p a b).allocator.passEnable = s.allocator.passEnable := by
  unfold ceilingReported
  split
  · exact publish_passEnable s
  · rfl

/-- What the droop judgement of a window leaves to the judgement of a loss (R154, R160). -/
theorem judgeDroop_spec (hr : s.record p = some k) (w : WatchWindow) :
    (∃ k', (s.judgeDroop p w).record p = some k' ∧ k'.handle = k.handle ∧ k'.low = k.low) ∧
      (∀ q, (s.judgeDroop p w).path q = s.path q) ∧ (s.judgeDroop p w).allocator.passEnable = s.allocator.passEnable ∧
      (s.judgeDroop p w).watchEnable = s.watchEnable ∧ ((s.judgeDroop p w).port p).watch = (s.port p).watch := by
  unfold judgeDroop
  split
  · next h =>
    rw [troubleTrim_eq hr h.2.1]
    refine ⟨⟨{ k with trim := min 15 (k.trim + 1) }, by rw [record, ceilingReported_port, port_modPort_self], rfl, rfl⟩, fun q => ?_, ?_, ?_, ?_⟩
    · rw [path, ceilingReported_port, path]
      by_cases hq : q = p
      · rw [hq, port_modPort_self]
      · rw [port_modPort_ne _ _ _ hq]
    · rw [ceilingReported_passEnable]
      rfl
    · rw [ceilingReported_watchEnable]
      rfl
    · rw [ceilingReported_port, port_modPort_self]
  · exact ⟨⟨k, hr, rfl, rfl⟩, fun _ => rfl, rfl, rfl, rfl⟩

theorem lossJudged_eq_true {w : WatchWindow} (hp : s.path p = .closed) (he : s.watchEnable = true)
    (h : (s.port p).watch.forced = true ∨ (w.allBelow = true ∧ w.touched = false)) : s.lossJudged p w = true := by
  rcases h with h | ⟨ha, ht⟩
  · simp [lossJudged, hp, he, h]
  · simp [lossJudged, hp, he, ha, ht]

theorem endWatchWindow_lost {w : WatchWindow} (h : ((s.watchClosed p).judgeDroop p w).lossJudged p w = true) :
    s.endWatchWindow p w = ((s.watchClosed p).judgeDroop p w).supplyLoss p .supplyLost := if_pos h

theorem exec_fault_taken {tag : Tag} {code : BitVec 2} (hh : s.hears p = true) (hc : code ≠ 0) :
    exec (.fault p false tag code) s = .next ((s.heard p).takeFault p) :=
  (exec_frameRow s p ⟨false, tag, .fault code⟩).trans (congrArg Host.Outcome.next (receive_plain hh (by simpa [bodyFieldsOk] using hc)))

/-- A loss at the end of a watch window (R158, R160). -/
theorem exec_watchWindowEnd_lost {w : WatchWindow} (hr : s.record p = some k) (hp : s.path p = .closed) (he : s.watchEnable = true)
    (hw : (s.port p).watch.window = some w) (hd : 8 ≤ w.count)
    (hl : (s.port p).watch.forced = true ∨ (w.allBelow = true ∧ w.touched = false)) :
    ∃ t, exec (.watchWindowEnd p) s = .next t ∧ s.LostAt t p k .supplyLost := by
  have hport := watchClosed_port s p
  have frame : s.FrameAt ((s.watchClosed p).judgeDroop p w) p := (FrameAt.modPort s p _).trans (judgeDroop_moves _ p w).frameAt
  have paths (q : Port) : (s.watchClosed p).path q = s.path q := by
    by_cases hq : q = p
    · rw [hq, path, hport, path]
    · rw [path, watchClosed, port_modPort_ne _ _ _ hq, path]
  obtain ⟨⟨k', hk', hhandle, hlow⟩, hpath, hpass, henable, hwatch⟩ :=
    judgeDroop_spec (s := s.watchClosed p) (by rw [record, hport]; exact hr) w
  refine ⟨_, exec_watchWindowEnd_due hw hd, ?_⟩
  have closed : ((s.watchClosed p).judgeDroop p w).path p = .closed := by rw [hpath, paths, hp]
  rw [endWatchWindow_lost (lossJudged_eq_true closed (henable.trans he) (by rw [hwatch, hport]; exact hl))]
  exact (supplyLoss_lostAt hk' closed).of_frame frame hhandle hlow (fun q _ => (hpath q).trans (paths q)) hpass

/-- A FAULT over a CLOSED path with the watch on (R162). -/
theorem exec_fault_lost {tag : Tag} {code : BitVec 2} (hr : s.record p = some k) (hp : s.path p = .closed) (he : s.watchEnable = true)
    (hh : s.hears p = true) (hc : code ≠ 0) :
    ∃ t, exec (.fault p false tag code) s = .next t ∧ s.LostAt t p k .partnerFault := by
  have hport := heard_port_self s p
  have closed : (s.heard p).path p = .closed := by rw [path, hport]; exact hp
  have lost : (s.heard p).takeFault p = (s.heard p).supplyLoss p .partnerFault := if_pos ⟨closed, he⟩
  refine ⟨_, exec_fault_taken hh hc, ?_⟩
  rw [lost]
  refine (supplyLoss_lostAt (by rw [record, hport]; exact hr) closed).of_frame (FrameAt.modPort s p _) rfl rfl (fun q hq => ?_) rfl
  rw [path, heard, port_modPort_ne _ _ _ hq, path]

end State

open State

/-- Settles O41: a supply loss opens, retires and remembers the threshold; a FAULT elsewhere is a retirement. -/
theorem supplyLossTaken : Obligations.SupplyLossTaken := by
  intro s p
  refine ⟨fun c cause k hr hp he hc => ?_, fun tag code hcode hh h => ?_⟩
  · obtain ⟨t, ht, frame, path, retirement, record, loss, retired, repeatAt, last, others⟩ :
        ∃ t, exec c s = .next t ∧ s.LostAt t p k cause := by
      rcases hc with ⟨rfl, hh, tag, code, hcode, rfl⟩ | ⟨rfl, rfl, w, hw, hd, hl⟩
      · exact exec_fault_lost hr hp he hh hcode
      · exact exec_watchWindowEnd_lost hr hp he hw hd hl
    exact ⟨t, ht, frame, path, retirement, record, loss, retired, repeatAt, last, others⟩
  · have hport := heard_port_self s p
    have retires : (s.heard p).takeFault p = (s.heard p).retire p .partnerFault := by
      refine if_neg (fun hl => ?_)
      rw [State.path, hport] at hl
      rcases h with h | h
      · exact h hl.1
      · exact absurd (h.symm.trans hl.2) nofun
    rw [exec_fault_taken hh hcode, retires]
    refine ⟨fun hr => by rw [retire_none (by rw [State.record, hport]; exact hr)], fun k hr => ?_⟩
    obtain ⟨u, hu, retired⟩ := retireWith_spec (s := s.heard p) (p := p) (by rw [State.record, hport]; exact hr) .partnerFault false false nofun
    refine ⟨u, ?_, retired⟩
    rw [retire, hu, hport]

end Sys2Proof.Machine
end

section
/-! PROOF. SET MODE AUTO (O24). -/

namespace Sys2Proof.Machine
open Sys2Proof

namespace State

variable {s t u : State} {p : Port} {k : Record} {b : Byte}

/-! ## What an asking leaves of a port -/

/-- An asking on a port with a record leaves no trace (R58, R59). -/
theorem asking_held (hr : s.record p = some k) : s.asking p = s :=
  asking_idle s p (fun may => absurd (hr.symm.trans may.2.2.1) nofun)

/-- What an asking leaves of a free port (R58 to R61). -/
theorem asking_free (hr : s.record p = none) :
    (s.MayBid p → (s.asking p).BidStands p s.nextHandle) ∧ (¬ s.MayBid p → (s.asking p).record p = none) :=
  ⟨asking_stands s p, fun may => by rw [asking_idle s p may, hr]⟩

theorem asking_frameAt (s : State) (p : Port) : s.FrameAt (s.asking p) p := by
  obtain ⟨n, r, a, b, asked⟩ := asking_asked s p
  rw [asked]
  exact FrameAt.modPort _ p _

/-! ## The port on its way to AUTO -/

theorem exec_setModeAuto (hs : s.Listening) (b : Byte) : exec (.setModeAuto b) s = .next (respond (s.setMode b 1)) :=
  exec_of_listening hs (h := .setMode b 1) rfl

theorem setMode_auto (hb : portOf b = some p) : s.setMode b 1 = .done (s.toAuto p) := by
  simp only [setMode, hb, show modeOf 1 = some .auto from rfl]

/-- SET MODE AUTO begins a HELLO on the port (R5, R7, R41). -/
def HelloWithAuto (s : State) (p : Port) : Prop :=
  (s.mode p = .sense ∧ (s.port p).front.attach = .present) ∨ (s.mode p = .auto ∧ s.linkState p = .mute)

/-- The hold of a port's record slot is gone (R65). -/
def holdCleared (u : PortState) : PortState := { u with contract := { u.contract with hold := false } }

/-- A port that becomes AUTO from SENSE, before the roster recomputes: its link opens when it is PRESENT (R5). -/
def openedAuto (deadline : Tick) (u : PortState) : PortState :=
  { holdCleared u with
    front := { u.front with mode := .auto }
    link := if u.front.attach = .present then u.link.opens deadline else u.link }

/-- A port that becomes AUTO from DIRECT, before the roster recomputes: a close goes on for the roster (R7, R128). -/
def adoptedAuto (u : PortState) : PortState :=
  { holdCleared u with
    front := { u.front with
      mode := .auto
      closeOp := if u.front.path = .closing then u.front.closeOp.map (fun c => { c with requester := .roster }) else u.front.closeOp }
    role := if u.front.path = .closing then .incoming else u.role }

theorem toAuto_sense (hm : s.mode p = .sense) :
    s.toAuto p = (s.modPort p (openedAuto (s.ahead 250))).recompute.asking p := by
  unfold toAuto
  rw [hm]
  refine congrArg (fun w : State => w.recompute.asking p) ?_
  rw [modContract_eq, modFront_eq, modPort_modPort, openLink, port_modPort_self]
  by_cases ha : (s.port p).front.attach = .present
  · refine (if_pos ha).trans ?_
    rw [enterOpening_eq, modPort_modPort]
    exact modPort_congr s p (by rw [openedAuto, if_pos ha]; rfl)
  · refine (if_neg ha).trans ?_
    exact modPort_congr s p (by rw [openedAuto, if_neg ha]; rfl)

theorem toAuto_direct (hm : s.mode p = .direct) : s.toAuto p = (s.modPort p adoptedAuto).recompute.asking p := by
  unfold toAuto
  rw [hm]
  refine congrArg (fun w : State => w.recompute.asking p) ?_
  rw [modContract_eq, modFront_eq, modPort_modPort, adoptClose, path, port_modPort_self]
  by_cases hp : (s.port p).front.path = .closing
  · refine (if_pos hp).trans ?_
    rw [modFront_eq, setRole_eq, modPort_modPort, modPort_modPort]
    exact modPort_congr s p (by rw [adoptedAuto, if_pos hp, if_pos hp]; rfl)
  · refine (if_neg hp).trans ?_
    exact modPort_congr s p (by rw [adoptedAuto, if_neg hp, if_neg hp]; rfl)

/-- A port already in AUTO with its hold gone; a MUTE link opens, and what is owed goes out (R7, R41, R73). -/
def reopened (s : State) (p : Port) : State :=
  if s.linkState p = .mute then
    ((s.modPort p holdCleared).modPort p (fun u => { u with link := u.link.opens (s.ahead 250) })).owedReleased p
  else s.modPort p holdCleared

/-- A MUTE port in AUTO as its link opens (R7, R41). -/
def reopenedAuto (deadline : Tick) (u : PortState) : PortState := { holdCleared u with link := u.link.opens deadline }

theorem reopened_mute (hl : s.linkState p = .mute) : s.reopened p = (s.modPort p (reopenedAuto (s.ahead 250))).sendOwed p := by
  rw [reopened, if_pos hl, modPort_modPort, sendOwed_eq]
  rfl

theorem reopened_other (hl : s.linkState p ≠ .mute) : s.reopened p = s.modPort p holdCleared := if_neg hl

theorem toAuto_auto (hm : s.mode p = .auto) : s.toAuto p = (s.reopened p).asking p := by
  unfold toAuto
  rw [hm]
  refine congrArg (fun w : State => w.asking p) ?_
  have cleared : s.modContract p (fun c => { c with hold := false }) = s.modPort p holdCleared := rfl
  have link : (s.modPort p holdCleared).linkState p = s.linkState p := by
    rw [linkState, port_modPort_self]
    rfl
  have auto : ((s.modPort p holdCleared).enterOpening p).mode p = .auto := by
    rw [enterOpening_eq, mode, port_modPort_self, port_modPort_self]
    exact hm
  dsimp only
  rw [cleared, reopenMute, reopened, link, if_pos auto, sendOwed_eq]
  rfl

/-- What SET MODE AUTO has made of a port when the asking begins. -/
structure ReadyForAuto (s u : State) (p : Port) : Prop where
  frame : s.FrameAt u p
  next : u.nextHandle = s.nextHandle
  front : u.mode p = .auto ∧ (u.port p).front.attach = (s.port p).front.attach ∧
    (u.port p).front.pathRequest = (s.port p).front.pathRequest
  contract : (u.port p).contract.hold = false ∧ (u.port p).contract.holdoff = (s.port p).contract.holdoff
  rest : (u.port p).catalogue = (s.port p).catalogue ∧ (u.port p).flags = (s.port p).flags
  record : (u.record p).map (fun k => (k.terms, k.renewal)) = (s.record p).map (fun k => (k.terms, k.renewal))
  hello : s.HelloWithAuto p → u.linkState p = .opening ∧ (u.port p).link.openingDeadline = some (s.ahead 250) ∧
    (u.port p).link.exchange = some { body := .hello, tag := (s.port p).link.tagCounter, retries := 2, deadline := none }
  still : ¬ s.HelloWithAuto p → u.linkState p = s.linkState p ∧ (u.port p).link.exchange = (s.port p).link.exchange

/-- What a record keeps through the roster's work is read off what lasts of it. -/
theorem terms_of_lasting_map {a c : Option Record} (h : a.map Record.lasting = c.map Record.lasting) :
    a.map (fun k => (k.terms, k.renewal)) = c.map (fun k => (k.terms, k.renewal)) := by
  have factor (o : Option Record) :
      o.map (fun k => (k.terms, k.renewal)) = (o.map Record.lasting).map (fun k => (k.terms, k.renewal)) := by
    cases o with
    | none => rfl
    | some k =>
      have same : k.lasting.lasting = k.lasting := by
        cases k with
        | mk => simp [Record.lasting, Function.comp_def]
      exact congrArg some (Prod.ext (Record.terms_of_lasting same.symm) rfl)
  rw [factor, h, ← factor]

/-- A change of a port that keeps its record's handle leaves the next handle. -/
theorem nextHandle_modPort (f : PortState → PortState) (hf : ((f (s.port p)).contract.record).map Record.handle = (s.record p).map Record.handle) :
    (s.modPort p f).nextHandle = s.nextHandle := by
  refine nextHandle_of_handles (fun q => ?_) rfl
  by_cases hq : q = p
  · rw [hq, State.record, port_modPort_self, hf]
  · rw [State.record, port_modPort_ne _ _ _ hq, State.record]

theorem recompute_nextHandle (f : PortState → PortState) (hf : ((f (s.port p)).contract.record).map Record.handle = (s.record p).map Record.handle) :
    (s.modPort p f).recompute.nextHandle = s.nextHandle := by
  rw [(recompute_worked _).nextHandle, nextHandle_modPort f hf]

theorem readyForAuto_sense (hm : s.mode p = .sense) : s.ReadyForAuto (s.modPort p (openedAuto (s.ahead 250))).recompute p := by
  have lasting := (recompute_worked (s.modPort p (openedAuto (s.ahead 250)))).2.2.2 p
  have frame := (FrameAt.modPort s p (openedAuto (s.ahead 250))).trans ((recompute_worked _).frameAt p)
  have next := recompute_nextHandle (s := s) (p := p) (openedAuto (s.ahead 250)) rfl
  rw [port_modPort_self] at lasting
  generalize (s.modPort p (openedAuto (s.ahead 250))).recompute = u at *
  have link : (u.port p).link.state = (openedAuto (s.ahead 250) (s.port p)).link.state ∧
      (u.port p).link.openingDeadline = (openedAuto (s.ahead 250) (s.port p)).link.openingDeadline ∧
      (u.port p).link.exchange = (openedAuto (s.ahead 250) (s.port p)).link.exchange :=
    ⟨(congrArg (fun v : PortState => v.link.state) lasting :), (congrArg (fun v : PortState => v.link.openingDeadline) lasting :),
      (congrArg (fun v : PortState => v.link.exchange) lasting :)⟩
  refine ⟨frame, next, ⟨(congrArg (fun v : PortState => v.front.mode) lasting :), (congrArg (fun v : PortState => v.front.attach) lasting :),
    (congrArg (fun v : PortState => v.front.pathRequest) lasting :)⟩, ⟨(congrArg (fun v : PortState => v.contract.hold) lasting :),
    (congrArg (fun v : PortState => v.contract.holdoff) lasting :)⟩, ⟨(congrArg PortState.catalogue lasting :),
    (congrArg PortState.flags lasting :)⟩, terms_of_lasting_map (congrArg (fun v : PortState => v.contract.record) lasting :), fun h => ?_,
    fun h => ?_⟩
  · have ha : (s.port p).front.attach = .present := (h.resolve_right (fun h => absurd (hm.symm.trans h.1) (by decide))).2
    rw [openedAuto, if_pos ha] at link
    exact link
  · rw [openedAuto, if_neg (fun ha => h (.inl ⟨hm, ha⟩))] at link
    exact ⟨link.1, link.2.2⟩

theorem readyForAuto_direct (hm : s.mode p = .direct) : s.ReadyForAuto (s.modPort p adoptedAuto).recompute p := by
  have lasting := (recompute_worked (s.modPort p adoptedAuto)).2.2.2 p
  have frame := (FrameAt.modPort s p adoptedAuto).trans ((recompute_worked _).frameAt p)
  have next := recompute_nextHandle (s := s) (p := p) adoptedAuto rfl
  rw [port_modPort_self] at lasting
  generalize (s.modPort p adoptedAuto).recompute = u at *
  have never (h : s.HelloWithAuto p) : False := by
    rcases h with ⟨h, -⟩ | ⟨h, -⟩
    · exact absurd (hm.symm.trans h) (by decide)
    · exact absurd (hm.symm.trans h) (by decide)
  exact ⟨frame, next, ⟨(congrArg (fun v : PortState => v.front.mode) lasting :), (congrArg (fun v : PortState => v.front.attach) lasting :),
    (congrArg (fun v : PortState => v.front.pathRequest) lasting :)⟩, ⟨(congrArg (fun v : PortState => v.contract.hold) lasting :),
    (congrArg (fun v : PortState => v.contract.holdoff) lasting :)⟩, ⟨(congrArg PortState.catalogue lasting :),
    (congrArg PortState.flags lasting :)⟩, terms_of_lasting_map (congrArg (fun v : PortState => v.contract.record) lasting :),
    fun h => (never h).elim, fun _ => ⟨(congrArg (fun v : PortState => v.link.state) lasting :),
    (congrArg (fun v : PortState => v.link.exchange) lasting :)⟩⟩

/-- A close that the port has, the roster is waiting for (R7, R128). -/
def RosterCloses (s : State) (p : Port) : Prop := s.path p = .closing → (s.port p).front.closeOp.map CloseOp.requester = some .roster

theorem RosterCloses.congr (h : s.RosterCloses p) (hf : (t.port p).front = (s.port p).front) : t.RosterCloses p := by
  rw [RosterCloses, path, hf]
  exact h

theorem RosterCloses.rosterKept (p : Port) : RosterKept (fun s => s.RosterCloses p) where
  part hp _ h := h.congr (by rw [port, hp, port])
  role q _ _ h := by
    by_cases hq : p = q
    · subst hq
      exact h.congr (by rw [setRole_eq, port_modPort_self])
    · exact h.congr (by rw [setRole_eq, port_modPort_ne _ _ _ hq])
  opens {s} q h := by
    by_cases hq : p = q
    · subst hq
      exact fun hc => absurd ((openPath_path s p).symm.trans hc) (by decide)
    · exact h.congr (by rw [openPath_others _ _ hq])
  closes {s t} q ht h := by
    have role (w : State) (hw : w.RosterCloses p) : (w.setRole q .incoming).RosterCloses p := by
      by_cases hq : p = q
      · subst hq
        exact hw.congr (by rw [setRole_eq, port_modPort_self])
      · exact hw.congr (by rw [setRole_eq, port_modPort_ne _ _ _ hq])
    refine role t ?_
    by_cases hq : p = q
    · subst hq
      unfold requestClose at ht
      split at ht
      · split at ht
        · rw [← Option.some.inj ht, modFront_eq]
          exact fun _ => by rw [port_modPort_self]; rfl
        · cases ht
      · rwa [← Option.some.inj ht]
      · rwa [← Option.some.inj ht]
    · exact h.congr (by rw [requestClose_others ht hq])

theorem adoptedAuto_rosterCloses (hb : s.PathsBacked) : (s.modPort p adoptedAuto).recompute.RosterCloses p := by
  refine (RosterCloses.rosterKept p).recompute (fun hc => ?_)
  rw [path, port_modPort_self] at hc
  have hc' : s.path p = .closing := hc
  obtain ⟨c, hclose⟩ := Option.isSome_iff_exists.mp ((hb p).2.mpr hc')
  rw [port_modPort_self, adoptedAuto]
  refine (congrArg (Option.map CloseOp.requester) (if_pos hc')).trans ?_
  rw [hclose]
  rfl

theorem readyForAuto_auto (hm : s.mode p = .auto) : s.ReadyForAuto (s.reopened p) p := by
  by_cases hl : s.linkState p = .mute
  · have hello : s.HelloWithAuto p := .inr ⟨hm, hl⟩
    obtain ⟨ko, r, hko, released⟩ := Remarked.sendOwed (s.modPort p (reopenedAuto (s.ahead 250))) p
    rw [← reopened_mute hl] at released
    have unmarked : ko.map Record.unmarked = (s.record p).map Record.unmarked := by
      rw [hko, State.record, port_modPort_self]
      rfl
    have factor (o : Option Record) : o.map (fun k => (k.terms, k.renewal)) = (o.map Record.unmarked).map (fun k => (k.terms, k.renewal)) := by
      rw [Option.map_map]
      rfl
    have handles (o : Option Record) : o.map Record.handle = (o.map Record.unmarked).map Record.handle := by
      rw [Option.map_map]
      rfl
    rw [modPort_modPort] at released
    have issued : (s.reopened p).nextHandle = s.nextHandle := by
      rw [released]
      exact nextHandle_modPort _ (by dsimp only; rw [handles, unmarked, ← handles])
    have hport := congrArg (fun w : State => w.port p) released
    have frame : s.FrameAt _ p := released ▸ FrameAt.modPort s p _
    rw [port_modPort_self] at hport
    refine ⟨frame, issued, ?_, ?_, ?_, ?_, fun _ => ?_, fun h => absurd hello h⟩
    · rw [mode, hport]
      exact ⟨hm, rfl, rfl⟩
    · rw [hport]
      exact ⟨rfl, rfl⟩
    · rw [hport]
      exact ⟨rfl, rfl⟩
    · rw [State.record, hport]
      dsimp only
      rw [factor, unmarked, ← factor]
    · rw [linkState, hport]
      exact ⟨rfl, rfl, rfl⟩
  · rw [reopened_other hl]
    have hport : (s.modPort p holdCleared).port p = holdCleared (s.port p) := port_modPort_self s p _
    refine ⟨FrameAt.modPort s p _, nextHandle_modPort holdCleared rfl, ?_, ?_, ?_, ?_, fun h => ?_, fun _ => ?_⟩
    · rw [mode, hport]
      exact ⟨hm, rfl, rfl⟩
    · rw [hport]
      exact ⟨rfl, rfl⟩
    · rw [hport]
      exact ⟨rfl, rfl⟩
    · rw [State.record, hport]
      rfl
    · rcases h with ⟨h, -⟩ | ⟨-, h⟩
      · exact absurd (hm.symm.trans h) (by decide)
      · exact absurd h hl
    · rw [linkState, hport]
      exact ⟨rfl, rfl⟩

/-- Every SET MODE AUTO ends in an asking (R59, R65). -/
theorem toAuto_asks (s : State) (p : Port) :
    ∃ u, s.toAuto p = u.asking p ∧ s.ReadyForAuto u p ∧ (s.mode p = .direct → s.PathsBacked → u.RosterCloses p) ∧
      (s.mode p = .auto → u = s.reopened p) := by
  cases hm : s.mode p with
  | sense => exact ⟨_, toAuto_sense hm, readyForAuto_sense hm, nofun, nofun⟩
  | auto => exact ⟨_, toAuto_auto hm, readyForAuto_auto hm, nofun, fun _ => rfl⟩
  | direct => exact ⟨_, toAuto_direct hm, readyForAuto_direct hm, fun _ => adoptedAuto_rosterCloses, nofun⟩

end State

open State

/-- Settles O24: the port is made ready, and the asking that ends the command touches its record slot alone. -/
theorem setModeAuto : Obligations.SetModeAuto := by
  intro s b hs
  rw [exec_setModeAuto hs]
  refine ⟨fun hb => by rw [setMode_no_port hb]; rfl, fun p hb => ⟨s.toAuto p, by rw [setMode_auto hb]; rfl, ?_⟩⟩
  obtain ⟨u, hasks, ready, hcloses, hreopened⟩ := toAuto_asks s p
  obtain ⟨frame, next, ⟨hmode, hattach, hrequest⟩, ⟨hhold, hholdoff⟩, ⟨hcatalogue, hflags⟩, hrecord, hello, still⟩ := ready
  obtain ⟨r, a, c, hport⟩ := asking_port_self u p
  have linkState : (u.asking p).linkState p = u.linkState p := by
    rw [State.linkState, hport]
    rfl
  rw [hasks]
  refine ⟨frame.trans (asking_frameAt u p), ?_, ?_, ?_, ?_, ?_, ?_, fun k hr => ?_, fun h => ?_, fun h => ?_, fun hd hback hp => ?_,
    fun hm hr => ?_, fun hr => ?_⟩
  · rw [mode, hport]
    exact hmode
  · rw [hport]
    exact hhold
  · rw [hport]
    exact hattach
  · rw [hport]
    exact hrequest
  · rw [hport]
    exact hcatalogue
  · rw [hport]
    exact hflags
  · rw [hr] at hrecord
    obtain ⟨k', hk', hsame⟩ := Option.map_eq_some_iff.mp hrecord
    rw [asking_held hk']
    exact ⟨k', hk', (congrArg Prod.fst hsame :), (congrArg Prod.snd hsame :)⟩
  · rw [linkState, hport]
    exact hello h
  · rw [linkState, hport]
    exact still h
  · rw [path, hport] at hp
    rw [hport]
    exact hcloses hd hback hp
  · obtain ⟨k, hk⟩ := Option.isSome_iff_exists.mp hr
    rw [hk] at hrecord
    obtain ⟨k', hk', -⟩ := Option.map_eq_some_iff.mp hrecord
    rw [asking_held hk', hreopened hm]
    rfl
  · rw [hr] at hrecord
    obtain ⟨stands, free⟩ := asking_free (Option.map_eq_none_iff.mp hrecord)
    have may : u.MayBid p ↔ (s.port p).front.attach = .present ∧ (s.port p).contract.holdoff = none ∧
        ((s.port p).catalogue.held = true ∨ (u.asking p).linkState p = .mute) := by
      simp only [MayBid, hmode, hattach, Option.map_eq_none_iff.mp hrecord, hhold, hholdoff, hcatalogue, linkState, true_and]
    rw [next] at stands
    exact ⟨fun asks => stands (may.mpr asks), fun idle => free (fun h => idle (may.mp h))⟩

end Sys2Proof.Machine
end

section
/-! PROOF. A link that becomes MUTE (O30). -/

namespace Sys2Proof.Machine
open Sys2Proof

/-- A record whose BID, whose RENEW or both have ended without a reply (R74, R91). -/
def Record.unanswered (k : Record) (retryAt : Tick) (bid renew : Bool) : Record :=
  { k with
    amendment := if bid then k.amendment.filter (fun a => a.transition.isSome) else k.amendment
    refused := k.refused || (bid && k.openAmendment.isSome)
    renewal :=
      if renew then k.renewal.map (fun n => if n.state = .inFlight then { n with state := .retryWait retryAt } else n) else k.renewal }

namespace Record

variable (k : Record) (d : Tick)

theorem unanswered_none : k.unanswered d false false = k := by
  simp [unanswered]

theorem unanswered_terms (bid renew : Bool) : (k.unanswered d bid renew).terms = k.terms := rfl

theorem openAmendment_eq_none : k.openAmendment = none ↔ k.amendment.filter (fun a => a.transition.isSome) = k.amendment := by
  unfold openAmendment
  cases k.amendment with
  | none => simp
  | some a => cases h : a.transition <;> simp [Option.filter, h]

theorem filter_of_open (h : k.openAmendment.isSome = true) : k.amendment.filter (fun a => a.transition.isSome) = none := by
  unfold openAmendment at h
  cases ha : k.amendment with
  | none => rfl
  | some a =>
    rw [ha] at h
    cases hx : a.transition <;> simp [Option.filter, hx] at h ⊢

/-- A second BID that ends changes nothing more. -/
theorem unanswered_bid (bid renew : Bool) :
    (k.unanswered d bid renew).unanswered d true false = k.unanswered d true renew := by
  cases bid with
  | false => simp [unanswered, openAmendment]
  | true =>
    have none : (k.amendment.filter (fun a => a.transition.isSome)).filter (fun a => a.transition.isNone) = none := by
      cases k.amendment with
      | none => rfl
      | some a => cases h : a.transition <;> simp [Option.filter, h]
    simp [unanswered, openAmendment, none]

theorem unanswered_renew (bid renew : Bool) :
    (k.unanswered d bid renew).unanswered d false true = k.unanswered d bid true := by
  have once (n : Renewal) : (if n.state = .inFlight then { n with state := .retryWait d } else n).state ≠ .inFlight := by
    split
    · exact nofun
    · assumption
  cases renew with
  | false => simp [unanswered]
  | true => 
    cases hn : k.renewal with
    | none => simp [unanswered, hn]
    | some n => simp [unanswered, hn, once n]

/-- Without a renewal IN_FLIGHT there is nothing that a lost RENEW changes (log 41). -/
theorem unanswered_idle (h : k.renewing = false) : k.unanswered d false true = k := by
  have kept : k.renewal.map (fun n => if n.state = .inFlight then { n with state := .retryWait d } else n) = k.renewal := by
    unfold renewing at h
    cases hn : k.renewal with
    | none => rfl
    | some n =>
      rw [hn] at h
      have idle : n.state ≠ .inFlight := fun hs => by simp [hs] at h
      exact congrArg some (if_neg idle)
  simp [unanswered, kept]

/-- Without an open amendment there is nothing that a lost BID changes. -/
theorem unanswered_closed (h : k.openAmendment.isSome = false) : k.unanswered d true false = k := by
  have kept := k.openAmendment_eq_none.mp (Option.isSome_eq_false_iff.mp h |> Option.isNone_iff_eq_none.mp)
  simp [unanswered, kept, h]

end Record

/-- A MUTE link that its entry has left these requests, memory and assembly (R39). -/
def Link.muted (n : Tag) (q : RequestSlot) (m : Option Abandoned) (a : Option Assembly) : Link :=
  { Link.reset with state := .mute, tagCounter := n, slot := q, memory := m, assembly := a }

theorem Link.muted_retired (n : Tag) (q : RequestSlot) (m : Option Abandoned) (a : Option Assembly) (k : Record) (c : Cause) (g : Bool) :
    (Link.muted n q m a).retired false k c g = Link.muted n (q.withdraw k.handle) m a := rfl

namespace State

variable {s t u : State} {p q : Port} {k : Record} {l : Link}

/-! ## Retirements on a link that is not usable -/

theorem Hushed.setRole (h : s.Hushed p l) (q : Port) (r : Role) : (s.setRole q r).Hushed p l :=
  setRole_eq s q r ▸ h.modPort q _ (fun _ => rfl)

/-- The roster's work leaves such a link alone. -/
theorem Hushed.rosterKept (p : Port) (l : Link) : RosterKept (fun s => s.Hushed p l) where
  part hp _ h := h.congr (by rw [port, hp, port])
  role q r _ h := h.setRole q r
  opens q h := h.openPath q
  closes {s t} q ht h := by
    refine Hushed.setRole ?_ q .incoming
    by_cases hq : p = q
    · subst hq
      unfold requestClose at ht
      split at ht
      · split at ht
        · rw [← Option.some.inj ht, modFront_eq]
          exact h.modPort p _ (fun _ => rfl)
        · cases ht
      · rwa [← Option.some.inj ht]
      · rwa [← Option.some.inj ht]
    · exact h.congr (by rw [requestClose_others ht hq])

theorem Hushed.rosterRemove (h : s.Hushed p l) (x : Handle) : (s.rosterRemove p x).Hushed p l := by
  have free := h.setRole p .none
  unfold State.rosterRemove
  dsimp only
  split
  · exact (rosterKept p l).recompute ((rosterKept p l).part (setRoster_ports _ _) (setRoster_allocator _ _) free)
  · exact free

/-- A retirement withdraws what such a link holds for the record, and nothing more (R83). -/
theorem Hushed.retireCore (h : s.Hushed p l) (hr : s.record p = some k) (c : Cause) (g later : Bool)
    (hl : (l.retired false k c g).state = l.state) : ((s.retireCore p c g later).1.port p).link = l.retired false k c g := by
  have opened := h.openPath p
  have unusable : (s.openPath p).linkUsable p = false := by
    rw [← Bool.not_eq_true, linkUsable_iff, linkState, opened.link]
    exact fun usable => opened.unusable.elim usable.1 usable.2
  have released : ((s.openPath p).releaseLink p k c g).Hushed p (l.retired false k c g) := by
    refine ⟨?_, by rw [hl]; exact h.unusable⟩
    rw [releaseLink_eq, port_modPort_self, opened.link, unusable]
  have emptied : (((((s.openPath p).releaseLink p k c g).rosterRemove p k.handle).emptySlot p k c).setFlag p .retired).Hushed p
      (l.retired false k c g) := by
    rw [emptySlot, modContract_eq, modMonitor_eq, setFlag_eq, modPort_modPort, modPort_modPort]
    exact (released.rosterRemove k.handle).modPort p _ (fun _ => rfl)
  simp only [State.retireCore, hr]
  generalize ((((s.openPath p).releaseLink p k c g).rosterRemove p k.handle).emptySlot p k c).setFlag p .retired = w at *
  have counted : (if failsBid k c then w.countFailure p else w).Hushed p (l.retired false k c g) := by
    split
    · rw [countFailure_eq]
      exact emptied.modPort p _ (fun _ => rfl)
    · exact emptied
  generalize (if failsBid k c then w.countFailure p else w) = v at *
  rcases rebidDecision_cases v p (failsBid k c) c later with same | held
  · rw [same]
    exact counted.link
  · rw [held, modContract_eq]
    exact (counted.modPort p (fun x => { x with contract := { x.contract with hold := true } }) (fun _ => rfl)).link

/-! ## A RENEW or BID lost on a MUTE link -/

/-- A port's record with its answers, and flags set. -/
def answering (s : State) (p : Port) (k : Record) (f : Word) : State :=
  s.modPort p (fun x => { x with contract := { x.contract with record := some k }, flags := x.flags ||| f })

theorem answering_self (hr : s.record p = some k) : s.answering p k 0#16 = s := by
  refine modPort_id s p ?_
  dsimp only
  rw [BitVec.or_zero, ← hr]
  rfl

theorem answering_link (s : State) (p : Port) (k : Record) (f : Word) : ((s.answering p k f).port p).link = (s.port p).link := by
  rw [answering, port_modPort_self]

theorem renewNoReply_muted (hm : s.linkState p = .mute) (hr : s.record p = some k) :
    ∃ f, s.renewNoReply p = s.answering p (k.unanswered (s.ahead 2000) false true) f := by
  by_cases hf : k.renewing = true
  · obtain ⟨n, hn, hs⟩ := renewing_iff.mp hf
    refine ⟨if n.attempts = 1 then oneBit PortFlag.renewFail.bit else 0, ?_⟩
    rw [renewNoReply_inFlight hr hn hs, owedReleased_mute (by rw [State.linkState, port_modPort_self]; exact hm)]
    exact modPort_congr s p (by simp [Record.unanswered, hn, hs])
  · rw [Bool.not_eq_true] at hf
    exact ⟨0#16, by rw [renewNoReply_other hr hf, owedReleased_mute hm, Record.unanswered_idle k _ hf, answering_self hr]⟩

theorem bidNoReply_muted (hm : s.linkState p = .mute) (hr : s.record p = some k) (hw : k.withdraw = false) (hs : k.state ≠ .bidding) (d : Tick) :
    ∃ f, s.bidNoReply p = s.answering p (k.unanswered d true false) f := by
  by_cases ha : k.openAmendment.isSome = true
  · refine ⟨oneBit PortFlag.amended.bit, ?_⟩
    have refused : s.bidNoReply p = s.refuseAmendment p := by
      simp only [State.bidNoReply, hr, hw, Bool.false_eq_true, if_false, if_neg hs, if_pos ha]
    rw [refused, refuseAmendment_eq hr, owedReleased_mute (by rw [State.linkState, port_modPort_self]; exact hm)]
    exact modPort_congr s p (by simp [Record.unanswered, ha, Record.filter_of_open k ha])
  · have same : s.bidNoReply p = s := by
      simp only [State.bidNoReply, hr, hw, Bool.false_eq_true, if_false, if_neg hs, if_neg ha]
    rw [Bool.not_eq_true] at ha
    exact ⟨0#16, by rw [same, Record.unanswered_closed k d ha, answering_self hr]⟩

/-! ## Exchanges and requests that end on the way to MUTE -/

/-- What the entry of MUTE has done once a BID has ended, or a RENEW, or both, or the request slot is empty (R39, R68, R74, R91). -/
structure Muting (s u : State) (p : Port) (bid renew : Bool) (emptied : Prop) : Prop where
  frame : s.FrameAt u p
  link : ∃ q m, (u.port p).link = Link.muted (s.port p).link.tagCounter q m (s.port p).link.assembly ∧ (emptied → q = .empty)
  fixed : (u.port p).front.attach = (s.port p).front.attach ∧ u.mode p = s.mode p ∧ (u.port p).catalogue = (s.port p).catalogue
  free : s.record p = none → u.record p = none ∧ u.nextHandle = s.nextHandle ∧ (u.port p).contract.hold = (s.port p).contract.hold ∧
    (u.port p).contract.holdoff = (s.port p).contract.holdoff
  kept : ∀ k, s.record p = some k → ¬ (bid = true ∧ (k.withdraw = true ∨ k.state = .bidding)) →
    u.path p = s.path p ∧ u.record p = some (k.unanswered (s.ahead 2000) bid renew)
  ended : ∀ k, s.record p = some k → bid = true → (k.withdraw = true ∨ k.state = .bidding) → u.record p = none ∧
    (k.withdraw = false → (u.port p).contract.lastRetirement = some { handle := k.handle, cause := .noReply, tick := s.tick } ∧
      u.flag p .retired = true ∧ (u.port p).contract.holdoff.isSome = true)

namespace Muting

variable {bid renew : Bool} {emptied : Prop}

theorem linkState (h : s.Muting u p bid renew emptied) : u.linkState p = .mute := by
  obtain ⟨q, m, link, -⟩ := h.link
  rw [State.linkState, link]
  rfl

theorem hushed (h : s.Muting u p bid renew emptied) : u.Hushed p (u.port p).link := ⟨rfl, .inr h.linkState⟩

/-- A change of the port's link, its flags set further, and of its record as far as the record's answers go. -/
theorem edit {bid' renew' : Bool} {emptied' : Prop} (h : s.Muting u p bid renew emptied) {ko : Option Record} {l : Link} {f : Word}
    (hl : ∃ q m, l = Link.muted (s.port p).link.tagCounter q m (s.port p).link.assembly ∧ (emptied' → q = .empty))
    (hb : bid' = bid ∨ (bid' = true ∧ ∀ k, u.record p = some k → k.withdraw = false ∧ k.state ≠ .bidding))
    (hk : ∀ k, s.record p = some k → u.record p = some (k.unanswered (s.ahead 2000) bid renew) →
      ko = some (k.unanswered (s.ahead 2000) bid' renew'))
    (hn : u.record p = none → ko = none) :
    s.Muting (u.modPort p (fun x => { x with contract := { x.contract with record := ko }, link := l, flags := x.flags ||| f })) p
      bid' renew' emptied' := by
  have hport := port_modPort_self u p (fun x => { x with contract := { x.contract with record := ko }, link := l, flags := x.flags ||| f })
  obtain ⟨frame, -, ⟨hattach, hmode, hcatalogue⟩, free, kept, ended⟩ := h
  refine ⟨frame.trans (FrameAt.modPort u p _), ?_, ?_, fun hr => ?_, fun k hr hno => ?_, fun k hr hbid hends => ?_⟩
  · rw [hport]
    exact hl
  · rw [mode, hport]
    exact ⟨hattach, hmode, hcatalogue⟩
  · obtain ⟨hnone, hnext, hhold, hholdoff⟩ := free hr
    refine ⟨?_, ?_, ?_, ?_⟩
    · rw [record, hport]
      exact hn hnone
    · exact (nextHandle_modPort _ (by rw [hnone]; exact congrArg (Option.map Record.handle) (hn hnone))).trans hnext
    · rw [hport]
      exact hhold
    · rw [hport]
      exact hholdoff
  · have still : ¬ (bid = true ∧ (k.withdraw = true ∨ k.state = .bidding)) := by
      rcases hb with rfl | ⟨rfl, -⟩
      · exact hno
      · exact fun h => hno ⟨rfl, h.2⟩
    obtain ⟨hpath, hrecord⟩ := kept k hr still
    refine ⟨?_, ?_⟩
    · rw [path, hport]
      exact hpath
    · rw [record, hport]
      exact hk k hr hrecord
  · have before : bid = true := by
      rcases hb with rfl | ⟨-, hb⟩
      · exact hbid
      · by_contra hf
        obtain ⟨hw, hs⟩ := hb _ (kept k hr (fun h => hf h.1)).2
        rcases hends with h | h
        · exact absurd (hw.symm.trans h) nofun
        · exact hs h
    obtain ⟨hnone, hretired⟩ := ended k hr before hends
    refine ⟨?_, fun hw => ?_⟩
    · rw [record, hport]
      exact hn hnone
    · obtain ⟨hlast, hflag, hholdoff⟩ := hretired hw
      rw [flag, hport]
      refine ⟨hlast, ?_, hholdoff⟩
      dsimp only
      rw [flag] at hflag
      rw [BitVec.getLsbD_or, hflag, Bool.true_or]

theorem answered {bid' renew' : Bool} {k' : Record} {f : Word} (h : s.Muting u p bid renew emptied)
    (hb : bid' = bid ∨ (bid' = true ∧ ∀ k, u.record p = some k → k.withdraw = false ∧ k.state ≠ .bidding)) (hu : u.record p = some k)
    (hk : ∀ k₀, s.record p = some k₀ → k' = k₀.unanswered (s.ahead 2000) bid' renew') :
    s.Muting (u.answering p k' f) p bid' renew' emptied := by
  have same : u.answering p k' f = u.modPort p (fun x =>
      { x with contract := { x.contract with record := some k' }, link := (u.port p).link, flags := x.flags ||| f }) := modPort_congr u p rfl
  rw [same]
  exact h.edit h.link hb (fun k₀ hr _ => congrArg some (hk k₀ hr)) (fun hnone => absurd (hu.symm.trans hnone) nofun)

/-- The record at this stage is the one at the outset, with its answers. -/
theorem origin (h : s.Muting u p bid renew emptied) (hu : u.record p = some k) :
    ∃ k₀, s.record p = some k₀ ∧ k = k₀.unanswered (s.ahead 2000) bid renew := by
  cases hr : s.record p with
  | none => exact absurd ((h.free hr).1.symm.trans hu) nofun
  | some k₀ =>
    refine ⟨k₀, rfl, ?_⟩
    by_cases hends : bid = true ∧ (k₀.withdraw = true ∨ k₀.state = .bidding)
    · exact absurd ((h.ended k₀ hr hends.1 hends.2).1.symm.trans hu) nofun
    · exact Option.some.inj (hu.symm.trans (h.kept k₀ hr hends).2)

theorem ahead (h : s.Muting u p bid renew emptied) (n : Nat) : u.ahead n = s.ahead n := h.frame.ahead n

/-- Once its record is gone, a BID or RENEW that ends changes nothing. -/
theorem mark {bid' renew' : Bool} (h : s.Muting u p bid renew emptied) (hu : u.record p = none) (hb : bid = true → bid' = true)
    (hbid : ∀ k, s.record p = some k → bid = true) : s.Muting u p bid' renew' emptied := by
  obtain ⟨frame, link, fixed, free, kept, ended⟩ := h
  refine ⟨frame, link, fixed, free, fun k hr hno => ?_, fun k hr _ hends => ended k hr (hbid k hr) hends⟩
  have gone : ¬ (bid = true ∧ (k.withdraw = true ∨ k.state = .bidding)) := fun h => hno ⟨hb h.1, h.2⟩
  exact absurd (hu.symm.trans (kept k hr gone).2) nofun

theorem renewNoReply (h : s.Muting u p bid renew emptied) : s.Muting (u.renewNoReply p) p bid true emptied := by
  have mute := h.linkState
  cases hu : u.record p with
  | none =>
    have same : u.renewNoReply p = u := by simp only [State.renewNoReply, hu]
    rw [same]
    refine h.mark hu id (fun k hr => ?_)
    by_contra hf
    exact absurd (hu.symm.trans (h.kept k hr (fun g => hf g.1)).2) nofun
  | some k =>
    obtain ⟨k₀, hr, hk⟩ := h.origin hu
    obtain ⟨f, result⟩ := renewNoReply_muted mute hu
    rw [result, h.ahead, hk, Record.unanswered_renew]
    refine h.answered (.inl rfl) hu (fun k₁ hr₁ => ?_)
    rw [Option.some.inj (hr₁.symm.trans hr)]

/-- A BID that ends retires a withdrawn record or one in BIDDING (R68, R81). -/
theorem bidNoReply_retires (hu : u.record p = some k) (hends : k.withdraw = true ∨ k.state = .bidding) :
    ∃ c, (k.withdraw = false → c = .noReply ∧ failsBid k c = true) ∧ u.bidNoReply p = (u.retireCore p c false false).1 ∧
      u.RetiredAt (u.bidNoReply p) p k c false false := by
  have core (c : Cause) (hq : asksAgain (u.port p).contract.rebidCauses k c = false) :
      u.retireWith p c false false = (u.retireCore p c false false).1 := by
    have again := (retireCore_spec u p k c false false hu nofun).2
    rw [retireWith]
    exact if_neg (by rw [again, hq]; exact nofun)
  by_cases hw : k.withdraw = true
  · refine ⟨.hostRetire, fun h => absurd (h.symm.trans hw) nofun, ?_, bidNoReply_withdrawn hu hw⟩
    simp only [State.bidNoReply, hu, if_pos hw, endWithdrawn, Bool.false_and]
    exact core .hostRetire (Bool.and_false _)
  · have hs := hends.resolve_left hw
    have fails : failsBid k .noReply = true := failsBid_of_bidding hs (.inr (.inl rfl))
    refine ⟨.noReply, fun _ => ⟨rfl, fails⟩, ?_, bidNoReply_bidding hu (Bool.eq_false_iff.mpr hw) hs⟩
    simp only [State.bidNoReply, hu, if_neg hw, if_pos hs, retire]
    exact core .noReply (asksAgain_of_fails fails)

/-- The retirement of the record on the way to MUTE. -/
theorem retired (h : s.Muting u p bid renew emptied) (hu : u.record p = some k) (hends : k.withdraw = true ∨ k.state = .bidding) :
    s.Muting (u.bidNoReply p) p true renew emptied := by
  obtain ⟨c, hc, core, frame, -, lasting, -, -, -, -, -, -⟩ := bidNoReply_retires hu hends
  obtain ⟨k₀, hr, rfl⟩ := h.origin hu
  obtain ⟨q, m, link, hq⟩ := h.link
  obtain ⟨hattach, hmode, hcatalogue⟩ := h.fixed
  have retiredLink : ((u.bidNoReply p).port p).link =
      Link.muted (s.port p).link.tagCounter (q.withdraw k₀.handle) m (s.port p).link.assembly := by
    have hushed := h.hushed
    rw [link] at hushed
    rw [core]
    exact hushed.retireCore hu c false false rfl
  have gone : (u.bidNoReply p).record p = none := Option.map_eq_none_iff.mp (congrArg (fun x : PortState => x.contract.record) lasting :)
  refine ⟨h.frame.trans frame, ⟨_, m, retiredLink, fun he => by rw [hq he]; rfl⟩, ⟨?_, ?_, ?_⟩, fun hnone => absurd (hr.symm.trans hnone) nofun,
    fun k₁ hr₁ hno => ?_, fun k₁ hr₁ _ _ => ⟨gone, fun hw => ?_⟩⟩
  · exact (congrArg (fun x : PortState => x.front.attach) lasting :).trans hattach
  · exact (congrArg (fun x : PortState => x.front.mode) lasting :).trans hmode
  · exact (congrArg PortState.catalogue lasting :).trans hcatalogue
  · obtain rfl := Option.some.inj (hr.symm.trans hr₁)
    exact absurd ⟨rfl, hends⟩ hno
  · obtain rfl := Option.some.inj (hr.symm.trans hr₁)
    obtain ⟨rfl, fails⟩ := hc hw
    have slot := (congrArg PortState.contract lasting :)
    have flags : ((u.bidNoReply p).port p).flags = (u.port p).flagsRetired (k₀.unanswered (s.ahead 2000) bid renew) .noReply :=
      (congrArg PortState.flags lasting :)
    refine ⟨?_, ?_, ?_⟩
    · refine (congrArg ContractSlot.lastRetirement slot :).trans ?_
      rw [← h.frame.tick]
      rfl
    · have set := getLsbD_or_flag (u.port p).flags .retired true
      rw [if_pos rfl] at set
      rw [flag, flags, PortState.flagsRetired, BitVec.getLsbD_or, set, Bool.or_true, Bool.true_or]
    · refine (congrArg (fun x : ContractSlot => x.holdoff.isSome) slot :).trans ?_
      dsimp only [ContractSlot.retired, PortState.lasting]
      rw [if_pos fails]
      rfl

theorem bidNoReply (h : s.Muting u p bid renew emptied) : s.Muting (u.bidNoReply p) p true renew emptied := by
  cases hu : u.record p with
  | none =>
    rw [bidNoReply_none hu]
    refine h.mark hu (fun _ => rfl) (fun k hr => ?_)
    by_contra hf
    exact absurd (hu.symm.trans (h.kept k hr (fun g => hf g.1)).2) nofun
  | some k =>
    by_cases hends : k.withdraw = true ∨ k.state = .bidding
    · exact h.retired hu hends
    obtain ⟨hw, hs⟩ := not_or.mp hends
    rw [Bool.not_eq_true] at hw
    have mute := h.linkState
    obtain ⟨k₀, hr, hk⟩ := h.origin hu
    obtain ⟨f, result⟩ := bidNoReply_muted mute hu hw hs (s.ahead 2000)
    rw [result, hk, Record.unanswered_bid]
    refine h.answered (.inr ⟨rfl, fun k₁ hk₁ => ?_⟩) hu (fun k₁ hr₁ => ?_)
    · obtain rfl := Option.some.inj (hu.symm.trans hk₁)
      exact ⟨hw, hs⟩
    · rw [Option.some.inj (hr₁.symm.trans hr)]

end Muting

/-! ## The entry of MUTE -/

/-- A port whose link has just been made MUTE, its exchange ended, with a memory of it. -/
def silencing (s : State) (p : Port) (m : Option Abandoned) : State :=
  s.modPort p (fun x => { x with link := Link.muted x.link.tagCounter x.link.slot m x.link.assembly })

theorem silencing_port (s : State) (p : Port) (m : Option Abandoned) :
    (s.silencing p m).port p =
      { s.port p with link := Link.muted (s.port p).link.tagCounter (s.port p).link.slot m (s.port p).link.assembly } := port_modPort_self _ _ _

theorem silencing_muting (s : State) (p : Port) (m : Option Abandoned) : s.Muting (s.silencing p m) p false false False := by
  have hport := silencing_port s p m
  refine ⟨FrameAt.modPort s p _, ⟨_, m, by rw [hport], False.elim⟩, ?_, fun hr => ⟨?_, nextHandle_modPort _ rfl, ?_, ?_⟩,
    fun k hr _ => ⟨?_, ?_⟩, fun _ _ h => absurd h nofun⟩
  · rw [mode, hport]
    exact ⟨rfl, rfl, rfl⟩
  · rw [record, hport]
    exact hr
  · rw [hport]
  · rw [hport]
  · rw [path, hport, path]
  · rw [record, hport, Record.unanswered_none]
    exact hr

theorem bidNoReply_slot (hm : s.linkState p = .mute) :
    ((s.bidNoReply p).port p).link.slot = (s.port p).link.slot ∨ (s.bidNoReply p).record p = none := by
  cases hr : s.record p with
  | none =>
    rw [bidNoReply_none hr]
    exact .inl rfl
  | some k =>
    by_cases hends : k.withdraw = true ∨ k.state = .bidding
    · obtain ⟨c, -, -, -, -, lasting, -⟩ := Muting.bidNoReply_retires hr hends
      exact .inr (Option.map_eq_none_iff.mp (congrArg (fun x : PortState => x.contract.record) lasting :))
    · obtain ⟨hw, hs⟩ := not_or.mp hends
      obtain ⟨f, result⟩ := bidNoReply_muted hm hr (Bool.eq_false_iff.mpr hw) hs (s.ahead 2000)
      exact .inl (by rw [result, answering_link])

theorem renewNoReply_slot (hm : s.linkState p = .mute) : ((s.renewNoReply p).port p).link.slot = (s.port p).link.slot := by
  cases hr : s.record p with
  | none => simp only [renewNoReply, hr]
  | some k =>
    obtain ⟨f, result⟩ := renewNoReply_muted hm hr
    rw [result, answering_link]

/-- The entry of MUTE up to the requests that wait: the exchange in flight has ended (R39, R41). -/
def muteBegun (s : State) (p : Port) : State :=
  (s.modLink p (fun l => { l with state := .mute, openingDeadline := none, resync := none, sending := none, receiving := false })).exchangeNoReply p

theorem muteBegun_muting (s : State) (p : Port) :
    s.Muting (s.muteBegun p) p ((s.port p).link.exchange.any (fun e => e.body.isBid)) ((s.port p).link.exchange.any (fun e => e.body.isRenew))
      False ∧
      (((s.muteBegun p).port p).link.slot = (s.port p).link.slot ∨
        ((s.port p).link.exchange.any (fun e => e.body.isBid) = true ∧ (s.muteBegun p).record p = none)) := by
  have slot (m : Option Abandoned) : ((s.silencing p m).port p).link.slot = (s.port p).link.slot := by
    rw [silencing_port]
    rfl
  have mute (m : Option Abandoned) : (s.silencing p m).linkState p = .mute := (silencing_muting s p m).linkState
  unfold muteBegun
  cases he : (s.port p).link.exchange with
  | none =>
    have same : (s.modLink p (fun l => { l with state := .mute, openingDeadline := none, resync := none, sending := none, receiving := false
        })).exchangeNoReply p = s.silencing p (s.port p).link.memory := by
      simp only [exchangeNoReply, modLink_eq, port_modPort_self, he]
      exact modPort_congr s p (by rw [he]; rfl)
    rw [same]
    exact ⟨silencing_muting s p _, .inl (slot _)⟩
  | some e =>
    have flight : ((s.modLink p (fun l =>
        { l with state := .mute, openingDeadline := none, resync := none, sending := none, receiving := false })).port p).link.exchange = some e := by
      rw [modLink_eq, port_modPort_self]
      exact he
    cases hb : e.body with
    | hello =>
      have same : (s.modLink p (fun l => { l with state := .mute, openingDeadline := none, resync := none, sending := none, receiving := false
          })).exchangeNoReply p = s.silencing p (s.port p).link.memory := by
        rw [exchangeNoReply_hello flight hb, modLink_modLink]
        exact modPort_congr s p rfl
      have none : (Option.some e).any (fun e => e.body.isBid) = false ∧ (Option.some e).any (fun e => e.body.isRenew) = false := by
        simp [hb, ExchangeBody.isBid, ExchangeBody.isRenew]
      rw [same, none.1, none.2]
      exact ⟨silencing_muting s p _, .inl (slot _)⟩
    | bid b =>
      have same : ∃ m, (s.modLink p (fun l => { l with state := .mute, openingDeadline := none, resync := none, sending := none, receiving := false
          })).exchangeNoReply p = (s.silencing p m).bidNoReply p := by
        refine ⟨if b.replace then (s.port p).link.memory else some { tag := e.tag, kind := .bid, cause := .noReply }, ?_⟩
        rw [exchangeNoReply_bid flight hb, modLink_modLink]
        exact congrArg (fun w : State => w.bidNoReply p) (modPort_congr s p rfl)
      have ends : (Option.some e).any (fun e => e.body.isBid) = true ∧ (Option.some e).any (fun e => e.body.isRenew) = false := by
        simp [hb, ExchangeBody.isBid, ExchangeBody.isRenew]
      obtain ⟨m, same⟩ := same
      rw [same, ends.1, ends.2]
      refine ⟨(silencing_muting s p m).bidNoReply, ?_⟩
      exact (bidNoReply_slot (mute m)).imp (fun h => h.trans (slot m)) (fun h => ⟨rfl, h⟩)
    | renew b =>
      have same : (s.modLink p (fun l => { l with state := .mute, openingDeadline := none, resync := none, sending := none, receiving := false
          })).exchangeNoReply p = (s.silencing p (s.port p).link.memory).renewNoReply p := by
        rw [exchangeNoReply_renew flight hb, modLink_modLink]
        exact congrArg (fun w : State => w.renewNoReply p) (modPort_congr s p rfl)
      have ends : (Option.some e).any (fun e => e.body.isBid) = false ∧ (Option.some e).any (fun e => e.body.isRenew) = true := by
        simp [hb, ExchangeBody.isBid, ExchangeBody.isRenew]
      rw [same, ends.1, ends.2]
      exact ⟨(silencing_muting s p _).renewNoReply, .inl ((renewNoReply_slot (mute _)).trans (slot _))⟩

/-- The requests that wait end as well (R39). -/
theorem answerWaiting_muting {bid renew : Bool} (h : s.Muting u p bid renew False) :
    s.Muting (u.answerWaiting p) p (bid || (u.port p).link.slot.bid.isSome) (renew || (u.port p).link.slot.renew.isSome) True := by
  have emptied : s.Muting (u.modSlot p (fun _ => .empty)) p bid renew True := by
    obtain ⟨q, m, link, -⟩ := h.link
    have same : u.modSlot p (fun _ => .empty) = u.modPort p (fun x =>
        { x with
          contract := { x.contract with record := u.record p }
          link := Link.muted (s.port p).link.tagCounter .empty m (s.port p).link.assembly
          flags := x.flags ||| 0#16 }) := by
      rw [modSlot_eq]
      refine modPort_congr u p ?_
      dsimp only
      rw [BitVec.or_zero, link]
      rfl
    rw [same]
    exact h.edit ⟨_, m, rfl, fun _ => rfl⟩ (.inl rfl) (fun _ _ hu => hu) id
  unfold answerWaiting
  have renewed : s.Muting (if (u.port p).link.slot.renew.isSome then (u.modSlot p (fun _ => .empty)).renewNoReply p
      else u.modSlot p (fun _ => .empty)) p bid (renew || (u.port p).link.slot.renew.isSome) True := by
    cases (u.port p).link.slot.renew.isSome with
    | true =>
      rw [Bool.or_true]
      exact emptied.renewNoReply
    | false =>
      rw [Bool.or_false]
      exact emptied
  dsimp only
  cases (u.port p).link.slot.bid.isSome with
  | true =>
    rw [Bool.or_true]
    exact renewed.bidNoReply
  | false =>
    rw [Bool.or_false]
    exact renewed

/-- The entry of MUTE up to the asking: what the statements call the ends of BID and RENEW has come about. -/
theorem muteAnswered_muting (s : State) (p : Port) :
    s.Muting ((s.muteBegun p).answerWaiting p) p
      ((s.port p).link.exchange.any (fun e => e.body.isBid) || (s.port p).link.slot.bid.isSome)
      ((s.port p).link.exchange.any (fun e => e.body.isRenew) || (s.port p).link.slot.renew.isSome) True := by
  obtain ⟨begun, slot⟩ := muteBegun_muting s p
  have answered := answerWaiting_muting begun
  rcases slot with slot | ⟨ends, gone⟩
  · rwa [slot] at answered
  · rw [ends, Bool.true_or] at answered ⊢
    refine answered.mark ?_ id (fun _ _ => rfl)
    cases hr : s.record p with
    | none => exact (answered.free hr).1
    | some k =>
      refine (answered.ended k hr rfl ?_).1
      by_contra hends
      exact absurd (gone.symm.trans (begun.kept k hr (fun h => hends h.2)).2) nofun

/-- The port as MUTE is entered, before the asking. -/
def muteEntered (s : State) (p : Port) : State :=
  ((s.muteBegun p).answerWaiting p).modPort p (fun x =>
    { x with link := { x.link with memory := none, assembly := none }, flags := x.flags ||| oneBit PortFlag.link.bit })

theorem enterMute_eq (s : State) (p : Port) : s.enterMute p = (s.muteEntered p).asking p := by
  unfold enterMute muteEntered muteBegun
  dsimp only
  rw [modLink_eq _ _ (fun l => { l with memory := none, assembly := none }), setFlag_eq, modPort_modPort]

/-- On a MUTE link an asking leaves the link alone (R58). -/
theorem asking_mute_link (hm : s.linkState p = .mute) : ((s.asking p).port p).link = (s.port p).link := by
  by_cases may : s.MayBid p
  · rw [asking_bids s p may, askingTerms_mute s p hm]
    split
    · next b hb =>
      have madeLocally : s.freshBid p b = s.localBid p b.current := by
        split at hb
        · rw [← Option.some.inj hb]
          rfl
        · cases hb
      rw [madeLocally, localBid_eq, port_modPort_self]
      rfl
    · rfl
  · rw [asking_idle s p may]

end State

open State

/-- Settles O30: every exchange and request ends unanswered, the link is silent, and the asking follows. -/
theorem linkBecomesMute : Obligations.LinkBecomesMute := by
  intro s p c l hc bidEnds renewEnds
  have enters : exec c s = .next (s.enterMute p) := by
    rcases hc with ⟨rfl, hopen, hdue⟩ | ⟨rfl, r, hr, hphase, hreach, hbreaks⟩
    · exact congrArg Host.Outcome.next (if_pos (Bool.and_eq_true_iff.mpr ⟨hopen, hdue⟩))
    · refine congrArg Host.Outcome.next ?_
      simp only [idleWaitExpiry, show (s.port p).link.resync = some r from hr, hphase, hreach, and_self, if_true, if_pos hbreaks]
  have frame := (enterMute_moves s p).frameAt
  obtain ⟨-, ⟨q, m, link, hq⟩, ⟨hattach, hmode, hcatalogue⟩, free, kept, ended⟩ := muteAnswered_muting s p
  have hport : (s.muteEntered p).port p = _ := port_modPort_self _ _ _
  have next : (s.muteEntered p).nextHandle = ((s.muteBegun p).answerWaiting p).nextHandle := nextHandle_modPort _ rfl
  rw [enterMute_eq] at enters frame
  generalize (s.muteBegun p).answerWaiting p = u at *
  generalize s.muteEntered p = v at *
  obtain ⟨r, a, b, asked⟩ := asking_port_self v p
  have silent : (v.port p).link = l.silenced .mute := by
    rw [hport]
    dsimp only
    rw [link, hq trivial]
    rfl
  have mute : v.linkState p = .mute := by
    rw [linkState, silent]
    rfl
  refine ⟨_, enters, frame, (asking_mute_link mute).trans silent, ?_, ?_, ?_, ?_, fun k hr hl hw => ?_, fun k hr hs hw hb => ?_, fun hr => ?_⟩
  · rw [flag, asked, hport]
    exact (getLsbD_or_flag _ .link true).trans (Bool.or_true _)
  · rw [asked, hport]
    exact hattach
  · rw [mode, asked, hport]
    exact hmode
  · rw [asked, hport]
    exact hcatalogue
  · have stays : ¬ (bidEnds = true ∧ (k.withdraw = true ∨ k.state = .bidding)) := by
      rintro ⟨-, h | h⟩
      · exact absurd (hw.symm.trans h) nofun
      · rw [Record.live, h] at hl
        cases hl
    obtain ⟨hpath, hrecord⟩ := kept k hr stays
    have held : v.record p = some (k.unanswered (s.ahead 2000) bidEnds renewEnds) := by
      rw [record, hport]
      exact hrecord
    rw [asking_held held]
    refine ⟨?_, _, held, rfl, rfl, rfl⟩
    rw [path, hport]
    exact hpath
  · obtain ⟨hnone, hretired⟩ := ended k hr hb (.inr hs)
    obtain ⟨hlast, hflag, hholdoff⟩ := hretired hw
    have idle : ¬ v.MayBid p := fun may => by
      have free := may.2.2.2.2.1
      rw [hport] at free
      rw [free] at hholdoff
      cases hholdoff
    rw [asking_idle _ _ idle]
    refine ⟨?_, ?_, ?_⟩
    · rw [record, hport]
      exact hnone
    · rw [hport]
      exact hlast
    · rw [flag] at hflag
      rw [flag, hport]
      dsimp only
      rw [BitVec.getLsbD_or, hflag, Bool.true_or]
  · obtain ⟨hnone, hnext, hhold, hholdoff⟩ := free hr
    have none : v.record p = none := by
      rw [record, hport]
      exact hnone
    obtain ⟨stands, idle⟩ := asking_free none
    have may : v.MayBid p ↔ s.mode p = .auto ∧ (s.port p).front.attach = .present ∧ (s.port p).contract.hold = false ∧
        (s.port p).contract.holdoff = Option.none := by
      have fields : v.mode p = s.mode p ∧ (v.port p).front.attach = (s.port p).front.attach ∧
          (v.port p).contract.hold = (s.port p).contract.hold ∧ (v.port p).contract.holdoff = (s.port p).contract.holdoff := by
        rw [mode, hport]
        exact ⟨hmode, hattach, hhold, hholdoff⟩
      simp only [MayBid, fields, none, mute, or_true, and_true, true_and]
    rw [next, hnext] at stands
    exact ⟨fun asks => stands (may.mpr asks), fun no => idle (fun h => no (may.mp h))⟩

end Sys2Proof.Machine
end

section
/-! PROOF. What the check and the base-tier test make of a live record, and a catalogue taken in (O33). -/

namespace Sys2Proof.Machine
open Sys2Proof

namespace Record

variable {k : Record}

/-- An automatic amendment of the record goes out at once over a link that carries it (R73). -/
def amendable (k : Record) : Bool := k.amendment.isNone && !k.renewing && !k.withdraw

theorem amendable_iff : k.amendable = true ↔ k.amendment = none ∧ k.renewing = false ∧ k.withdraw = false := by
  simp only [amendable, Bool.and_eq_true, Bool.not_eq_true', Option.isNone_iff_eq_none, and_assoc]

/-- The record with an automatic amendment asked for a cause: pending, or owed (R73). -/
def askedFor (k : Record) (c : AmendCause) (a : Amendment) : Record :=
  if k.amendable then { k with amendment := some a, refused := false, owed := false, owedStale := false, owedBase := false } else k.owe c

/-- The record after the check (R52). -/
def checked (k : Record) (backed : Bool) : Record := if backed then k.notStale else { k with stale := true }

theorem checked_stale (k : Record) (b : Bool) : (k.checked b).stale = !b := by cases b <;> rfl

theorem checked_amendable (k : Record) (b : Bool) : (k.checked b).amendable = k.amendable := by cases b <;> rfl

theorem checked_handle (k : Record) (b : Bool) : (k.checked b).handle = k.handle := by cases b <;> rfl

theorem checked_tier (k : Record) (b : Bool) : (k.checked b).tier = k.tier := by cases b <;> rfl

theorem checked_live (k : Record) (b : Bool) : (k.checked b).live = k.live := by cases b <;> rfl

theorem askedFor_unmarked (k : Record) (c : AmendCause) (a : Amendment) : (k.askedFor c a).unmarked = k.unmarked := by
  unfold askedFor
  split
  · rfl
  · cases c <;> rfl

/-- A record that has been asked takes no other amendment at once. -/
theorem askedFor_amendable (k : Record) (c : AmendCause) (a : Amendment) : (k.askedFor c a).amendable = false := by
  unfold askedFor
  split
  · rfl
  · next h =>
    rw [Bool.not_eq_true] at h
    cases c <;> exact h

theorem askedFor_fixed (k : Record) (c : AmendCause) (a : Amendment) :
    (k.askedFor c a).live = k.live ∧ (k.askedFor c a).tier = k.tier ∧ (k.askedFor c a).stale = k.stale := by
  unfold askedFor
  split
  · exact ⟨rfl, rfl, rfl⟩
  · cases c <;> exact ⟨rfl, rfl, rfl⟩

/-- The record after both tests, with the terms an automatic amendment takes (R53, R73): the check asks first (log 33). -/
def tested (k : Record) (backed : Bool) (raises : Bool) (a : Amendment) : Record :=
  let k₁ := if backed then k.notStale else ({ k with stale := true }).askedFor .staleTier a
  if raises then k₁.askedFor .baseTier a else k₁

end Record

namespace State

variable {s t u : State} {p : Port} {k k' : Record} {b : Terms}

/-- A port with another record and another waiting BID. -/
def remarking (s : State) (p : Port) (k : Record) (r : Option BidRequest) : State :=
  s.modPort p (fun u =>
    { u with contract := { u.contract with record := some k }, link := { u.link with slot := { u.link.slot with bid := r } } })

section Remarking

variable (s : State) (p : Port) (k : Record) (r : Option BidRequest)

theorem remarking_port : (s.remarking p k r).port p =
    { s.port p with
      contract := { (s.port p).contract with record := some k }
      link := { (s.port p).link with slot := { (s.port p).link.slot with bid := r } } } := port_modPort_self _ _ _

theorem remarking_record : (s.remarking p k r).record p = some k := by rw [record, remarking_port]

theorem remarking_linkUsable : (s.remarking p k r).linkUsable p = s.linkUsable p := by
  rw [linkUsable, linkState, remarking_port, linkUsable, linkState]

theorem remarking_mode : (s.remarking p k r).mode p = s.mode p := by rw [mode, remarking_port, mode]

theorem remarking_autoChoice : (s.remarking p k r).autoChoice p = s.autoChoice p := autoChoice_congr p rfl (by rw [remarking_port])

theorem remarking_remarking (k' : Record) (r' : Option BidRequest) : (s.remarking p k r).remarking p k' r' = s.remarking p k' r' :=
  modPort_modPort _ _ _ _

theorem setRecord_remarking : s.setRecord p (some k) = s.remarking p k (s.port p).link.slot.bid :=
  (setRecord_eq s p _).trans (modPort_congr s p rfl)

end Remarking

/-- The BID that waits once an automatic amendment is asked (R72, R73). -/
def bidAsked (s : State) (p : Port) (k : Record) (b : Terms) : Option BidRequest :=
  if k.amendable then some (s.bidFrame k.handle true b) else (s.port p).link.slot.bid

theorem askAmendment_live (hr : s.record p = some k) (hl : k.live = true) (hu : s.linkUsable p = true) (c : AmendCause) (b : Terms) :
    s.askAmendment p c b = s.remarking p (k.askedFor c (s.pendingAmendment b .auto)) (s.bidAsked p k b) := by
  have can : s.canAmend p k = k.amendable := by
    rw [canAmend, Record.amendable, hl, hu, Bool.true_and, Bool.and_true]
  simp only [askAmendment, hr, can]
  unfold Record.askedFor bidAsked
  by_cases h : k.amendable = true
  · rw [if_pos h, if_pos h, if_pos h, sendAmendment_auto s p b hr hu]
    rfl
  · rw [if_neg h, if_neg h, if_neg h, setRecord_remarking]

theorem bidAsked_remarking (s : State) (p : Port) (k k' : Record) (r : Option BidRequest) (b : Terms) :
    (s.remarking p k r).bidAsked p k' b = if k'.amendable then some (s.bidFrame k'.handle true b) else r := by
  rw [bidAsked, remarking_port]
  rfl

/-- The terms that an automatic amendment of the port's record would take now (R73). -/
def amendTerms (s : State) (p : Port) : Option Terms := if s.mode p = .auto then s.autoChoice p else none

theorem amendTerms_eq_some : s.amendTerms p = some b ↔ s.mode p = .auto ∧ s.autoChoice p = some b := by
  unfold amendTerms
  split
  · simp [*]
  · simp [*]

theorem remarking_amendTerms (s : State) (p : Port) (k : Record) (r : Option BidRequest) :
    (s.remarking p k r).amendTerms p = s.amendTerms p := by
  rw [amendTerms, remarking_mode, remarking_autoChoice, amendTerms]

/-! ## The check -/

theorem checkRecord_backed (hr : s.record p = some k) (hl : k.live = true) (hb : s.backed p k = true) :
    s.checkRecord p = s.remarking p k.notStale (s.port p).link.slot.bid := by
  simp only [checkRecord, hr, hl, hb, Bool.not_true, Bool.false_eq_true, if_false, if_true, setRecord_remarking]

/-- A failed check asks an automatic amendment, or only marks the record (R53). -/
theorem checkRecord_failed (hr : s.record p = some k) (hl : k.live = true) (hb : s.backed p k = false) (hu : s.linkUsable p = true) :
    s.checkRecord p = match s.amendTerms p with
      | some b => s.remarking p (({ k with stale := true }).askedFor .staleTier (s.pendingAmendment b .auto)) (s.bidAsked p k b)
      | none => s.remarking p { k with stale := true } (s.port p).link.slot.bid := by
  have stale : s.checkRecord p = match (s.setRecord p (some { k with stale := true })).amendTerms p with
      | some b => (s.setRecord p (some { k with stale := true })).askAmendment p .staleTier b
      | none => s.setRecord p (some { k with stale := true }) := by
    simp only [checkRecord, hr, hl, hb, Bool.not_true, Bool.false_eq_true, if_false, amendTerms]
    by_cases hm : (s.setRecord p (some { k with stale := true })).mode p = .auto
    · simp only [if_pos hm] <;> rfl
    · simp only [if_neg hm]
  rw [stale, setRecord_remarking, remarking_amendTerms]
  cases s.amendTerms p with
  | none => rfl
  | some b =>
    dsimp only
    rw [askAmendment_live (k := { k with stale := true }) (remarking_record _ _ _ _) hl ((remarking_linkUsable _ _ _ _).trans hu), remarking_remarking]
    refine congrArg (s.remarking p _) ?_
    exact bidAsked_remarking _ _ _ _ _ _

/-! ## The base-tier test -/

theorem baseTierTest_live (hr : s.record p = some k) (hl : k.live = true) (hu : s.linkUsable p = true)
    (hc : (s.port p).catalogue.held = true) :
    s.baseTierTest p = match s.amendTerms p with
      | some b =>
        if k.tier = 0 ∧ b.tier ≠ 0 then s.remarking p (k.askedFor .baseTier (s.pendingAmendment b .auto)) (s.bidAsked p k b) else s
      | none => s := by
  simp only [baseTierTest, hr, hl, hc, Bool.true_and, Bool.and_true, amendTerms]
  by_cases hm : s.mode p = .auto
  · by_cases ht : k.tier = 0
    · simp only [hm, ht, decide_true, Bool.and_self, if_true, true_and]
      cases s.autoChoice p with
      | none => rfl
      | some b =>
        dsimp only
        rw [ite_not, askAmendment_live hr hl hu]
    · simp only [hm, ht, decide_false, Bool.false_and, Bool.false_eq_true, if_false, if_true, false_and]
      cases s.autoChoice p <;> rfl
  · simp only [hm, decide_false, Bool.and_false, Bool.false_eq_true, if_false]

/-- The BID that waits after both tests. -/
def bidTested (s : State) (p : Port) (k : Record) (b : Terms) (asks : Bool) : Option BidRequest :=
  if k.amendable && asks then some (s.bidFrame k.handle true b) else (s.port p).link.slot.bid

/-- Both tests without terms for an amendment: the check marks the record. -/
theorem tests_marked (hr : s.record p = some k) (hl : k.live = true) (hu : s.linkUsable p = true) (hc : (s.port p).catalogue.held = true)
    (hw : s.amendTerms p = none) :
    (s.checkRecord p).baseTierTest p = s.remarking p (k.checked (s.backed p k)) (s.port p).link.slot.bid := by
  have first : s.checkRecord p = s.remarking p (k.checked (s.backed p k)) (s.port p).link.slot.bid := by
    cases hb : s.backed p k with
    | true => exact checkRecord_backed hr hl hb
    | false =>
      rw [checkRecord_failed hr hl hb hu, hw]
      rfl
  rw [first, baseTierTest_live (remarking_record _ _ _ _) ((k.checked_live _).trans hl) ((remarking_linkUsable _ _ _ _).trans hu)
    (by rw [remarking_port]; exact hc), remarking_amendTerms, hw]

/-- Both tests with terms for an amendment (R53, R73; log 33). -/
theorem tests_asked (hr : s.record p = some k) (hl : k.live = true) (hu : s.linkUsable p = true) (hc : (s.port p).catalogue.held = true)
    (hw : s.amendTerms p = some b) :
    (s.checkRecord p).baseTierTest p =
      s.remarking p (k.tested (s.backed p k) (k.tier = 0 && b.tier ≠ 0) (s.pendingAmendment b .auto))
        (s.bidTested p k b (!s.backed p k || (k.tier = 0 && b.tier ≠ 0))) := by
  have second {k₁ : Record} {r : Option BidRequest} (h₁ : k₁.live = true) (ht : k₁.tier = k.tier) :
      (s.remarking p k₁ r).baseTierTest p =
        if k.tier = 0 ∧ b.tier ≠ 0 then
          s.remarking p (k₁.askedFor .baseTier (s.pendingAmendment b .auto)) (if k₁.amendable then some (s.bidFrame k₁.handle true b) else r)
        else s.remarking p k₁ r := by
    rw [baseTierTest_live (remarking_record _ _ _ _) h₁ ((remarking_linkUsable _ _ _ _).trans hu) (by rw [remarking_port]; exact hc),
      remarking_amendTerms, hw]
    dsimp only
    rw [remarking_remarking, bidAsked_remarking, ht]
    rfl
  have raises : (decide (k.tier = 0) && decide (b.tier ≠ 0)) = decide (k.tier = 0 ∧ b.tier ≠ 0) := (Bool.decide_and _ _).symm
  unfold Record.tested bidTested
  rw [raises]
  cases hb : s.backed p k with
  | true =>
    rw [checkRecord_backed hr hl hb, second (k₁ := k.notStale) hl rfl]
    by_cases h : k.tier = 0 ∧ b.tier ≠ 0
    · rw [if_pos h, decide_eq_true h, Bool.not_true, Bool.false_or, Bool.and_true]
      rfl
    · rw [if_neg h, decide_eq_false h, Bool.not_true, Bool.false_or, Bool.and_false]
      rfl
  | false =>
    obtain ⟨hlive, htier, -⟩ := Record.askedFor_fixed { k with stale := true } .staleTier (s.pendingAmendment b .auto)
    have first : s.checkRecord p = s.remarking p (({ k with stale := true }).askedFor .staleTier (s.pendingAmendment b .auto))
        (s.bidAsked p k b) := by
      rw [checkRecord_failed hr hl hb hu, hw]
    rw [first, second (hlive.trans hl) htier, Record.askedFor_amendable]
    by_cases h : k.tier = 0 ∧ b.tier ≠ 0
    · rw [if_pos h, decide_eq_true h, Bool.not_false, Bool.true_or, Bool.and_true]
      rfl
    · rw [if_neg h, decide_eq_false h, Bool.not_false, Bool.true_or, Bool.and_true]
      rfl

end State

end Sys2Proof.Machine
end

section
/-! PROOF. A catalogue taken in (O33). -/

namespace Sys2Proof.Machine
open Sys2Proof

namespace Record

variable {k : Record} {ok raises : Bool} {a : Amendment}

theorem askedFor_free (h : k.amendable = true) (c : AmendCause) (a : Amendment) :
    k.askedFor c a = { k with amendment := some a, refused := false, owed := false, owedStale := false, owedBase := false } := if_pos h

theorem askedFor_busy (h : k.amendable = false) (c : AmendCause) (a : Amendment) : k.askedFor c a = k.owe c :=
  if_neg (by rw [h]; exact nofun)

theorem tested_stale (k : Record) (ok raises : Bool) (a : Amendment) : (k.tested ok raises a).stale = !ok := by
  have first : (if ok then k.notStale else ({ k with stale := true }).askedFor .staleTier a).stale = !ok := by
    cases ok with
    | true => rfl
    | false => exact (askedFor_fixed { k with stale := true } .staleTier a).2.2
  unfold tested
  cases raises with
  | true => exact (askedFor_fixed _ .baseTier a).2.2.trans first
  | false => exact first

theorem tested_calm (k : Record) (a : Amendment) : k.tested true false a = k.notStale := rfl

/-- A test that asks gives a record that can take it the amendment; a second one that asks is owed (log 33). -/
theorem tested_free (h : k.amendable = true) (hasks : (!ok || raises) = true) :
    (k.tested ok raises a).amendment = some a ∧ (k.tested ok raises a).owed = (!ok && raises) ∧ (k.tested ok raises a).owedStale = false ∧
      (k.tested ok raises a).owedBase = (!ok && raises) ∧ (k.tested ok raises a).refused = false := by
  cases ok with
  | true =>
    cases raises with
    | false => cases hasks
    | true =>
      have same : k.tested true true a = k.notStale.askedFor .baseTier a := rfl
      rw [same, askedFor_free (k := k.notStale) h]
      exact ⟨rfl, rfl, rfl, rfl, rfl⟩
  | false =>
    have first := askedFor_free (k := { k with stale := true }) h .staleTier a
    cases raises with
    | false =>
      have same : k.tested false false a = ({ k with stale := true }).askedFor .staleTier a := rfl
      rw [same, first]
      exact ⟨rfl, rfl, rfl, rfl, rfl⟩
    | true =>
      have same : k.tested false true a = (({ k with stale := true }).askedFor .staleTier a).askedFor .baseTier a := rfl
      rw [same, askedFor_busy (askedFor_amendable _ _ _), first]
      exact ⟨rfl, rfl, rfl, rfl, rfl⟩

/-- On a record that cannot take an amendment the tests that ask leave it owed, each with its cause. -/
theorem tested_busy (h : k.amendable = false) (hasks : (!ok || raises) = true) :
    (k.tested ok raises a).amendment = k.amendment ∧ (k.tested ok raises a).owed = true ∧ (k.tested ok raises a).owedStale = (!ok) ∧
      (k.tested ok raises a).owedBase = (k.owedBase || raises) ∧ (k.tested ok raises a).refused = k.refused := by
  cases ok with
  | true =>
    cases raises with
    | false => cases hasks
    | true =>
      have same : k.tested true true a = k.notStale.askedFor .baseTier a := rfl
      rw [same, askedFor_busy (k := k.notStale) h]
      exact ⟨rfl, rfl, rfl, (Bool.or_true _).symm, rfl⟩
  | false =>
    have first := askedFor_busy (k := { k with stale := true }) h .staleTier a
    cases raises with
    | false =>
      have same : k.tested false false a = ({ k with stale := true }).askedFor .staleTier a := rfl
      rw [same, first]
      exact ⟨rfl, rfl, rfl, (Bool.or_false _).symm, rfl⟩
    | true =>
      have same : k.tested false true a = (({ k with stale := true }).askedFor .staleTier a).askedFor .baseTier a := rfl
      rw [same, askedFor_busy (askedFor_amendable _ _ _), first]
      exact ⟨rfl, rfl, rfl, (Bool.or_true _).symm, rfl⟩

theorem checked_marks (k : Record) (ok : Bool) :
    (k.checked ok).amendment = k.amendment ∧ (k.checked ok).owed = k.owed ∧
      (k.checked ok).owedStale = (k.owedStale && (k.checked ok).stale) ∧ (k.checked ok).owedBase = k.owedBase ∧
      (k.checked ok).refused = k.refused := by
  cases ok with
  | true => exact ⟨rfl, rfl, (Bool.and_false _).symm, rfl, rfl⟩
  | false => exact ⟨rfl, rfl, (Bool.and_true _).symm, rfl, rfl⟩

end Record

/-- An exchange in flight is the HELLO of a tag. -/
def Link.flies (l : Link) (tag : Tag) : Bool := l.exchange.any (fun e => e.tag = tag && e.body.isHello)

theorem Link.flies_iff (l : Link) (tag : Tag) : l.flies tag = true ↔ ∃ e, l.exchange = some e ∧ e.body = .hello ∧ e.tag = tag := by
  unfold flies
  cases l.exchange with
  | none => simp
  | some e => simp [ExchangeBody.isHello_iff, and_comm]

/-- A link once the last part of an assembly has come (R27, R31, R41). -/
def Link.assembled (l : Link) (tag : Tag) : Link :=
  if l.flies tag then { l with exchange := none, state := .ready, openingDeadline := none, receiving := false, assembly := none }
  else { l with receiving := false, assembly := none }

theorem Link.assembled_answers {l : Link} {tag : Tag} (h : l.flies tag = true) :
    l.assembled tag = { l with exchange := none, state := .ready, openingDeadline := none, receiving := false, assembly := none } := if_pos h

theorem Link.assembled_other {l : Link} {tag : Tag} (h : l.flies tag = false) :
    l.assembled tag = { l with receiving := false, assembly := none } := if_neg (by rw [h]; exact nofun)

/-- An answer that is not the HELLO's leaves the exchange in flight. -/
theorem Link.helloMoved_other {l : Link} {tag : Tag} (h : l.flies tag = false) (d : Tick) : l.helloMoved tag d = l := by
  have same : l.exchange.map (fun e =>
      if e.body = .hello ∧ e.tag = tag ∧ e.deadline.isSome = true then { e with deadline := some d } else e) = l.exchange := by
    cases he : l.exchange with
    | none => rfl
    | some e =>
      refine congrArg some (if_neg (fun hello => ?_))
      have flies := (l.flies_iff tag).mpr ⟨e, he, hello.1, hello.2.1⟩
      rw [h] at flies
      cases flies
  rw [helloMoved, same]

namespace State

variable {s t u : State} {p : Port} {k k' : Record} {b : Terms} {tag : Tag}

theorem completeAssembly_eq (s : State) (p : Port) (tag : Tag) (g : List (BitVec 2 × RawEntry)) :
    ((s.heard p).modLink p (fun l => { l.helloMoved tag (s.ahead 25) with assembly := none })).completeAssembly p tag g =
      (s.modPort p (fun u => { u with link := u.link.assembled tag })).takeCatalogue p g := by
  have joined : (s.heard p).modLink p (fun l => { l.helloMoved tag (s.ahead 25) with assembly := none }) =
      s.modPort p (fun u => { u with link := { u.link.helloMoved tag (s.ahead 25) with receiving := false, assembly := none } }) := by
    rw [heard, modLink_eq, modPort_modPort]
    rfl
  have matched : (s.modPort p (fun u =>
      { u with link := { u.link.helloMoved tag (s.ahead 25) with receiving := false, assembly := none } })).matchesExchange p tag ExchangeBody.isHello =
      (s.port p).link.flies tag := by
    rw [matchesExchange, port_modPort_self]
    unfold Link.flies
    dsimp only [Link.helloMoved]
    cases (s.port p).link.exchange with
    | none => rfl
    | some e =>
      dsimp only [Option.map_some]
      split
      · rfl
      · rfl
  rw [joined, completeAssembly, matched]
  refine congrArg (fun w : State => w.takeCatalogue p g) ?_
  by_cases h : (s.port p).link.flies tag = true
  · rw [if_pos h, modLink_eq, modPort_modPort]
    exact modPort_congr s p (by rw [Link.assembled_answers h]; rfl)
  · rw [Bool.not_eq_true] at h
    refine (if_neg (by rw [h]; exact nofun)).trans (modPort_congr s p ?_)
    rw [Link.assembled_other h, Link.helloMoved_other h]

/-- The last part of a whole catalogue hands its entries to the tier catalogue (R27). -/
theorem exec_tiersPart_whole {scale : BitVec 2} {total : BitVec 3} {index : BitVec 2} {entries : List RawEntry}
    {g : List (BitVec 2 × RawEntry)} (hh : s.hears p = true) (ok : bodyFieldsOk (.tiers scale total index true entries) = true)
    (hg : (index = 0 ∧ g = entries.map (fun e => (scale, e))) ∨
      (index ≠ 0 ∧ ∃ a, (s.port p).link.assembly = some a ∧ a.tag = tag ∧ a.next = index.toNat ∧
        g = a.entries ++ entries.map (fun e => (scale, e))))
    (hlen : g.length = total.toNat) :
    exec (.tiersPart p false tag scale total index true entries) s =
      .next ((s.modPort p (fun u => { u with link := u.link.assembled tag })).takeCatalogue p g) := by
  have whole : gathered ((s.heard p).port p).link tag index (entries.map (fun e => (scale, e))) = some g := by
    rw [heard_port_self, gathered]
    rcases hg with ⟨hi, rfl⟩ | ⟨hi, a, ha, ht, hn, rfl⟩
    · exact if_pos hi
    · refine (if_neg hi).trans ?_
      dsimp only
      rw [ha, Option.filter_some, decide_eq_true ⟨ht, hn⟩]
      rfl
  rw [exec_tiersPart hh ok, onTiersPart_last whole, if_pos hlen]
  exact congrArg Host.Outcome.next (completeAssembly_eq s p tag g)

/-- A port once a catalogue has been taken in, before the asking: its link, its catalogue, its record, the waiting BID and TIERS. -/
def catalogued (s : State) (p : Port) (l : Link) (c : Catalogue) (ko : Option Record) (r : Option BidRequest) : State :=
  s.modPort p (fun u =>
    { u with
      link := { l with slot := { l.slot with bid := r } }
      catalogue := c
      contract := { u.contract with record := ko }
      flags := u.flags ||| oneBit PortFlag.tiers.bit })

theorem catalogued_port (s : State) (p : Port) (l : Link) (c : Catalogue) (ko : Option Record) (r : Option BidRequest) :
    (s.catalogued p l c ko r).port p =
      { s.port p with
        link := { l with slot := { l.slot with bid := r } }
        catalogue := c
        contract := { (s.port p).contract with record := ko }
        flags := (s.port p).flags ||| oneBit PortFlag.tiers.bit } := port_modPort_self _ _ _

/-- What the taking in of a catalogue leaves, the asking done. -/
structure CataloguedAt (s t : State) (p : Port) (l : Link) (c : Catalogue) : Prop where
  frame : s.FrameAt t p
  tiers : t.flag p .tiers = true
  link : (t.port p).link.assembly = l.assembly ∧ t.linkState p = l.state ∧ (t.port p).link.exchange = l.exchange ∧
    (t.port p).link.openingDeadline = l.openingDeadline
  catalogue : (t.port p).catalogue = c
  free : s.record p = none →
    let asks : Prop := s.mode p = .auto ∧ (s.port p).front.attach = .present ∧ (s.port p).contract.hold = false ∧
      (s.port p).contract.holdoff = none
    (asks → t.BidStands p s.nextHandle) ∧ (¬asks → t.record p = none)

theorem asking_catalogued {l : Link} {c : Catalogue} {ko : Option Record} {r : Option BidRequest} (hc : c.held = true)
    (hk : ko.map Record.unmarked = (s.record p).map Record.unmarked) :
    s.CataloguedAt ((s.catalogued p l c ko r).asking p) p l c := by
  have hport := catalogued_port s p l c ko r
  have handles : ko.map Record.handle = (s.record p).map Record.handle := by
    have factor (o : Option Record) : o.map Record.handle = (o.map Record.unmarked).map Record.handle := by
      rw [Option.map_map]
      rfl
    rw [factor, hk, ← factor]
  have next : (s.catalogued p l c ko r).nextHandle = s.nextHandle := nextHandle_modPort _ handles
  have frame : s.FrameAt (s.catalogued p l c ko r) p := FrameAt.modPort s p _
  generalize s.catalogued p l c ko r = x at *
  obtain ⟨r', a, q, asked⟩ := asking_port_self x p
  refine ⟨frame.trans (asking_frameAt x p), ?_, ?_, ?_, fun hr => ?_⟩
  · rw [flag, asked, hport]
    exact (getLsbD_or_flag _ .tiers true).trans (Bool.or_true _)
  · rw [linkState, asked, hport]
    exact ⟨rfl, rfl, rfl, rfl⟩
  · rw [asked, hport]
    rfl
  · have free : x.record p = none := by
      rw [record, hport]
      rw [hr] at hk
      exact Option.map_eq_none_iff.mp hk
    obtain ⟨stands, idle⟩ := asking_free free
    have may : x.MayBid p ↔ s.mode p = .auto ∧ (s.port p).front.attach = .present ∧ (s.port p).contract.hold = false ∧
        (s.port p).contract.holdoff = none := by
      simp only [MayBid, free, mode, hport, hc, true_or, and_true, true_and]
    rw [next] at stands
    exact ⟨fun asks => stands (may.mpr asks), fun no => idle (fun h => no (may.mp h))⟩

/-- The catalogue of a port after a list of tiers with nothing wrong (R46). -/
def acceptedCatalogue (s : State) (p : Port) (tiers : List Tier) : Catalogue :=
  { (s.port p).catalogue with
    offered := sortTiers tiers, held := true, arrival := some s.time, outcome := some { rejected := none, tick := s.tick } }

/-- The port as the check begins: the HELLO answered and the catalogue in place. -/
def accepting (s : State) (p : Port) (l : Link) (c : Catalogue) : State := s.modPort p (fun u => { u with link := l, catalogue := c })

theorem accepting_port (s : State) (p : Port) (l : Link) (c : Catalogue) :
    (s.accepting p l c).port p = { s.port p with link := l, catalogue := c } := port_modPort_self _ _ _

theorem rejectCatalogue_eq (s : State) (p : Port) (tag : Tag) (x : RejectReason) :
    (s.modPort p (fun u => { u with link := u.link.assembled tag })).rejectCatalogue p x =
      (s.catalogued p ((s.port p).link.assembled tag)
        { (s.port p).catalogue with held := true, outcome := some { rejected := some x, tick := s.tick } } (s.record p)
        ((s.port p).link.assembled tag).slot.bid).asking p := by
  unfold rejectCatalogue
  dsimp only
  rw [modCatalogue_eq, setFlag_eq, modPort_modPort, modPort_modPort]
  exact congrArg (fun w : State => w.asking p) (modPort_congr s p rfl)

theorem acceptCatalogue_eq (s : State) (p : Port) (tag : Tag) (tiers : List Tier) :
    (s.modPort p (fun u => { u with link := u.link.assembled tag })).acceptCatalogue p tiers =
      ((((s.accepting p ((s.port p).link.assembled tag) (s.acceptedCatalogue p tiers)).checkRecord p).baseTierTest p).setFlag p .tiers).asking
        p := by
  unfold acceptCatalogue
  dsimp only
  rw [modCatalogue_eq, modPort_modPort]
  exact congrArg (fun w : State => (((w.checkRecord p).baseTierTest p).setFlag p .tiers).asking p) (modPort_congr s p rfl)

theorem accepting_remarking (s : State) (p : Port) (l : Link) (c : Catalogue) (k : Record) (r : Option BidRequest) :
    ((s.accepting p l c).remarking p k r).setFlag p .tiers = s.catalogued p l c (some k) r := by
  rw [setFlag_eq, remarking, accepting, modPort_modPort, modPort_modPort]
  rfl

/-- After both tests the port is catalogued, whatever its record. -/
theorem tests_catalogued (s : State) (p : Port) (l : Link) (c : Catalogue) :
    ∃ ko r, (((s.accepting p l c).checkRecord p).baseTierTest p).setFlag p .tiers = s.catalogued p l c ko r ∧
      ko.map Record.unmarked = (s.record p).map Record.unmarked := by
  obtain ⟨ko, r, hko, same⟩ := (Remarked.checkRecord (s.accepting p l c) p).trans (Remarked.baseTierTest _ p)
  refine ⟨ko, r, ?_, ?_⟩
  · rw [same, setFlag_eq, accepting, modPort_modPort, modPort_modPort]
    rfl
  · rw [record, accepting_port] at hko
    exact hko

/-- A record that is not live passes both tests by (R52, R73). -/
theorem tests_aside (hr : s.record p = some k) (hl : k.live = false) : (s.checkRecord p).baseTierTest p = s := by
  have unchecked : s.checkRecord p = s := by simp only [checkRecord, hr, hl, Bool.not_false, if_true]
  rw [unchecked]
  simp only [baseTierTest, hr, hl, Bool.false_and, Bool.false_eq_true, if_false]

/-- The catalogue backs the record's granted terms (R52). -/
theorem backed_iff (s : State) (p : Port) (k : Record) :
    s.backed p k = true ↔ ∃ e, (s.port p).catalogue.find k.tier = some e ∧ e.low = k.low ∧ e.high = k.high ∧ k.granted ≤ e.ceiling := by
  unfold backed
  cases (s.port p).catalogue.find k.tier with
  | none => simp
  | some e => simp [and_assoc]

theorem assembled_usable (hh : s.hears p = true) (tag : Tag) (c : Catalogue) :
    (s.accepting p ((s.port p).link.assembled tag) c).linkUsable p = true := by
  rw [linkUsable_iff, linkState, accepting_port]
  dsimp only
  by_cases h : (s.port p).link.flies tag = true
  · rw [Link.assembled_answers h]
    exact ⟨nofun, nofun⟩
  · rw [Link.assembled_other (Bool.not_eq_true _ ▸ h)]
    unfold hears linkState at hh
    refine ⟨fun hs => ?_, fun hs => ?_⟩
    · rw [show (s.port p).link.state = .quiet from hs] at hh
      cases hh
    · rw [show (s.port p).link.state = .mute from hs] at hh
      cases hh

/-- What the check and the base-tier test have made of a live record, as R53 and R73 have it. -/
structure TestedAt (s t : State) (p : Port) (k k' : Record) : Prop where
  stale : k'.stale = false ↔
    ∃ e, (t.port p).catalogue.find k.tier = some e ∧ e.low = k.low ∧ e.high = k.high ∧ k.granted ≤ e.ceiling
  sent : ∀ b, t.amendTerms p = some b → (k'.stale = true ∨ (k.tier = 0 && b.tier ≠ 0) = true) → k.amendable = true →
    k'.amendment = some (s.pendingAmendment b .auto) ∧ k'.owed = (k'.stale && (k.tier = 0 && b.tier ≠ 0)) ∧ k'.owedStale = false ∧
      k'.owedBase = (k'.stale && (k.tier = 0 && b.tier ≠ 0)) ∧ k'.refused = false ∧
      (t.port p).link.slot.bid = some (s.bidFrame k.handle true b)
  owed : ∀ b, t.amendTerms p = some b → (k'.stale = true ∨ (k.tier = 0 && b.tier ≠ 0) = true) → k.amendable = false →
    k'.amendment = k.amendment ∧ k'.owed = true ∧ k'.owedStale = k'.stale ∧ k'.owedBase = (k.owedBase || (k.tier = 0 && b.tier ≠ 0)) ∧
      k'.refused = k.refused
  calm : (∀ b, t.amendTerms p = some b → ¬ (k'.stale = true ∨ (k.tier = 0 && b.tier ≠ 0) = true)) →
    k'.amendment = k.amendment ∧ k'.owed = k.owed ∧ k'.owedStale = (k.owedStale && k'.stale) ∧ k'.owedBase = k.owedBase ∧
      k'.refused = k.refused

theorem catalogued_amendTerms (s : State) (p : Port) (l : Link) (c : Catalogue) (ko : Option Record) (r : Option BidRequest) :
    (s.catalogued p l c ko r).amendTerms p = (s.accepting p l c).amendTerms p := by
  have mode : (s.catalogued p l c ko r).mode p = (s.accepting p l c).mode p := by
    rw [State.mode, catalogued_port, State.mode, accepting_port]
  have choice : (s.catalogued p l c ko r).autoChoice p = (s.accepting p l c).autoChoice p :=
    autoChoice_congr p rfl (by rw [catalogued_port, accepting_port])
  rw [amendTerms, amendTerms, mode, choice]

theorem tests_testedAt {l : Link} {c : Catalogue} (hr : s.record p = some k) (hl : k.live = true) (hc : c.held = true)
    (hu : (s.accepting p l c).linkUsable p = true) :
    ∃ k' r, (((s.accepting p l c).checkRecord p).baseTierTest p).setFlag p .tiers = s.catalogued p l c (some k') r ∧
      s.TestedAt (s.catalogued p l c (some k') r) p k k' := by
  have hr' : (s.accepting p l c).record p = some k := by
    rw [record, accepting_port]
    exact hr
  have hc' : ((s.accepting p l c).port p).catalogue.held = true := by
    rw [accepting_port]
    exact hc
  have backed (ko : Option Record) (r : Option BidRequest) := backed_iff (s.catalogued p l c ko r) p k
  have same (ko : Option Record) (r : Option BidRequest) : (s.catalogued p l c ko r).backed p k = (s.accepting p l c).backed p k := by
    rw [State.backed, State.backed, catalogued_port, accepting_port]
  cases hw : (s.accepting p l c).amendTerms p with
  | none =>
    refine ⟨_, _, by rw [tests_marked hr' hl hu hc' hw, accepting_remarking], ?_⟩
    have terms (ko : Option Record) (r : Option BidRequest) := (catalogued_amendTerms s p l c ko r).trans hw
    refine ⟨?_, fun b hb => ?_, fun b hb => ?_, fun _ => Record.checked_marks k _⟩
    · rw [Record.checked_stale, Bool.not_eq_false', ← backed, same]
    · exact absurd ((terms _ _).symm.trans hb) nofun
    · exact absurd ((terms _ _).symm.trans hb) nofun
  | some b =>
    refine ⟨_, _, by rw [tests_asked hr' hl hu hc' hw, accepting_remarking], ?_⟩
    have terms (ko : Option Record) (r : Option BidRequest) := (catalogued_amendTerms s p l c ko r).trans hw
    refine ⟨?_, fun b' hb hasks hf => ?_, fun b' hb hasks hf => ?_, fun hcalm => ?_⟩
    · rw [Record.tested_stale, Bool.not_eq_false', ← backed, same]
    · obtain rfl := Option.some.inj ((terms _ _).symm.trans hb)
      rw [Record.tested_stale] at hasks ⊢
      have asks := Bool.or_eq_true_iff.mpr hasks
      obtain ⟨ha, ho, hs, hbase, href⟩ := Record.tested_free hf asks (a := (s.accepting p l c).pendingAmendment b .auto)
      refine ⟨ha, ho, hs, hbase, href, ?_⟩
      rw [catalogued_port]
      dsimp only
      rw [bidTested, hf, asks]
      rfl
    · obtain rfl := Option.some.inj ((terms _ _).symm.trans hb)
      rw [Record.tested_stale] at hasks ⊢
      exact Record.tested_busy hf (Bool.or_eq_true_iff.mpr hasks)
    · have idle := hcalm b (terms _ _)
      rw [Record.tested_stale, not_or, Bool.not_eq_true, Bool.not_eq_true, Bool.not_eq_false'] at idle
      obtain ⟨hb, hraise⟩ := idle
      rw [hb, hraise, Record.tested_calm]
      exact Record.checked_marks k true

end State

open State

/-- Settles O33: a whole catalogue ends the HELLO of its tag, is accepted or rejected, and the tests and the asking follow. -/
theorem catalogueTaken : Obligations.CatalogueTaken := by
  intro s p tag scale total index entries g l c part taken tiers answersHello hh ok hg hlen
  have result := exec_tiersPart_whole hh ok hg hlen
  have flies : l.flies tag = true ↔ answersHello := Link.flies_iff l tag
  have usable := assembled_usable hh tag
  have links {t : State} {c' : Catalogue} (h : s.CataloguedAt t p (l.assembled tag) c') :
      (t.port p).link.assembly = none ∧
        (answersHello → t.linkState p = .ready ∧ (t.port p).link.exchange = none ∧ (t.port p).link.openingDeadline = none) ∧
        (¬answersHello → t.linkState p = s.linkState p ∧ (t.port p).link.exchange = l.exchange ∧
          (t.port p).link.openingDeadline = l.openingDeadline) := by
    obtain ⟨hassembly, hstate, hexchange, hdeadline⟩ := h.link
    rw [hassembly, hstate, hexchange, hdeadline]
    by_cases hf : l.flies tag = true
    · rw [Link.assembled_answers hf]
      exact ⟨rfl, fun _ => ⟨rfl, rfl, rfl⟩, fun no => absurd (flies.mp hf) no⟩
    · rw [Link.assembled_other (Bool.not_eq_true _ ▸ hf)]
      exact ⟨rfl, fun yes => absurd (flies.mpr yes) hf, fun _ => ⟨rfl, rfl, rfl⟩⟩
  cases hreject : rejectEntries [] tiers with
  | some x =>
    have takes : (s.modPort p (fun u => { u with link := u.link.assembled tag })).takeCatalogue p g = _ :=
      (show _ = (s.modPort p (fun u => { u with link := u.link.assembled tag })).rejectCatalogue p x by
        simp only [takeCatalogue, show rejectEntries [] (g.map (fun e => normalise e.1 e.2)) = some x from hreject]).trans
        (rejectCatalogue_eq s p tag x)
    have taking := asking_catalogued (s := s) (p := p) (l := l.assembled tag) (ko := s.record p) (r := (l.assembled tag).slot.bid)
      (c := { c with held := true, outcome := some { rejected := some x, tick := s.tick } }) rfl rfl
    obtain ⟨hassembly, hready, hother⟩ := links taking
    refine ⟨_, result.trans (congrArg Host.Outcome.next takes), taking.frame, taking.tiers, hassembly, hready, hother, fun y hy => ?_, nofun, taking.free⟩
    obtain rfl := Option.some.inj hy
    refine ⟨taking.catalogue, fun k hr => ?_⟩
    have held : (s.catalogued p (l.assembled tag) { c with held := true, outcome := some { rejected := some x, tick := s.tick } } (s.record p)
        (l.assembled tag).slot.bid).record p = some k := by
      rw [record, catalogued_port]
      exact hr
    rw [asking_held held, held]
  | none =>
    have takes : (s.modPort p (fun u => { u with link := u.link.assembled tag })).takeCatalogue p g = _ :=
      (show _ = (s.modPort p (fun u => { u with link := u.link.assembled tag })).acceptCatalogue p tiers by
        simp only [takeCatalogue, show rejectEntries [] (g.map (fun e => normalise e.1 e.2)) = none from hreject] <;> rfl).trans
        (acceptCatalogue_eq s p tag tiers)
    have recorded {ko : Option Record} {r : Option BidRequest} :
        (s.catalogued p (l.assembled tag) (s.acceptedCatalogue p tiers) ko r).record p = ko := by
      rw [record, catalogued_port]
    obtain ⟨ko, r, same, hko⟩ := tests_catalogued s p (l.assembled tag) (s.acceptedCatalogue p tiers)
    have taking := asking_catalogued (r := r) (l := l.assembled tag) (c := s.acceptedCatalogue p tiers) rfl hko
    obtain ⟨hassembly, hready, hother⟩ := links taking
    refine ⟨_, result.trans (congrArg Host.Outcome.next (takes.trans (congrArg (fun w : State => w.asking p) same))), taking.frame, taking.tiers,
      hassembly, hready, hother, nofun, fun _ => ⟨taking.catalogue, fun k hr => ?_⟩, taking.free⟩
    rw [hr] at hko
    obtain ⟨k', rfl, hmarks⟩ := Option.map_eq_some_iff.mp hko
    rw [asking_held recorded]
    refine ⟨k', recorded, Record.terms_of_unmarked hmarks, (congrArg Record.renewal hmarks :), fun hl => ?_, fun hl => ?_⟩
    · have aside := tests_aside (s := s.accepting p (l.assembled tag) (s.acceptedCatalogue p tiers)) (p := p)
        (by rw [record, accepting_port]; exact hr) hl
      rw [aside] at same
      have kept := congrArg (fun w : State => w.record p) same
      rw [recorded, record, setFlag_eq, port_modPort_self, accepting_port] at kept
      exact Option.some.inj (kept.symm.trans hr)
    · obtain ⟨k₁, r₁, same₁, tested⟩ := tests_testedAt hr hl (show (s.acceptedCatalogue p tiers).held = true from rfl) (usable _)
      have both := same.symm.trans same₁
      have records := congrArg (fun w : State => w.record p) both
      rw [recorded, recorded] at records
      obtain rfl := Option.some.inj records
      rw [← both] at tested
      have mode : (s.catalogued p (l.assembled tag) (s.acceptedCatalogue p tiers) (some k') r).mode p = s.mode p := by
        rw [State.mode, catalogued_port, State.mode]
      obtain ⟨stale, sent, owed, calm⟩ := tested
      simp only [amendTerms_eq_some, mode] at sent owed calm
      refine ⟨stale, fun b asks free => ?_, fun b asks free => ?_, fun no => ?_⟩
      · exact sent b ⟨asks.1, asks.2.1⟩ asks.2.2 (Record.amendable_iff.mpr free)
      · exact owed b ⟨asks.1, asks.2.1⟩ asks.2.2 (Bool.eq_false_iff.mpr (mt Record.amendable_iff.mp free))
      · exact calm (fun b hb hasks => no b ⟨hb.1, hb.2, hasks⟩)

end Sys2Proof.Machine
end

section
/-! PROOF. The parameters that act at once (O54). -/

namespace Sys2Proof.Machine
open Sys2Proof

namespace State

variable {s t u v : State} {p q : Port} {k : Record}

/-! ## A close that a switch-over does not get (R124, R126) -/

theorem askIfRoom_full (h : 2 ≤ s.rosterCount) (refused : List Port) : askIfRoom [] (s, refused) p = (s.setRole p .waiting, refused) :=
  if_neg (Nat.not_lt.mpr h)

/-- R13 takes no close beside two others, in SENSE, or over a record that is not IN_FORCE. -/
theorem admitsClose_eq_false (h : 2 ≤ s.pathCount ∨ s.mode p = .sense ∨ ∀ k, s.record p = some k → k.state ≠ .inForce) :
    s.admitsClose p = false := by
  unfold admitsClose
  rcases h with h | h | h
  · rw [decide_eq_false (Nat.not_lt.mpr h), Bool.and_false]
  · rw [h]
    simp
  · cases hr : s.record p with
    | none => rfl
    | some k => simp [h k hr]

theorem askClose_refused (hp : s.path p = .opened)
    (h : 2 ≤ s.pathCount ∨ s.mode p = .sense ∨ ∀ k, s.record p = some k → k.state ≠ .inForce) (refused : List Port) :
    askClose [] (s, refused) p = (s.setRole p .waiting, refused ++ [p]) := by
  simp only [askClose, List.contains_nil, Bool.false_eq_true, if_false, requestClose, hp, admitsClose_eq_false h]

/-! ## What acting at once keeps -/

/-- What a change of policy that acts at once keeps: the records but for renewals, and of the ports all but flags that it sets (R59, R99, R119). -/
structure PolicyKept (s t : State) (renews : Prop) : Prop where
  part : t.policy = s.policy ∧ t.allocator.claims = s.allocator.claims ∧ t.time = s.time ∧ t.lock = s.lock
  record : ∀ p k, s.record p = some k → ∃ k', t.record p = some k' ∧ k'.terms = k.terms ∧ k'.amendment = k.amendment ∧
    (¬ renews → k'.renewal = k.renewal)
  port : ∀ p, (∃ f, (t.port p).flags = (s.port p).flags ||| f) ∧ t.mode p = s.mode p ∧ (t.port p).catalogue = (s.port p).catalogue ∧
    t.linkState p = s.linkState p

theorem PolicyKept.trans {renews : Prop} (h : s.PolicyKept t renews) (g : t.PolicyKept u renews) : s.PolicyKept u renews := by
  obtain ⟨⟨hp, hc, ht, hl⟩, hrecord, hport⟩ := h
  obtain ⟨⟨gp, gc, gt, gl⟩, grecord, gport⟩ := g
  refine ⟨⟨gp.trans hp, gc.trans hc, gt.trans ht, gl.trans hl⟩, fun p k hr => ?_, fun p => ?_⟩
  · obtain ⟨k', hk', hterms, hamend, hrenew⟩ := hrecord p k hr
    obtain ⟨k'', hk'', gterms, gamend, grenew⟩ := grecord p k' hk'
    exact ⟨k'', hk'', gterms.trans hterms, gamend.trans hamend, fun no => (grenew no).trans (hrenew no)⟩
  · obtain ⟨⟨f, hf⟩, hm, hcat, hlink⟩ := hport p
    obtain ⟨⟨f', hf'⟩, gm, gcat, glink⟩ := gport p
    exact ⟨⟨f ||| f', by rw [hf', hf, BitVec.or_assoc]⟩, gm.trans hm, gcat.trans hcat, glink.trans hlink⟩

theorem Worked.policyKept (h : Worked s t) (renews : Prop) : s.PolicyKept t renews := by
  have frame := h.frameAt .p0
  refine ⟨⟨h.policy, frame.claims, frame.time, frame.lock⟩, fun p k hr => ?_, fun p => ?_⟩
  · have same := h.records p
    rw [hr] at same
    obtain ⟨k', hk', hlasting⟩ := Option.map_eq_some_iff.mp same
    exact ⟨k', hk', Record.terms_of_lasting hlasting, (congrArg Record.amendment hlasting :), fun _ => (congrArg Record.renewal hlasting :)⟩
  · have same := h.2.2.2 p
    refine ⟨⟨0#16, ?_⟩, h.mode p, (congrArg PortState.catalogue same :), (congrArg (fun x : PortState => x.link.state) same :)⟩
    rw [BitVec.or_zero]
    exact (congrArg PortState.flags same :)

/-- An asking finds its conditions by its port alone. -/
theorem mayBid_congr (h : t.port p = s.port p) : t.MayBid p ↔ s.MayBid p := by
  simp only [MayBid, mode, State.record, linkState, h]

theorem Worked.mayBid (h : Worked s t) (p : Port) : t.MayBid p ↔ s.MayBid p := by
  have same := h.2.2.2 p
  have attach : (t.port p).front.attach = (s.port p).front.attach := (congrArg (fun x : PortState => x.front.attach) same :)
  have hold : (t.port p).contract.hold = (s.port p).contract.hold := (congrArg (fun x : PortState => x.contract.hold) same :)
  have holdoff : (t.port p).contract.holdoff = (s.port p).contract.holdoff := (congrArg (fun x : PortState => x.contract.holdoff) same :)
  have held : (t.port p).catalogue.held = (s.port p).catalogue.held := (congrArg (fun x : PortState => x.catalogue.held) same :)
  have link : t.linkState p = s.linkState p := (congrArg (fun x : PortState => x.link.state) same :)
  have free : t.record p = none ↔ s.record p = none := by
    rw [← Option.map_eq_none_iff (f := Record.lasting), h.records p, Option.map_eq_none_iff]
  simp only [MayBid, h.mode p, attach, hold, holdoff, held, link, free]

/-! ## An asking on every port -/

/-- The asking of a port's own turn. -/
theorem askAll_turn (s : State) (p : Port) : ∃ u : State, u.around = s.around ∧ u.port p = s.port p ∧ s.askAll.port p = (u.asking p).port p :=
  asking_stays.foldl_port_mem all_nodup (mem_all p) s

theorem askAll_around (s : State) : s.askAll.around = s.around := asking_stays.foldl_around _ s

theorem askAll_asked (s : State) (p : Port) : ∃ r a b, s.askAll.port p = (s.port p).asked r a b := by
  obtain ⟨u, -, hport, hturn⟩ := askAll_turn s p
  obtain ⟨r, a, b, asked⟩ := asking_port_self u p
  exact ⟨r, a, b, by rw [hturn, asked, hport]⟩

theorem askAll_idle (h : ¬ s.MayBid p) : s.askAll.port p = s.port p := by
  obtain ⟨u, -, hport, hturn⟩ := askAll_turn s p
  rw [hturn, asking_idle u p (fun may => h ((mayBid_congr hport).mp may)), hport]

theorem askAll_stands (h : s.MayBid p) : ∃ n, s.askAll.BidStands p n := by
  obtain ⟨u, haround, hport, hturn⟩ := askAll_turn s p
  have same : s.askAll.around = (u.asking p).around := (askAll_around s).trans ((asking_stays.around u p).trans haround).symm
  obtain ⟨-, -, -, -, hpolicy, htime, -⟩ := part_of_around same
  exact ⟨_, (asking_stands u p ((mayBid_congr hport).mpr h)).congr hturn hpolicy htime⟩

theorem askAll_policyKept (s : State) (renews : Prop) : s.PolicyKept s.askAll renews := by
  obtain ⟨-, -, -, halloc, hpolicy, htime, -, -, hlock, -⟩ := part_of_around (askAll_around s)
  refine ⟨⟨hpolicy, congrArg Allocator.claims halloc, htime, hlock⟩, fun p k hr => ?_, fun p => ?_⟩
  · have idle : ¬ s.MayBid p := fun may => absurd (hr.symm.trans may.2.2.1) nofun
    exact ⟨k, by rw [State.record, askAll_idle idle]; exact hr, rfl, rfl, fun _ => rfl⟩
  · obtain ⟨r, a, b, asked⟩ := askAll_asked s p
    rw [mode, linkState, asked]
    exact ⟨⟨0#16, by rw [BitVec.or_zero]; rfl⟩, rfl, rfl, rfl⟩

/-- What a recomputation has switched over, the askings leave. -/
theorem SwitchedOver.askAll (h : s.SwitchedOver t) : s.SwitchedOver t.askAll := by
  obtain ⟨hroster, hplacing, hflag⟩ := h
  obtain ⟨hdevice, -, hroster', -⟩ := part_of_around (askAll_around t)
  refine ⟨hroster'.trans hroster, fun p => ?_, by rw [hdevice, hflag]⟩
  obtain ⟨r, a, b, asked⟩ := askAll_asked t p
  rw [← hplacing p, placing, path, role, asked]
  rfl

/-! ## The set that a recomputation forms -/

theorem requestClose_roster {who : Requester} (ht : s.requestClose q who = some t) : t.roster = s.roster := by
  unfold requestClose at ht
  split at ht
  · split at ht
    · rw [← Option.some.inj ht]
      rfl
    · cases ht
  · rw [Option.some.inj ht]
  · rw [Option.some.inj ht]

/-- The steps of a switch-over leave the set as formed. -/
theorem intended_kept (l : List Handle) : StepsKept (fun s => s.roster.intended = l) where
  role _ _ _ h := h
  opens q h := by rw [openPath_roster, h]
  closes q ht h := by
    rw [setRole_eq, modPort_roster, requestClose_roster ht, h]

theorem endSteps_intended (s : State) (b : Bool) : (s.endSteps b).roster.intended = s.roster.intended := by
  unfold endSteps
  dsimp only
  split
  · rfl
  · rfl

theorem recomputePass_intended (s : State) (skip : List Port) : (s.recomputePass skip).1.roster.intended = s.formSet := by
  rw [recomputePass_eq, endSteps_intended]
  exact (intended_kept s.formSet).switchSteps rfl skip

/-- A recomputation forms the supplying set, whatever it finds (R118). -/
theorem recompute_intended (s : State) : s.recompute.roster.intended = s.supplyingSet := by
  rw [← formSet_eq]
  unfold recompute
  dsimp only
  split
  · exact recomputePass_intended s []
  · rw [recomputePass_intended, formSet_pass]

/-! ## A renewal test on every port -/

/-- A renewal that begins at its test (R87, R91, R92). -/
def renewalBegun (s : State) (p : Port) : Renewal :=
  { attempts := 1, state := if s.linkState p = .mute then .retryWait (s.ahead 2000) else .inFlight }

theorem renewalTest_record (hr : s.record p = some k) :
    (s.renewalTest p).record p = some (if s.renewalDue k then { k with renewal := some (s.renewalBegun p) } else k) := by
  by_cases hd : s.renewalDue k = true
  · have begun : s.renewalTest p = s.askRenew p k 1 := by simp only [renewalTest, hr, if_pos hd]
    rw [begun, if_pos hd, renewalBegun]
    by_cases hl : s.linkState p = .mute
    · rw [askRenew_mute hl, State.record, port_modPort_self, if_pos hl]
    · rw [askRenew_open hl, State.record, port_modPort_self, if_neg hl]
  · have idle : s.renewalTest p = s := by simp only [renewalTest, hr, if_neg hd]
    rw [idle, if_neg hd, hr]

theorem renewalTest_none (hr : s.record p = none) : s.renewalTest p = s := by simp only [renewalTest, hr]

theorem renewalTest_stays : StaysOnPort renewalTest := .of_modPort (fun s p => by
  obtain ⟨ko, b, r, f, -, tested⟩ := Reasked.renewalTest s p
  exact ⟨s.lastHandle, _, tested⟩)

/-- The state once every port has had its renewal test. -/
def renewAll (s : State) : State := Port.all.foldl renewalTest s

theorem renewAll_turn (s : State) (p : Port) :
    ∃ u : State, u.around = s.around ∧ u.port p = s.port p ∧ s.renewAll.port p = (u.renewalTest p).port p :=
  renewalTest_stays.foldl_port_mem all_nodup (mem_all p) s

theorem renewAll_record (hr : s.record p = some k) :
    s.renewAll.record p = some (if s.renewalDue k then { k with renewal := some (s.renewalBegun p) } else k) := by
  obtain ⟨u, haround, hport, hturn⟩ := renewAll_turn s p
  obtain ⟨-, -, -, -, hpolicy, htime, -⟩ := part_of_around haround
  have tick : u.tick = s.tick := by rw [tick, htime, tick]
  have due : u.renewalDue k = s.renewalDue k := by
    rw [Bool.eq_iff_iff, renewalDue_iff, renewalDue_iff, tick, hpolicy]
  have begun : u.renewalBegun p = s.renewalBegun p := by
    rw [renewalBegun, renewalBegun, linkState, hport, State.ahead, State.ahead, tick]
    rfl
  have found : u.record p = some k := by
    rw [State.record, hport]
    exact hr
  rw [← due, ← begun, ← renewalTest_record found, State.record, hturn, State.record]

theorem renewAll_free (hr : s.record p = none) : s.renewAll.record p = none := by
  obtain ⟨u, -, hport, hturn⟩ := renewAll_turn s p
  have found : u.record p = none := by
    rw [State.record, hport]
    exact hr
  rw [State.record, hturn, renewalTest_none found]
  exact found

theorem renewAll_policyKept {renews : Prop} (h : renews) (s : State) : s.PolicyKept s.renewAll renews := by
  obtain ⟨-, -, -, halloc, hpolicy, htime, -, -, hlock, -⟩ := part_of_around (renewalTest_stays.foldl_around Port.all s)
  refine ⟨⟨hpolicy, congrArg Allocator.claims halloc, htime, hlock⟩, fun p k hr => ⟨_, renewAll_record hr, ?_, ?_, fun no => absurd h no⟩, fun p => ?_⟩
  · split
    · rfl
    · rfl
  · split
    · rfl
    · rfl
  · obtain ⟨u, -, hport, hturn⟩ := renewAll_turn s p
    obtain ⟨ko, b, r, f, -, tested⟩ := Reasked.renewalTest u p
    rw [mode, linkState, hturn, tested, port_modPort_self, hport]
    exact ⟨⟨f, rfl⟩, rfl, rfl, rfl⟩

/-! ## The acts -/

/-- The state with another policy. -/
def withPolicy (s : State) (P : Policy) : State := { s with policy := P }

theorem withPolicy_self (s : State) : s.withPolicy s.policy = s := rfl

/-- What a changed parameter leaves, by whether it begins renewals, recomputes the roster and makes askings. -/
structure ActedAtOnce (s t : State) (P : Policy) (renews recomputes asks : Prop) : Prop where
  kept : (s.withPolicy P).PolicyKept t renews
  switched : recomputes → t.roster.intended = (s.withPolicy P).supplyingSet ∧
    (s.PathsBacked → s.HandlesDistinct → s.RosterExact → (s.withPolicy P).SwitchedOver t)
  asked : asks → ∀ p, s.MayBid p → ∃ n, t.BidStands p n
  idle : ∀ p, ¬ s.MayBid p → s.record p = none → t.record p = none

variable {P : Policy} {renews recomputes asks : Prop}

/-- A change of the input window recomputes the roster, and every port makes an asking (R59, R120). -/
theorem acted_window : s.ActedAtOnce (s.withPolicy P).windowChanged P renews recomputes asks := by
  have worked := recompute_worked (s.withPolicy P)
  have may (p : Port) : (s.withPolicy P).recompute.MayBid p ↔ s.MayBid p := worked.mayBid p
  refine ⟨(worked.policyKept _).trans (askAll_policyKept _ _), fun _ => ⟨?_, fun hb hd hx => ?_⟩, fun _ p h => ?_, fun p h hr => ?_⟩
  · obtain ⟨-, -, hroster, -⟩ := part_of_around (askAll_around (s.withPolicy P).recompute)
    rw [windowChanged, hroster, recompute_intended]
  · exact SwitchedOver.askAll (recompute_switchedOver (s := s.withPolicy P) hb hd hx)
  · exact askAll_stands ((may p).mpr h)
  · have free : (s.withPolicy P).recompute.record p = none := by
      have same := worked.records p
      rw [show (s.withPolicy P).record p = none from hr] at same
      exact Option.map_eq_none_iff.mp same
    rw [windowChanged, State.record, askAll_idle (fun m => h ((may p).mp m))]
    exact free

/-- A change of PORT_CURRENT_MAX makes an asking on every port (R59). -/
theorem acted_current (h : ¬ recomputes) : s.ActedAtOnce (s.withPolicy P).askAll P renews recomputes asks :=
  ⟨askAll_policyKept _ _, fun yes => absurd yes h, fun _ _ may => askAll_stands may,
    fun p may hr => by rw [State.record, askAll_idle (s := s.withPolicy P) may]; exact hr⟩

/-- A change of COMBINE recomputes the roster (R119). -/
theorem acted_combine (h : ¬ asks) : s.ActedAtOnce (s.withPolicy P).recompute P renews recomputes asks := by
  have worked := recompute_worked (s.withPolicy P)
  refine ⟨worked.policyKept _, fun _ => ⟨recompute_intended _, fun hb hd hx => recompute_switchedOver (s := s.withPolicy P) hb hd hx⟩,
    fun yes => absurd yes h, fun p _ hr => ?_⟩
  have same := worked.records p
  rw [show (s.withPolicy P).record p = none from hr] at same
  exact Option.map_eq_none_iff.mp same

/-- A change of RENEW_LEAD begins renewals at most (R87). -/
theorem acted_renewLead (h : renews) (hre : ¬ recomputes) (ha : ¬ asks) (c : Prop) [Decidable c] :
    s.ActedAtOnce (if c then (s.withPolicy P).renewAll else s.withPolicy P) P renews recomputes asks := by
  refine ⟨?_, fun yes => absurd yes hre, fun yes => absurd yes ha, fun p _ hr => ?_⟩
  · split
    · exact renewAll_policyKept h _
    · exact (Worked.refl _).policyKept _
  · split
    · exact renewAll_free hr
    · exact hr

/-! ## The writes -/

theorem writePolicy_vinLow (v : Word) : s.writePolicy .p0 .vinLow v =
    if v.toNat = s.policy.vinLow then s.withPolicy { s.policy with vinLow := v.toNat }
    else (s.withPolicy { s.policy with vinLow := v.toNat }).windowChanged := rfl

theorem writePolicy_vinHigh (v : Word) : s.writePolicy .p0 .vinHigh v =
    if v.toNat = s.policy.vinHigh then s.withPolicy { s.policy with vinHigh := v.toNat }
    else (s.withPolicy { s.policy with vinHigh := v.toNat }).windowChanged := rfl

theorem writePolicy_currentMax (v : Word) : s.writePolicy .p0 .currentMax v =
    if v.toNat = s.policy.currentMax then s.withPolicy { s.policy with currentMax := v.toNat }
    else (s.withPolicy { s.policy with currentMax := v.toNat }).askAll := rfl

theorem writePolicy_renewLead (v : Word) : s.writePolicy .p0 .renewLead v =
    if s.policy.renewLead < v.toNat then (s.withPolicy { s.policy with renewLead := v.toNat }).renewAll
    else s.withPolicy { s.policy with renewLead := v.toNat } := rfl

theorem writePolicy_combine (v : Word) : s.writePolicy .p0 .combine v =
    if (if v.toNat = 0 then Combine.single else .pair) = s.policy.combine then
      s.withPolicy { s.policy with combine := if v.toNat = 0 then .single else .pair }
    else (s.withPolicy { s.policy with combine := if v.toNat = 0 then .single else .pair }).recompute := rfl

/-- The renewals that a lead makes due begin (R87, R91, R92). -/
def RenewalsBegun (s t : State) (lead : Nat) : Prop :=
  ∀ p k x e, s.record p = some k → k.live = true → k.renewal = none → k.withdraw = false → k.lease = some x → x.expiry = some e →
    (e - s.tick).toInt ≤ (x.length * 10 * lead : Nat) → ∃ k', t.record p = some k' ∧ k'.renewal = some (s.renewalBegun p)

theorem renewAll_begun (s : State) (P : Policy) : s.RenewalsBegun (s.withPolicy P).renewAll P.renewLead := by
  intro p k x e hr hl hn hw hx he hle
  have due : (s.withPolicy P).renewalDue k = true := (renewalDue_iff _ k).mpr ⟨hl, hn, hw, x, e, hx, he, hle⟩
  refine ⟨_, renewAll_record (s := s.withPolicy P) hr, ?_⟩
  rw [if_pos due]
  rfl

/-- A command that writes a parameter which acts at once: its test, and the state that its write makes. -/
structure WriteActs (s : State) (b : Byte) (v : Word) (c : Instr) (P : Policy) (ok : Prop) (t : State) : Prop where
  taken : ok → exec c s = .next (t.answered .done .empty)
  refused : ¬ ok → exec c s = .next (s.answered .refusedRange .empty)
  held : P = s.policy → t = s
  acts : P ≠ s.policy →
    s.ActedAtOnce t P (c = .policyRenewLead b v) (c = .policyVinLow b v ∨ c = .policyVinHigh b v ∨ c = .policyCombine b v)
      (c = .policyVinLow b v ∨ c = .policyVinHigh b v ∨ c = .policyPortCurrentMax b v)
  renewals : c = .policyRenewLead b v → s.policy.renewLead < v.toNat → s.RenewalsBegun t v.toNat

variable {b : Byte} {v : Word} {ok : Prop}

theorem policy_taken (hs : s.Listening) {c : Instr} {n : Parameter} (hc : hostCommandOf c = some (.setPolicy n.code b v))
    (hpart : n.perPort = false) (hlock : n ≠ .dropout) (hok : ok ↔ inRange n v.toNat = true ∧ s.windowKept n v.toNat = true) :
    (ok → exec c s = .next ((s.writePolicy .p0 n v).answered .done .empty)) ∧
      (¬ ok → exec c s = .next (s.answered .refusedRange .empty)) := by
  rw [exec_policy_of_part hs hc hpart hlock]
  exact ⟨fun h => by rw [if_pos (hok.mp h)], fun h => by rw [if_neg (mt hok.mpr h)]⟩

theorem vinLow_acts (hs : s.Listening) (hok : ok ↔ 200 ≤ v.toNat ∧ v.toNat ≤ 1000 ∧ v.toNat < s.policy.vinHigh) :
    s.WriteActs b v (.policyVinLow b v) { s.policy with vinLow := v.toNat } ok (s.writePolicy .p0 .vinLow v) := by
  obtain ⟨taken, refused⟩ := policy_taken hs (c := .policyVinLow b v) (n := .vinLow) rfl rfl nofun (hok.trans (by
    simp only [inRange, windowKept, Bool.and_eq_true, decide_eq_true_eq, and_assoc]))
  refine ⟨taken, refused, fun h => ?_, fun h => ?_, nofun⟩
  · rw [writePolicy_vinLow, if_pos (congrArg Policy.vinLow h :), h, withPolicy_self]
  · rw [writePolicy_vinLow, if_neg (fun same => h (by rw [same]))]
    exact acted_window

theorem vinHigh_acts (hs : s.Listening) (hok : ok ↔ 250 ≤ v.toNat ∧ v.toNat ≤ 2000 ∧ s.policy.vinLow < v.toNat) :
    s.WriteActs b v (.policyVinHigh b v) { s.policy with vinHigh := v.toNat } ok (s.writePolicy .p0 .vinHigh v) := by
  obtain ⟨taken, refused⟩ := policy_taken hs (c := .policyVinHigh b v) (n := .vinHigh) rfl rfl nofun (hok.trans (by
    simp only [inRange, windowKept, Bool.and_eq_true, decide_eq_true_eq, and_assoc]))
  refine ⟨taken, refused, fun h => ?_, fun h => ?_, nofun⟩
  · rw [writePolicy_vinHigh, if_pos (congrArg Policy.vinHigh h :), h, withPolicy_self]
  · rw [writePolicy_vinHigh, if_neg (fun same => h (by rw [same]))]
    exact acted_window

theorem currentMax_acts (hs : s.Listening) (hok : ok ↔ 10 ≤ v.toNat ∧ v.toNat ≤ 1000) :
    s.WriteActs b v (.policyPortCurrentMax b v) { s.policy with currentMax := v.toNat } ok (s.writePolicy .p0 .currentMax v) := by
  obtain ⟨taken, refused⟩ := policy_taken hs (c := .policyPortCurrentMax b v) (n := .currentMax) rfl rfl nofun (hok.trans (by
    simp only [inRange, windowKept, Bool.and_eq_true, decide_eq_true_eq, and_true]))
  refine ⟨taken, refused, fun h => ?_, fun h => ?_, nofun⟩
  · rw [writePolicy_currentMax, if_pos (congrArg Policy.currentMax h :), h, withPolicy_self]
  · rw [writePolicy_currentMax, if_neg (fun same => h (by rw [same]))]
    exact acted_current (fun h => h.elim nofun (fun h => h.elim nofun nofun))

theorem renewLead_acts (hs : s.Listening) (hok : ok ↔ v.toNat = 10 ∨ v.toNat = 25 ∨ v.toNat = 50) :
    s.WriteActs b v (.policyRenewLead b v) { s.policy with renewLead := v.toNat } ok (s.writePolicy .p0 .renewLead v) := by
  obtain ⟨taken, refused⟩ := policy_taken hs (c := .policyRenewLead b v) (n := .renewLead) rfl rfl nofun (hok.trans (by
    simp only [inRange, windowKept, Bool.or_eq_true, decide_eq_true_eq, and_true, or_assoc]))
  refine ⟨taken, refused, fun h => ?_, fun _ => ?_, fun _ hlt => ?_⟩
  · have same : v.toNat = s.policy.renewLead := (congrArg Policy.renewLead h :)
    rw [writePolicy_renewLead, if_neg (by rw [same]; exact Nat.lt_irrefl _), h, withPolicy_self]
  · rw [writePolicy_renewLead]
    exact acted_renewLead rfl (fun h => h.elim nofun (fun h => h.elim nofun nofun)) (fun h => h.elim nofun (fun h => h.elim nofun nofun)) _
  · rw [writePolicy_renewLead, if_pos hlt]
    exact renewAll_begun s _

theorem combine_acts (hs : s.Listening) (hok : ok ↔ v.toNat ≤ 1) :
    s.WriteActs b v (.policyCombine b v) { s.policy with combine := if v.toNat = 0 then .single else .pair } ok
      (s.writePolicy .p0 .combine v) := by
  obtain ⟨taken, refused⟩ := policy_taken hs (c := .policyCombine b v) (n := .combine) rfl rfl nofun (hok.trans (by
    simp only [inRange, windowKept, decide_eq_true_eq, and_true]))
  refine ⟨taken, refused, fun h => ?_, fun h => ?_, nofun⟩
  · rw [writePolicy_combine, if_pos (congrArg Policy.combine h :), h, withPolicy_self]
  · rw [writePolicy_combine, if_neg (fun same => h (by rw [same]))]
    exact acted_combine (fun h => h.elim nofun (fun h => h.elim nofun nofun))

end State

open State

/-- Settles O54: the write of each parameter is the act of its kind, and what every act keeps and does is said of the acts. -/
theorem policyActsAtOnce : Obligations.PolicyActsAtOnce := by
  refine ⟨fun s p refused hp => ⟨fun h => askIfRoom_full h refused, fun h => askClose_refused hp h refused⟩, ?_⟩
  intro s b v c P ok hs n supplies hcase
  obtain ⟨t, taken, refused, held, acts, renewals⟩ : ∃ t, s.WriteActs b v c P ok t := by
    rcases hcase with ⟨rfl, rfl, hok⟩ | ⟨rfl, rfl, hok⟩ | ⟨rfl, rfl, hok⟩ | ⟨rfl, rfl, hok⟩ | ⟨rfl, rfl, hok⟩
    · exact ⟨_, vinLow_acts hs hok⟩
    · exact ⟨_, vinHigh_acts hs hok⟩
    · exact ⟨_, currentMax_acts hs hok⟩
    · exact ⟨_, renewLead_acts hs hok⟩
    · exact ⟨_, combine_acts hs hok⟩
  refine ⟨refused, fun hok hP => held hP ▸ taken hok, fun hok hP => ⟨t, taken hok, ?_⟩⟩
  obtain ⟨⟨⟨hpolicy, hclaims, htime, hlock⟩, hrecord, hport⟩, hswitched, hasked, hidle⟩ := acts hP
  refine ⟨hpolicy, hclaims, htime, hlock, hrecord, fun p => ?_, hswitched, hasked, hidle, fun hc hlt p k x e hr hl hn hw hx he hle =>
    renewals hc hlt p k x e hr hl hn hw hx he hle⟩
  obtain ⟨⟨f, hf⟩, hmode, hcatalogue, hlink⟩ := hport p
  refine ⟨?_, hmode, hcatalogue, hlink⟩
  rw [hf, ← BitVec.or_assoc]
  exact congrArg (· ||| f) (BitVec.or_self).symm

end Sys2Proof.Machine
end

section
/-! PROOF. A sample in the blocks of each port (O16). -/

namespace Sys2Proof.Machine
open Sys2Proof

namespace PortState

variable (u : PortState)

/-- A port with a reading stored (R1). -/
def stored (r : Reading) : PortState :=
  { u with front := { u.front with voltage := min 2000 r.voltage, current := min 1000 r.current.toNat } }

/-- A port with its debounce count moved (R8). -/
def counted : PortState :=
  { u with front := { u.front with debounce := debounced u.front.attach u.front.debounce u.front.voltage } }

/-- A port with its close operation sampled (R14). -/
def closeSampled (s : State) : PortState :=
  { u with front := { u.front with
      closeOp := match u.front.closeOp, u.contract.record with
        | some c, some k => some (c.sampled (windowTest u.front.voltage k.low k.high) s.policy.settleTime)
        | c, _ => c } }

/-- A port with its overdraw monitor sampled (R148, R149, R152). -/
def overdrawSampled (s : State) : PortState :=
  { u with monitor := match u.front.path, u.contract.record with
      | .closed, some k => s.sampledMonitor u k u.front.current
      | _, _ => u.monitor }

/-- A port with its watch window sampled (R154, R158, R159). -/
def watchSampled (s : State) : PortState :=
  { u with watch :=
      if u.front.path = .closed ∨ (u.watch.forced = true ∧ s.watchEnable = true) ∨ u.watch.repeatAt.isSome = true then
        { u.watch with window := some (s.sampledWatch u u.front.voltage) }
      else u.watch }

end PortState

namespace State

variable {s t : State} {p : Port} {k : Record}

/-! ## One block on one port -/

theorem storeReading_eq (s : State) (r : PerPort Reading) (p : Port) : storeReading r s p = s.modPort p (fun u => u.stored (r.get p)) := rfl

theorem debounceSample_eq (s : State) (p : Port) : s.debounceSample p = s.modPort p PortState.counted := by
  unfold debounceSample
  rw [modFront_eq]
  refine modPort_congr s p ?_
  unfold PortState.counted debounced
  cases h : (s.port p).front.attach with
  | vacant => simp [h]
  | present => simp [h]

theorem closeSample_eq (s : State) (p : Port) : s.closeSample p = s.modPort p (fun u => u.closeSampled s) := by
  unfold closeSample
  cases hc : (s.port p).front.closeOp with
  | none =>
    refine (modPort_id s p ?_).symm
    rw [PortState.closeSampled, hc]
    dsimp only
    rw [← hc]
  | some c =>
    cases hr : s.record p with
    | none =>
      refine (modPort_id s p ?_).symm
      rw [PortState.closeSampled, hc, show (s.port p).contract.record = none from hr]
      dsimp only
      rw [← hc]
    | some k =>
      dsimp only
      rw [modFront_eq]
      refine modPort_congr s p ?_
      rw [PortState.closeSampled, hc, show (s.port p).contract.record = some k from hr]
      dsimp only
      rw [CloseOp.sampled]
      cases windowTest (s.port p).front.voltage k.low k.high <;> simp

theorem overdrawSample_eq (s : State) (p : Port) : s.overdrawSample p = s.modPort p (fun u => u.overdrawSampled s) := by
  unfold overdrawSample
  cases hr : s.record p with
  | none =>
    refine (modPort_id s p ?_).symm
    rw [PortState.overdrawSampled, show (s.port p).contract.record = none from hr]
    cases (s.port p).front.path <;> rfl
  | some k =>
    have hr' : (s.port p).contract.record = some k := hr
    by_cases hp : s.path p = .closed
    · refine (if_pos hp).trans ?_
      rw [modMonitor_eq]
      refine modPort_congr s p ?_
      rw [PortState.overdrawSampled, hr', show (s.port p).front.path = .closed from hp]
      dsimp only
      rewrite [sampledMonitor, OverdrawWindow.sampled, overLimit, newOverdrawWindow, overdrawMargin, burstMargin, Nat.add_assoc]
      rfl
    · refine (if_neg hp).trans (modPort_id s p ?_).symm
      rw [PortState.overdrawSampled, hr']
      have hp' : (s.port p).front.path ≠ .closed := hp
      cases h : (s.port p).front.path with
      | closed => exact absurd h hp'
      | opened => rfl
      | closing => rfl

theorem watchRuns_iff (s : State) (p : Port) : s.watchRuns p = true ↔
    (s.port p).front.path = .closed ∨ ((s.port p).watch.forced = true ∧ s.watchEnable = true) ∨ (s.port p).watch.repeatAt.isSome = true := by
  simp only [watchRuns, Bool.or_eq_true, Bool.and_eq_true, decide_eq_true_eq, or_assoc]
  exact Iff.rfl

theorem watchSample_eq (s : State) (p : Port) : s.watchSample p = s.modPort p (fun u => u.watchSampled s) := by
  have record : s.record p = (s.port p).contract.record := rfl
  unfold watchSample
  by_cases h : s.watchRuns p = true
  · rw [if_pos h, modWatch_eq]
    refine modPort_congr s p ?_
    rw [PortState.watchSampled, if_pos ((watchRuns_iff s p).mp h)]
    refine congrArg (fun w => { s.port p with watch := { (s.port p).watch with window := some w } }) ?_
    rw [sampledWatch, belowThreshold, watchThreshold, droopSample, transitionStands, record]
    cases (s.port p).contract.record with
    | none => cases (s.port p).watch.repeatAt <;> rfl
    | some k => cases (s.port p).watch.repeatAt <;> rfl
  · rw [if_neg h]
    refine (modPort_id s p ?_).symm
    rw [PortState.watchSampled, if_neg (mt (watchRuns_iff s p).mpr h)]

/-! ## The blocks on all ports -/

/-- A block that changes each port by itself, reading the part around the ports alone. -/
structure Block (f : State → Port → State) (g : State → Port → PortState → PortState) : Prop where
  turn : ∀ s p, f s p = s.modPort p (g s p)
  reads : ∀ s t p, t.around = s.around → g t p = g s p

namespace Block

variable {f : State → Port → State} {g : State → Port → PortState → PortState}

theorem stays (h : Block f g) : StaysOnPort f := .of_modPort (fun s p => ⟨s.lastHandle, _, h.turn s p⟩)

theorem fold_port (h : Block f g) (s : State) (p : Port) : (Port.all.foldl f s).port p = g s p (s.port p) := by
  obtain ⟨u, haround, hport, hturn⟩ := h.stays.foldl_port_mem all_nodup (mem_all p) s
  rw [hturn, h.turn, port_modPort_self, hport, h.reads s u p haround]

theorem fold_ports (h : Block f g) (l : List Port) (s : State) : l.foldl f s = { s with ports := (l.foldl f s).ports } := by
  induction l generalizing s with
  | nil => rfl
  | cons q l ih =>
    rw [List.foldl_cons, ih, h.turn]
    rfl

end Block

theorem storeReading_block (r : PerPort Reading) : Block (storeReading r) (fun _ p u => u.stored (r.get p)) :=
  ⟨fun s p => storeReading_eq s r p, fun _ _ _ _ => rfl⟩

theorem debounceSample_block : Block debounceSample (fun _ _ u => u.counted) := ⟨debounceSample_eq, fun _ _ _ _ => rfl⟩

theorem closeSample_block : Block closeSample (fun s _ u => u.closeSampled s) :=
  ⟨closeSample_eq, fun s t _ h => by rw [eq_of_around h]; rfl⟩

theorem overdrawSample_block : Block overdrawSample (fun s _ u => u.overdrawSampled s) :=
  ⟨overdrawSample_eq, fun s t _ h => by rw [eq_of_around h]; rfl⟩

theorem watchSample_block : Block watchSample (fun s _ u => u.watchSampled s) :=
  ⟨watchSample_eq, fun s t _ h => by rw [eq_of_around h]; rfl⟩

/-- The state once every block but the contract table has its samples. -/
def blocksSampled (s : State) (r : PerPort Reading) : State :=
  Port.all.foldl watchSample (Port.all.foldl overdrawSample (Port.all.foldl closeSample (Port.all.foldl debounceSample
    (Port.all.foldl (storeReading r) s))))

theorem takeSamples_eq (s : State) (r : PerPort Reading) :
    s.takeSamples r = { Port.all.foldl contractSample (s.blocksSampled r) with sampleTaken := true } := rfl

theorem blocksSampled_around (s : State) (r : PerPort Reading) : (s.blocksSampled r).around = s.around := by
  unfold blocksSampled
  rw [watchSample_block.stays.foldl_around, overdrawSample_block.stays.foldl_around, closeSample_block.stays.foldl_around,
    debounceSample_block.stays.foldl_around, (storeReading_block r).stays.foldl_around]

theorem blocksSampled_ports (s : State) (r : PerPort Reading) : s.blocksSampled r = { s with ports := (s.blocksSampled r).ports } := by
  have next {f : State → Port → State} {g : State → Port → PortState → PortState} (h : Block f g) {w : State}
      (hw : w = { s with ports := w.ports }) : Port.all.foldl f w = { s with ports := (Port.all.foldl f w).ports } :=
    (h.fold_ports Port.all w).trans (congrArg (fun x : State => { x with ports := (Port.all.foldl f w).ports }) hw)
  exact next watchSample_block (next overdrawSample_block (next closeSample_block (next debounceSample_block
    (next (storeReading_block r) rfl))))

/-- Each port after its samples, the contract table aside (R1, R8, R14, R148, R149, R154, R158). -/
theorem blocksSampled_port (s : State) (r : PerPort Reading) (p : Port) :
    (s.blocksSampled r).port p = s.sampledPort (s.port p) (r.get p) := by
  unfold blocksSampled
  have stored := (storeReading_block r).fold_port s p
  have a₁ := (storeReading_block r).stays.foldl_around Port.all s
  generalize Port.all.foldl (storeReading r) s = s₁ at *
  have a₂ := debounceSample_block.stays.foldl_around Port.all s₁
  have counted := debounceSample_block.fold_port s₁ p
  generalize Port.all.foldl debounceSample s₁ = s₂ at *
  have a₃ := closeSample_block.stays.foldl_around Port.all s₂
  have closed := closeSample_block.fold_port s₂ p
  generalize Port.all.foldl closeSample s₂ = s₃ at *
  have a₄ := overdrawSample_block.stays.foldl_around Port.all s₃
  have drawn := overdrawSample_block.fold_port s₃ p
  generalize Port.all.foldl overdrawSample s₃ = s₄ at *
  have watched := congrFun (watchSample_block.reads s s₄ p (a₄.trans (a₃.trans (a₂.trans a₁))))
  have drawing := congrFun (overdrawSample_block.reads s s₃ p (a₃.trans (a₂.trans a₁)))
  have closing := congrFun (closeSample_block.reads s s₂ p (a₂.trans a₁))
  rw [watchSample_block.fold_port s₄ p, watched, drawn, drawing, closed, closing, counted, stored]
  rfl

/-- A state whose samples are taken and in which nothing but the ports has changed. -/
theorem sampleTaken_of_ports {w : State} (h : w = { s with ports := w.ports }) :
    { w with sampleTaken := true } = { s with ports := { w with sampleTaken := true }.ports, sampleTaken := true } :=
  congrArg (fun x : State => { x with sampleTaken := true }) h

theorem sampleTaken_port (w : State) (p : Port) : { w with sampleTaken := true }.port p = w.port p := rfl

/-! ## Records at rest -/

theorem contractSample_rest (h : ∀ k, s.record p = some k → k.AtRest) : s.contractSample p = s := by
  have settles : s.settlingTest p = s := by
    unfold settlingTest
    cases hr : s.record p with
    | none => rfl
    | some k => exact if_neg (fun g => (h k hr).1 g.1)
  have yields : s.yieldTest p = s := by
    unfold yieldTest
    cases hr : s.record p with
    | none => rfl
    | some k =>
      obtain ⟨-, howed, -⟩ := h k hr
      dsimp only
      cases hc : k.recallPart with
      | none => rfl
      | some c =>
        have met : c.yield ≠ .owed := by simpa [hc] using howed
        have same : s.meetRecall p = s := by simp only [meetRecall, hr, hc, if_neg met]
        dsimp only
        rw [same, ite_self]
  have tests : s.testTransition p = s := by
    unfold testTransition
    cases hr : s.record p with
    | none => rfl
    | some k =>
      obtain ⟨-, -, htrans⟩ := h k hr
      dsimp only
      cases ha : k.amendment with
      | none => rfl
      | some a =>
        dsimp only
        cases hx : a.transition with
        | none => rfl
        | some x => simp [Record.inTransition, ha, hx] at htrans
  rw [contractSample, settles, yields, tests]

theorem contractSamples_rest (l : List Port) (h : ∀ p k, s.record p = some k → k.AtRest) : l.foldl contractSample s = s := by
  induction l with
  | nil => rfl
  | cons q l ih => rw [List.foldl_cons, contractSample_rest (h q), ih]

theorem exec_meterSample_taken (hs : s.straps.isSome = true) (hf : s.sampleTaken = false) (r : PerPort Reading) :
    exec (.meterSample r) s = .next (s.takeSamples r) := by
  have straps : s.straps.isNone = false := by
    rw [Option.isNone_eq_false_iff]
    exact hs
  have taken : exec (.meterSample r) s =
      if s.straps.isNone then .next s else .next ((if s.sampleTaken then s.beginTick else s).takeSamples r) := rfl
  rw [taken, straps, hf]
  rfl

theorem blocksSampled_record (s : State) (r : PerPort Reading) (p : Port) : (s.blocksSampled r).record p = s.record p := by
  rw [State.record, blocksSampled_port]
  rfl

end State

open State

/-- Settles O16: the window test is its two comparisons, and a sample over records at rest is the blocks' alone. -/
theorem sampleAtRest : Obligations.SampleAtRest := by
  refine ⟨fun v low high => ?_, fun s r hs hf hrest => ?_⟩
  · rw [windowTest, Bool.and_eq_true, decide_eq_true_eq, decide_eq_true_eq]
    rfl
  · have still : Port.all.foldl contractSample (s.blocksSampled r) = s.blocksSampled r :=
      contractSamples_rest Port.all (fun p k hr => hrest p k (by rw [← blocksSampled_record s r p]; exact hr))
    refine ⟨_, exec_meterSample_taken hs hf r, ?_, fun p => ?_⟩
    · rw [takeSamples_eq, still]
      exact sampleTaken_of_ports (blocksSampled_ports s r)
    · rw [takeSamples_eq, still, sampleTaken_port]
      exact blocksSampled_port s r p

end Sys2Proof.Machine
end

section
/-! PROOF. What the contract table's samples keep, and the sample of a tick (O15). -/

namespace Sys2Proof.Machine
open Sys2Proof

namespace State

variable {s t : State} {p q : Port} {k : Record}

/-! ## Properties that the contract table's sample on a port keeps -/

/-- A property of states that the steps of a switch-over keep, and every change of port q beside its front end; it looks at the ports alone. -/
structure TurnKept (q : Port) (I : State → Prop) : Prop extends StepsKept I where
  part : ∀ {s t : State}, t.ports = s.ports → I s → I t
  edit : ∀ {s : State} (f : PortState → PortState), (∀ u, (f u).front = u.front) → I s → I (s.modPort q f)

namespace TurnKept

variable {I : State → Prop} (h : TurnKept q I)
include h

theorem rosterKept : RosterKept I := ⟨h.toStepsKept, fun hp _ => h.part hp⟩

theorem setRecord (hs : I s) (r : Option Record) : I (s.setRecord q r) := setRecord_eq s q r ▸ h.edit _ (fun _ => rfl) hs

theorem setFlag (hs : I s) (f : PortFlag) : I (s.setFlag q f) := setFlag_eq s q f ▸ h.edit _ (fun _ => rfl) hs

theorem remarked (hs : I s) (g : Remarked s t q) : I t := by
  obtain ⟨ko, b, -, rfl⟩ := g
  exact h.edit _ (fun _ => rfl) hs

theorem reasked (hs : I s) (g : Reasked s t q) : I t := by
  obtain ⟨ko, b, r, f, -, rfl⟩ := g
  exact h.edit _ (fun _ => rfl) hs

theorem place (hs : I s) : I (s.place q) := by
  unfold State.place
  split
  · exact hs
  · exact h.part (setRoster_ports _ _) (h.setRecord hs _)

theorem rosterInsert (hs : I s) : I (s.rosterInsert q) := h.rosterKept.recompute (h.place hs)

theorem enterInForce (hs : I s) : I (s.enterInForce q) := by
  cases hr : s.record q with
  | none =>
    have same : s.enterInForce q = s := by simp only [State.enterInForce, hr]
    rwa [same]
  | some k =>
    have inserted : I ((s.modPort q (entering k)).rosterInsert q) := h.rosterInsert (h.edit _ (fun _ => rfl) hs)
    rw [enterInForce_eq hr]
    generalize (s.modPort q (entering k)).rosterInsert q = v at *
    have checked := h.remarked inserted
      (.trans (.ite (c := v.arrivedAfter q k.bidTick) (.checkRecord v q) (.refl v q)) (.baseTierTest _ q))
    exact h.reasked (h.setFlag checked .granted) (.renewalTest _ q)

theorem settlingTest (hs : I s) : I (s.settlingTest q) := by
  unfold State.settlingTest
  split
  · exact hs
  · split
    · exact h.enterInForce hs
    · exact hs

theorem requestYield (hs : I s) (y : YieldRequest) : I (s.requestYield q y) := by
  unfold State.requestYield
  split
  · exact modSlot_eq s q _ ▸ h.edit _ (fun _ => rfl) hs
  · exact hs

theorem meetRecall (hs : I s) : I (s.meetRecall q) := by
  unfold State.meetRecall
  split
  · exact hs
  · split
    · exact hs
    · split
      · exact h.requestYield (h.setRecord hs _) _
      · exact hs

theorem yieldTest (hs : I s) : I (s.yieldTest q) := by
  unfold State.yieldTest
  split
  · exact hs
  · split
    · exact hs
    · split
      · exact h.meetRecall hs
      · exact hs

theorem amendedAt (hs : I s) (k : Record) (a : Amendment) (granted lease : Nat) : I (s.amendedAt q k a granted lease) := by
  unfold State.amendedAt
  dsimp only
  refine h.setFlag ?_ .amended
  have edited : I (((s.setRecord q (some (s.amendedRecord k a granted lease))).modSlot q (fun x => x.withdrawRenew k.handle)).modMonitor q
      (fun m => { m with burstArmed := true })) := by
    rw [setRecord_eq, modSlot_eq, modMonitor_eq, modPort_modPort, modPort_modPort]
    exact h.edit _ (fun _ => rfl) hs
  split
  · exact h.part (by rw [publish_eq]) edited
  · exact edited

theorem applyAmendment {a : Amendment} (hs : I s) (hr : s.record q = some k) (ha : k.amendment = some a) (granted lease : Nat) :
    I (s.applyAmendment q granted lease) := by
  have placed : I ((s.amendedAt q k a granted lease).rosterReplace q) := h.rosterInsert (h.amendedAt hs k a granted lease)
  rw [applyAmendment_eq s q hr ha]
  exact h.remarked placed (.trans (.ite (.checkRecord _ q) (.refl _ q)) (.sendOwed _ q))

theorem testTransition (hs : I s) : I (s.testTransition q) := by
  unfold State.testTransition
  split
  · exact hs
  · next k hr =>
    split
    · exact hs
    · next a ha =>
      split
      · exact hs
      · split
        · exact h.applyAmendment hs hr ha _ _
        · exact hs

theorem contractSample (hs : I s) : I (s.contractSample q) := h.testTransition (h.yieldTest (h.settlingTest hs))

end TurnKept

/-! ## The front end -/

/-- The front end but for path and close operation stays through a sample of the contract table, on every port. -/
theorem front_turnKept (p q : Port) (x : FrontEnd) : TurnKept q (fun s => (s.port p).lasting.front = x) where
  role r _ _ h := by rw [(setRole_worked _ r _).2.2.2 p, h]
  opens r h := by rw [(openPath_worked _ r).2.2.2 p, h]
  closes r ht h := by rw [(setRole_worked _ r _).2.2.2 p, (requestClose_worked _ r _ _ ht).2.2.2 p, h]
  part hp h := by rw [port, hp]; exact h
  edit f hf h := by
    by_cases hp : p = q
    · subst hp
      rw [port_modPort_self, PortState.lasting, hf]
      exact h
    · rwa [port_modPort_ne _ _ _ hp]

theorem contractSamples_front (l : List Port) (s : State) (p : Port) :
    ((l.foldl contractSample s).port p).lasting.front = (s.port p).lasting.front := by
  induction l generalizing s with
  | nil => rfl
  | cons q l ih =>
    rw [List.foldl_cons, ih]
    exact (front_turnKept p q (s.port p).lasting.front).contractSample rfl

theorem contractSamples_time (l : List Port) (s : State) : (l.foldl contractSample s).time = s.time := by
  induction l generalizing s with
  | nil => rfl
  | cons q l ih => rw [List.foldl_cons, ih, (contractSample_moves s q).frameAt.time]

/-! ## A tick that ends -/

theorem foldl_settlePort_straps (l : List Port) (s : State) : (l.foldl settlePort s).straps = s.straps := by
  induction l generalizing s with
  | nil => rfl
  | cons q l ih =>
    have same : (s.settlePort q).apart = s.apart := (settlePort_serves s q).part
    rw [List.foldl_cons, ih]
    exact (congrArg State.straps same :)

/-- The rows that a tick's end takes are those of what samples have made due (log 2, log 39). -/
theorem completionRows_foldl (s : State) : completionRows.foldl ran s = Port.all.foldl settlePort s :=
  List.foldl_flatMap ..

theorem beginTick_straps (s : State) : s.beginTick.straps = s.straps := by
  rw [beginTick]
  dsimp only
  exact foldl_settlePort_straps Port.all s

theorem beginTick_sampleTaken (s : State) : s.beginTick.sampleTaken = false := by rw [beginTick]

theorem execMeterSample_straps (hs : s.straps.isSome = true) (r : PerPort Reading) :
    exec (.meterSample r) s = .next ((if s.sampleTaken then s.beginTick else s).takeSamples r) :=
  if_neg (by simpa using Option.isSome_iff_ne_none.mp hs)

theorem exec_meterSample_next (hs : s.straps.isSome = true) (hf : s.sampleTaken = true) (r : PerPort Reading) :
    exec (.meterSample r) s = exec (.meterSample r) s.beginTick := by
  rw [execMeterSample_straps hs, execMeterSample_straps (by rw [beginTick_straps]; exact hs), beginTick_sampleTaken, if_pos hf]
  rfl

theorem sampleTaken_time (w : State) : { w with sampleTaken := true }.time = w.time := rfl

end State

open State

/-- Settles O15: a sample of the next tick begins that tick first; a sample of this one is stored and counted. -/
theorem sampleStored : Obligations.SampleStored := by
  intro s r hs
  refine ⟨fun hf => ⟨exec_meterSample_next hs hf r, ?_⟩, fun hf => ⟨_, exec_meterSample_taken hs hf r, rfl, ?_, fun p => ?_⟩⟩
  · rw [completionRows_foldl, beginTick, foldl_settlePort_time]
  · have time := contractSamples_time Port.all (s.blocksSampled r)
    obtain ⟨-, -, -, -, -, before, -⟩ := part_of_around (blocksSampled_around s r)
    rw [takeSamples_eq, sampleTaken_time, time, before]
  · have front := contractSamples_front Port.all (s.blocksSampled r) p
    rw [blocksSampled_port] at front
    rw [mode, takeSamples_eq, sampleTaken_port]
    exact ⟨(congrArg FrontEnd.voltage front :), (congrArg FrontEnd.current front :), (congrArg FrontEnd.debounce front :),
      (congrArg FrontEnd.attach front :), (congrArg FrontEnd.mode front :), (congrArg FrontEnd.pathRequest front :)⟩

end Sys2Proof.Machine
end

section
/-! PROOF. The turn of one port in the contract table's samples: the entry into IN_FORCE and the end of a transition (O17). -/

namespace Sys2Proof.Machine
open Sys2Proof

namespace State

variable {s t u v : State} {p q : Port} {k : Record}

/-! ## The turn of one port -/

/-- The contract table's samples are those of the ports before p, that of p, and those of the ports after it (log 39). -/
theorem contractSamples_turn (v : State) (p : Port) : ∃ l₁ l₂ : List Port, p ∉ l₁ ∧ p ∉ l₂ ∧
    Port.all.foldl contractSample v = l₂.foldl contractSample ((l₁.foldl contractSample v).contractSample p) := by
  obtain ⟨l₁, l₂, split⟩ := List.append_of_mem (mem_all p)
  have distinct : (l₁ ++ p :: l₂).Nodup := split ▸ all_nodup
  obtain ⟨fresh, -⟩ := List.nodup_cons.mp (List.nodup_middle.mp distinct)
  rw [List.mem_append, not_or] at fresh
  exact ⟨l₁, l₂, fresh.1, fresh.2, by rw [split, List.foldl_append, List.foldl_cons]⟩

/-- A property that the sample on each other port keeps, the samples on other ports keep. -/
theorem contractSamples_others {I : State → Prop} (h : ∀ q, q ≠ p → ∀ s, I s → I (s.contractSample q)) {l : List Port} (hl : p ∉ l) (hs : I s) :
    I (l.foldl contractSample s) := by
  induction l generalizing s with
  | nil => exact hs
  | cons q l ih =>
    rw [List.mem_cons, not_or] at hl
    exact ih hl.2 (h q (Ne.symm hl.1) s hs)

/-- What lasts of a port and of the part stays through the samples on other ports. -/
theorem contractSamples_frame {l : List Port} (hl : p ∉ l) (s : State) :
    (l.foldl contractSample s).lasting = s.lasting ∧ ((l.foldl contractSample s).port p).lasting = (s.port p).lasting :=
  contractSamples_others (I := fun t => t.lasting = s.lasting ∧ (t.port p).lasting = (s.port p).lasting)
    (fun q hq t h => ⟨(contractSample_moves t q).frameAt.1.trans h.1, ((contractSample_moves t q).frameAt.2 p (Ne.symm hq)).trans h.2⟩)
    hl ⟨rfl, rfl⟩

/-! ## Records without a transition -/

/-- The port's record, if it has one, is in no transition (R77). -/
def Untransited (s : State) (p : Port) : Prop := ∀ k, s.record p = some k → k.inTransition = false

theorem Untransited.of_record {k : Record} (hr : s.record p = some k) (h : k.inTransition = false) : s.Untransited p :=
  fun _ hr' => Option.some.inj (hr.symm.trans hr') ▸ h

theorem Untransited.congr (h : s.Untransited p) (hr : t.record p = s.record p) : t.Untransited p := fun k hk => h k (hr ▸ hk)

theorem setRecord_record (s : State) (p : Port) (r : Option Record) : (s.setRecord p r).record p = r := by
  rw [setRecord_eq, record, port_modPort_self]

theorem requestBid_record (s : State) (p : Port) (r : BidRequest) : (s.requestBid p r).record p = s.record p := by
  unfold requestBid
  split
  · rw [modSlot_eq, record, port_modPort_self, record]
  · rfl

theorem Untransited.askAmendment (h : s.Untransited p) (c : AmendCause) (b : Terms) : (s.askAmendment p c b).Untransited p := by
  unfold State.askAmendment
  split
  · exact h
  · next k hr =>
    split
    · unfold State.sendAmendment
      rw [hr]
      exact .of_record ((requestBid_record _ p _).trans (setRecord_record s p _)) rfl
    · refine .of_record (setRecord_record s p _) ?_
      cases c
      · exact h k hr
      · exact h k hr

theorem Untransited.checkRecord (h : s.Untransited p) : (s.checkRecord p).Untransited p := by
  unfold State.checkRecord
  split
  · exact h
  · next k hr =>
    have stale : (s.setRecord p (some { k with stale := true })).Untransited p := .of_record (setRecord_record s p _) (h k hr)
    split
    · exact h
    · split
      · exact .of_record (setRecord_record s p _) (h k hr)
      · dsimp only
        split
        · split
          · exact stale.askAmendment _ _
          · exact stale
        · exact stale

theorem Untransited.baseTierTest (h : s.Untransited p) : (s.baseTierTest p).Untransited p := by
  unfold State.baseTierTest
  split
  · exact h
  · split
    · split
      · split
        · exact h
        · exact h.askAmendment _ _
      · exact h
    · exact h

theorem Untransited.renewalTest (h : s.Untransited p) : (s.renewalTest p).Untransited p := by
  cases hr : s.record p with
  | none => rwa [renewalTest_none hr]
  | some k =>
    refine .of_record (renewalTest_record hr) ?_
    split
    · exact h k hr
    · exact h k hr

theorem Untransited.worked (h : s.Untransited p) (hw : Worked s t) : t.Untransited p := by
  intro k hk
  have same := hw.records p
  rw [hk] at same
  obtain ⟨k₀, hk₀, hlasting⟩ := Option.map_eq_some_iff.mp same.symm
  have amendment : k.amendment = k₀.amendment := (congrArg Record.amendment hlasting.symm :)
  rw [Record.inTransition, amendment]
  exact h k₀ hk₀

/-- The entry into IN_FORCE begins no transition (R69). -/
theorem enterInForce_untransited (hr : s.record p = some k) (h : k.inTransition = false) : (s.enterInForce p).Untransited p := by
  have hport : (s.modPort p (entering k)).port p = entering k (s.port p) := port_modPort_self s p _
  have entered : (s.modPort p (entering k)).record p = some { k with state := .inForce } := by
    rw [record, hport]
    rfl
  have placed : ((s.modPort p (entering k)).place p).Untransited p := by
    refine .of_record (k := (s.modPort p (entering k)).ranked p { k with state := .inForce }) ?_ h
    rw [record, place_port entered]
  have inserted : ((s.modPort p (entering k)).rosterInsert p).Untransited p := placed.worked (recompute_worked _)
  rw [enterInForce_eq hr]
  generalize (s.modPort p (entering k)).rosterInsert p = v at *
  have checked : ((if v.arrivedAfter p k.bidTick then v.checkRecord p else v).baseTierTest p).Untransited p := by
    refine Untransited.baseTierTest ?_
    split
    · exact inserted.checkRecord
    · exact inserted
  refine Untransited.renewalTest (checked.congr ?_)
  rw [setFlag_eq, record, port_modPort_self, record]

theorem testTransition_untransited (h : s.Untransited p) : s.testTransition p = s := by
  unfold testTransition
  cases hr : s.record p with
  | none => rfl
  | some k =>
    have calm := h k hr
    cases ha : k.amendment with
    | none => simp only [ha]
    | some a =>
      cases hx : a.transition with
      | none => simp only [ha, hx]
      | some x => simp [Record.inTransition, ha, hx] at calm

theorem yieldTest_worked (s : State) (p : Port) : Worked s (s.yieldTest p) := by
  unfold yieldTest
  split
  · exact .refl s
  · split
    · exact .refl s
    · split
      · exact meetRecall_worked s p
      · exact .refl s

/-! ## The entry into IN_FORCE at a sample -/

theorem fields_of_lasting {k k' : Record} (h : k'.lasting = k.lasting) :
    k'.state = k.state ∧ k'.tier = k.tier ∧ k'.settledHeard = k.settledHeard ∧ k'.amendment = k.amendment ∧ k'.low = k.low ∧ k'.high = k.high ∧
      k'.handle = k.handle :=
  ⟨(congrArg Record.state h :), (congrArg Record.tier h :), (congrArg Record.settledHeard h :), (congrArg Record.amendment h :),
    (congrArg Record.low h :), (congrArg Record.high h :), (congrArg Record.handle h :)⟩

/-- A handle on the roster stays on it through the sample of any port. -/
theorem contractSample_listed {h : Handle} (hs : h ∈ s.roster.list) (q : Port) : h ∈ (s.contractSample q).roster.list := by
  have entered (s : State) (hs : h ∈ s.roster.list) : h ∈ (s.settlingTest q).roster.list := by
    unfold settlingTest
    split
    · exact hs
    · next k hr =>
      split
      · have hrecord : (s.modPort q (entering k)).record q = some { k with state := .inForce } := by
          rw [record, port_modPort_self]
          rfl
        have inserted := ((rosterInsert_placedAt hrecord).list h).mpr (.inr hs)
        rw [enterInForce_eq hr]
        generalize (s.modPort q (entering k)).rosterInsert q = v at *
        have marked : Remarked v ((if v.arrivedAfter q k.bidTick then v.checkRecord q else v).baseTierTest q) q :=
          .trans (.ite (.checkRecord v q) (.refl v q)) (.baseTierTest _ q)
        have whole := (marked.reasked.trans (.setFlag _ q .granted)).trans (.renewalTest _ q)
        dsimp only
        rw [whole.roster]
        exact inserted
      · exact hs
  have tested (s : State) (hs : h ∈ s.roster.list) : h ∈ (s.testTransition q).roster.list := by
    unfold testTransition
    split
    · exact hs
    · next k hr =>
      split
      · exact hs
      · next a ha =>
        split
        · exact hs
        · next x hx =>
          split
          · have hrecord : (s.amendedAt q k a x.granted x.lease).record q = some (s.amendedRecord k a x.granted x.lease) := by
              rw [record, amendedAt_port]
            have roster : (s.amendedAt q k a x.granted x.lease).roster = s.roster := by
              unfold amendedAt
              dsimp only
              split
              · rw [publish_eq]
                rfl
              · rfl
            have placed := ((rosterReplace_placedAt hrecord).list h).mpr (.inr (by rw [roster]; exact hs))
            rw [applyAmendment_eq s q hr ha]
            generalize (s.amendedAt q k a x.granted x.lease).rosterReplace q = v at *
            have marked : Remarked v ((if v.arrivedAfter q a.bidTick then v.checkRecord q else v).sendOwed q) q :=
              .trans (.ite (.checkRecord _ q) (.refl _ q)) (.sendOwed _ q)
            rw [marked.roster]
            exact placed
          · exact hs
  refine tested _ ?_
  rw [(yieldTest_worked _ q).2.2.1]
  exact entered s hs

/-- What a sample leaves of a record that enters IN_FORCE with it. -/
theorem contractSample_enters (hr : u.record p = some k) (hs : k.state = .settling) (hk : k.tier = 0 ∨ k.settledHeard = true)
    (ha : k.amendment = none) (hv : windowTest (u.port p).front.voltage k.low k.high = true) :
    Worked (u.enterInForce p) (u.contractSample p) := by
  have calm : (u.enterInForce p).Untransited p := enterInForce_untransited hr (by rw [Record.inTransition, ha])
  have worked := yieldTest_worked (u.enterInForce p) p
  rw [contractSample, settlingTest_enters hr hs hk hv, testTransition_untransited (calm.worked worked)]
  exact worked

/-- A record's terms with a state and a rank are read off what lasts of it. -/
theorem terms_entered {k k' : Record} (h : k'.lasting = k.lasting) (rank : Option Nat) :
    { k' with state := .inForce, rank := rank }.terms = { k with state := .inForce, rank := rank }.terms :=
  congrArg (fun x : Record => { x with state := .inForce, rank := rank }) (Record.terms_of_lasting h)

/-- A record that the samples of a tick take into IN_FORCE (R61, R69). -/
theorem contractSamples_enter (hr : v.record p = some k) (hs : k.state = .settling) (hk : k.tier = 0 ∨ k.settledHeard = true)
    (ha : k.amendment = none) (hv : windowTest (v.port p).front.voltage k.low k.high = true) :
    (∃ k', (Port.all.foldl contractSample v).record p = some k' ∧
      k'.terms = { k with state := .inForce, rank := some (v.port p).rank }.terms) ∧
    ((Port.all.foldl contractSample v).port p).contract.attempts = 0 ∧ ((Port.all.foldl contractSample v).port p).contract.holdoff = none ∧
    (Port.all.foldl contractSample v).flag p .granted = true ∧ k.handle ∈ (Port.all.foldl contractSample v).roster.list := by
  obtain ⟨l₁, l₂, h₁, h₂, turn⟩ := contractSamples_turn v p
  have before := (contractSamples_frame h₁ v).2
  rw [turn]
  generalize l₁.foldl contractSample v = u at *
  have same := (congrArg (fun x : PortState => x.contract.record) before :)
  dsimp only [PortState.lasting] at same
  rw [show (v.port p).contract.record = some k from hr] at same
  obtain ⟨k₁, hk₁, hlasting⟩ := Option.map_eq_some_iff.mp same
  obtain ⟨hstate, htier, hheard, hamend, hlow, hhigh, hhandle⟩ := fields_of_lasting hlasting
  have voltage : (u.port p).front.voltage = (v.port p).front.voltage := (congrArg (fun x : PortState => x.front.voltage) before :)
  have rank : (u.port p).rank = (v.port p).rank := (congrArg PortState.rank before :)
  have entered := enterInForce_enteredAt (s := u) (p := p) (k := k₁) hk₁
  have sampled := contractSample_enters (u := u) (p := p) hk₁ (hstate.trans hs) (by rw [htier, hheard]; exact hk) (hamend.trans ha)
    (by rw [voltage, hlow, hhigh]; exact hv)
  obtain ⟨-, ⟨k₂, hk₂, hterms⟩, hattempts, hholdoff, hgranted, hlisted⟩ := entered
  have after := (contractSamples_frame h₂ (u.contractSample p)).2.trans (sampled.2.2.2 p)
  have listed : k.handle ∈ (l₂.foldl contractSample (u.contractSample p)).roster.list := by
    refine contractSamples_others (p := p) (I := fun t => k.handle ∈ t.roster.list) (fun q _ t ht => contractSample_listed ht q) h₂ ?_
    rw [sampled.2.2.1, ← hhandle]
    exact hlisted
  generalize l₂.foldl contractSample (u.contractSample p) = w at *
  generalize u.enterInForce p = e at *
  have records := (congrArg (fun x : PortState => x.contract.record) after :)
  dsimp only [PortState.lasting] at records
  rw [show (e.port p).contract.record = some k₂ from hk₂] at records
  obtain ⟨k', hk', hlast⟩ := Option.map_eq_some_iff.mp records
  refine ⟨⟨k', hk', (Record.terms_of_lasting hlast).trans (hterms.trans ?_)⟩, ?_, ?_, ?_, listed⟩
  · rw [rank]
    exact terms_entered hlasting _
  · exact (congrArg (fun x : PortState => x.contract.attempts) after :).trans hattempts
  · exact (congrArg (fun x : PortState => x.contract.holdoff) after :).trans hholdoff
  · have flags : (w.port p).flags = (e.port p).flags := (congrArg PortState.flags after :)
    rw [flag, flags]
    exact hgranted

/-! ## The end of a transition at a sample -/

/-- The port's path is CLOSED, or the allocator has published at this tick. -/
def ShutOrPublished (s : State) (p : Port) : Prop := s.path p = .closed ∨ s.allocator.publishedAt = s.tick

theorem ShutOrPublished.congr (h : s.ShutOrPublished p) (hp : t.path p = s.path p) (ha : t.allocator = s.allocator) (ht : t.tick = s.tick) :
    t.ShutOrPublished p := by
  rwa [ShutOrPublished, hp, ha, ht]

/-- A change of one port that does not open a CLOSED path. -/
theorem ShutOrPublished.modPort (h : s.ShutOrPublished p) (q : Port) {f : PortState → PortState}
    (hf : (s.port q).front.path = .closed → (f (s.port q)).front.path = .closed) : (s.modPort q f).ShutOrPublished p := by
  rcases h with h | h
  · refine .inl ?_
    by_cases hq : p = q
    · subst hq
      rw [path, port_modPort_self]
      exact hf h
    · rw [path, port_modPort_ne _ _ _ hq]
      exact h
  · exact .inr h

theorem ShutOrPublished.openPath (h : s.ShutOrPublished p) (q : Port) : (s.openPath q).ShutOrPublished p := by
  have tick := ((openPath_worked s q).frameAt q).tick
  rcases h with h | h
  · by_cases hq : p = q
    · subst hq
      exact .inr ((openPath_publishedAt h).trans tick.symm)
    · exact .inl (by rw [path, openPath_others _ _ hq]; exact h)
  · exact .inr ((openPath_published h).trans tick.symm)

/-- Every move on a path reports it: one that was CLOSED and is no longer has been published (R142). -/
theorem ShutOrPublished.moves (h : s.ShutOrPublished p) (hm : Moves q s t) : t.ShutOrPublished p := by
  induction hm with
  | still hs =>
    exact h.congr (path_of_core (hs.2.2.1 p)) hs.2.1 (congrArg (fun x : State => tickOf x.time) hs.1 :)
  | ask r c _ ho => exact h.modPort r (fun hc => absurd hc (ne_closed_of_opened ho))
  | drop r hr => exact h.modPort r (fun hc => absurd hc (ne_closed_of_closing hr))
  | opens r hc => exact h.openPath r
  | @closes s hc =>
    refine .inr (Eq.trans ?_ (Moves.closes (p := q) hc).frameAt.tick.symm)
    simp only [closePath, reportPath_publishedAt]
    rfl
  | publish => exact .inr ((publish_publishedAt _).trans (by rw [publish_eq]; rfl))
  | @pass s b =>
    refine h.imp (fun hc => ?_) (fun hp => ?_)
    · rw [path, setPassEnable_port]
      exact hc
    · exact (published_moves (Moves.pass (p := q) b) hp).trans (Moves.pass (p := q) (s := s) b).frameAt.tick.symm
  | @create s r _ _ =>
    have same : { s with lastHandle := r.handle }.ShutOrPublished p := h.congr rfl rfl rfl
    rw [createRecord, setRecord_eq]
    exact same.modPort q id
  | revise r r' _ _ _ => exact h.modPort q id
  | benches r _ => exact ShutOrPublished.openPath (h.modPort q id) q
  | clear _ => exact h.modPort q id
  | mode m _ => exact h.modPort q id
  | trans _ _ ih jh => exact jh (ih h)

theorem contractSamples_shutOrPublished {l : List Port} (h : s.ShutOrPublished p) : (l.foldl contractSample s).ShutOrPublished p := by
  induction l generalizing s with
  | nil => exact h
  | cons q l ih => exact ih (h.moves (contractSample_moves s q))

theorem contractSamples_published {l : List Port} (h : s.allocator.publishedAt = s.tick) :
    (l.foldl contractSample s).allocator.publishedAt = s.tick := by
  induction l generalizing s with
  | nil => exact h
  | cons q l ih =>
    have moves := contractSample_moves s q
    have tick := moves.frameAt.tick
    rw [List.foldl_cons, ih ((published_moves moves h).trans tick.symm), tick]

/-- The yield of a recall is no matter of what an amendment makes of the record. -/
theorem recordAmended_terms_lasting (s : State) (p : Port) (k : Record) (a : Amendment) (granted lease : Nat) :
    (s.recordAmended p k.lasting a granted lease).terms = (s.recordAmended p k a granted lease).terms := by
  unfold recordAmended Record.terms Record.lasting
  cases hc : k.recallPart with
  | none => rfl
  | some c =>
    by_cases kept : a.bidTick < c.arrival ∧ c.ceiling < granted
    · simp [Option.filter, kept]
    · simp [Option.filter, kept]

theorem recordAmended_terms_congr {k k' : Record} (h : k'.lasting = k.lasting) (ht : t.tick = s.tick) (hk : (t.port p).rank = (s.port p).rank)
    (a : Amendment) (granted lease : Nat) : (t.recordAmended p k' a granted lease).terms = (s.recordAmended p k a granted lease).terms := by
  rw [← recordAmended_terms_lasting, h, recordAmended_terms_lasting, recordAmended, State.ahead, ht, hk]
  rfl

theorem settlingTest_live (hr : s.record p = some k) (hl : k.live = true) : s.settlingTest p = s := by
  have live : k.state ≠ .settling := fun h => by
    rw [Record.live, h] at hl
    cases hl
  simp only [settlingTest, hr]
  exact if_neg (fun h => live h.1)

/-- An armed burst stays armed through a sample on another port. -/
theorem burstArmed_turnKept (hq : q ≠ p) : TurnKept q (fun s => (s.port p).monitor.burstArmed = true) :=
  ⟨(burstArmed_kept p).toStepsKept, fun hp h => by rw [port, hp]; exact h, fun f _ h => by rwa [port_modPort_ne _ _ _ (Ne.symm hq)]⟩

/-- A transition that the samples of a tick end (R76, R78). -/
theorem contractSamples_amend {a : Amendment} {x : Transition} (hr : v.record p = some k) (hl : k.live = true) (ha : k.amendment = some a)
    (hx : a.transition = some x) (hs : x.settledHeard = true) (hv : windowTest (v.port p).front.voltage a.low a.high = true) :
    (∃ k', (Port.all.foldl contractSample v).record p = some k' ∧ k'.terms = (v.recordAmended p k a x.granted x.lease).terms ∧
      k'.renewal = none) ∧
    (Port.all.foldl contractSample v).flag p .amended = true ∧ ((Port.all.foldl contractSample v).port p).monitor.burstArmed = true ∧
    (v.path p = .closed → (Port.all.foldl contractSample v).allocator.publishedAt = v.tick) := by
  obtain ⟨l₁, l₂, h₁, h₂, turn⟩ := contractSamples_turn v p
  obtain ⟨part, before⟩ := contractSamples_frame h₁ v
  have shut (h : v.path p = .closed) : (l₁.foldl contractSample v).ShutOrPublished p := contractSamples_shutOrPublished (.inl h)
  have tick : (l₁.foldl contractSample v).tick = v.tick := (congrArg (fun y : State => tickOf y.time) part :)
  rw [turn]
  generalize l₁.foldl contractSample v = u at *
  have same := (congrArg (fun x : PortState => x.contract.record) before :)
  dsimp only [PortState.lasting] at same
  rw [show (v.port p).contract.record = some k from hr] at same
  obtain ⟨k₁, hk₁, hlasting₁⟩ := Option.map_eq_some_iff.mp same
  have live₁ : k₁.live = true := by
    rw [Record.live, (fields_of_lasting hlasting₁).1]
    exact hl
  have worked := yieldTest_worked u p
  have moved := yieldTest_moves u p
  have sampled : u.contractSample p = (u.yieldTest p).testTransition p := by
    rw [contractSample, settlingTest_live (s := u) hk₁ live₁]
  rw [sampled]
  have records := worked.records p
  rw [show u.record p = some k₁ from hk₁] at records
  obtain ⟨k₂, hk₂, hlasting₂⟩ := Option.map_eq_some_iff.mp records
  have hlasting := hlasting₂.trans hlasting₁
  obtain ⟨hstate, -, -, hamend, -⟩ := fields_of_lasting hlasting
  have live₂ : k₂.live = true := by
    rw [Record.live, hstate]
    exact hl
  have port₂ := (worked.2.2.2 p).trans before
  have voltage : ((u.yieldTest p).port p).front.voltage = (v.port p).front.voltage := (congrArg (fun x : PortState => x.front.voltage) port₂ :)
  have rank : ((u.yieldTest p).port p).rank = (v.port p).rank := (congrArg PortState.rank port₂ :)
  have tick₂ : (u.yieldTest p).tick = v.tick := moved.frameAt.tick.trans tick
  have shut₂ (h : v.path p = .closed) := (shut h).moves moved
  generalize u.yieldTest p = y at *
  have amended := applyAmendment_amendedAt (p := p) hk₂ live₂ (hamend.trans ha) x.granted x.lease
  rw [testTransition_applies hk₂ live₂ (hamend.trans ha) hx hs (by rw [voltage]; exact hv)]
  have moves : Moves p y (y.applyAmendment p x.granted x.lease) := applyAmendment_moves y p x.granted x.lease
  have tick₃ := moves.frameAt.tick
  generalize y.applyAmendment p x.granted x.lease = z at *
  obtain ⟨-, ⟨k₃, hk₃, hterms, hrenewal⟩, hflag, hburst, -, -, hpublished⟩ := amended
  have after := (contractSamples_frame h₂ z).2
  have burst : ((l₂.foldl contractSample z).port p).monitor.burstArmed = true :=
    contractSamples_others (p := p) (I := fun t => (t.port p).monitor.burstArmed = true)
      (fun q hq t ht => (burstArmed_turnKept hq).contractSample ht) h₂ hburst
  have published (h : v.path p = .closed) : (l₂.foldl contractSample z).allocator.publishedAt = v.tick := by
    have now : z.allocator.publishedAt = z.tick := by
      rcases shut₂ h with hc | hp
      · exact (hpublished hc).trans tick₃.symm
      · exact (published_moves moves hp).trans tick₃.symm
    rw [contractSamples_published now, tick₃, tick₂]
  generalize l₂.foldl contractSample z = w at *
  have final := (congrArg (fun x : PortState => x.contract.record) after :)
  dsimp only [PortState.lasting] at final
  rw [show (z.port p).contract.record = some k₃ from hk₃] at final
  obtain ⟨k', hk', hlast⟩ := Option.map_eq_some_iff.mp final
  refine ⟨⟨k', hk', ?_, ?_⟩, ?_, burst, published⟩
  · rw [Record.terms_of_lasting hlast, hterms]
    exact recordAmended_terms_congr hlasting tick₂ rank a x.granted x.lease
  · exact (congrArg Record.renewal hlast :).trans hrenewal
  · have flags : (w.port p).flags = (z.port p).flags := (congrArg PortState.flags after :)
    rw [flag, flags]
    exact hflag

end State

end Sys2Proof.Machine
end

section
/-! PROOF. A recall that a sample meets, and the three moves of a sample together (O17). -/

namespace Sys2Proof.Machine
open Sys2Proof

namespace PortState

/-- The handle of the port's record, with its recall. -/
def recalled (u : PortState) : Option (Handle × Option Recall) := u.contract.record.map (fun k => (k.handle, k.recallPart))

/-- What the yield to a recall concerns: the recall, the link's state and the waiting YIELD (R103, R34). -/
def yielding (u : PortState) : Option (Handle × Option Recall) × LinkState × Option YieldRequest :=
  (u.recalled, u.link.state, u.link.slot.yield)

/-- The port's recall is met, and YIELD MET waits on a usable link (R103, R34). -/
def Met (u : PortState) (h : Handle) (c : Recall) : Prop :=
  u.recalled = some (h, some { c with yield := .met }) ∧
    (u.link.state ≠ .quiet ∧ u.link.state ≠ .mute → u.link.slot.yield = some { handle := h, tag := c.tag, status := .met })

theorem Met.congr {u w : PortState} {h : Handle} {c : Recall} (m : u.Met h c) (hw : w.yielding = u.yielding) : w.Met h c := by
  obtain ⟨recalled, state⟩ := Prod.mk.inj hw
  obtain ⟨state, waiting⟩ := Prod.mk.inj state
  rwa [Met, recalled, state, waiting]

theorem recalled_eq_some {u : PortState} {h : Handle} {o : Option Recall} :
    u.recalled = some (h, o) ↔ ∃ k, u.contract.record = some k ∧ k.handle = h ∧ k.recallPart = o := by
  simp only [recalled, Option.map_eq_some_iff, Prod.mk.injEq]

end PortState

namespace State

variable {s t u v : State} {p q : Port} {k : Record} {h : Handle} {c : Recall} {owed : Prop} {l : LinkState}

/-! ## A recall that can be met -/

/-- The port's recall is met, or, where it may still be, it is the one given; nothing stands against meeting it (R103). -/
structure Yields (s : State) (p : Port) (h : Handle) (c : Recall) (l : LinkState) (owed : Prop) : Prop where
  pending : owed ∧ (s.port p).recalled = some (h, some c) ∨ (s.port p).Met h c
  link : (s.port p).link.state = l
  free : s.path p ≠ .closed ∨ (s.port p).front.current ≤ c.ceiling

theorem Yields.congr (y : s.Yields p h c l owed) (hy : (t.port p).yielding = (s.port p).yielding)
    (hc : (t.port p).front.current = (s.port p).front.current) (hp : t.path p = .closed → s.path p = .closed) : t.Yields p h c l owed :=
  ⟨y.pending.imp (fun r => ⟨r.1, (congrArg Prod.fst hy).trans r.2⟩) (fun m => m.congr hy),
    (congrArg (fun x => x.2.1) hy).trans y.link, y.free.imp (fun n hc => n (hp hc)) (fun l => hc ▸ l)⟩

/-- A change of one port beside its yield and its front end. -/
theorem Yields.modPort (y : s.Yields p h c l owed) (q : Port) {f : PortState → PortState} (hf : (f (s.port q)).yielding = (s.port q).yielding)
    (hx : (f (s.port q)).front = (s.port q).front) : (s.modPort q f).Yields p h c l owed := by
  by_cases hq : p = q
  · subst hq
    refine y.congr ?_ ?_ (fun hp => ?_)
    · rw [port_modPort_self, hf]
    · rw [port_modPort_self, hx]
    · rwa [path, port_modPort_self, hx] at hp
  · refine y.congr ?_ ?_ (fun hp => ?_)
    · rw [port_modPort_ne _ _ _ hq]
    · rw [port_modPort_ne _ _ _ hq]
    · rwa [path, port_modPort_ne _ _ _ hq] at hp

/-! ## Meeting it -/

/-- An OWED recall met, on any link: the YIELD waits on a usable one (R103, R34). -/
theorem meetRecall_port_owed (hr : s.record p = some k) (hc : k.recallPart = some c) (hy : c.yield = .owed) :
    (s.meetRecall p).port p =
      { s.port p with
        contract := { (s.port p).contract with record := some { k with recallPart := some { c with yield := .met } } }
        link := { (s.port p).link with slot := { (s.port p).link.slot with
          yield := if s.linkUsable p then some { handle := k.handle, tag := c.tag, status := .met } else (s.port p).link.slot.yield } } } := by
  have meets : s.meetRecall p = (s.setRecord p (some { k with recallPart := some { c with yield := .met } })).requestYield p
      { handle := k.handle, tag := c.tag, status := .met } := by
    simp only [meetRecall, hr, hc, if_pos hy]
  have usable (o : Option Record) : (s.setRecord p o).linkUsable p = s.linkUsable p := by
    rw [linkUsable, linkUsable, linkState, setRecord_eq, port_modPort_self]
    rfl
  rw [meets, requestYield_self, usable, setRecord_eq, port_modPort_self]
  split
  · rfl
  · rfl

theorem meetRecall_yields (hy : c.yield = .owed) (y : s.Yields p h c l owed) : (s.meetRecall p).Yields p h c l False := by
  obtain ⟨⟨-, recalled⟩ | met, link, free⟩ := y
  · obtain ⟨k, hk, rfl, hc⟩ := PortState.recalled_eq_some.mp recalled
    have port := meetRecall_port_owed (s := s) (p := p) hk hc hy
    refine ⟨.inr ⟨?_, fun usable => ?_⟩, ?_, ?_⟩
    · rw [port]
      rfl
    · rw [port] at usable ⊢
      exact if_pos ((linkUsable_iff _ _).mpr usable)
    · rw [port]
      exact link
    · rwa [path, port]
  · obtain ⟨k, hk, -, hc⟩ := PortState.recalled_eq_some.mp met.1
    have calm : s.meetRecall p = s := meetRecall_calm (fun k' c' hk' hc' => by
      obtain rfl := Option.some.inj (hk.symm.trans hk')
      obtain rfl := Option.some.inj (hc.symm.trans hc')
      nofun)
    rw [calm]
    exact ⟨.inr met, link, free⟩

theorem Yields.weaken (y : s.Yields p h c l False) : s.Yields p h c l owed := ⟨y.pending.imp (fun r => r.1.elim) id, y.link, y.free⟩

/-- A path that opens meets the recall, or leaves it as it is (R103). -/
theorem openPath_yields (hy : c.yield = .owed) (y : s.Yields p h c l owed) (q : Port) : (s.openPath q).Yields p h c l owed := by
  by_cases hq : p = q
  · subst hq
    cases hp : s.path p with
    | opened => simpa only [openPath, hp] using y
    | closing =>
      rw [openPath_closing s p hp]
      refine y.congr ?_ ?_ (fun closed => ?_)
      · rw [port_modPort_self]
        rfl
      · rw [port_modPort_self]
      · rw [path, port_modPort_self] at closed
        cases closed
    | closed =>
      generalize hu : ((s.modFront p (fun f => { f with path := .opened, closeOp := none })).modMonitor p Monitor.stop).tidyWatch p = u
      have opens : s.openPath p = (u.meetRecall p).reportPath p false := by
        rw [← hu]
        simp only [openPath, hp]
      have stopped : u.Yields p h c l owed := by
        rw [← hu, modFront_eq, modMonitor_eq, modPort_modPort, tidyWatch_eq, modPort_modPort]
        refine y.congr ?_ ?_ (fun closed => ?_)
        · rw [port_modPort_self]
          rfl
        · rw [port_modPort_self]
        · rw [path, port_modPort_self] at closed
          cases closed
      rw [opens]
      exact (meetRecall_yields hy stopped).weaken.congr (by rw [reportPath_port]) (by rw [reportPath_port])
        (fun closed => by rwa [path, reportPath_port] at closed)
  · exact y.congr (by rw [openPath_others _ _ hq]) (by rw [openPath_others _ _ hq]) (fun closed => by rwa [path, openPath_others _ _ hq] at closed)

/-- A close request leaves the path OPEN or CLOSED, or makes it CLOSING (R13). -/
theorem requestClose_port {who : Requester} (ht : s.requestClose p who = some t) :
    t = s ∨ ∃ o, t = s.modPort p (fun u => { u with front := { u.front with path := .closing, closeOp := o } }) := by
  unfold requestClose at ht
  split at ht
  · split at ht
    · exact .inr ⟨_, (Option.some.inj ht).symm⟩
    · cases ht
  · exact .inl (Option.some.inj ht).symm
  · exact .inl (Option.some.inj ht).symm

theorem yields_rosterKept (hy : c.yield = .owed) (p : Port) (h : Handle) (l : LinkState) (owed : Prop) :
    RosterKept (fun s => s.Yields p h c l owed) where
  role q r _ y := setRole_eq _ q r ▸ y.modPort q rfl rfl
  opens q y := openPath_yields hy y q
  closes q ht y := by
    rw [setRole_eq]
    refine Yields.modPort ?_ q rfl rfl
    rcases requestClose_port ht with rfl | ⟨o, rfl⟩
    · exact y
    · by_cases hq : p = q
      · subst hq
        refine y.congr ?_ ?_ (fun closed => ?_)
        · rw [port_modPort_self]
          rfl
        · rw [port_modPort_self]
        · rw [path, port_modPort_self] at closed
          cases closed
      · exact y.congr (by rw [port_modPort_ne _ _ _ hq]) (by rw [port_modPort_ne _ _ _ hq])
          (fun closed => by rwa [path, port_modPort_ne _ _ _ hq] at closed)
  part hp _ y := y.congr (by rw [port, hp, port]) (by rw [port, hp, port]) (fun closed => by rwa [path, port, hp] at closed)

theorem yields_turnKept (hy : c.yield = .owed) (h : Handle) (l : LinkState) (owed : Prop) (hq : q ≠ p) :
    TurnKept q (fun s => s.Yields p h c l owed) where
  toStepsKept := (yields_rosterKept hy p h l owed).toStepsKept
  part hp y := y.congr (by rw [port, hp, port]) (by rw [port, hp, port]) (fun closed => by rwa [path, port, hp] at closed)
  edit f _ y := y.congr (by rw [port_modPort_ne _ _ _ (Ne.symm hq)]) (by rw [port_modPort_ne _ _ _ (Ne.symm hq)])
    (fun closed => by rwa [path, port_modPort_ne _ _ _ (Ne.symm hq)] at closed)

/-! ## The port's own turn -/

theorem Remarked.yields (g : Remarked s t p) (y : s.Yields p h c l owed) : t.Yields p h c l owed := by
  have same := g.record
  obtain ⟨ko, b, -, rfl⟩ := g
  refine y.modPort p ?_ rfl
  rw [State.record, port_modPort_self] at same
  have recalled : ko.map (fun k => (k.handle, k.recallPart)) = (s.record p).map (fun k => (k.handle, k.recallPart)) := by
    have read := congrArg (Option.map (fun k : Record => (k.handle, k.recallPart))) same
    rwa [Option.map_map, Option.map_map] at read
  exact congrArg (fun x => (x, (s.port p).link.state, (s.port p).link.slot.yield)) recalled

theorem renewalTest_yields (y : s.Yields p h c l owed) : (s.renewalTest p).Yields p h c l owed := by
  cases hr : s.record p with
  | none => rwa [renewalTest_none hr]
  | some k =>
    have record := renewalTest_record hr
    obtain ⟨ko, b, r, f, -, tested⟩ := Reasked.renewalTest s p
    rw [tested] at record ⊢
    rw [State.record, port_modPort_self] at record
    have recalled : ko.map (fun k => (k.handle, k.recallPart)) = (s.record p).map (fun k => (k.handle, k.recallPart)) := by
      rw [show ko = _ from record, hr]
      split
      · rfl
      · rfl
    refine y.modPort p ?_ rfl
    exact congrArg (fun x => (x, (s.port p).link.state, (s.port p).link.slot.yield)) recalled

theorem enterInForce_yields (hy : c.yield = .owed) (y : s.Yields p h c l owed) : (s.enterInForce p).Yields p h c l owed := by
  cases hr : s.record p with
  | none =>
    have same : s.enterInForce p = s := by simp only [enterInForce, hr]
    rwa [same]
  | some k =>
    have hport : (s.modPort p (entering k)).port p = entering k (s.port p) := port_modPort_self s p _
    have entered : (s.modPort p (entering k)).record p = some { k with state := .inForce } := by
      rw [record, hport]
      rfl
    have same : (s.port p).recalled = some (k.handle, k.recallPart) := PortState.recalled_eq_some.mpr ⟨k, hr, rfl, rfl⟩
    have placed : ((s.modPort p (entering k)).place p).Yields p h c l owed := by
      have port := place_port entered
      rw [hport] at port
      refine y.congr ?_ ?_ (fun closed => ?_)
      · rw [port]
        exact congrArg (fun x => (x, (s.port p).link.state, (s.port p).link.slot.yield)) same.symm
      · rw [port]
        rfl
      · rw [path, port] at closed
        exact closed
    have inserted : ((s.modPort p (entering k)).rosterInsert p).Yields p h c l owed := (yields_rosterKept hy p h l owed).recompute placed
    rw [enterInForce_eq hr]
    generalize (s.modPort p (entering k)).rosterInsert p = v at *
    have checked := Remarked.yields (.trans (.ite (c := v.arrivedAfter p k.bidTick) (.checkRecord v p) (.refl v p)) (.baseTierTest _ p)) inserted
    exact renewalTest_yields (setFlag_eq _ p .granted ▸ checked.modPort p rfl rfl)

theorem settlingTest_yields (hy : c.yield = .owed) (y : s.Yields p h c l owed) : (s.settlingTest p).Yields p h c l owed := by
  unfold settlingTest
  split
  · exact y
  · split
    · exact enterInForce_yields hy y
    · exact y

theorem yieldTest_yields (hy : c.yield = .owed) (y : s.Yields p h c l owed) : (s.yieldTest p).Yields p h c l False := by
  have ceiling : ∃ k c', s.record p = some k ∧ k.recallPart = some c' ∧ c'.ceiling = c.ceiling := by
    rcases y.pending with ⟨-, recalled⟩ | met
    · obtain ⟨k, hk, -, hc⟩ := PortState.recalled_eq_some.mp recalled
      exact ⟨k, c, hk, hc, rfl⟩
    · obtain ⟨k, hk, -, hc⟩ := PortState.recalled_eq_some.mp met.1
      exact ⟨k, _, hk, hc, rfl⟩
  obtain ⟨k, c', hk, hc, hceiling⟩ := ceiling
  rw [yieldTest_open hk hc (hceiling ▸ y.free)]
  exact meetRecall_yields hy y

theorem settlingTest_untransited (g : s.Untransited p) : (s.settlingTest p).Untransited p := by
  unfold settlingTest
  split
  · exact g
  · next k hr =>
    split
    · exact enterInForce_untransited hr (g k hr)
    · exact g

/-- A sample of the port meets the recall (R103). -/
theorem contractSample_yields (hy : c.yield = .owed) (y : s.Yields p h c l owed) (g : s.Untransited p) :
    (s.contractSample p).Yields p h c l False := by
  have calm : ((s.settlingTest p).yieldTest p).Untransited p := (settlingTest_untransited g).worked (yieldTest_worked _ p)
  rw [contractSample, testTransition_untransited calm]
  exact yieldTest_yields hy (settlingTest_yields hy y)

/-- The samples of a tick meet a recall that nothing stands against (R103). -/
theorem contractSamples_yield (hy : c.yield = .owed) (hr : v.record p = some k) (hc : k.recallPart = some c) (hx : k.inTransition = false)
    (hf : v.path p ≠ .closed ∨ (v.port p).front.current ≤ c.ceiling) :
    ((Port.all.foldl contractSample v).port p).Met k.handle c ∧ (Port.all.foldl contractSample v).linkState p = v.linkState p := by
  obtain ⟨l₁, l₂, h₁, h₂, turn⟩ := contractSamples_turn v p
  have owes : v.Yields p k.handle c (v.linkState p) True := ⟨.inl ⟨trivial, PortState.recalled_eq_some.mpr ⟨k, hr, rfl, hc⟩⟩, rfl, hf⟩
  have before := contractSamples_others (I := fun s => s.Yields p k.handle c (v.linkState p) True)
    (fun q hq _ y => (yields_turnKept hy k.handle _ True hq).contractSample y) h₁ owes
  have calm : (l₁.foldl contractSample v).Untransited p := by
    intro k₁ hk₁
    have same := (congrArg (fun x : PortState => x.contract.record) (contractSamples_frame h₁ v).2 :)
    dsimp only [PortState.lasting] at same
    rw [show (v.port p).contract.record = some k from hr] at same
    generalize l₁.foldl contractSample v = u at *
    rw [show (u.port p).contract.record = some k₁ from hk₁] at same
    obtain ⟨-, -, -, hamend, -⟩ := fields_of_lasting (Option.some.inj same)
    rw [Record.inTransition, hamend]
    exact hx
  have after := contractSamples_others (I := fun s => s.Yields p k.handle c (v.linkState p) False)
    (fun q hq _ y => (yields_turnKept hy k.handle _ False hq).contractSample y) h₂ (contractSample_yields hy before calm)
  rw [turn]
  exact ⟨after.pending.resolve_left (fun r => r.1), after.link⟩

/-! ## The sample of a tick -/

theorem sampleTaken_record (w : State) (p : Port) : { w with sampleTaken := true }.record p = w.record p := rfl
theorem sampleTaken_flag (w : State) (p : Port) (f : PortFlag) : { w with sampleTaken := true }.flag p f = w.flag p f := rfl
theorem sampleTaken_roster (w : State) : { w with sampleTaken := true }.roster = w.roster := rfl
theorem sampleTaken_allocator (w : State) : { w with sampleTaken := true }.allocator = w.allocator := rfl

end State

open State

/-- Settles O17: each of the three moves is made at the port's own turn among the contract table's samples, and the turns of the other ports
leave what it reads and what it makes. -/
theorem sampleMovesContract : Obligations.SampleMovesContract := by
  intro s r p k hs hf hr
  have taken := exec_meterSample_taken hs hf r
  have port := blocksSampled_port s r p
  have found : (s.blocksSampled r).record p = some k := (blocksSampled_record s r p).trans hr
  obtain ⟨-, -, -, -, -, time, -⟩ := part_of_around (blocksSampled_around s r)
  rw [takeSamples_eq] at taken
  generalize s.blocksSampled r = v at *
  have voltage : (v.port p).front.voltage = min 2000 (r.get p).voltage := (congrArg (fun u : PortState => u.front.voltage) port :)
  have current : (v.port p).front.current = min 1000 (r.get p).current.toNat := (congrArg (fun u : PortState => u.front.current) port :)
  have rank : (v.port p).rank = (s.port p).rank := (congrArg PortState.rank port :)
  have path : v.path p = s.path p := (congrArg (fun u : PortState => u.front.path) port :)
  have link : v.linkState p = s.linkState p := (congrArg (fun u : PortState => u.link.state) port :)
  have tick : v.tick = s.tick := congrArg tickOf time
  refine ⟨fun hstate hheard hamend hwindow => ?_, fun c hc hy hx hfree => ?_, fun a x hl ha hx hheard hwindow => ?_⟩
  · obtain ⟨⟨k', hk', hterms⟩, hattempts, hholdoff, hgranted, hlisted⟩ :=
      contractSamples_enter found hstate hheard hamend (by rw [voltage]; exact hwindow)
    rw [rank] at hterms
    generalize Port.all.foldl contractSample v = w at *
    exact ⟨_, k', taken, hk', hterms, hattempts, hholdoff, hgranted, hlisted⟩
  · obtain ⟨⟨recalled, waiting⟩, kept⟩ := contractSamples_yield hy found hc hx (by rw [path, current]; exact hfree)
    have state : (Port.all.foldl contractSample v).linkState p = s.linkState p := kept.trans link
    generalize Port.all.foldl contractSample v = w at *
    obtain ⟨k', hk', -, hmet⟩ := PortState.recalled_eq_some.mp recalled
    exact ⟨_, k', taken, hk', hmet, fun usable => waiting (by rw [← linkState, state]; exact (linkUsable_iff _ _).mp usable)⟩
  · obtain ⟨⟨k', hk', hterms, hrenewal⟩, hflag, hburst, hpublished⟩ :=
      contractSamples_amend found hl ha hx hheard (by rw [voltage]; exact hwindow)
    rw [recordAmended_terms_congr rfl tick rank] at hterms
    rw [path, tick] at hpublished
    generalize Port.all.foldl contractSample v = w at *
    exact ⟨_, k', taken, hk', hterms, hrenewal, hflag, hburst, hpublished⟩

end Sys2Proof.Machine
end
